-- ==== Sys2Proof/Word.lean ====
section
/-! DEFINITION. The word types of the two links, and the plain index types of the plant.

Bit vectors stand only where the spec speaks of bytes on a link (12.2, 12.6). Every quantity of the
plant is a whole number (00_scope.md 4.1) and is a `Nat`; a signed account is an `Int`. Things of a
fixed number are numbered from 0 here: vessel V1 is `0 : VesselId`, and so on. -/

namespace Sys2Proof

/-- One byte on the Supervisory Link or the Field Link (R192, R200). -/
abbrev Byte := BitVec 8

/-- The two CHECK bytes of a frame (R192, R200). -/
abbrev Word16 := BitVec 16

/-- V1 to V8. -/
abbrev VesselId := Fin 8

/-- C1 to C4. -/
abbrev CellId := Fin 4

/-- Sump unit addresses 1 to 31. -/
abbrev UnitId := Fin 31

/-- P1 to P6. -/
abbrev PatternId := Fin 6

/-- I1 to I24. -/
abbrev InputId := Fin 24

/-- The 51 outputs of R187, in the order of its table. -/
abbrev OutputId := Fin 51

/-- A time-of-day stamp in seconds since midnight; `none` is a stamp taken while the clock is unset
(00_scope.md 4.1; R133). -/
abbrev Stamp := Option Nat

end Sys2Proof
end

