-- ==== Sys2Proof/Syntax.lean ====
section
/-! DEFINITION. The names, values and items that commands carry, and the commands: one constructor of
`Instr` for each row of spec/opcode_table.json.

An enumerated type lists its values in the order of the owning chapter, since R199 numbers them so. -/

namespace Sys2Proof

/-! ## Names and values -/

/-- Vessel roles (1.1). -/
inductive Role where
  | hold | feed | reuse | quarantine | unused
  deriving DecidableEq, Repr

/-- Inlet states (1.1, R2). `opened` is OPEN. -/
inductive InletState where
  | disabled | blocked | opened
  deriving DecidableEq, Repr

/-- Kinds of a source tag (00_scope.md 4.2). -/
inductive SourceKind where
  | wash | fix | blix | rinse
  deriving DecidableEq, Repr

/-- A valid source tag (00_scope.md 4.2): line 1 to 24 as 0 to 23, kind (`rinse` is FINAL), index 1 to 4
as 0 to 3. -/
structure Tag where
  line  : Fin 24
  kind  : SourceKind
  index : Fin 4
  deriving DecidableEq, Repr

/-- A tag as a record carries it, not yet checked (R84, 12.6): the three bytes line, kind, index. -/
structure RawTag where
  line  : Nat
  kind  : Nat
  index : Nat
  deriving DecidableEq, Repr

/-- Classes of water (00_scope.md 4.2). -/
inductive WaterClass where
  | green | amber | red
  deriving DecidableEq, Repr

/-- Unknown-source policies (R68). -/
inductive UnknownPolicy where
  | route | quarantine | refuse
  deriving DecidableEq, Repr

/-- Drain preferences of a cell (7.1). -/
inductive DrainPref where
  | holdThenQuarantine | quarantineOnly
  deriving DecidableEq, Repr

/-- Laboratory results (R47). -/
inductive LabResult where
  | pass | fail
  deriving DecidableEq, Repr

/-- Terms of an interlock pattern (9.2). -/
inductive Term where
  | ignore | low | high | anyEdge | fall | rise
  deriving DecidableEq, Repr

/-- Modes of an interlock pattern (R156). -/
inductive PatternMode where
  | andMode | anyMode | firstMode
  deriving DecidableEq, Repr

/-- Frame policies (R165). -/
inductive Policy where
  | manual | auto
  deriving DecidableEq, Repr

/-- The outfall probes (R149). -/
inductive Probe where
  | silver | ph
  deriving DecidableEq, Repr

/-- An action set (R165), one flag for each action in the order of R199. -/
structure ActionSet where
  shutOutfall      : Bool := false
  stopIntake       : Bool := false
  quarantineIntake : Bool := false
  stopCells        : Bool := false
  stopMovement     : Bool := false
  stopRegulation   : Bool := false
  lockdown         : Bool := false
  deriving DecidableEq, Repr

/-- The four items of the self-test (R184), each flag set when the item failed. -/
structure SelfTest where
  memory  : Bool := false
  inputs  : Bool := false
  outputs : Bool := false
  clock   : Bool := false
  deriving DecidableEq, Repr

/-- The meters that book movements (2.2). The reuse draw meter has a row of its own. -/
inductive Meter where
  | vesselOutlet (v : VesselId)
  | cellDrain (c : CellId)
  | makeup
  | outfall
  deriving DecidableEq, Repr

/-- The four items of an OFFER (5.3). -/
structure Offer where
  tag    : RawTag
  volume : Nat
  conc   : Nat
  ph     : Nat
  deriving DecidableEq, Repr

/-! ## Items of requests; an absent item is `none` -/

/-- Items of SET VESSEL (R4). -/
structure VesselItems where
  role       : Option Role := none
  capacity   : Option Nat := none
  inlet      : Option InletState := none
  tolerance  : Option Nat := none
  travel     : Option Nat := none
  sealVolume : Option Nat := none
  clearCount : Bool := false
  deriving DecidableEq, Repr

/-- Items of SET MOVEMENT TIMES (R34). -/
structure MovementTimeItems where
  stall         : Option Nat := none
  cellTravel    : Option Nat := none
  outfallTravel : Option Nat := none
  deriving DecidableEq, Repr

/-- Items of SET LOT TIMES (R60). -/
structure LotTimeItems where
  fillAge        : Option Nat := none
  settle         : Option Nat := none
  sampleDuration : Option Nat := none
  sampleVolume   : Option Nat := none
  verdict        : Option Nat := none
  deriving DecidableEq, Repr

/-- Items of SET SOURCE (R73). -/
structure SourceItems where
  unit   : Nat
  pinned : Option WaterClass
  filter : Bool
  bypass : Bool
  deriving DecidableEq, Repr

/-- Items of SET ROUTING (R98). -/
structure RoutingItems where
  amber           : Option Nat := none
  red             : Option Nat := none
  silenceLimit    : Option Nat := none
  transferTimeout : Option Nat := none
  deriving DecidableEq, Repr

/-- Items of SET REGULATION (R101). -/
structure RegulationItems where
  reuseHigh : Option Nat := none
  reuseLow  : Option Nat := none
  reserve   : Option Nat := none
  headroom  : Option Nat := none
  feedHigh  : Option Nat := none
  feedLow   : Option Nat := none
  deriving DecidableEq, Repr

/-- Items of SET CELL (R117). -/
structure CellItems where
  chargeVolume    : Option Nat := none
  endConc         : Option Nat := none
  runLimit        : Option Nat := none
  cathodeCapacity : Option Nat := none
  drainPref       : Option DrainPref := none
  deriving DecidableEq, Repr

/-- A discharge window in minutes since midnight (R135). -/
structure Window where
  start : Nat
  stop  : Nat
  deriving DecidableEq, Repr

/-- Items of SET LIMITS (R138); the pH band carries its two bounds together. -/
structure LimitItems where
  massAllowance   : Option Nat := none
  volumeAllowance : Option Nat := none
  concLimit       : Option Nat := none
  phBand          : Option (Nat × Nat) := none
  floor           : Option Nat := none
  floorEnable     : Option Bool := none
  persistence     : Option Nat := none
  dayBoundary     : Option Nat := none
  deriving DecidableEq, Repr

/-- Items of VERDICT (R47). -/
structure VerdictItems where
  lot    : Nat
  sample : Nat
  conc   : Nat
  ph     : Nat
  result : LabResult
  deriving DecidableEq, Repr

/-- Items of SET PATTERN (R158). -/
structure PatternItems where
  terms : Vector Term 24
  mode  : PatternMode
  latch : Bool
  deriving DecidableEq, Repr

/-- Items of SET FAULT RESPONSE (R166). -/
structure ResponseItems where
  actions : ActionSet
  policy  : Policy
  hold    : Nat
  deriving DecidableEq, Repr

/-- Items of MANUAL OUTPUT (R187): `sets[o]` is `none` for an output outside the mask and its given
value (`true` is OPEN or ON) inside it; `release` is the release item. -/
structure ManualItems where
  sets    : Vector (Option Bool) 51
  release : Bool
  deriving DecidableEq, Repr

/-! ## Requests, in the order of the catalogue 12.5 -/

/-- A request of the host, as 12.5 lists them (KIND 0x01 to 0x36). Numbers that a rule checks against a
range stand as plain numbers. -/
inductive Request where
  | identify
  | status
  | restart
  | enterOperating
  | enterCommissioning
  | manualOutput (items : ManualItems)
  | readInputs
  | setVessel (v : Nat) (items : VesselItems)
  | readVessel (v : Nat)
  | adoptLevel (v : Nat)
  | readAccounts
  | readMovements (clear : Bool)
  | setMovementTimes (items : MovementTimeItems)
  | sealLot (lot : Nat)
  | holdLot (lot : Nat)
  | releaseLot (lot : Nat)
  | rejectLot (lot : Nat)
  | verdict (items : VerdictItems)
  | readLot (number : Nat) (byVessel : Bool)
  | readClosedLots
  | setLotTimes (items : LotTimeItems)
  | setSource (tag : RawTag) (items : SourceItems)
  | removeSource (tag : RawTag)
  | readSourceFirst
  | readSourceNext
  | setAging (period : Nat) (policy : UnknownPolicy)
  | setUnit (address : Nat) (enabled learning : Option Bool)
  | readUnit (address : Nat) (clear : Bool)
  | setRouting (items : RoutingItems)
  | setRegulation (items : RegulationItems)
  | regulationOn
  | regulationOff
  | setCell (c : Nat) (items : CellItems)
  | cellOn (c : Nat)
  | cellOff (c : Nat)
  | harvest (c : Nat)
  | harvestDone (c : Nat) (weighed : Nat)
  | readCell (c : Nat)
  | setWindows (w1 w2 : Option Window)
  | setLimits (items : LimitItems)
  | setClock (time : Nat)
  | readGate
  | setPattern (p : Nat) (items : PatternItems)
  | patternOn (p : Nat)
  | patternOff (p : Nat)
  | alarmTake (p : Nat)
  | alarmClear (p : Nat)
  | readPattern (p : Nat)
  | setFaultResponse (code : Nat) (items : ResponseItems)
  | readFaults
  | resume (depth : Nat)
  | abandon (depth : Nat)
  | lockdown
  | release
  deriving DecidableEq, Repr

/-! ## Commands -/

/-- A command of the block: one constructor for each row of spec/opcode_table.json, in its order of
families. A request row carries its REQUEST NUMBER `n` (R192) and its items. -/
inductive Instr where
  -- general requests (chapter 11)
  | identify (n : Byte)
  | status (n : Byte)
  | restart (n : Byte)
  | enterOperating (n : Byte)
  | enterCommissioning (n : Byte)
  | manualOutput (n : Byte) (items : ManualItems)
  | readInputs (n : Byte)
  -- vessels and books (chapter 1)
  | setVessel (n : Byte) (v : Nat) (items : VesselItems)
  | readVessel (n : Byte) (v : Nat)
  | adoptLevel (n : Byte) (v : Nat)
  | readAccounts (n : Byte)
  -- movements (chapter 2)
  | readMovements (n : Byte) (clear : Bool)
  | setMovementTimes (n : Byte) (items : MovementTimeItems)
  -- lots (chapter 3)
  | sealLot (n : Byte) (lot : Nat)
  | holdLot (n : Byte) (lot : Nat)
  | releaseLot (n : Byte) (lot : Nat)
  | rejectLot (n : Byte) (lot : Nat)
  | verdict (n : Byte) (items : VerdictItems)
  | readLot (n : Byte) (number : Nat) (byVessel : Bool)
  | readClosedLots (n : Byte)
  | setLotTimes (n : Byte) (items : LotTimeItems)
  -- the Source Table (chapter 4)
  | setSource (n : Byte) (tag : RawTag) (items : SourceItems)
  | removeSource (n : Byte) (tag : RawTag)
  | readSourceFirst (n : Byte)
  | readSourceNext (n : Byte)
  | setAging (n : Byte) (period : Nat) (policy : UnknownPolicy)
  -- the Field Link's requests (chapter 5)
  | setUnit (n : Byte) (address : Nat) (enabled learning : Option Bool)
  | readUnit (n : Byte) (address : Nat) (clear : Bool)
  | setRouting (n : Byte) (items : RoutingItems)
  -- regulation (chapter 6)
  | setRegulation (n : Byte) (items : RegulationItems)
  | regulationOn (n : Byte)
  | regulationOff (n : Byte)
  -- cells (chapter 7)
  | setCell (n : Byte) (c : Nat) (items : CellItems)
  | cellOn (n : Byte) (c : Nat)
  | cellOff (n : Byte) (c : Nat)
  | harvest (n : Byte) (c : Nat)
  | harvestDone (n : Byte) (c : Nat) (weighed : Nat)
  | readCell (n : Byte) (c : Nat)
  -- the gate (chapter 8)
  | setWindows (n : Byte) (w1 w2 : Option Window)
  | setLimits (n : Byte) (items : LimitItems)
  | setClock (n : Byte) (time : Nat)
  | readGate (n : Byte)
  -- patterns (chapter 9)
  | setPattern (n : Byte) (p : Nat) (items : PatternItems)
  | patternOn (n : Byte) (p : Nat)
  | patternOff (n : Byte) (p : Nat)
  | alarmTake (n : Byte) (p : Nat)
  | alarmClear (n : Byte) (p : Nat)
  | readPattern (n : Byte) (p : Nat)
  -- faults (chapter 10)
  | setFaultResponse (n : Byte) (code : Nat) (items : ResponseItems)
  | readFaults (n : Byte)
  | resume (n : Byte) (depth : Nat)
  | abandon (n : Byte) (depth : Nat)
  | lockdown (n : Byte)
  | release (n : Byte)
  -- the supervisory line (chapter 12)
  | supervisoryFrameAccepted (bytes : List Byte)
  | receiveGapTimeout
  | transmitComplete
  -- resets (chapter 11)
  | resetAssert
  | coldReset
  | selfTestEnd (failed : SelfTest) (inputs : Vector Bool 24) (cellFaults : Vector Bool 4)
  | restartLine
  -- the Field Link (chapter 5)
  | fieldTurn
  | fieldReplyTimeout
  | fieldAnswerInvalid (bytes : List Byte)
  | unitIdle
  | unitOffer (offer : Offer)
  | unitDone (tag : RawTag) (litres : Nat) (mass : Option Nat)
  | transferTimeout (mv : Nat)
  -- movements (chapter 2)
  | travelElapsed (mv : Nat)
  | meterQuantum (meter : Meter)
  | reuseDrawQuantum
  | stallTimeout (mv : Nat)
  -- levels and lots (chapters 1, 3, 4)
  | levelReading (v : VesselId) (reading : Option Nat)
  | fillAgeExpiry (lot : Nat)
  | settleExpiry (lot : Nat)
  | sampleEnd (lot : Nat)
  | verdictExpiry (lot : Nat)
  | agingExpiry
  -- cells (chapter 7)
  | cellProbeReading (c : CellId) (reading : Option Nat)
  | runLimitExpiry (c : CellId)
  | cellFaultInput (c : CellId) (active : Bool)
  -- clock and outfall (chapter 8)
  | clockTick
  | outfallSilverReading (reading : Option Nat)
  | outfallPhReading (reading : Option Nat)
  | probeSilenceTimeout (probe : Probe)
  | excursionExpiry
  | phPersistenceExpiry
  -- inputs, frames, line ends
  | inputChange (i : InputId) (high : Bool)
  | autoHoldExpiry (depth : Nat)
  | supervisoryFrameDiscarded (bytes : List Byte)
  | restartLineInactive
  deriving DecidableEq, Repr

end Sys2Proof
end

