-- ==== Sys2Proof/WellFormed.lean ====
section
/-! DEFINITION. Commands whose numbers fit the bytes that carry them (R199, R200, 12.6), and the request that a
request row stands for. Ranges that a rule checks are the meanings' own: a number out of its range but within
its bytes is well formed, and is answered BAD VALUE. -/

namespace Sys2Proof

/-! ## Request rows -/

/-- The row of a request with its REQUEST NUMBER. -/
def rowOf (n : Byte) (r : Request) : Instr :=
  match r with
  | .identify => .identify n
  | .status => .status n
  | .restart => .restart n
  | .enterOperating => .enterOperating n
  | .enterCommissioning => .enterCommissioning n
  | .manualOutput items => .manualOutput n items
  | .readInputs => .readInputs n
  | .setVessel v items => .setVessel n v items
  | .readVessel v => .readVessel n v
  | .adoptLevel v => .adoptLevel n v
  | .readAccounts => .readAccounts n
  | .readMovements clear => .readMovements n clear
  | .setMovementTimes items => .setMovementTimes n items
  | .sealLot lot => .sealLot n lot
  | .holdLot lot => .holdLot n lot
  | .releaseLot lot => .releaseLot n lot
  | .rejectLot lot => .rejectLot n lot
  | .verdict items => .verdict n items
  | .readLot number byVessel => .readLot n number byVessel
  | .readClosedLots => .readClosedLots n
  | .setLotTimes items => .setLotTimes n items
  | .setSource tag items => .setSource n tag items
  | .removeSource tag => .removeSource n tag
  | .readSourceFirst => .readSourceFirst n
  | .readSourceNext => .readSourceNext n
  | .setAging period policy => .setAging n period policy
  | .setUnit address enabled learning => .setUnit n address enabled learning
  | .readUnit address clear => .readUnit n address clear
  | .setRouting items => .setRouting n items
  | .setRegulation items => .setRegulation n items
  | .regulationOn => .regulationOn n
  | .regulationOff => .regulationOff n
  | .setCell c items => .setCell n c items
  | .cellOn c => .cellOn n c
  | .cellOff c => .cellOff n c
  | .harvest c => .harvest n c
  | .harvestDone c weighed => .harvestDone n c weighed
  | .readCell c => .readCell n c
  | .setWindows w1 w2 => .setWindows n w1 w2
  | .setLimits items => .setLimits n items
  | .setClock time => .setClock n time
  | .readGate => .readGate n
  | .setPattern p items => .setPattern n p items
  | .patternOn p => .patternOn n p
  | .patternOff p => .patternOff n p
  | .alarmTake p => .alarmTake n p
  | .alarmClear p => .alarmClear n p
  | .readPattern p => .readPattern n p
  | .setFaultResponse code items => .setFaultResponse n code items
  | .readFaults => .readFaults n
  | .resume depth => .resume n depth
  | .abandon depth => .abandon n depth
  | .lockdown => .lockdown n
  | .release => .release n

/-- The request of a request row, with its number; none for an event row. -/
def requestOf (i : Instr) : Option (Byte × Request) :=
  match i with
  | .identify n => some (n, .identify)
  | .status n => some (n, .status)
  | .restart n => some (n, .restart)
  | .enterOperating n => some (n, .enterOperating)
  | .enterCommissioning n => some (n, .enterCommissioning)
  | .manualOutput n items => some (n, .manualOutput items)
  | .readInputs n => some (n, .readInputs)
  | .setVessel n v items => some (n, .setVessel v items)
  | .readVessel n v => some (n, .readVessel v)
  | .adoptLevel n v => some (n, .adoptLevel v)
  | .readAccounts n => some (n, .readAccounts)
  | .readMovements n clear => some (n, .readMovements clear)
  | .setMovementTimes n items => some (n, .setMovementTimes items)
  | .sealLot n lot => some (n, .sealLot lot)
  | .holdLot n lot => some (n, .holdLot lot)
  | .releaseLot n lot => some (n, .releaseLot lot)
  | .rejectLot n lot => some (n, .rejectLot lot)
  | .verdict n items => some (n, .verdict items)
  | .readLot n number byVessel => some (n, .readLot number byVessel)
  | .readClosedLots n => some (n, .readClosedLots)
  | .setLotTimes n items => some (n, .setLotTimes items)
  | .setSource n tag items => some (n, .setSource tag items)
  | .removeSource n tag => some (n, .removeSource tag)
  | .readSourceFirst n => some (n, .readSourceFirst)
  | .readSourceNext n => some (n, .readSourceNext)
  | .setAging n period policy => some (n, .setAging period policy)
  | .setUnit n address enabled learning => some (n, .setUnit address enabled learning)
  | .readUnit n address clear => some (n, .readUnit address clear)
  | .setRouting n items => some (n, .setRouting items)
  | .setRegulation n items => some (n, .setRegulation items)
  | .regulationOn n => some (n, .regulationOn)
  | .regulationOff n => some (n, .regulationOff)
  | .setCell n c items => some (n, .setCell c items)
  | .cellOn n c => some (n, .cellOn c)
  | .cellOff n c => some (n, .cellOff c)
  | .harvest n c => some (n, .harvest c)
  | .harvestDone n c weighed => some (n, .harvestDone c weighed)
  | .readCell n c => some (n, .readCell c)
  | .setWindows n w1 w2 => some (n, .setWindows w1 w2)
  | .setLimits n items => some (n, .setLimits items)
  | .setClock n time => some (n, .setClock time)
  | .readGate n => some (n, .readGate)
  | .setPattern n p items => some (n, .setPattern p items)
  | .patternOn n p => some (n, .patternOn p)
  | .patternOff n p => some (n, .patternOff p)
  | .alarmTake n p => some (n, .alarmTake p)
  | .alarmClear n p => some (n, .alarmClear p)
  | .readPattern n p => some (n, .readPattern p)
  | .setFaultResponse n code items => some (n, .setFaultResponse code items)
  | .readFaults n => some (n, .readFaults)
  | .resume n depth => some (n, .resume depth)
  | .abandon n depth => some (n, .abandon depth)
  | .lockdown n => some (n, .lockdown)
  | .release n => some (n, .release)
  | .supervisoryFrameAccepted _ | .receiveGapTimeout | .transmitComplete | .resetAssert | .coldReset
  | .selfTestEnd _ _ _ | .restartLine | .fieldTurn | .fieldReplyTimeout | .fieldAnswerInvalid _ | .unitIdle
  | .unitOffer _ | .unitDone _ _ _ | .transferTimeout _ | .travelElapsed _ | .meterQuantum _ | .reuseDrawQuantum
  | .stallTimeout _ | .levelReading _ _ | .fillAgeExpiry _ | .settleExpiry _ | .sampleEnd _ | .verdictExpiry _
  | .agingExpiry | .cellProbeReading _ _ | .runLimitExpiry _ | .cellFaultInput _ _ | .clockTick
  | .outfallSilverReading _ | .outfallPhReading _ | .probeSilenceTimeout _ | .excursionExpiry
  | .phPersistenceExpiry | .inputChange _ _ | .autoHoldExpiry _ | .supervisoryFrameDiscarded _
  | .restartLineInactive => none

/-! ## Numbers that fit their bytes -/

/-- A number fits `k` bytes. -/
def fits (k n : Nat) : Bool := decide (n < 256 ^ k)

/-- An optional number fits `k` bytes. -/
def optFits (k : Nat) (x : Option Nat) : Bool :=
  match x with
  | none => true
  | some n => fits k n

/-- A tag's three bytes. -/
def tagFits (t : RawTag) : Bool := fits 1 t.line && fits 1 t.kind && fits 1 t.index

/-- An optional pair of numbers of `k` bytes each. -/
def pairFits (k : Nat) (x : Option (Nat × Nat)) : Bool :=
  match x with
  | none => true
  | some p => fits k p.1 && fits k p.2

/-- An optional window. -/
def windowFits (w : Option Window) : Bool := pairFits 2 (w.map (fun x => (x.start, x.stop)))

/-- The numbers of a SET VESSEL. -/
def vesselFits (i : VesselItems) : Bool :=
  optFits 2 i.capacity && optFits 2 i.tolerance && optFits 1 i.travel && optFits 2 i.sealVolume

/-- The numbers of a SET LOT TIMES. -/
def lotTimesFit (i : LotTimeItems) : Bool :=
  optFits 3 i.fillAge && optFits 2 i.settle && optFits 2 i.sampleDuration && optFits 1 i.sampleVolume &&
    optFits 3 i.verdict

/-- The numbers of a SET REGULATION. -/
def regulationFits (i : RegulationItems) : Bool :=
  optFits 1 i.reuseHigh && optFits 1 i.reuseLow && optFits 2 i.reserve && optFits 2 i.headroom &&
    optFits 1 i.feedHigh && optFits 1 i.feedLow

/-- The numbers of a SET CELL. -/
def cellFits (i : CellItems) : Bool :=
  optFits 2 i.chargeVolume && optFits 2 i.endConc && optFits 3 i.runLimit && optFits 4 i.cathodeCapacity

/-- The numbers of a SET LIMITS. -/
def limitsFit (i : LimitItems) : Bool :=
  optFits 4 i.massAllowance && optFits 3 i.volumeAllowance && optFits 2 i.concLimit && pairFits 1 i.phBand &&
    optFits 4 i.floor && optFits 1 i.persistence && optFits 2 i.dayBoundary

/-- The numbers of a request fit their bytes. -/
def requestFits (r : Request) : Bool :=
  match r with
  | .identify | .status | .restart | .enterOperating | .enterCommissioning | .readInputs | .readAccounts
  | .readClosedLots | .readSourceFirst | .readSourceNext | .regulationOn | .regulationOff | .readGate
  | .readFaults | .lockdown | .release => true
  | .manualOutput _ | .readMovements _ => true
  | .setVessel v i => fits 1 v && vesselFits i
  | .readVessel n | .adoptLevel n | .cellOn n | .cellOff n | .harvest n | .readCell n | .patternOn n
  | .patternOff n | .alarmTake n | .alarmClear n | .readPattern n | .resume n | .abandon n => fits 1 n
  | .setMovementTimes i => optFits 2 i.stall && optFits 1 i.cellTravel && optFits 1 i.outfallTravel
  | .sealLot n | .holdLot n | .releaseLot n | .rejectLot n => fits 2 n
  | .verdict i => fits 2 i.lot && fits 1 i.sample && fits 2 i.conc && fits 1 i.ph
  | .readLot n _ => fits 2 n
  | .setLotTimes i => lotTimesFit i
  | .setSource t i => tagFits t && fits 1 i.unit
  | .removeSource t => tagFits t
  | .setAging period _ => fits 1 period
  | .setUnit n _ _ => fits 1 n
  | .readUnit n _ => fits 1 n
  | .setRouting i => optFits 2 i.amber && optFits 2 i.red && optFits 1 i.silenceLimit && optFits 2 i.transferTimeout
  | .setRegulation i => regulationFits i
  | .setCell c i => fits 1 c && cellFits i
  | .harvestDone c w => fits 1 c && fits 4 w
  | .setWindows w1 w2 => windowFits w1 && windowFits w2
  | .setLimits i => limitsFit i
  | .setClock t => fits 3 t
  | .setPattern p _ => fits 1 p
  | .setFaultResponse code i => fits 1 code && fits 2 i.hold

/-- An OFFER's numbers fit their bytes. -/
def offerFits (o : Offer) : Bool := tagFits o.tag && fits 2 o.volume && fits 2 o.conc && fits 1 o.ph

/-- A movement or lot number, 1 to 65 535. -/
def isNumber (n : Nat) : Bool := decide (1 ≤ n ∧ n ≤ 65535)

/-- A command whose numbers fit what carries them. -/
def wellFormed (i : Instr) : Bool :=
  match requestOf i with
  | some x => requestFits x.2
  | none =>
    match i with
    | .unitOffer o => offerFits o
    | .unitDone t l m => tagFits t && fits 2 l && optFits 4 m
    | .transferTimeout n | .travelElapsed n | .stallTimeout n | .fillAgeExpiry n | .settleExpiry n | .sampleEnd n
    | .verdictExpiry n => isNumber n
    | .autoHoldExpiry d => decide (1 ≤ d ∧ d ≤ 6)
    | _ => true

end Sys2Proof
end

