-- ==== Sys2Proof/Decode.lean ====
section
/-! DEFINITION. The command that a word spells by the bits of spec/opcode_table.json. No row of the table gives
bits, so no word spells a command; the byte form of every record is Sys2Proof/Machine/Codec.lean. -/

namespace Sys2Proof

/-- The command of a word of `nbits` bits: none, as no row gives bits. -/
def decodeTableWord (_nbits _w : Nat) : Option Instr := none

end Sys2Proof
end

