-- ==== Sys2Proof/Config.lean ====
section
/-! DEFINITION. What the spec leaves to the implementation, and the values it does not state.

Each is an opaque constant: no proof can learn its value. -/

namespace Sys2Proof.Config

/-- The hardware revision letter, A to Z as 0 to 25 (R186: "the hardware revision letter, A to Z").
The spec does not say which letter; log 12. -/
opaque hardwareRevision : Fin 26

/-- The value read back from an output by READ INPUTS (R186), for the n-th such reply. The spec gives
the reply this item and states no value for it; log 13. -/
opaque readBack : Nat → OutputId → Bool

end Sys2Proof.Config
end

