-- ==== Sys2Proof/Machine/State.lean ====
section
/-! DEFINITION. The state of the EW-40, block by block (00_scope.md 2.1), and its value after cold reset.

`State.books` holds every booked figure and account, `State.part` every other register, table and
queue of the twelve blocks, `State.pending` the commands that wait. What changes only with a booking is
thus kept apart from everything else, and a function on `Part` cannot change a booked figure. -/

namespace Sys2Proof.Machine

/-! ## How a step can stop -/

/-- Reasons of a stop with a fault: none. A fault of the spec is a frame on the Fault Stack, which is
state, and the machine goes on (R164). -/
inductive Fault where
  deriving DecidableEq, Repr

/-- Reasons of a refusal by the model. A refusal of the spec (WRONG MODE, BAD VALUE and so on) is a
reply, which is state (R195). -/
inductive Refusal where
  /-- Raised by an arm of `exec` that has no meaning yet; no arm is left so. Safe: nothing is proved of
  a command that is not modelled. -/
  | notModelled (mnemonic : String)
  deriving DecidableEq, Repr

/-! ## Books (chapter 1) -/

/-- A holder of volume and mass, in L and mg (R6). -/
structure Holding where
  volume : Nat := 0
  mass   : Nat := 0
  deriving DecidableEq, Repr

/-- The plant accounts of R15. -/
structure Accounts where
  admittedVolume    : Nat := 0
  admittedMass      : Nat := 0
  makeupVolume      : Nat := 0
  volumeCorrections : Int := 0
  massCorrections   : Int := 0
  dischargedVolume  : Nat := 0
  dischargedMass    : Nat := 0
  reusedVolume      : Nat := 0
  reusedMass        : Nat := 0
  sampledVolume     : Nat := 0
  sampledMass       : Nat := 0
  harvestedMass     : Nat := 0
  deriving DecidableEq, Repr

/-- Every holder and every account (R6): the eight vessels, the four cell liquors, the four cathodes
(mass only) and the accounts. -/
structure Books where
  vessels  : Vector Holding 8
  liquors  : Vector Holding 4
  cathodes : Vector Nat 4
  acc      : Accounts
  deriving DecidableEq, Repr

/-! ## Vessel records (1.1) -/

/-- A vessel record less its booked figures, which are in `Books`. -/
structure VesselRec where
  role       : Role := .unused
  capacity   : Option Nat := none
  inlet      : InletState := .disabled
  regBlock   : Bool := false
  tolerance  : Nat := 200
  travel     : Nat := 8
  sealVolume : Option Nat := none
  lastLevel  : Option Nat := none
  adopted    : Bool := false
  stray      : Nat := 0
  deriving DecidableEq, Repr

/-! ## Movements (chapter 2) -/

/-- Kinds of movement (2.1). -/
inductive MoveKind where
  | slug | spill | fill | ret | charge | drain | discharge
  deriving DecidableEq, Repr

/-- Ports, in the order of the last line of 12.6; `mains` is MAKEUP, which is no port (2.2). -/
inductive Port where
  | vesselInlet (v : VesselId)
  | vesselOutlet (v : VesselId)
  | cellInlet (c : CellId)
  | cellOutlet (c : CellId)
  | makeupEntry
  | outfall
  | sumpUnit (u : UnitId)
  | mains
  deriving DecidableEq, Repr

/-- Phases of a movement (2.4). -/
inductive Phase where
  | opening | ready | running | stopping
  deriving DecidableEq, Repr

/-- The particulars of a SLUG (2.1). -/
structure SlugParticulars where
  unit      : UnitId
  tag       : Tag
  cls       : WaterClass
  conc      : Nat
  levelAtGo : Option Nat
  deriving DecidableEq, Repr

/-- An entry of the Movement Table (2.1), with its elapsed-time measures (R18): `travelLeft` of OPENING,
`quiet` since the last progress, `timeoutLeft` of the transfer timeout once GO is delivered. -/
structure Movement where
  number       : Nat
  kind         : MoveKind
  source       : Port
  dest         : Port
  requested    : Nat
  movedLitres  : Nat
  movedMass    : Nat
  phase        : Phase
  started      : Stamp
  lastProgress : Stamp
  lot          : Option Nat
  travel       : Nat
  slug         : Option SlugParticulars
  travelLeft   : Nat
  quiet        : Nat
  timeoutLeft  : Option Nat
  deriving DecidableEq, Repr

/-- Owners that can stand in the waiting list (R21). -/
inductive WaitOwner where
  | spill | fill | returnEngine | charge (c : CellId) | drain (c : CellId) | discharge
  deriving DecidableEq, Repr

/-- A place in the waiting list: the owner and the ports it asked for, where it has asked. -/
structure WaitPlace where
  owner : WaitOwner
  ports : Option (Port × Port)
  deriving DecidableEq, Repr

/-- Reasons for which an owner waits: those of the Movement Unit's refusals (R21) and those of the
owners' own rules (R104, R109, R112, R120, R121, R125). -/
inductive WaitReason where
  | mode | sourceBusy | sourceEmpty | destinationBusy | tableFull
  | sealPending | noVessel | noSpace | disabled | inletBusy | stopped | held | feedFull | tooSmall
  | floor | cut | stall
  deriving DecidableEq, Repr

/-- A need of the Regulation and Return Unit (R100) or the step of a cell (7.1). -/
inductive Need where
  | idle
  | running (mv : Nat)
  | waiting (r : WaitReason)
  deriving DecidableEq, Repr

/-- The seven stray counts of READ MOVEMENTS (R27, R33). -/
structure StrayCounts where
  cellDrain : Vector Nat 4 := Vector.replicate 4 0
  makeup    : Nat := 0
  outfall   : Nat := 0
  draw      : Nat := 0
  deriving DecidableEq, Repr

/-- The Movement Unit. `ending` is a movement that has left the table and has not yet ended, its ports still occupied (the
model's own field, empty between commands, log 74). -/
structure MovementUnit where
  entries       : List Movement := []
  nextNumber    : Nat := 1
  waiting       : List WaitPlace := []
  strays        : StrayCounts := {}
  stallTime     : Nat := 120
  cellTravel    : Nat := 5
  outfallTravel : Nat := 12
  ending        : Option Movement := none
  deriving DecidableEq, Repr

/-! ## Lots (chapter 3) -/

/-- Lot states (3.1). -/
inductive LotState where
  | filling | settling | sampling | awaitingVerdict | cleared | discharging | suspended | rejected
  | returning
  deriving DecidableEq, Repr

/-- What made a lot due to seal (R42). -/
inductive SealReason where
  | sealVolume | fillAge | host
  deriving DecidableEq, Repr

/-- Reject reasons (3.1). -/
inductive RejectReason where
  | lab | limit | noVerdict | host | abandoned
  deriving DecidableEq, Repr

/-- End kinds of a closed lot (R52). -/
inductive EndKind where
  | discharged | returned | split | emptied
  deriving DecidableEq, Repr

/-- Reasons of a LOT STATE notice (3.4). -/
inductive LotReason where
  | opened | adopted | sealVolume | fillAge | host | emptied | sealWithdrawn | settled | sampled | pass
  | lab | limit | resample | noVerdict | dischargeStart | pause | cut | fault | resumed | abandoned
  | returnStart | returnEnd | discharged | returned | split | restart
  deriving DecidableEq, Repr

/-- Sources of a contribution (R40), in the order of 12.6. -/
inductive ContribSource where
  | tag (t : Tag)
  | vessel (v : VesselId)
  | cell (c : CellId)
  | adopted
  | other
  deriving DecidableEq, Repr

/-- One entry of a lot's contributions list (R40). -/
structure Contribution where
  source : ContribSource
  litres : Nat
  mg     : Nat
  deriving DecidableEq, Repr

/-- A lot record (3.1). Volume and mass are read from the vessel. `sealPending` keeps the event that made
the lot due; `timer` is the remaining time of the state's timer (R39). -/
structure Lot where
  number           : Nat
  vessel           : VesselId
  state            : LotState
  opened           : Stamp
  sealed           : Option Stamp := none
  cleared          : Option Stamp := none
  volumeAtSeal     : Option Nat := none
  massAtSeal       : Option Nat := none
  contributions    : List Contribution := []
  sampleNumber     : Nat := 0
  measuredConc     : Option Nat := none
  measuredPh       : Option Nat := none
  verdict          : Option LabResult := none
  rejectReason     : Option RejectReason := none
  clearanceNo      : Option Nat := none
  rejectionNo      : Option Nat := none
  held             : Bool := false
  sealPending      : Option SealReason := none
  bindingFrame     : Option Nat := none
  dischargedVolume : Nat := 0
  dischargedMass   : Nat := 0
  returnedVolume   : Nat := 0
  returnedMass     : Nat := 0
  timer            : Option Nat := none
  deriving DecidableEq, Repr

/-- A record of the Closed Lot List (R52). -/
structure ClosedLot where
  number           : Nat
  vessel           : VesselId
  opened           : Stamp
  sealed           : Option Stamp
  closed           : Stamp
  volumeAtSeal     : Option Nat
  massAtSeal       : Option Nat
  measuredConc     : Option Nat
  samples          : Nat
  dischargedVolume : Nat
  dischargedMass   : Nat
  returnedVolume   : Nat
  returnedMass     : Nat
  endKind          : EndKind
  deriving DecidableEq, Repr

/-- The settings of R60. -/
structure LotTimes where
  fillAge        : Nat := 14400
  settle         : Nat := 900
  sampleDuration : Nat := 30
  sampleVolume   : Nat := 2
  verdict        : Nat := 14400
  deriving DecidableEq, Repr

/-- The Lot Unit (R35). -/
structure LotUnit where
  lots          : List Lot := []
  closed        : List ClosedLot := []
  nextLot       : Nat := 1
  nextClearance : Nat := 1
  nextRejection : Nat := 1
  times         : LotTimes := {}
  deriving DecidableEq, Repr

/-! ## Source Table (chapter 4) -/

/-- The origin of an entry with the fields that only that origin has (R61): a LEARNED entry has its age
mark, a STATIC entry its pinned class, filter and bypass. -/
inductive Origin where
  | learned (ageMark : Bool)
  | static (pinned : Option WaterClass) (filter bypass : Bool)
  deriving DecidableEq, Repr

/-- An entry of the Source Table (4.1). -/
structure SourceEntry where
  tag      : Tag
  unit     : UnitId
  origin   : Origin
  cls      : Option WaterClass := none
  lastConc : Option Nat := none
  slugs    : Nat := 0
  litres   : Nat := 0
  mg       : Nat := 0
  deriving DecidableEq, Repr

/-- The Source Table (R61), its entries in tag order. -/
structure SourceTable where
  entries      : List SourceEntry := []
  agingPeriod  : Nat := 30
  policy       : UnknownPolicy := .route
  agingLeft    : Nat := 1800
  cursor       : Option Tag := none
  fullReported : Bool := false
  deriving DecidableEq, Repr

/-! ## Field Link (chapter 5) -/

/-- Presence of a unit (5.1). -/
inductive Presence where
  | unknown | present | silent
  deriving DecidableEq, Repr

/-- The message to be sent at a unit's next turn (R79); STOP keeps the number of the slug it stops (R91). -/
inductive Outbound where
  | stop (mv : Nat)
  | go
  deriving DecidableEq, Repr

/-- Reasons of a WAIT or REFUSE, in the order of R82's table. -/
inductive DecisionReason where
  | mode | oneAtATime | badOffer | unitMismatch | unknownSource | stopped | tooLarge | noRoute | blocked
  | inletBusy | noSpace | tableFull
  deriving DecidableEq, Repr

/-- A routing decision (R82). -/
inductive Decision where
  | routed (v : VesselId) (volume mv : Nat)
  | wait (r : DecisionReason)
  | refuse (r : DecisionReason)
  deriving DecidableEq, Repr

/-- A unit record (5.1). -/
structure UnitRec where
  enabled      : Bool := false
  learning     : Bool := true
  presence     : Presence := .unknown
  missed       : Nat := 0
  slug         : Option Nat := none
  outbound     : Option Outbound := none
  late         : Nat := 0
  lastOffer    : Option Offer := none
  lastDecision : Option Decision := none
  deriving DecidableEq, Repr

/-- Records from the part to a unit (R200). -/
inductive FieldMessage where
  | poll
  | go (mv volume : Nat)
  | stop (mv : Nat)
  | decision (d : Decision)
  deriving DecidableEq, Repr

/-- Answers of a unit (R200). -/
inductive FieldAnswer where
  | idle
  | offer (o : Offer)
  | done (tag : RawTag) (litres : Nat) (mass : Option Nat)
  deriving DecidableEq, Repr

/-- The open turn: the polled unit and the record it has to answer (R80, R82). -/
structure Turn where
  unit : UnitId
  sent : FieldMessage
  deriving DecidableEq, Repr

/-- The settings of R98. -/
structure RoutingSettings where
  amber           : Nat := 40
  red             : Nat := 800
  silenceLimit    : Nat := 5
  transferTimeout : Nat := 900
  deriving DecidableEq, Repr

/-- The Field Link Unit. `lastTurn` is the address that had the last turn (R79); `sent` is the record put
on the line by the last step (the model's own output field, log 29). -/
structure FieldUnit where
  units    : Vector UnitRec 31
  lastTurn : Option UnitId := none
  turn     : Option Turn := none
  settings : RoutingSettings := {}
  sent     : Option (UnitId × FieldMessage) := none
  deriving DecidableEq, Repr

/-! ## Regulation and returns (chapter 6) -/

/-- The settings of 6.1 other than the switch. -/
structure Marks where
  reuseHigh : Nat := 6
  reuseLow  : Nat := 2
  reserve   : Nat := 0
  headroom  : Nat := 0
  feedHigh  : Nat := 6
  feedLow   : Nat := 2
  deriving DecidableEq, Repr

/-- A source of the return engine (R111). -/
inductive ReturnSource where
  | lot (n : Nat)
  | quarantine
  deriving DecidableEq, Repr

/-- The Regulation and Return Unit (R100). -/
structure RegUnit where
  marks        : Marks := {}
  switchOn     : Bool := false
  supplyOpen   : Bool := false
  spill        : Need := .idle
  fill         : Need := .idle
  ret          : Need := .idle
  returnSource : Option ReturnSource := none
  deriving DecidableEq, Repr

/-! ## Cells (chapter 7) -/

/-- Cell states (7.2). -/
inductive CellState where
  | offline | idle | charging | plating | draining | harvest
  deriving DecidableEq, Repr

/-- Reasons of a CELL STATE notice (7.2). -/
inductive CellReason where
  | host | grant | charged | abandoned | endConcentration | runLimit | cathodeFull | drained | harvested
  deriving DecidableEq, Repr

/-- A cell record (7.1) less its liquor and cathode, which are in `Books`, and its holding frames, which
are read from the Fault Stack (`holdingFrames`). -/
structure CellRec where
  chargeVolume    : Option Nat := none
  endConc         : Nat := 20
  runLimit        : Option Nat := none
  cathodeCapacity : Option Nat := none
  drainPref       : DrainPref := .holdThenQuarantine
  state           : CellState := .offline
  lastProbe       : Option Nat := none
  rectifier       : Bool := false
  paused          : Bool := false
  runTimer        : Option Nat := none
  harvestRequired : Bool := false
  step            : Need := .idle
  faultInput      : Bool := false
  deriving DecidableEq, Repr

/-- Outcomes of the feed-outlet arbiter (R132). -/
inductive ArbOutcome where
  | granted | floor | outletBusy | stopped | mode | none
  deriving DecidableEq, Repr

/-- The Cell Unit with its arbiter (R119). -/
structure CellUnit where
  cells   : Vector CellRec 4
  outcome : Option ArbOutcome := .none
  chosen  : Option CellId := .none
  deriving DecidableEq, Repr

/-! ## Discharge Gate (chapter 8) -/

/-- Gate states (8.5). -/
inductive GateState where
  | shut | barred | open_ | running
  deriving DecidableEq, Repr

/-- Reasons of a GATE notice (R140). -/
inductive GateReason where
  | mode | clock | windowOpen | windowEnd | shutOutfall | dischargeStart | dischargeEnd
  deriving DecidableEq, Repr

/-- Outcomes of a selection (R144, R152). -/
inductive SelOutcome where
  | started | noFit | noLot | probe | held
  | refused (r : WaitReason)
  deriving DecidableEq, Repr

/-- The limits of R137. -/
structure Limits where
  massAllowance   : Option Nat := none
  volumeAllowance : Option Nat := none
  concLimit       : Option Nat := none
  phBand          : Option (Nat × Nat) := none
  floor           : Nat := 0
  floorEnable     : Bool := false
  persistence     : Nat := 15
  dayBoundary     : Nat := 0
  deriving DecidableEq, Repr

/-- The Discharge Gate. `silverQuiet` and `phQuiet` count the seconds since a probe's last reading (R149). -/
structure Gate where
  clock       : Stamp := none
  w1          : Window := ⟨0, 0⟩
  w2          : Window := ⟨0, 0⟩
  limits      : Limits := {}
  todayVolume : Nat := 0
  todayMass   : Nat := 0
  state       : GateState := .shut
  queue       : List (Nat × Nat) := []
  outcome     : Option SelOutcome := none
  silver      : Option Nat := none
  ph          : Option Nat := none
  silverTimer : Option Nat := none
  phTimer     : Option Nat := none
  silverQuiet : Nat := 0
  phQuiet     : Nat := 0
  deriving DecidableEq, Repr

/-! ## Patterns (chapter 9) -/

/-- Pattern states (9.2). -/
inductive PatternState where
  | armed | pending | taken
  deriving DecidableEq, Repr

/-- A pattern record (9.2). -/
structure PatternRec where
  terms     : Vector Term 24 := Vector.replicate 24 .ignore
  mode      : PatternMode := .andMode
  latch     : Bool := false
  enabled   : Bool := false
  state     : PatternState := .armed
  overrun   : Bool := false
  matched   : Option InputId := none
  matchTime : Option Stamp := none
  snapshot  : Option (Vector Bool 24) := none
  deriving DecidableEq, Repr

/-- The Pattern Unit: recorded input states (`true` is HIGH) and the six patterns. -/
structure PatternUnit where
  inputs   : Vector Bool 24
  patterns : Vector PatternRec 6
  deriving DecidableEq, Repr

/-! ## Faults (chapter 10) -/

/-- Fault types (R164). -/
inductive FaultType where
  | levelMismatch | flowStall | outfallExcursion | outfallPh | allowanceFloor | vesselOverflow | cellFault
  | slugTimeout | probeFailure | unitSilent
  | interlock (p : PatternId)
  deriving DecidableEq, Repr

/-- Subjects of faults (R164), in the order of 12.6. -/
inductive Subject where
  | vessel (v : VesselId)
  | movement (mv : Nat)
  | discharge (mv lot : Nat)
  | cell (c : CellId)
  | unit (u : UnitId)
  | probe (p : Probe)
  | pattern (p : PatternId)
  deriving DecidableEq, Repr

/-- A response of the Fault Table (R165). -/
structure Response where
  actions : ActionSet := {}
  policy  : Policy := .manual
  hold    : Nat := 60
  loaded  : Bool := false
  deriving DecidableEq, Repr

/-- Condition of a frame (10.3). -/
inductive Condition where
  | present | cleared
  deriving DecidableEq, Repr

/-- A frame of the Fault Stack (10.3); its depth is its place in the stack. -/
structure Frame where
  ftype       : FaultType
  time        : Stamp
  subject     : Subject
  interrupted : Option Movement
  lot         : Option Nat := none
  actions     : ActionSet
  policy      : Policy
  hold        : Option Nat
  condition   : Condition
  clearedTime : Option Stamp
  holdLeft    : Option Nat
  deriving DecidableEq, Repr

/-- The last-fault record (R180); `depth` is absent when the raise was not stacked. -/
structure LastFault where
  ftype   : FaultType
  subject : Subject
  time    : Stamp
  depth   : Option Nat
  deriving DecidableEq, Repr

/-- Ways of a pop (R176). -/
inductive PopWay where
  | resume | abandon | auto
  deriving DecidableEq, Repr

/-- The Fault Unit. `table` is indexed by code less 1; `stack` runs from depth 1 upward. `leaving` are the actions of
a frame whose pop is being made, in force until step 3 of R176 (the model's own field, empty between commands, log 60). -/
structure FaultUnit where
  table   : Vector Response 16
  stack   : List Frame := []
  last    : Option LastFault := none
  leaving : ActionSet := {}
  deriving DecidableEq, Repr

/-! ## Mode Control (chapter 11) -/

/-- Controller modes (R182). -/
inductive Mode where
  | starting | failed | commissioning | operating | lockdown
  deriving DecidableEq, Repr

/-- Kinds of start (R182). -/
inductive StartKind where
  | cold | warm
  deriving DecidableEq, Repr

/-- Causes of a MODE notice (R182). -/
inductive ModeCause where
  | host | restart
  deriving DecidableEq, Repr

/-- Causes of an entry to LOCKDOWN (R177), with the frame for ACTION. -/
inductive LockdownCause where
  | action (depth : Nat) (ftype : FaultType)
  | fullStack
  | host
  deriving DecidableEq, Repr

/-- Mode Control. `manual[o]` is the manual value of output `o` while its manual flag is set (R187);
`restartLine` is the RESTART line as last seen, `true` active (R190); `readBacks` numbers the free
read-back values (log 13). -/
structure Control where
  mode        : Mode := .starting
  resetHeld   : Bool := false
  lastStart   : StartKind := .cold
  selfTest    : SelfTest := {}
  manual      : Vector (Option Bool) 51
  restartLine : Bool := false
  readBacks   : Nat := 0
  deriving DecidableEq, Repr

/-! ## Notices (R198) -/

/-- Notices with the items their rules name. A LOT STATE of `none` is CLOSED (R35). DAY END has a time of day always: the day
rolls with the clock set (R139). -/
inductive NoticeBody where
  | start (kind : StartKind) (selfTest : SelfTest) (mode : Mode)
  | mode (old new : Mode) (cause : ModeCause)
  | lockdown (cause : LockdownCause)
  | released
  | fault (depth : Nat) (ftype : FaultType) (subject : Subject) (actions : ActionSet) (policy : Policy)
      (time : Stamp)
  | faultNotStacked (ftype : FaultType) (subject : Subject) (time : Stamp)
  | faultPopped (depth : Nat) (ftype : FaultType) (subject : Subject) (way : PopWay)
  | lotState (lot : Nat) (state : Option LotState) (reason : LotReason)
  | sampleReady (lot sample : Nat)
  | sourceLearned (tag : Tag) (unit : UnitId) (cls : WaterClass)
  | classChange (tag : Tag) (old new : WaterClass)
  | migrated (tag : Tag) (old new : UnitId)
  | tableFull (tag : Tag) (unit : UnitId)
  | sourceAged (tag : Tag) (unit : UnitId) (slugs litres mg : Nat)
  | unitSilent (unit : UnitId) (mv : Option Nat)
  | unitPresent (unit : UnitId)
  | overDelivery (unit : UnitId) (tag : Tag) (v : VesselId) (granted delivered : Nat)
  | overflow (v : VesselId) (set : Bool) (b : Nat)
  | reserveLow (reopened : Bool) (b : Nat)
  | regulationOff
  | cellState (c : CellId) (state : CellState) (reason : CellReason)
  | harvestNeeded (c : CellId) (load : Nat)
  | incompleteRun (c : CellId) (lastProbe : Option Nat) (volume mass : Nat)
  | gate (old new : GateState) (reason : GateReason) (lot : Option Nat)
  | dayEnd (volume mass : Nat) (massAllowance volumeAllowance : Option Nat) (time : Nat)
  | patternMatch (p : PatternId) (matched : Option InputId) (time : Stamp) (snapshot : Option (Vector Bool 24))
  deriving DecidableEq, Repr

/-- A notice in the Notice Queue (R197, R198). -/
structure Notice where
  lostBefore : Bool
  time       : Stamp
  body       : NoticeBody
  deriving DecidableEq, Repr

/-! ## Replies (R195) -/

/-- Reply statuses, by code (R195). -/
inductive Status where
  | ok | started | busy | wrongMode | badValue | noSuch | wrongState | full | late | notTop | end_ | unknown
  deriving DecidableEq, Repr

/-- STATUS (R186). -/
structure StatusReport where
  mode           : Mode
  lastStart      : StartKind
  selfTest       : SelfTest
  clock          : Stamp
  stackHeight    : Nat
  top            : Option (FaultType × Condition)
  actions        : ActionSet
  pendingPattern : Option (PatternId × Option InputId)
  gate           : GateState
  notices        : Nat
  lost           : Bool
  deriving DecidableEq, Repr

/-- The missing items of ENTER OPERATING (R188). -/
structure MissingReport where
  clock        : Bool
  roles        : Bool
  adoption     : Bool
  responses    : Bool
  limits       : Bool
  units        : Bool
  stack        : Bool
  notAdopted   : List VesselId
  notLoaded    : List Nat
  deriving DecidableEq, Repr

/-- One output in READ INPUTS (R186). -/
structure OutputReport where
  commanded : Bool
  readBack  : Bool
  manual    : Bool
  deriving DecidableEq, Repr

/-- READ VESSEL (R5). -/
structure VesselReport where
  record     : VesselRec
  holding    : Holding
  lot        : Option Nat
  inletMove  : Option Nat
  outletMove : Option Nat
  mismatch   : Bool
  deriving DecidableEq, Repr

/-- READ ACCOUNTS (R17). -/
structure AccountsReport where
  accounts     : Accounts
  holderVolume : Nat
  vesselMass   : Nat
  liquorMass   : Nat
  cathodeMass  : Nat
  deriving DecidableEq, Repr

/-- READ MOVEMENTS (R33). -/
structure MovementsReport where
  entries    : List Movement
  free       : Nat
  nextNumber : Nat
  waiting    : List WaitPlace
  strays     : StrayCounts
  deriving DecidableEq, Repr

/-- READ LOT (R57): the timer is its remaining time and whether it is paused. -/
structure LotReport where
  lot     : Lot
  holding : Holding
  timer   : Option (Nat × Bool)
  queued  : Bool
  deriving DecidableEq, Repr

/-- The items every READ SOURCE reply carries (R75). -/
structure SourceSummary where
  entries      : Nat
  learned      : Nat
  statics      : Nat
  agingPeriod  : Nat
  agingLeft    : Nat
  agingPaused  : Bool
  policy       : UnknownPolicy
  fullReported : Bool
  deriving DecidableEq, Repr

/-- The slug in flight in READ UNIT (R99). -/
structure SlugReport where
  phase       : Phase
  vessel      : Option VesselId
  granted     : Nat
  lot         : Option Nat
  timeoutLeft : Option Nat
  deriving DecidableEq, Repr

/-- READ UNIT (R99). -/
structure UnitReport where
  record   : UnitRec
  slug     : Option SlugReport
  settings : RoutingSettings
  enabled  : Nat
  deriving DecidableEq, Repr

/-- The state of the Regulation and Return Unit in a SET REGULATION reply (R101). -/
structure RegulationReport where
  unit            : RegUnit
  reuseHighVolume : Nat
  reuseLowVolume  : Nat
  feedHighVolume  : Nat
  feedLowVolume   : Nat
  deriving DecidableEq, Repr

/-- READ CELL (R132). -/
structure CellReport where
  record  : CellRec
  liquor  : Holding
  load    : Nat
  holding : List Nat
  implied : Option Nat
  moved   : Option Nat
  target  : Option (VesselId × Option Nat)
  outcome : Option ArbOutcome
  chosen  : Option CellId
  deriving DecidableEq, Repr

/-- One queued lot in READ GATE (R152). -/
structure QueuedLot where
  lot       : Nat
  clearance : Nat
  volume    : Nat
  remaining : Nat
  fits      : Bool
  deriving DecidableEq, Repr

/-- READ GATE (R152). -/
structure GateReport where
  clock          : Stamp
  w1             : Window
  w2             : Window
  inWindow       : Bool
  limits         : Limits
  todayVolume    : Nat
  todayMass      : Nat
  massHeadroom   : Option Int
  volumeHeadroom : Option Int
  state          : GateState
  outcome        : Option SelOutcome
  running        : Option (Nat × Option Nat × Nat × Nat)
  queue          : List QueuedLot
  silver         : Option Nat
  ph             : Option Nat
  silverTimer    : Option Nat
  phTimer        : Option Nat
  deriving DecidableEq, Repr

/-- READ PATTERN (R163). -/
structure PatternReport where
  record    : PatternRec
  inputs    : Vector Bool 24
  wouldMeet : Bool
  frame     : Option Condition
  deriving DecidableEq, Repr

/-- One frame of READ FAULTS (R181): the frame, its depth and what it holds. -/
structure FrameReport where
  depth     : Nat
  frame     : Frame
  holdsGate : Bool
  holdsNeed : Bool
  holdsCell : Vector Bool 4
  deriving DecidableEq, Repr

/-- READ FAULTS (R181). -/
structure FaultsReport where
  table   : Vector Response 16
  frames  : List FrameReport
  actions : ActionSet
  last    : Option LastFault
  mode    : Mode
  deriving DecidableEq, Repr

/-- The items a reply carries after its status. -/
inductive ReplyItems where
  | none
  | identity
  | status (r : StatusReport)
  | missing (r : MissingReport)
  | inputs (inputs : Vector Bool 24) (cellFaults : Vector Bool 4) (outputs : Vector OutputReport 51)
  | vessel (r : VesselReport)
  | accounts (r : AccountsReport)
  | movements (r : MovementsReport)
  | lotTook (state : LotState)
  | lot (r : LotReport)
  | closedLots (l : List ClosedLot)
  | source (entry : Option (SourceEntry × Nat)) (summary : SourceSummary)
  | unit (r : UnitReport)
  | regulation (r : RegulationReport)
  | harvested (load weighed : Nat)
  | cell (r : CellReport)
  | gate (r : GateReport)
  | patternState (state : PatternState)
  | pattern (r : PatternReport)
  | faults (r : FaultsReport)
  | popped (ftype : FaultType) (subject : Subject)
  | topDepth (depth : Nat)
  | unknownKind (kind : Byte)
  deriving DecidableEq, Repr

/-- A reply: its status and its items (R195). -/
structure Reply where
  status : Status
  items  : ReplyItems := .none
  deriving DecidableEq, Repr

/-! ## Supervisory Link (chapter 12) -/

/-- A place of the request buffer (R194): a request taken, with its reply. -/
structure Place where
  number : Byte
  kind   : Byte
  reply  : Reply
  deriving DecidableEq, Repr

/-- A frame of the part on the Supervisory Link (R192). -/
inductive SupFrame where
  | reply (p : Place)
  | notice (n : Notice)
  deriving DecidableEq, Repr

/-- A transmission under way; `holdsPlace` says that its end frees the oldest buffer place (R196). -/
structure Transmission where
  frame      : SupFrame
  holdsPlace : Bool
  deriving DecidableEq, Repr

/-- The Supervisory Link Unit. `rx` holds the bytes of the frame being collected, SYNC first, and is empty
while hunting (R193); `sent` holds the frames whose transmission the last step began (log 29). From the taking of a
RESTART to the end of its OK `restarting` is set, and `behind` counts the places held by requests accepted after it,
which wait and are discarded with step 1 of R190 (R194, log 3). -/
structure Link where
  rx         : List Byte := []
  buffer     : List Place := []
  tx         : Option Transmission := none
  queue      : List Notice := []
  lost       : Bool := false
  sent       : List SupFrame := []
  restarting : Bool := false
  behind     : Nat := 0
  deriving DecidableEq, Repr

/-! ## The part and the state -/

/-- The twelve blocks, less the books. -/
structure Part where
  vessels : Vector VesselRec 8
  mov     : MovementUnit
  lot     : LotUnit
  src     : SourceTable
  fld     : FieldUnit
  reg     : RegUnit
  cel     : CellUnit
  gate    : Gate
  pat     : PatternUnit
  flt     : FaultUnit
  ctl     : Control
  link    : Link
  deriving DecidableEq, Repr

/-- The books and the blocks together: what a command acts on. The queue of waiting commands is outside it. -/
structure Plant where
  books : Books
  part  : Part
  deriving DecidableEq, Repr

/-- The state of the machine: the books, the blocks, and the commands that wait, first in first out. -/
structure State where
  books   : Books
  part    : Part
  pending : List Instr
  deriving DecidableEq, Repr

/-! ## Cold reset (R183) -/

/-- The books after cold reset (R1, R15, R115): every figure 0. -/
def Books.reset : Books where
  vessels  := Vector.replicate 8 {}
  liquors  := Vector.replicate 4 {}
  cathodes := Vector.replicate 4 0
  acc      := {}

/-- Every block at its cold-reset values (the table of R183), with the mode STARTING. The input lines, the
cell fault lines and the RESTART line read LOW, INACTIVE and inactive here (log 11). -/
def Part.reset : Part where
  vessels := Vector.replicate 8 {}
  mov     := {}
  lot     := {}
  src     := {}
  fld     := { units := Vector.replicate 31 {} }
  reg     := {}
  cel     := { cells := Vector.replicate 4 {} }
  gate    := {}
  pat     := { inputs := Vector.replicate 24 false, patterns := Vector.replicate 6 {} }
  flt     := { table := Vector.replicate 16 {} }
  ctl     := { manual := Vector.replicate 51 none }
  link    := {}

/-- The machine right after a cold reset, with no command waiting. -/
def State.reset : State where
  books   := Books.reset
  part    := Part.reset
  pending := []

end Sys2Proof.Machine
end

