-- ==== Sys2Proof/Machine/Ops.lean ====
section
/-! DEFINITION. Named operations over the state that every family uses: indexing and updating, the clock,
notices, the Movement Table, lots, frames and their condition reports, the waiting list. -/

namespace Sys2Proof.Machine

/-! ## Indexing -/

/-- Replace entry `i` of a table by its image. -/
def updAt {α : Type} {n : Nat} (xs : Vector α n) (i : Fin n) (f : α → α) : Vector α n :=
  xs.set i.1 (f (xs.get i)) i.2

/-- V1 to V8 in order. -/
def allVessels : List VesselId := [0, 1, 2, 3, 4, 5, 6, 7]

/-- C1 to C4 in order. -/
def allCells : List CellId := [0, 1, 2, 3]

/-- P1 to P6 in order. -/
def allPatterns : List PatternId := [0, 1, 2, 3, 4, 5]

/-- I1 to I24 in order. -/
def allInputs : List InputId :=
  [0, 1, 2, 3, 4, 5, 6, 7, 8, 9, 10, 11] ++ [12, 13, 14, 15, 16, 17, 18, 19, 20, 21, 22, 23]

/-- Unit addresses 1 to 31 in order (as 0 to 30). -/
def allUnits : List UnitId :=
  [0, 1, 2, 3, 4, 5, 6, 7, 8, 9, 10, 11, 12, 13, 14, 15] ++
  [16, 17, 18, 19, 20, 21, 22, 23, 24, 25, 26, 27, 28, 29, 30]

/-- A count that stays at 65 535 once there (R1, R27, R77). -/
def countUp (n : Nat) : Nat := if n < 65535 then n + 1 else n

/-! ## Modes and notices -/

/-- COMMISSIONING, OPERATING or LOCKDOWN: the modes in which most requests are taken. -/
def Mode.inService : Mode → Bool
  | .commissioning | .operating | .lockdown => true
  | .starting | .failed => false

/-- OPERATING or LOCKDOWN: movements start (R21), lot and aging timers run (R58, R71). -/
def Mode.running : Mode → Bool
  | .operating | .lockdown => true
  | .starting | .failed | .commissioning => false

/-- A notice joins the Notice Queue, or is dropped and sets the lost flag (R197). -/
def notify (body : NoticeBody) (p : Part) : Part :=
  if p.link.queue.length < 32 then
    { p with link := { p.link with
        queue := p.link.queue ++ [⟨p.link.lost, p.gate.clock, body⟩], lost := false } }
  else { p with link := { p.link with lost := true } }

/-! ## Updates of one record -/

/-- Change a vessel record. -/
def updVessel (v : VesselId) (f : VesselRec → VesselRec) (p : Part) : Part :=
  { p with vessels := updAt p.vessels v f }

/-- Change a cell record. -/
def updCell (c : CellId) (f : CellRec → CellRec) (p : Part) : Part :=
  { p with cel := { p.cel with cells := updAt p.cel.cells c f } }

/-- Change a unit record. -/
def updUnit (u : UnitId) (f : UnitRec → UnitRec) (p : Part) : Part :=
  { p with fld := { p.fld with units := updAt p.fld.units u f } }

/-- Change a pattern record. -/
def updPattern (k : PatternId) (f : PatternRec → PatternRec) (p : Part) : Part :=
  { p with pat := { p.pat with patterns := updAt p.pat.patterns k f } }

/-- The vessel record of `v`. -/
def vesselRec (p : Part) (v : VesselId) : VesselRec := p.vessels.get v

/-- The cell record of `c`. -/
def cellRec (p : Part) (c : CellId) : CellRec := p.cel.cells.get c

/-- The unit record of `u`. -/
def unitRec (p : Part) (u : UnitId) : UnitRec := p.fld.units.get u

/-- The pattern record of `k`. -/
def patternRec (p : Part) (k : PatternId) : PatternRec := p.pat.patterns.get k

/-! ## Roles and marks -/

/-- The vessel of a role: the lowest-numbered vessel that holds it (R100, log 38). -/
def roleVessel (r : Role) (p : Part) : Option VesselId :=
  allVessels.find? (fun v => decide ((vesselRec p v).role = r))

/-- The mark volume of R100: the whole part of capacity × mark / 8, and 0 without a capacity. -/
def markVolume (capacity : Option Nat) (mark : Nat) : Nat := capacity.getD 0 * mark / 8

/-- The capacity of the vessel of a role, absent where there is none. -/
def roleCapacity (r : Role) (p : Part) : Option Nat :=
  (roleVessel r p).bind (fun v => (vesselRec p v).capacity)

/-- REUSE high-mark volume. -/
def reuseHighVolume (p : Part) : Nat := markVolume (roleCapacity .reuse p) p.reg.marks.reuseHigh
/-- REUSE low-mark volume. -/
def reuseLowVolume (p : Part) : Nat := markVolume (roleCapacity .reuse p) p.reg.marks.reuseLow
/-- FEED high-mark volume, the admission limit (R110). -/
def admissionLimit (p : Part) : Nat := markVolume (roleCapacity .feed p) p.reg.marks.feedHigh
/-- FEED low-mark volume, the charge floor (R110). -/
def chargeFloor (p : Part) : Nat := markVolume (roleCapacity .feed p) p.reg.marks.feedLow

/-! ## The Movement Table -/

/-- The entry with a movement number. -/
def findMove (n : Nat) (p : Part) : Option Movement :=
  p.mov.entries.find? (fun m => decide (m.number = n))

/-- Change the entry with a movement number. -/
def updMove (n : Nat) (f : Movement → Movement) (p : Part) : Part :=
  { p with mov := { p.mov with
      entries := p.mov.entries.map (fun m => if m.number = n then f m else m) } }

/-- The movement `m` has left the table and is about to end: what it takes stays taken until then (R20, log 74). -/
def setEnding (m : Option Movement) (p : Part) : Part := { p with mov := { p.mov with ending := m } }

/-- The movements that have not ended: those of the table, and one that has left it and is about to end (R20, log 74). -/
def unended (p : Part) : List Movement := p.mov.entries ++ p.mov.ending.toList

/-- Take an entry out of the table. -/
def removeMove (n : Nat) (p : Part) : Part :=
  { p with mov := { p.mov with entries := p.mov.entries.filter (fun m => decide (m.number ≠ n)) } }

/-- A port is occupied until the movement that takes it ends (R20); MAKEUP is no port (2.2). -/
def portBusy (p : Part) (port : Port) : Bool :=
  decide (port ≠ .mains) && (unended p).any (fun m => decide (m.source = port ∨ m.dest = port))

/-- The movement at a port. -/
def moveAt (p : Part) (port : Port) : Option Movement :=
  p.mov.entries.find? (fun m => decide (m.source = port ∨ m.dest = port))

/-- Whether a movement brings water into vessel `v`: by its inlet, or, for REUSE, by the makeup entry (R20). -/
def Movement.into (p : Part) (v : VesselId) (m : Movement) : Bool :=
  decide (m.dest = .vesselInlet v) ||
    (decide (m.dest = .makeupEntry) && decide (roleVessel .reuse p = some v))

/-- Whether a movement has vessel `v` as source or destination (R3, R11, R12). -/
def Movement.touches (p : Part) (v : VesselId) (m : Movement) : Bool :=
  decide (m.source = .vesselOutlet v) || m.into p v

/-- What one movement has yet to bring (R20). -/
def Movement.reserves (m : Movement) : Nat :=
  if m.kind = .slug then m.requested else m.requested - m.movedLitres

/-- The reserved volume of a vessel: what the movements into it that have not ended have yet to bring (R20). -/
def reservedVolume (p : Part) (v : VesselId) : Nat :=
  (((unended p).filter (fun m => m.into p v)).map Movement.reserves).sum

/-- The DISCHARGE in the table, if any. -/
def dischargeMove (p : Part) : Option Movement :=
  p.mov.entries.find? (fun m => decide (m.kind = .discharge))

/-- The CHARGE or DRAIN of a cell in the table, if any. -/
def cellMove (p : Part) (c : CellId) : Option Movement :=
  p.mov.entries.find? (fun m => decide (m.dest = .cellInlet c ∨ m.source = .cellOutlet c))

/-! ## The waiting list (R21) -/

/-- Enter an owner in the waiting list; one already there keeps its place and takes the ports it asked for last (that its
recorded ports are replaced: the model's choice, log 82). -/
def enterWaiting (o : WaitOwner) (ports : Option (Port × Port)) (p : Part) : Part :=
  let w := p.mov.waiting
  let w' := if w.any (fun x => decide (x.owner = o))
    then w.map (fun x => if x.owner = o then { x with ports := ports } else x)
    else w ++ [⟨o, ports⟩]
  { p with mov := { p.mov with waiting := w' } }

/-- Take an owner out of the waiting list. -/
def leaveWaiting (o : WaitOwner) (p : Part) : Part :=
  { p with mov := { p.mov with waiting := p.mov.waiting.filter (fun x => decide (x.owner ≠ o)) } }

/-! ## Lots -/

/-- The open lot with a number. -/
def findLot (n : Nat) (p : Part) : Option Lot :=
  p.lot.lots.find? (fun l => decide (l.number = n))

/-- The open lot of a vessel. -/
def lotOf (v : VesselId) (p : Part) : Option Lot :=
  p.lot.lots.find? (fun l => decide (l.vessel = v))

/-- The FILLING lot, if any (R38). -/
def fillingLot (p : Part) : Option Lot :=
  p.lot.lots.find? (fun l => decide (l.state = .filling))

/-- Change the open lot with a number. -/
def updLot (n : Nat) (f : Lot → Lot) (p : Part) : Part :=
  { p with lot := { p.lot with lots := p.lot.lots.map (fun l => if l.number = n then f l else l) } }

/-! ## Frames -/

/-- A frame of a type and a subject. -/
def Frame.names (ft : FaultType) (sub : Subject) (f : Frame) : Bool :=
  decide (f.ftype = ft ∧ f.subject = sub)

/-- Whether a frame of a type and subject is on the stack. -/
def hasFrame (ft : FaultType) (sub : Subject) (p : Part) : Bool :=
  p.flt.stack.any (Frame.names ft sub)

/-- The frame at a depth, 1 the bottom (10.3). -/
def frameAt (d : Nat) (p : Part) : Option Frame :=
  if d = 0 then none else p.flt.stack[d - 1]?

/-- Set the condition of one frame (R169): CLEARED stamps the time and starts the hold of an AUTO frame;
PRESENT takes both away; a frame already in the condition is unchanged. -/
def Frame.setCondition (c : Condition) (now : Stamp) (f : Frame) : Frame :=
  match f.condition, c with
  | .present, .cleared => { f with condition := .cleared, clearedTime := some now, holdLeft := f.hold }
  | .cleared, .present => { f with condition := .present, clearedTime := none, holdLeft := none }
  | .present, .present => f
  | .cleared, .cleared => f

/-- A condition report on every frame that `sel` selects (R169). It pushes nothing and sends nothing. -/
def report (sel : Frame → Bool) (c : Condition) (p : Part) : Part :=
  { p with flt := { p.flt with
      stack := p.flt.stack.map (fun f => if sel f then f.setCondition c p.gate.clock else f) } }

/-- A condition report naming a type and a subject (R169). -/
def reportOn (ft : FaultType) (sub : Subject) (c : Condition) (p : Part) : Part :=
  report (Frame.names ft sub) c p

/-- A condition report to every frame of a type, whatever discharge it names (R169). -/
def reportType (ft : FaultType) (c : Condition) (p : Part) : Part :=
  report (fun f => decide (f.ftype = ft)) c p

/-! ## Source tags -/

/-- The place of a tag in the tag order (00_scope.md 4.2): by line, then kind, then index. -/
def tagKey (t : Tag) : Nat :=
  t.line.1 * 16 + (match t.kind with | .wash => 0 | .fix => 1 | .blix => 2 | .rinse => 3) * 4 + t.index.1

/-- The class of a concentration against the thresholds (00_scope.md 4.2, R63). -/
def classOf (s : RoutingSettings) (conc : Nat) : WaterClass :=
  if conc < s.amber then .green else if conc < s.red then .amber else .red

/-! ## Pops -/

/-- The actions `a` of a frame being popped stay in force until the announcement (R176 step 3). -/
def setLeaving (a : ActionSet) (p : Part) : Part := { p with flt := { p.flt with leaving := a } }

end Sys2Proof.Machine
end

