-- ==== Sys2Proof/Machine/Books.lean ====
section
/-! DEFINITION. Bookings (R6, R7): the one way in which a booked figure or an account changes. -/

namespace Sys2Proof.Machine

/-- What leaves a holder and what is left of it. -/
structure Taken where
  litres : Nat
  mg     : Nat
  left   : Holding
  deriving DecidableEq, Repr

/-- Take `want` litres out of a holder: never more than it books, with the mass of the proportional rule of
R7 (the whole part of M × v / V, all of M when v equals V, nothing when V is 0). -/
def Holding.take (want : Nat) (h : Holding) : Taken :=
  let v := min want h.volume
  let m := if h.volume = 0 then 0 else if v = h.volume then h.mass else h.mass * v / h.volume
  ⟨v, m, ⟨h.volume - v, h.mass - m⟩⟩

/-- Add litres and milligrams to a holder. -/
def Holding.add (v m : Nat) (h : Holding) : Holding := ⟨h.volume + v, h.mass + m⟩

/-- The kinds of booking of R6 with the figures that fix each. -/
inductive Booking where
  /-- admitted accounts to a vessel (R93, R96) -/
  | admission (d : VesselId) (v m : Nat)
  /-- makeup volume account to REUSE (R105) -/
  | makeup (d : VesselId) (v : Nat)
  /-- transfer of a SPILL or RETURN -/
  | vesselToVessel (s d : VesselId) (want : Nat)
  /-- transfer of a CHARGE -/
  | vesselToCell (s : VesselId) (c : CellId) (want : Nat)
  /-- transfer of a DRAIN -/
  | cellToVessel (c : CellId) (d : VesselId) (want : Nat)
  /-- HOLD vessel to the discharged accounts (R145) -/
  | discharge (s : VesselId) (want : Nat)
  /-- REUSE to the reused accounts (R108) -/
  | draw (s : VesselId) (want : Nat)
  /-- HOLD vessel to the sampled accounts (R45) -/
  | sample (s : VesselId) (want : Nat)
  /-- liquor to cathode at a probe reading (R123) -/
  | plating (c : CellId) (conc : Nat)
  /-- cathode to the harvested account, the difference to mass corrections (R128) -/
  | harvest (c : CellId) (weighed : Nat)
  /-- a verdict's concentration replaces a lot's mass (R48) -/
  | massCorrection (v : VesselId) (conc : Nat)
  /-- ADOPT LEVEL (R13) -/
  | adoption (v : VesselId) (level : Nat)
  deriving DecidableEq, Repr

/-- The holder of a vessel. -/
def Books.vessel (b : Books) (v : VesselId) : Holding := b.vessels.get v
/-- The liquor of a cell. -/
def Books.liquor (b : Books) (c : CellId) : Holding := b.liquors.get c
/-- The cathode load of a cell. -/
def Books.cathode (b : Books) (c : CellId) : Nat := b.cathodes.get c

/-- Replace a vessel's figures. -/
def Books.setVessel (v : VesselId) (h : Holding) (b : Books) : Books :=
  { b with vessels := updAt b.vessels v (fun _ => h) }
/-- Replace a liquor's figures. -/
def Books.setLiquor (c : CellId) (h : Holding) (b : Books) : Books :=
  { b with liquors := updAt b.liquors c (fun _ => h) }
/-- Replace a cathode's load. -/
def Books.setCathode (c : CellId) (m : Nat) (b : Books) : Books :=
  { b with cathodes := updAt b.cathodes c (fun _ => m) }

/-- The litres and milligrams a booking moves, on the books before it. -/
def Booking.moves (k : Booking) (b : Books) : Nat × Nat :=
  match k with
  | .admission _ v m => (v, m)
  | .makeup _ v => (v, 0)
  | .vesselToVessel s _ want => let t := (b.vessel s).take want; (t.litres, t.mg)
  | .vesselToCell s _ want => let t := (b.vessel s).take want; (t.litres, t.mg)
  | .cellToVessel c _ want => let t := (b.liquor c).take want; (t.litres, t.mg)
  | .discharge s want => let t := (b.vessel s).take want; (t.litres, t.mg)
  | .draw s want => let t := (b.vessel s).take want; (t.litres, t.mg)
  | .sample s want => let t := (b.vessel s).take want; (t.litres, t.mg)
  | .plating c conc => (0, (b.liquor c).mass - conc * (b.liquor c).volume)
  | .harvest c _ => (0, b.cathode c)
  | .massCorrection _ _ => (0, 0)
  | .adoption _ _ => (0, 0)

/-- Make a booking: both places change together (R6). -/
def Books.book (k : Booking) (b : Books) : Books :=
  match k with
  | .admission d v m =>
    let b1 := b.setVessel d ((b.vessel d).add v m)
    { b1 with acc := { b.acc with
        admittedVolume := b.acc.admittedVolume + v, admittedMass := b.acc.admittedMass + m } }
  | .makeup d v =>
    let b1 := b.setVessel d ((b.vessel d).add v 0)
    { b1 with acc := { b.acc with makeupVolume := b.acc.makeupVolume + v } }
  | .vesselToVessel s d want =>
    let t := (b.vessel s).take want
    let b1 := b.setVessel s t.left
    b1.setVessel d ((b1.vessel d).add t.litres t.mg)
  | .vesselToCell s c want =>
    let t := (b.vessel s).take want
    (b.setVessel s t.left).setLiquor c ((b.liquor c).add t.litres t.mg)
  | .cellToVessel c d want =>
    let t := (b.liquor c).take want
    (b.setLiquor c t.left).setVessel d ((b.vessel d).add t.litres t.mg)
  | .discharge s want =>
    let t := (b.vessel s).take want
    { b.setVessel s t.left with acc := { b.acc with
        dischargedVolume := b.acc.dischargedVolume + t.litres
        dischargedMass := b.acc.dischargedMass + t.mg } }
  | .draw s want =>
    let t := (b.vessel s).take want
    { b.setVessel s t.left with acc := { b.acc with
        reusedVolume := b.acc.reusedVolume + t.litres, reusedMass := b.acc.reusedMass + t.mg } }
  | .sample s want =>
    let t := (b.vessel s).take want
    { b.setVessel s t.left with acc := { b.acc with
        sampledVolume := b.acc.sampledVolume + t.litres, sampledMass := b.acc.sampledMass + t.mg } }
  | .plating c conc =>
    let d := (b.liquor c).mass - conc * (b.liquor c).volume
    (b.setLiquor c { b.liquor c with mass := (b.liquor c).mass - d }).setCathode c (b.cathode c + d)
  | .harvest c w =>
    { b.setCathode c 0 with acc := { b.acc with
        harvestedMass := b.acc.harvestedMass + w
        massCorrections := b.acc.massCorrections + ((w : Int) - (b.cathode c : Int)) } }
  | .massCorrection v conc =>
    let new := conc * (b.vessel v).volume
    { b.setVessel v { b.vessel v with mass := new } with acc := { b.acc with
        massCorrections := b.acc.massCorrections + ((new : Int) - ((b.vessel v).mass : Int)) } }
  | .adoption v level =>
    let h := b.vessel v
    let m := if level = 0 then 0 else h.mass
    { b.setVessel v ⟨level, m⟩ with acc := { b.acc with
        volumeCorrections := b.acc.volumeCorrections + ((level : Int) - (h.volume : Int))
        massCorrections := b.acc.massCorrections + ((m : Int) - (h.mass : Int)) } }

/-- Booked volume over vessels and cell liquors (R17). -/
def Books.holderVolume (b : Books) : Nat :=
  ((b.vessels.toList).map Holding.volume).sum + ((b.liquors.toList).map Holding.volume).sum
/-- Booked mass over vessels (R17). -/
def Books.vesselMass (b : Books) : Nat := ((b.vessels.toList).map Holding.mass).sum
/-- Booked mass over cell liquors (R17). -/
def Books.liquorMass (b : Books) : Nat := ((b.liquors.toList).map Holding.mass).sum
/-- Booked mass over cathodes (R17). -/
def Books.cathodeMass (b : Books) : Nat := b.cathodes.toList.sum

end Sys2Proof.Machine
end

