-- ==== Sys2Proof/Machine/Operands.lean ====
section
/-! DEFINITION. The operand forms of the commands: how a number that a request names becomes a vessel, a
cell, a unit, a pattern or a tag, and the range checks of every settings request (00_scope.md 4.1: ranges
are inclusive, and a setting outside its range is refused with BAD VALUE). -/

namespace Sys2Proof.Machine

/-- A number 1 to `n` as an index; none outside the range. -/
def indexOf (n k : Nat) : Option (Fin n) :=
  if h : 1 ≤ k ∧ k ≤ n then some ⟨k - 1, by omega⟩ else none

/-- Vessel number 1 to 8. -/
def vesselOf (k : Nat) : Option VesselId := indexOf 8 k
/-- Cell number 1 to 4. -/
def cellOf (k : Nat) : Option CellId := indexOf 4 k
/-- Unit address 1 to 31. -/
def unitOf (k : Nat) : Option UnitId := indexOf 31 k
/-- Pattern number 1 to 6. -/
def patternOf (k : Nat) : Option PatternId := indexOf 6 k

/-- The kind byte of a tag (R199: the place in the list WASH, FIX, BLIX, FINAL). -/
def sourceKindOf (k : Nat) : Option SourceKind :=
  match k with
  | 0 => some .wash
  | 1 => some .fix
  | 2 => some .blix
  | 3 => some .rinse
  | _ => none

/-- A valid tag: line 1 to 24, kind one of the four, index 1 to 4 (R84). -/
def tagOf (r : RawTag) : Option Tag :=
  match indexOf 24 r.line, sourceKindOf r.kind, indexOf 4 r.index with
  | some l, some k, some i => some ⟨l, k, i⟩
  | _, _, _ => none

/-- An optional item is absent or lies in a range, both ends included. -/
def inRange (lo hi : Nat) (x : Option Nat) : Bool :=
  match x with
  | none => true
  | some n => decide (lo ≤ n ∧ n ≤ hi)

/-- Ranges of SET VESSEL's items taken alone (1.1). -/
def vesselRanges (i : VesselItems) : Bool :=
  inRange 100 60000 i.capacity && inRange 10 5000 i.tolerance &&
    inRange 1 60 i.travel

/-- Ranges of SET MOVEMENT TIMES (R34). -/
def movementTimeRanges (i : MovementTimeItems) : Bool :=
  inRange 10 900 i.stall && inRange 1 60 i.cellTravel && inRange 1 60 i.outfallTravel

/-- Ranges of SET LOT TIMES (R60). -/
def lotTimeRanges (i : LotTimeItems) : Bool :=
  inRange 0 86400 i.fillAge && inRange 0 7200 i.settle &&
    inRange 10 600 i.sampleDuration && inRange 1 20 i.sampleVolume &&
    inRange 600 86400 i.verdict

/-- Ranges of SET ROUTING's items taken alone (R98). -/
def routingRanges (i : RoutingItems) : Bool :=
  inRange 1 30000 i.amber && inRange 1 30000 i.red &&
    inRange 2 20 i.silenceLimit && inRange 60 3600 i.transferTimeout

/-- Ranges of SET REGULATION's items taken alone (6.1). -/
def regulationRanges (i : RegulationItems) : Bool :=
  inRange 1 7 i.reuseHigh && inRange 1 7 i.reuseLow &&
    inRange 0 60000 i.reserve && inRange 0 60000 i.headroom &&
    inRange 1 7 i.feedHigh && inRange 1 7 i.feedLow

/-- Ranges of SET CELL (7.1). -/
def cellRanges (i : CellItems) : Bool :=
  inRange 50 2000 i.chargeVolume && inRange 0 30000 i.endConc &&
    inRange 600 86400 i.runLimit && inRange 1 50000000 i.cathodeCapacity

/-- Ranges of one window (R135). -/
def windowRange (w : Window) : Bool := decide (w.start ≤ 1439 ∧ w.stop ≤ 1440)

/-- Ranges of SET LIMITS' items taken alone (R137). -/
def limitRanges (i : LimitItems) : Bool :=
  inRange 0 1000000000 i.massAllowance && inRange 0 10000000 i.volumeAllowance &&
    inRange 0 5000 i.concLimit &&
    (match i.phBand with | none => true | some (lo, hi) => decide (lo ≤ 140 ∧ hi ≤ 140)) &&
    inRange 0 1000000000 i.floor && inRange 0 120 i.persistence &&
    inRange 0 1439 i.dayBoundary

/-- Ranges of an offer's items (R84, rule 2). -/
def offerRange (o : Offer) : Bool :=
  decide (1 ≤ o.volume ∧ o.volume ≤ 4000 ∧ o.conc ≤ 30000 ∧ o.ph ≤ 140)

/-- The settings that hold after a request: the item where it is present, else the value held. -/
def orHeld {α : Type} (item : Option α) (held : α) : α := item.getD held

/-- Settings after SET MOVEMENT TIMES. -/
def applyMovementTimes (i : MovementTimeItems) (m : MovementUnit) : MovementUnit :=
  { m with stallTime := orHeld i.stall m.stallTime, cellTravel := orHeld i.cellTravel m.cellTravel
           outfallTravel := orHeld i.outfallTravel m.outfallTravel }

/-- Settings after SET LOT TIMES. -/
def applyLotTimes (i : LotTimeItems) (t : LotTimes) : LotTimes :=
  { fillAge := orHeld i.fillAge t.fillAge, settle := orHeld i.settle t.settle
    sampleDuration := orHeld i.sampleDuration t.sampleDuration
    sampleVolume := orHeld i.sampleVolume t.sampleVolume, verdict := orHeld i.verdict t.verdict }

/-- Settings after SET ROUTING. -/
def applyRouting (i : RoutingItems) (s : RoutingSettings) : RoutingSettings :=
  { amber := orHeld i.amber s.amber, red := orHeld i.red s.red
    silenceLimit := orHeld i.silenceLimit s.silenceLimit
    transferTimeout := orHeld i.transferTimeout s.transferTimeout }

/-- Marks after SET REGULATION. -/
def applyMarks (i : RegulationItems) (m : Marks) : Marks :=
  { reuseHigh := orHeld i.reuseHigh m.reuseHigh, reuseLow := orHeld i.reuseLow m.reuseLow
    reserve := orHeld i.reserve m.reserve, headroom := orHeld i.headroom m.headroom
    feedHigh := orHeld i.feedHigh m.feedHigh, feedLow := orHeld i.feedLow m.feedLow }

/-- A SET REGULATION that carries no setting is the read request of the unit (R101). -/
def noSettings (i : RegulationItems) : Bool := decide (i = {})

/-- A cell record's configuration after SET CELL. -/
def applyCell (i : CellItems) (r : CellRec) : CellRec :=
  { r with chargeVolume := i.chargeVolume.or r.chargeVolume, endConc := orHeld i.endConc r.endConc
           runLimit := i.runLimit.or r.runLimit, cathodeCapacity := i.cathodeCapacity.or r.cathodeCapacity
           drainPref := orHeld i.drainPref r.drainPref }

/-- Limits after SET LIMITS. -/
def applyLimits (i : LimitItems) (l : Limits) : Limits :=
  { massAllowance := i.massAllowance.or l.massAllowance
    volumeAllowance := i.volumeAllowance.or l.volumeAllowance
    concLimit := i.concLimit.or l.concLimit, phBand := i.phBand.or l.phBand
    floor := orHeld i.floor l.floor, floorEnable := orHeld i.floorEnable l.floorEnable
    persistence := orHeld i.persistence l.persistence, dayBoundary := orHeld i.dayBoundary l.dayBoundary }

end Sys2Proof.Machine
end

