-- ==== Sys2Proof/Machine/Flags.lean ====
section
/-! DEFINITION. Conditions that the rules compute from the state: actions in force, holds, windows, the gate
state, headrooms, fitting, role rules, prerequisites, pattern terms, paused timers. -/

namespace Sys2Proof.Machine

/-! ## Actions in force (R170) -/

/-- The union of two action sets. -/
def unionActions (a b : ActionSet) : ActionSet where
  shutOutfall      := a.shutOutfall || b.shutOutfall
  stopIntake       := a.stopIntake || b.stopIntake
  quarantineIntake := a.quarantineIntake || b.quarantineIntake
  stopCells        := a.stopCells || b.stopCells
  stopMovement     := a.stopMovement || b.stopMovement
  stopRegulation   := a.stopRegulation || b.stopRegulation
  lockdown         := a.lockdown || b.lockdown

/-- The actions in force: the union of the action sets of every frame on the stack (R170), and of a frame whose pop
has not come to its announcement (R176 step 3). -/
def actionsInForce (p : Part) : ActionSet :=
  p.flt.stack.foldl (fun a f => unionActions a f.actions) p.flt.leaving

/-- The default response (R165): every action except LOCKDOWN, policy MANUAL. -/
def defaultActions : ActionSet :=
  ⟨true, true, true, true, true, true, false⟩

/-! ## Holds (R130, R172) -/

/-- A frame holds a cell: a CELL FAULT frame naming it, or STOP MOVEMENT on its CHARGE or DRAIN (R130). -/
def Frame.holdsCell (c : CellId) (f : Frame) : Bool :=
  f.names .cellFault (.cell c) ||
    (f.actions.stopMovement && (match f.interrupted with
      | some m => decide (m.dest = .cellInlet c ∨ m.source = .cellOutlet c)
      | none => false))

/-- A frame holds the owner of a movement of kind `k`: it carries STOP MOVEMENT and interrupts one (R172). -/
def Frame.holdsKind (k : MoveKind) (f : Frame) : Bool :=
  f.actions.stopMovement && (match f.interrupted with
    | some m => decide (m.kind = k)
    | none => false)

/-- The depths of the frames that hold a cell (7.1, R130). -/
def holdingFrames (p : Part) (c : CellId) : List Nat :=
  (p.flt.stack.zipIdx.filter (fun x => x.1.holdsCell c)).map (fun x => x.2 + 1)

/-- A cell is held while its holding frames are not empty. -/
def cellHeld (p : Part) (c : CellId) : Bool := p.flt.stack.any (Frame.holdsCell c)

/-- A need of the Regulation and Return Unit is held (R109). -/
def kindHeld (p : Part) (k : MoveKind) : Bool := p.flt.stack.any (Frame.holdsKind k)

/-! ## Windows and the gate state -/

/-- A window covers its start up to but not including its end, when start is below end (R135). -/
def windowCovers (w : Window) (t : Nat) : Bool :=
  decide (w.start < w.stop ∧ w.start * 60 ≤ t ∧ t < w.stop * 60)

/-- The time of day is in a window (R135). -/
def inWindow (g : Gate) : Bool :=
  match g.clock with
  | none => false
  | some t => windowCovers g.w1 t || windowCovers g.w2 t

/-- The gate state: the first row of 8.5 whose condition holds (R140). -/
def gateStateOf (p : Part) : GateState :=
  if !p.ctl.mode.running || !inWindow p.gate then .shut
  else if decide (p.ctl.mode = .lockdown) || (actionsInForce p).shutOutfall then .barred
  else if (dischargeMove p).isSome then .running
  else .open_

/-! ## Limits, headroom and fitting (R137, R143) -/

/-- The limits are set when the first four are present (R137). -/
def limitsSet (l : Limits) : Bool :=
  l.massAllowance.isSome && l.volumeAllowance.isSome && l.concLimit.isSome && l.phBand.isSome

/-- The mass headroom (R137). -/
def massHeadroom (g : Gate) : Option Int :=
  g.limits.massAllowance.map (fun a =>
    (a : Int) - g.todayMass - (if g.limits.floorEnable then (g.limits.floor : Int) else 0))

/-- The volume headroom (R137). -/
def volumeHeadroom (g : Gate) : Option Int :=
  g.limits.volumeAllowance.map (fun a => (a : Int) - g.todayVolume)

/-- A concentration is at or below the limit (R48, R143). -/
def concWithin (l : Limits) (c : Nat) : Bool :=
  match l.concLimit with
  | none => false
  | some k => decide (c ≤ k)

/-- A pH lies within the band, both bounds included (R48, R143). -/
def phWithin (l : Limits) (x : Nat) : Bool :=
  match l.phBand with
  | none => false
  | some (lo, hi) => decide (lo ≤ x ∧ x ≤ hi)

/-- The remaining mass of a lot: its vessel's volume times its measured concentration (R143). -/
def remainingMass (b : Books) (l : Lot) : Nat :=
  (b.vessel l.vessel).volume * l.measuredConc.getD 0

/-- Whether a lot fits at a selection (R143). -/
def lotFits (b : Books) (g : Gate) (l : Lot) : Bool :=
  (match l.measuredConc with | none => false | some c => concWithin g.limits c) &&
  (match l.measuredPh with | none => false | some x => phWithin g.limits x) &&
  (match massHeadroom g with
    | none => false
    | some h => decide (0 < h ∧ (remainingMass b l : Int) ≤ h)) &&
  (match volumeHeadroom g with
    | none => false
    | some h => decide (((b.vessel l.vessel).volume : Int) ≤ h))

/-! ## Vessels -/

/-- A vessel's limit for internal movements less what it books and what is reserved (R104, R125). -/
def freeSpace (b : Books) (p : Part) (limit : Nat) (v : VesselId) : Nat :=
  limit - (b.vessel v).volume - reservedVolume p v

/-- The capacity of a vessel, 0 where absent. -/
def capacityOf (p : Part) (v : VesselId) : Nat := (vesselRec p v).capacity.getD 0

/-- The admission limit of a vessel for routing (R86): the high-mark volume for FEED, capacity less headroom
for REUSE while regulation is on, the capacity otherwise. -/
def routingLimit (p : Part) (v : VesselId) : Nat :=
  match (vesselRec p v).role with
  | .feed => markVolume (vesselRec p v).capacity p.reg.marks.feedHigh
  | .reuse => if p.reg.switchOn then capacityOf p v - p.reg.marks.headroom else capacityOf p v
  | .hold | .quarantine | .unused => capacityOf p v

/-- How many vessels hold a role. -/
def roleCount (r : Role) (p : Part) : Nat :=
  (allVessels.filter (fun v => decide ((vesselRec p v).role = r))).length

/-- The role rules of R3. -/
def rolesMet (p : Part) : Bool :=
  decide (roleCount .feed p = 1 ∧ roleCount .quarantine p = 1 ∧ roleCount .reuse p ≤ 1 ∧
    1 ≤ roleCount .hold p) &&
  allVessels.all (fun v => decide ((vesselRec p v).role = .unused) || (vesselRec p v).capacity.isSome)

/-- Role vessels without the adopted flag (R188). -/
def notAdopted (p : Part) : List VesselId :=
  allVessels.filter (fun v => decide ((vesselRec p v).role ≠ .unused) && !(vesselRec p v).adopted)

/-- Codes 1 to 16 of the responses not loaded (R188). -/
def notLoaded (p : Part) : List Nat :=
  (p.flt.table.toList.zipIdx.filter (fun x => !x.1.loaded)).map (fun x => x.2 + 1)

/-- The missing items of ENTER OPERATING (R188). -/
def missingItems (p : Part) : MissingReport where
  clock      := p.gate.clock.isNone
  roles      := !rolesMet p
  adoption   := !(notAdopted p).isEmpty
  responses  := !(notLoaded p).isEmpty
  limits     := !limitsSet p.gate.limits
  units      := !(allUnits.any (fun u => (unitRec p u).enabled))
  stack      := !p.flt.stack.isEmpty
  notAdopted := notAdopted p
  notLoaded  := notLoaded p

/-- No prerequisite is missing. -/
def MissingReport.isEmpty (m : MissingReport) : Bool :=
  !(m.clock || m.roles || m.adoption || m.responses || m.limits || m.units || m.stack)

/-! ## Cells -/

/-- The rectifier's four conditions (R122). -/
def rectifierWanted (p : Part) (c : CellId) : Bool :=
  decide ((cellRec p c).state = .plating) && decide (p.ctl.mode = .operating) &&
    !(actionsInForce p).stopCells && !cellHeld p c

/-- The three items that let a cell go to IDLE are present (R118, R128). -/
def cellConfigured (r : CellRec) : Bool :=
  r.chargeVolume.isSome && r.runLimit.isSome && r.cathodeCapacity.isSome

/-! ## Pattern terms (R155, R156) -/

/-- An edge term (9.2). -/
def isEdge : Term → Bool
  | .anyEdge | .fall | .rise => true
  | .ignore | .low | .high => false

/-- A term is met (R155): `change` is the input change being taken, its new level second; at an evaluation
without a change there is none. The recorded states already hold the change. -/
def termMet (inputs : Vector Bool 24) (change : Option (InputId × Bool)) (i : InputId) (t : Term) : Bool :=
  match t with
  | .ignore => false
  | .low => !inputs.get i
  | .high => inputs.get i
  | .anyEdge => (match change with | some (j, _) => decide (j = i) | none => false)
  | .fall => (match change with | some (j, h) => decide (j = i) && !h | none => false)
  | .rise => (match change with | some (j, h) => decide (j = i) && h | none => false)

/-- The inputs whose terms are active. -/
def activeInputs (r : PatternRec) : List InputId :=
  allInputs.filter (fun i => decide (r.terms.get i ≠ .ignore))

/-- The inputs whose active terms are met, lowest first. -/
def metInputs (inputs : Vector Bool 24) (change : Option (InputId × Bool)) (r : PatternRec) : List InputId :=
  (activeInputs r).filter (fun i => termMet inputs change i (r.terms.get i))

/-- A pattern is met (R156); one with no active term never is. -/
def patternMet (inputs : Vector Bool 24) (change : Option (InputId × Bool)) (r : PatternRec) : Bool :=
  match r.mode with
  | .andMode => !(activeInputs r).isEmpty &&
      (activeInputs r).all (fun i => termMet inputs change i (r.terms.get i))
  | .anyMode | .firstMode => !(metInputs inputs change r).isEmpty

/-- The matched input written at a match from ARMED (R156). -/
def matchedInput (inputs : Vector Bool 24) (change : Option (InputId × Bool)) (r : PatternRec) :
    Option InputId :=
  match change, r.mode with
  | some (j, _), .andMode => some j
  | some (j, _), .anyMode => some j
  | some _, .firstMode => (metInputs inputs change r).head?
  | none, _ => (metInputs inputs change r).head?

/-- The number of edge terms of a programming (R158, check 2). -/
def edgeCount (terms : Vector Term 24) : Nat :=
  (allInputs.filter (fun i => isEdge (terms.get i))).length

/-- The highest-priority pending pattern with its matched input (R163). -/
def pendingPattern (p : Part) : Option (PatternId × Option InputId) :=
  (allPatterns.find? (fun k => decide ((patternRec p k).state = .pending))).map
    (fun k => (k, (patternRec p k).matched))

end Sys2Proof.Machine
end

