-- ==== Sys2Proof/Machine/Movements.lean ====
section
/-! DEFINITION. Movement numbers, meters and the start of a movement (2.2, R18 to R23). -/

namespace Sys2Proof.Machine

/-! ## Numbers (R18, R36) -/

/-- The number after `n`: after 65 535 the next is 1. -/
def numberAfter (n : Nat) : Nat := if n < 65535 then n + 1 else 1

/-- The first number from `n` on that is not held, looking at `fuel` numbers. -/
def freeNumberFrom (fuel n : Nat) (held : List Nat) : Nat :=
  match fuel with
  | 0 => n
  | k + 1 => if held.contains n then freeNumberFrom k (numberAfter n) held else n

/-! ## Kinds and meters (R19) -/

/-- The booked volume of a source holder; none for a source that is no holder (MAKEUP, a sump unit). -/
def sourceVolume (b : Books) (port : Port) : Option Nat :=
  match port with
  | .vesselOutlet v => some (b.vessel v).volume
  | .cellOutlet c => some (b.liquor c).volume
  | .vesselInlet _ | .cellInlet _ | .makeupEntry | .outfall | .sumpUnit _ | .mains => none

/-- Whether a meter books a movement (R19). -/
def Movement.meteredBy (meter : Meter) (m : Movement) : Bool :=
  match meter with
  | .vesselOutlet v => decide (m.source = .vesselOutlet v) &&
      decide (m.kind = .spill ∨ m.kind = .ret ∨ m.kind = .charge)
  | .cellDrain c => decide (m.kind = .drain ∧ m.source = .cellOutlet c)
  | .makeup => decide (m.kind = .fill)
  | .outfall => decide (m.kind = .discharge)

/-- The movement that a meter books: in OPENING or RUNNING (R25). -/
def meteredMove (meter : Meter) (p : Part) : Option Movement :=
  p.mov.entries.find? (fun m => m.meteredBy meter && decide (m.phase = .opening ∨ m.phase = .running))

/-! ## Travel (R23) -/

/-- The travel time of one port. -/
def portTravel (p : Part) (port : Port) : Nat :=
  match port with
  | .vesselInlet v | .vesselOutlet v => (vesselRec p v).travel
  | .cellInlet _ | .cellOutlet _ => p.mov.cellTravel
  | .makeupEntry => (match roleVessel .reuse p with | some v => (vesselRec p v).travel | none => 0)
  | .outfall => p.mov.outfallTravel
  | .sumpUnit _ | .mains => 0

/-! ## Starts (R21) -/

/-- What an owner asks the Movement Unit for. `waiter` is the owner's place in the waiting list; routing
has none. -/
structure StartAsk where
  kind      : MoveKind
  source    : Port
  dest      : Port
  requested : Nat
  lot       : Option Nat := none
  slug      : Option SlugParticulars := none
  waiter    : Option WaitOwner := none
  deriving DecidableEq, Repr

/-- The Movement Unit's answer to a start. -/
inductive StartAnswer where
  | started (mv : Nat)
  | refused (r : WaitReason)
  deriving DecidableEq, Repr

/-- The checks of R21, in order; the first that fails gives the reason. -/
def startRefusal (b : Books) (a : StartAsk) (p : Part) : Option WaitReason :=
  if !p.ctl.mode.running then some .mode
  else if portBusy p a.source then some .sourceBusy
  else if sourceVolume b a.source = some 0 then some .sourceEmpty
  else if portBusy p a.dest then some .destinationBusy
  else if 12 ≤ p.mov.entries.length then some .tableFull
  else none

/-- The entry written at a start (R23). -/
def newEntry (a : StartAsk) (n : Nat) (p : Part) : Movement :=
  let travel := max (portTravel p a.source) (portTravel p a.dest)
  { number := n, kind := a.kind, source := a.source, dest := a.dest, requested := a.requested
    movedLitres := 0, movedMass := 0, phase := .opening, started := p.gate.clock
    lastProgress := p.gate.clock, lot := a.lot, travel := travel, slug := a.slug
    travelLeft := travel, quiet := 0, timeoutLeft := none }

/-- Put a new entry in the table under the next free number (R18). -/
def addEntry (a : StartAsk) (p : Part) : Part × Nat :=
  let n := freeNumberFrom 13 p.mov.nextNumber (p.mov.entries.map Movement.number)
  ({ p with mov := { p.mov with
      entries := p.mov.entries ++ [newEntry a n p], nextNumber := numberAfter n } }, n)

/-- What a start does to the owner's place in the waiting list (R21, R32): a start leaves the list, a refusal
enters it, and SOURCE EMPTY does not keep a place. -/
def placeAfter (a : StartAsk) (r : Option WaitReason) (p : Part) : Part :=
  match a.waiter, r with
  | none, _ => p
  | some o, none => leaveWaiting o p
  | some o, some .sourceEmpty => leaveWaiting o p
  | some o, some _ => enterWaiting o (some (a.source, a.dest)) p

/-- Ask for a start (R21). -/
def askStart (b : Books) (a : StartAsk) (p : Part) : Part × StartAnswer :=
  match startRefusal b a p with
  | some r => (placeAfter a (some r) p, .refused r)
  | none =>
    let r := addEntry a (placeAfter a none p)
    (r.1, .started r.2)

end Sys2Proof.Machine
end

