-- ==== Sys2Proof/Machine/Lots.lean ====
section
/-! DEFINITION. The Lot Unit: opening, contributions, sealing, sampling, verdicts, the discharge queue's joins
and leaves, suspension, closing (chapter 3). These functions change lots and send the LOT STATE notices; the
examinations that a lot's change brings in other blocks follow where the rules place them. -/

namespace Sys2Proof.Machine

/-- A LOT STATE notice for an open lot (R35). -/
def lotNotice (n : Nat) (s : LotState) (r : LotReason) (p : Part) : Part :=
  notify (.lotState n (some s) r) p

/-! ## The discharge queue (R49, R142) -/

/-- Place a lot by its clearance number. -/
def insertByClearance (x : Nat × Nat) (q : List (Nat × Nat)) : List (Nat × Nat) :=
  match q with
  | [] => [x]
  | y :: ys => if x.2 < y.2 then x :: y :: ys else y :: insertByClearance x ys

/-- A lot leaves the queue. -/
def leaveQueue (n : Nat) (p : Part) : Part :=
  { p with gate := { p.gate with queue := p.gate.queue.filter (fun x => decide (x.1 ≠ n)) } }

/-- A CLEARED lot that is not held joins the queue in the place of its clearance number. -/
def joinQueue (n : Nat) (p : Part) : Part :=
  match findLot n p with
  | none => p
  | some l =>
    if l.state = .cleared ∧ l.held = false then
      let q := leaveQueue n p
      { q with gate := { q.gate with queue := insertByClearance (n, l.clearanceNo.getD 0) q.gate.queue } }
    else p

/-! ## Opening (R36, R38, R14) -/

/-- The record of a new lot. -/
def newLot (n : Nat) (v : VesselId) (s : LotState) (now : Stamp) : Lot :=
  { number := n, vessel := v, state := s, opened := now }

/-- Give a new lot the next free lot number and put it among the open lots. -/
def addLot (v : VesselId) (s : LotState) (f : Lot → Lot) (p : Part) : Part × Nat :=
  let held := p.lot.lots.map Lot.number ++ p.lot.closed.map ClosedLot.number
  let n := freeNumberFrom 25 p.lot.nextLot held
  ({ p with lot := { p.lot with
      lots := p.lot.lots ++ [f (newLot n v s p.gate.clock)], nextLot := numberAfter n } }, n)

/-- The fill-age timer as started: the limit, or none for a limit of 0 (R42). -/
def fillAgeStart (p : Part) : Option Nat :=
  if p.lot.times.fillAge = 0 then none else some p.lot.times.fillAge

/-- The Lot Unit's answer to an owner that wants to bring water into a lot (R38). -/
inductive LotAnswer where
  | named (lot : Nat) (v : VesselId)
  | sealPending
  | noVessel
  | noSpace
  deriving DecidableEq, Repr

/-- The vessel of a new lot: the lowest-numbered with role HOLD, no lot and inlet OPEN (R38). -/
def newLotVessel (p : Part) : Option VesselId :=
  allVessels.find? (fun v => decide ((vesselRec p v).role = .hold) && (lotOf v p).isNone &&
    decide ((vesselRec p v).inlet = .opened))

/-- Ask for the FILLING lot with `want` litres; a lot opens where none is FILLING and one can (R38). -/
def askFilling (want : Nat) (p : Part) : Part × LotAnswer :=
  match fillingLot p with
  | some l => if l.sealPending.isSome then (p, .sealPending) else (p, .named l.number l.vessel)
  | none =>
    match newLotVessel p with
    | none => (p, .noVessel)
    | some v =>
      if capacityOf p v < want then (p, .noSpace)
      else
        let r := addLot v .filling (fun l => { l with timer := fillAgeStart p }) p
        (lotNotice r.2 .filling .opened r.1, .named r.2 v)

/-! ## Contributions and outflow (R40, R41) -/

/-- Add to the entry of a source. -/
def Contribution.grow (litres mg : Nat) (c : Contribution) : Contribution :=
  { c with litres := c.litres + litres, mg := c.mg + mg }

/-- Enter a booking in a contributions list (R40). -/
def contribute (src : ContribSource) (litres mg : Nat) (l : List Contribution) : List Contribution :=
  if litres = 0 ∧ mg = 0 then l
  else if l.any (fun c => decide (c.source = src)) then
    l.map (fun c => if c.source = src then c.grow litres mg else c)
  else if (l.filter (fun c => decide (c.source ≠ .other))).length < 15 then l ++ [⟨src, litres, mg⟩]
  else if l.any (fun c => decide (c.source = .other)) then
    l.map (fun c => if c.source = .other then c.grow litres mg else c)
  else l ++ [⟨.other, litres, mg⟩]

/-! ## Sampling, sealing, closing -/

/-- Entry to SAMPLING (R45): the sample number rises and the sample duration runs. -/
def enterSampling (n : Nat) (r : LotReason) (p : Part) : Part :=
  lotNotice n .sampling r (updLot n (fun l =>
    { l with state := .sampling, sampleNumber := l.sampleNumber + 1
             timer := some p.lot.times.sampleDuration }) p)

/-- A lot that has just entered SETTLING goes on at once with a settle time of 0 (R44, log 16). -/
def settleOrSample (n : Nat) (p : Part) : Part :=
  if p.lot.times.settle = 0 then enterSampling n .settled p else p

/-- The LOT STATE reason of what made a lot due to seal. -/
def SealReason.toLot : SealReason → LotReason
  | .sealVolume => .sealVolume
  | .fillAge => .fillAge
  | .host => .host

/-- Seal a lot (R43). -/
def sealLot (b : Books) (l : Lot) (r : SealReason) (p : Part) : Part :=
  let h := b.vessel l.vessel
  let p1 := updLot l.number (fun x =>
    { x with state := .settling, sealed := some p.gate.clock, volumeAtSeal := some h.volume
             massAtSeal := some h.mass, sealPending := none, timer := some p.lot.times.settle }) p
  settleOrSample l.number (lotNotice l.number .settling r.toLot p1)

/-- The end kind of a lot that closes (R52). -/
def endKindOf (l : Lot) : EndKind :=
  match decide (0 < l.dischargedVolume), decide (0 < l.returnedVolume) with
  | true, false => .discharged
  | false, true => .returned
  | true, true => .split
  | false, false => .emptied

/-- The LOT STATE reason of an end kind. -/
def EndKind.toLot : EndKind → LotReason
  | .discharged => .discharged
  | .returned => .returned
  | .split => .split
  | .emptied => .emptied

/-- The closed record of a lot (R52). -/
def closedRecord (l : Lot) (k : EndKind) (now : Stamp) : ClosedLot where
  number := l.number
  vessel := l.vessel
  opened := l.opened
  sealed := l.sealed
  closed := now
  volumeAtSeal := l.volumeAtSeal
  massAtSeal := l.massAtSeal
  measuredConc := l.measuredConc
  samples := l.sampleNumber
  dischargedVolume := l.dischargedVolume
  dischargedMass := l.dischargedMass
  returnedVolume := l.returnedVolume
  returnedMass := l.returnedMass
  endKind := k

/-- Add a record to the Closed Lot List, dropping the oldest of 16 (R53). -/
def addClosed (c : ClosedLot) (l : List ClosedLot) : List ClosedLot :=
  (if l.length < 16 then l else l.tail) ++ [c]

/-- The frame that names a lot loses its lot field (R50). -/
def unbindFrames (n : Nat) (p : Part) : Part :=
  { p with flt := { p.flt with
      stack := p.flt.stack.map (fun f => if f.lot = some n then { f with lot := none } else f) } }

/-- Close a lot (R52): the closed record, the leave from queue and frame, and LOT STATE with state CLOSED. -/
def closeLot (l : Lot) (k : EndKind) (p : Part) : Part :=
  let p1 := { p with lot := { p.lot with
    lots := p.lot.lots.filter (fun x => decide (x.number ≠ l.number))
    closed := addClosed (closedRecord l k p.gate.clock) p.lot.closed } }
  notify (.lotState l.number none k.toLot) (unbindFrames l.number (leaveQueue l.number p1))

/-- An inflow in flight: a movement whose destination is the lot's vessel inlet (R42). -/
def inflowInFlight (p : Part) (v : VesselId) : Bool :=
  p.mov.entries.any (fun m => decide (m.dest = .vesselInlet v))

/-- A FILLING lot is due to seal (R42, R56). -/
def dueToSeal (b : Books) (l : Lot) (r : SealReason) (p : Part) : Part :=
  if l.sealPending.isSome then p
  else if inflowInFlight p l.vessel then
    updLot l.number (fun x => { x with sealPending := some r, timer := none }) p
  else if 0 < (b.vessel l.vessel).volume then sealLot b l r p
  else match r with
    | .fillAge => updLot l.number (fun x => { x with timer := fillAgeStart p }) p
    | .host => closeLot l .emptied p
    | .sealVolume => p

/-- The seal check at a booking into a lot (R42). -/
def sealCheck (b : Books) (n : Nat) (p : Part) : Part :=
  match findLot n p with
  | none => p
  | some l =>
    match (vesselRec p l.vessel).sealVolume with
    | none => p
    | some k =>
      if l.state = .filling ∧ k ≤ (b.vessel l.vessel).volume then dueToSeal b l .sealVolume p else p

/-- The end of the inflow of a lot (R43): a seal-pending lot seals, or at volume 0 has its seal withdrawn. -/
def inflowEnds (b : Books) (lot : Option Nat) (p : Part) : Part :=
  match lot.bind (fun n => findLot n p) with
  | none => p
  | some l =>
    match l.sealPending with
    | none => p
    | some r =>
      if 0 < (b.vessel l.vessel).volume then sealLot b l r p
      else lotNotice l.number .filling .sealWithdrawn
        (updLot l.number (fun x => { x with sealPending := none, timer := fillAgeStart p }) p)

/-! ## Clearing, rejecting, suspending (R37, R48 to R51) -/

/-- Take a lot to CLEARED; the first time it takes its clearance number and the cleared time. It joins the
queue unless held (R37, R49). -/
def clearLot (n : Nat) (r : LotReason) (p : Part) : Part :=
  match findLot n p with
  | none => p
  | some l =>
    let p1 := match l.clearanceNo with
      | some _ => updLot n (fun x => { x with state := .cleared, timer := none, bindingFrame := none }) p
      | none =>
        let q := updLot n (fun x =>
          { x with state := .cleared, timer := none, bindingFrame := none
                   clearanceNo := some p.lot.nextClearance, cleared := some p.gate.clock }) p
        { q with lot := { q.lot with nextClearance := q.lot.nextClearance + 1 } }
    joinQueue n (lotNotice n .cleared r p1)

/-- Take a lot to REJECTED; the first time it takes its reject reason and rejection number (R37, R51). -/
def rejectLot (n : Nat) (why : Option RejectReason) (r : LotReason) (p : Part) : Part :=
  match findLot n p with
  | none => p
  | some l =>
    let p1 := match l.rejectionNo with
      | some _ => updLot n (fun x => { x with state := .rejected, timer := none, bindingFrame := none }) p
      | none =>
        let q := updLot n (fun x =>
          { x with state := .rejected, timer := none, bindingFrame := none, rejectReason := why
                   rejectionNo := some p.lot.nextRejection }) p
        { q with lot := { q.lot with nextRejection := q.lot.nextRejection + 1 } }
    leaveQueue n (lotNotice n .rejected r p1)

/-- Take the lot of a bound DISCHARGE to SUSPENDED and name it in the frame (R50, R171). -/
def suspendLot (n depth : Nat) (p : Part) : Part :=
  let p1 := updLot n (fun x => { x with state := .suspended, bindingFrame := some depth }) p
  let p2 := { p1 with flt := { p1.flt with
    stack := p1.flt.stack.modify (depth - 1) (fun f => { f with lot := some n }) } }
  lotNotice n .suspended .fault p2

/-- A DISCHARGE has started for a lot: DISCHARGING, out of the queue in the same event (R49). -/
def dischargeStarts (n : Nat) (p : Part) : Part :=
  leaveQueue n (lotNotice n .discharging .dischargeStart
    (updLot n (fun x => { x with state := .discharging }) p))

/-- A RETURN has started for a lot (R51). -/
def returnStarts (n : Nat) (p : Part) : Part :=
  lotNotice n .returning .returnStart (updLot n (fun x => { x with state := .returning }) p)

end Sys2Proof.Machine
end

