-- ==== Sys2Proof/Machine/Gate.lean ====
section
/-! DEFINITION. The Discharge Gate's state, its selection and the day's debit (8.5 to 8.7). -/

namespace Sys2Proof.Machine

/-- Recompute the gate state; a change sends GATE with the reason of the event, and the lot while RUNNING
(R140). -/
def recomputeGate (r : GateReason) (p : Part) : Part :=
  let new := gateStateOf p
  if new = p.gate.state then p
  else
    let lot := if new = .running then (dischargeMove p).bind Movement.lot else none
    notify (.gate p.gate.state new r lot) { p with gate := { p.gate with state := new } }

/-- Record the outcome of a selection (R144). -/
def selectionOutcome (o : SelOutcome) (p : Part) : Part :=
  { p with gate := { p.gate with outcome := some o } }

/-- The first queued lot that fits (R143, R144). -/
def firstFit (b : Books) (p : Part) : Option Lot :=
  (p.gate.queue.filterMap (fun x => findLot x.1 p)).find? (lotFits b p.gate)

/-- Start the DISCHARGE of the lot taken (R144). -/
def startDischarge (b : Books) (l : Lot) (p : Part) : Part :=
  let r := askStart b { kind := .discharge, source := .vesselOutlet l.vessel, dest := .outfall,
                        requested := (b.vessel l.vessel).volume, lot := some l.number,
                        waiter := some .discharge } p
  match r.2 with
  | .started _ => selectionOutcome .started (recomputeGate .dischargeStart (dischargeStarts l.number r.1))
  | .refused why => selectionOutcome (.refused why) r.1

/-- The gate is OPEN and its conditions still hold: a LOCKDOWN or a SHUT OUTFALL that the gate has not yet been told
of already keeps it from a start (R141). -/
def gateOpen (p : Part) : Bool := decide (p.gate.state = .open_ ∧ gateStateOf p = .open_)

/-- A selection, made while the gate is OPEN (R144). With a probe absent the outcome is PROBE, also where the gate
is held or the queue empty (the model's choice, log 73). -/
def selectLot (b : Books) (p : Part) : Part :=
  if !gateOpen p then leaveWaiting .discharge p
  else if p.gate.silver.isNone || p.gate.ph.isNone then
    selectionOutcome .probe (leaveWaiting .discharge p)
  else if kindHeld p .discharge then selectionOutcome .held (leaveWaiting .discharge p)
  else if p.gate.queue.isEmpty then selectionOutcome .noLot (leaveWaiting .discharge p)
  else match firstFit b p with
    | none => selectionOutcome .noFit (leaveWaiting .discharge p)
    | some l => startDischarge b l p

/-- The day's debit of an increment: the greater of the lot's measured concentration and the last silver
reading (R145). A reading that is absent counts as 0 (log 19). -/
def debitDay (litres conc : Nat) (p : Part) : Part :=
  { p with gate := { p.gate with
      todayVolume := p.gate.todayVolume + litres
      todayMass := p.gate.todayMass + litres * max conc (p.gate.silver.getD 0) } }

/-- The persistence timers stop at the end of the discharge (R150, R151). -/
def stopPersistence (p : Part) : Part :=
  { p with gate := { p.gate with silverTimer := none, phTimer := none } }

/-- The mass allowance less today's mass is below the floor (R146, R147). -/
def floorReached (g : Gate) : Bool :=
  match g.limits.massAllowance with
  | none => false
  | some a => decide ((a : Int) - g.todayMass < g.limits.floor)

/-- What the gate does after an increment (R146): the first check that applies. -/
inductive IncrementCheck where
  | floor | pause | none
  deriving DecidableEq, Repr

/-- The checks of R146, in order, for a lot with `left` litres remaining. -/
def incrementCheck (g : Gate) (left : Nat) : IncrementCheck :=
  let spent := match g.limits.massAllowance with
    | some a => decide (a ≤ g.todayMass)
    | none => false
  let tight := match volumeHeadroom g with
    | some h => decide (h < 10 ∧ h < (left : Int))
    | none => false
  if g.limits.floorEnable && floorReached g then .floor
  else if !g.limits.floorEnable && spent then .pause
  else if tight then .pause
  else .none

end Sys2Proof.Machine
end

