-- ==== Sys2Proof/Machine/Regulation.lean ====
section
/-! DEFINITION. The needs of the Regulation and Return Unit: the spill check, the fill check and the return
engine, as far as they start movements (R104, R105, R109, R111, R112), and the valve and block checks of
REUSE (R106, R107). The cuts at the marks are in Ends.lean. -/

namespace Sys2Proof.Machine

/-! ## Needs (R100, R109) -/

/-- A WAITING need holds its place in the waiting list; IDLE and RUNNING needs have none (R109). -/
def settlePlace (o : WaitOwner) (n : Need) (ports : Option (Port × Port)) (p : Part) : Part :=
  match n with
  | .waiting _ => enterWaiting o ports p
  | .idle | .running _ => leaveWaiting o p

/-- Set the spill need. -/
def setSpill (n : Need) (ports : Option (Port × Port)) (p : Part) : Part :=
  settlePlace .spill n ports { p with reg := { p.reg with spill := n } }

/-- Set the fill need. -/
def setFill (n : Need) (ports : Option (Port × Port)) (p : Part) : Part :=
  settlePlace .fill n ports { p with reg := { p.reg with fill := n } }

/-- Set the return engine's need and source; the engine keeps its place whenever it is not RUNNING (R109). -/
def setReturn (n : Need) (src : Option ReturnSource) (ports : Option (Port × Port)) (p : Part) : Part :=
  let p1 := { p with reg := { p.reg with ret := n, returnSource := src } }
  match n with
  | .running _ => leaveWaiting .returnEngine p1
  | .idle | .waiting _ => enterWaiting .returnEngine ports p1

/-- A need is RUNNING. -/
def Need.isRunning : Need → Bool
  | .running _ => true
  | .idle | .waiting _ => false

/-- A need is WAITING. -/
def Need.isWaiting : Need → Bool
  | .waiting _ => true
  | .idle | .running _ => false

/-! ## The spill (R104) -/

/-- The excess of REUSE over its high mark. -/
def spillExcess (b : Books) (p : Part) (reuse : VesselId) : Nat :=
  (b.vessel reuse).volume - reuseHighVolume p

/-- Ask for a SPILL of the excess `e` into the lot named. A need that waits NO SPACE shows the two ports it would ask for, one
that waits DISABLED none (the model's choice, log 75). -/
def startSpill (b : Books) (reuse target : VesselId) (lot e : Nat) (p : Part) : Part :=
  if (vesselRec p target).inlet = .disabled then setSpill (.waiting .disabled) none p
  else
    let want := min e (freeSpace b p (capacityOf p target) target)
    let ports := some (Port.vesselOutlet reuse, Port.vesselInlet target)
    if want = 0 then setSpill (.waiting .noSpace) ports p
    else
      let r := askStart b { kind := .spill, source := .vesselOutlet reuse, dest := .vesselInlet target,
                            requested := want, lot := some lot } p
      match r.2 with
      | .started n => setSpill (.running n) none r.1
      | .refused why => setSpill (.waiting why) ports r.1

/-- The spill check of a need that is not RUNNING (R104, R109). One that the check holds back before it has a target shows no
ports (the model's choice, log 75). -/
def spillCheck (b : Books) (p : Part) : Part :=
  if p.reg.spill.isRunning then p
  else match p.reg.switchOn, roleVessel .reuse p with
    | true, some v =>
      let e := spillExcess b p v
      if kindHeld p .spill then setSpill (.waiting .held) none p
      else if e = 0 then setSpill .idle none p
      else if (actionsInForce p).stopRegulation then setSpill (.waiting .stopped) none p
      else
        let a := askFilling (min e 100) p
        match a.2 with
        | .sealPending => setSpill (.waiting .sealPending) none a.1
        | .noVessel => setSpill (.waiting .noVessel) none a.1
        | .noSpace => setSpill (.waiting .noSpace) none a.1
        | .named lot target => startSpill b v target lot e a.1
    | _, _ => setSpill .idle none p

/-! ## The fill (R105) -/

/-- The shortfall of REUSE below its low mark. -/
def fillShortfall (b : Books) (p : Part) (reuse : VesselId) : Nat :=
  reuseLowVolume p - (b.vessel reuse).volume

/-- The fill check of a need that is not RUNNING (R105, R109). -/
def fillCheck (b : Books) (p : Part) : Part :=
  if p.reg.fill.isRunning then p
  else match p.reg.switchOn, roleVessel .reuse p with
    | true, some v =>
      let s := fillShortfall b p v
      if kindHeld p .fill then setFill (.waiting .held) none p
      else if s = 0 then setFill .idle none p
      else if (actionsInForce p).stopRegulation then setFill (.waiting .stopped) none p
      else
        let r := askStart b { kind := .fill, source := .mains, dest := .makeupEntry, requested := s } p
        match r.2 with
        | .started n => setFill (.running n) none r.1
        | .refused why => setFill (.waiting why) (some (.mains, .makeupEntry)) r.1
    | _, _ => setFill .idle none p

/-- A WAITING spill need re-examines (R109). -/
def reexamineSpill (b : Books) (p : Part) : Part :=
  if p.reg.spill.isWaiting then spillCheck b p else p

/-- A WAITING fill need re-examines (R109). -/
def reexamineFill (b : Books) (p : Part) : Part :=
  if p.reg.fill.isWaiting then fillCheck b p else p

/-! ## The return engine (R111, R112) -/

/-- Of two lots, the one with the lower rejection number. -/
def lowerRejection (a l : Lot) : Lot :=
  if l.rejectionNo.getD 0 < a.rejectionNo.getD 0 then l else a

/-- The unheld REJECTED lot with the lowest rejection number (R111). -/
def firstRejected (p : Part) : Option Lot :=
  match p.lot.lots.filter (fun l => decide (l.state = .rejected) && !l.held) with
  | [] => none
  | l :: ls => some (ls.foldl lowerRejection l)

/-- The source the engine finds: its name, vessel and lot (R111). -/
def findReturnSource (b : Books) (p : Part) : Option (ReturnSource × VesselId × Option Nat) :=
  match firstRejected p with
  | some l => some (.lot l.number, l.vessel, some l.number)
  | none =>
    match roleVessel .quarantine p with
    | some v => if 0 < (b.vessel v).volume then some (.quarantine, v, none) else none
    | none => none

/-- Ask for a RETURN from a source into FEED when the three conditions of R112 hold. A need held back here shows the two ports
it would ask for, one held back before none (the model's choice, log 75). -/
def startReturn (b : Books) (feed v : VesselId) (src : ReturnSource) (lot : Option Nat) (p : Part) : Part :=
  let avail := (b.vessel v).volume
  let room := admissionLimit p - (b.vessel feed).volume
  let want := min avail room
  let ports := some (Port.vesselOutlet v, Port.vesselInlet feed)
  if portBusy p (.vesselInlet feed) then setReturn (.waiting .inletBusy) (some src) ports p
  else if room = 0 then setReturn (.waiting .feedFull) (some src) ports p
  else if want < min avail 50 then setReturn (.waiting .tooSmall) (some src) ports p
  else if (vesselRec p feed).inlet = .disabled then setReturn (.waiting .disabled) (some src) ports p
  else
    let r := askStart b { kind := .ret, source := .vesselOutlet v, dest := .vesselInlet feed,
                          requested := want, lot := lot } p
    match r.2 with
    | .refused why => setReturn (.waiting why) (some src) ports r.1
    | .started n =>
      let q := setReturn (.running n) (some src) none r.1
      match lot with
      | some k => returnStarts k q
      | none => q

/-- An examination of the return engine's need (R109, R111, R112); log 26 for the order of the reasons,
log 72 for the source, absent while the need is held. -/
def examineReturn (b : Books) (p : Part) : Part :=
  if p.reg.ret.isRunning then p
  else if kindHeld p .ret then setReturn (.waiting .held) none none p
  else match findReturnSource b p with
    | none => setReturn .idle none none p
    | some (src, v, lot) =>
      if (actionsInForce p).stopRegulation then setReturn (.waiting .stopped) (some src) none p
      else match roleVessel .feed p with
        | none => setReturn (.waiting .mode) (some src) none p
        | some f => startReturn b f v src lot p

/-- Every need re-examines (R109), in the order spill, fill, return (the model's choice, log 77). -/
def reexamineNeeds (b : Books) (p : Part) : Part :=
  examineReturn b (reexamineFill b (reexamineSpill b p))

/-! ## The supply valve and the overflow block (R106, R107) -/

/-- The supply valve check (R107), by the marks that are held, whatever the switch (log 67). Where both conditions hold at
one volume the closing goes first, one action at each check (the model's choice, log 65). -/
def supplyCheck (b : Books) (p : Part) : Part :=
  match roleVessel .reuse p with
  | none => { p with reg := { p.reg with supplyOpen := false } }
  | some v =>
    let vol := (b.vessel v).volume
    if vol ≤ p.reg.marks.reserve ∧ p.reg.supplyOpen = true then
      notify (.reserveLow false vol) { p with reg := { p.reg with supplyOpen := false } }
    else if reuseLowVolume p ≤ vol ∧ p.reg.supplyOpen = false then
      notify (.reserveLow true vol) { p with reg := { p.reg with supplyOpen := true } }
    else p

/-- The overflow block check (R106). -/
def blockCheck (b : Books) (v : VesselId) (p : Part) : Part :=
  let vol := (b.vessel v).volume
  if capacityOf p v - p.reg.marks.headroom < vol ∧ (vesselRec p v).regBlock = false then
    notify (.overflow v true vol) (updVessel v (fun r => { r with regBlock := true }) p)
  else if vol ≤ reuseHighVolume p ∧ (vesselRec p v).regBlock = true then
    notify (.overflow v false vol) (updVessel v (fun r => { r with regBlock := false }) p)
  else p

/-- Check 3 of R101 on given marks, for the REUSE vessel where it has a capacity: reserve below the low-mark
volume, capacity less headroom above the high-mark volume. -/
def marksFit (capacity : Nat) (m : Marks) : Bool :=
  decide (m.reserve < markVolume (some capacity) m.reuseLow ∧
    markVolume (some capacity) m.reuseHigh < capacity - m.headroom)

end Sys2Proof.Machine
end

