-- ==== Sys2Proof/Machine/Cells.lean ====
section
/-! DEFINITION. The Cell Unit: states, rectifiers, drain targets and the feed-outlet arbiter (chapter 7). -/

namespace Sys2Proof.Machine

/-- A change of a cell's state with its CELL STATE notice (R116), which goes before the notices that this change brings
(log 87). -/
def setCellState (c : CellId) (s : CellState) (r : CellReason) (p : Part) : Part :=
  notify (.cellState c s r) (updCell c (fun x => { x with state := s }) p)

/-- Set a cell's step. -/
def setStep (c : CellId) (n : Need) (p : Part) : Part := updCell c (fun x => { x with step := n }) p

/-- A WAITING drain holds its place in the waiting list (R125). -/
def drainWaits (c : CellId) (r : WaitReason) (ports : Option (Port × Port)) (p : Part) : Part :=
  enterWaiting (.drain c) ports (setStep c (.waiting r) p)

/-! ## The end of a drain (R126) -/

/-- The drain of a cell ends with its liquor at 0: HARVEST when harvest is required, else IDLE. -/
def finishDrain (c : CellId) (p : Part) : Part :=
  let r := cellRec p c
  let p1 := updCell c (fun x => { x with harvestRequired := false, step := .idle }) p
  leaveWaiting (.drain c) (setCellState c (if r.harvestRequired then .harvest else .idle) .drained p1)

/-! ## Drain targets (R125) -/

/-- The tests of a drain target, in order; the first that fails gives the reason. -/
def drainTestFails (b : Books) (p : Part) (v : VesselId) (liquor : Nat) : Option WaitReason :=
  if (vesselRec p v).inlet = .disabled then some .disabled
  else if freeSpace b p (capacityOf p v) v < liquor then some .noSpace
  else if portBusy p (.vesselInlet v) then some .inletBusy
  else none

/-- Ask for the DRAIN into the target taken. -/
def startDrain (b : Books) (c : CellId) (v : VesselId) (lot : Option Nat) (p : Part) : Part :=
  let r := askStart b { kind := .drain, source := .cellOutlet c, dest := .vesselInlet v,
                        requested := (b.liquor c).volume, lot := lot, waiter := some (.drain c) } p
  match r.2 with
  | .started n => setStep c (.running n) r.1
  | .refused why => drainWaits c why (some (.cellOutlet c, .vesselInlet v)) r.1

/-- The second candidate: the QUARANTINE vessel; none counts as DISABLED. A drain whose candidate fails a test shows the ports
it would ask for (the model's choice, log 75). -/
def drainToQuarantine (b : Books) (c : CellId) (p : Part) : Part :=
  match roleVessel .quarantine p with
  | none => drainWaits c .disabled none p
  | some v =>
    match drainTestFails b p v (b.liquor c).volume with
    | some why => drainWaits c why (some (.cellOutlet c, .vesselInlet v)) p
    | none => startDrain b c v none p

/-- Walk the candidates of R125. -/
def walkDrain (b : Books) (c : CellId) (p : Part) : Part :=
  if decide ((cellRec p c).drainPref = .quarantineOnly) || decide (p.ctl.mode = .lockdown) then
    drainToQuarantine b c p
  else
    let a := askFilling (b.liquor c).volume p
    match a.2 with
    | .named lot v =>
      if (drainTestFails b a.1 v (b.liquor c).volume).isSome then drainToQuarantine b c a.1
      else startDrain b c v (some lot) a.1
    | .sealPending | .noVessel | .noSpace => drainToQuarantine b c a.1

/-- In a mode that starts no movement the step stands WAITING with reason MODE, whichever candidate failed (R131,
log 17). -/
def drainInMode (c : CellId) (p : Part) : Part :=
  if p.ctl.mode.running then p else setStep c (.waiting .mode) p

/-- A DRAINING cell whose step is not RUNNING seeks its target, in every mode (R125). -/
def seekDrain (b : Books) (c : CellId) (p : Part) : Part :=
  let r := cellRec p c
  if r.state ≠ .draining ∨ r.step.isRunning = true then p
  else if cellHeld p c then drainWaits c .held none p
  else drainInMode c (walkDrain b c p)

/-- Every DRAINING cell seeks, lowest number first (the model's choice, log 77). -/
def seekDrains (b : Books) (p : Part) : Part := allCells.foldl (fun q c => seekDrain b c q) p

/-- Entry to DRAINING (R124): the rectifier OFF, the run timer stopped. -/
def enterDraining (c : CellId) (r : CellReason) (p : Part) : Part :=
  setCellState c .draining r (updCell c (fun x =>
    { x with rectifier := false, paused := false, runTimer := none }) p)

/-- The drain of a cell that has just entered DRAINING; with no liquor it ends at once (R125). -/
def beginDrain (b : Books) (c : CellId) (p : Part) : Part :=
  if (b.liquor c).volume = 0 then finishDrain c p else seekDrain b c p

/-! ## Plating checks and the rectifier (R122, R124) -/

/-- The checks of R124 against the cathode load and a concentration. -/
def platingChecks (b : Books) (c : CellId) (conc : Option Nat) (p : Part) : Part :=
  let r := cellRec p c
  let full := match r.cathodeCapacity with
    | some k => decide (k ≤ b.cathode c)
    | none => false
  let done := match conc with
    | some x => decide (x ≤ r.endConc)
    | none => false
  if full then
    let p1 := enterDraining c .cathodeFull (updCell c (fun x => { x with harvestRequired := true }) p)
    beginDrain b c (notify (.harvestNeeded c (b.cathode c)) p1)
  else if done then beginDrain b c (enterDraining c .endConcentration p)
  else p

/-- Bring a cell's rectifier to its four conditions (R122). A cell whose paused flag clears makes the checks
of R124 at once. -/
def settleCell (b : Books) (c : CellId) (p : Part) : Part :=
  let r := cellRec p c
  let on := rectifierWanted p c
  let pause := decide (r.state = .plating) && !on
  let p1 := updCell c (fun x => { x with rectifier := on, paused := pause }) p
  if decide (r.state = .plating) && r.paused && !pause then platingChecks b c r.lastProbe p1 else p1

/-- Every cell's rectifier, lowest number first (the model's choice, log 77). -/
def settleCells (b : Books) (p : Part) : Part := allCells.foldl (fun q c => settleCell b c q) p

/-! ## The arbiter (R119, R120) -/

/-- Record what the arbiter decided. -/
def arbiterOutcome (o : ArbOutcome) (c : Option CellId) (p : Part) : Part :=
  { p with cel := { p.cel with outcome := some o, chosen := c } }

/-- A cell the arbiter takes first: CHARGING, WAITING, not held. -/
def wantsRemainder (p : Part) (c : CellId) : Bool :=
  decide ((cellRec p c).state = .charging) && (cellRec p c).step.isWaiting && !cellHeld p c

/-- An IDLE cell that may be granted: not held, its load below its capacity. -/
def mayCharge (b : Books) (p : Part) (c : CellId) : Bool :=
  decide ((cellRec p c).state = .idle) && !cellHeld p c &&
    (match (cellRec p c).cathodeCapacity with
      | some k => decide (b.cathode c < k)
      | none => false)

/-- Of two cells, the one with the lower load; ties keep the first. -/
def lowerLoad (b : Books) (a c : CellId) : CellId := if b.cathode c < b.cathode a then c else a

/-- The arbiter's choice (R119). -/
def arbiterChoice (b : Books) (p : Part) : Option CellId :=
  match allCells.find? (wantsRemainder p) with
  | some c => some c
  | none =>
    match allCells.filter (mayCharge b p) with
    | [] => none
    | c :: cs => some (cs.foldl (lowerLoad b) c)

/-- The charge litres of a cell (R120). -/
def chargeLitres (b : Books) (p : Part) (c : CellId) : Nat :=
  let r := cellRec p c
  if r.state = .charging then r.chargeVolume.getD 0 - (b.liquor c).volume else r.chargeVolume.getD 0

/-- The charge floor's answer (R110): FEED's booked volume less the charge litres is at or above the low-mark
volume. -/
def floorAllows (b : Books) (p : Part) (feed : VesselId) (litres : Nat) : Bool :=
  decide (chargeFloor p + litres ≤ (b.vessel feed).volume)

/-- Grant the chosen cell and ask for its CHARGE (R120). -/
def grantCharge (b : Books) (feed : VesselId) (c : CellId) (p : Part) : Part :=
  let litres := chargeLitres b p c
  let p1 := if (cellRec p c).state = .charging then p else setCellState c .charging .grant p
  let r := askStart b { kind := .charge, source := .vesselOutlet feed, dest := .cellInlet c,
                        requested := litres, waiter := some (.charge c) } p1
  match r.2 with
  | .started n => arbiterOutcome .granted (some c) (setStep c (.running n) r.1)
  | .refused why => arbiterOutcome .granted (some c) (setStep c (.waiting why) r.1)

/-- The chosen cell meets the charge floor's no (R120). -/
def floorRefuses (c : CellId) (p : Part) : Part :=
  let p1 := if (cellRec p c).state = .charging then
    leaveWaiting (.charge c) (setStep c (.waiting .floor) p) else p
  arbiterOutcome .floor (some c) p1

/-- An examination of the arbiter (R119, R120); log 10 for its own changes, log 44 for no FEED vessel. -/
def examineArbiter (b : Books) (p : Part) : Part :=
  if p.ctl.mode ≠ .operating then arbiterOutcome .mode none p
  else if (actionsInForce p).stopCells then arbiterOutcome .stopped none p
  else match roleVessel .feed p with
    | none => arbiterOutcome .outletBusy none p
    | some f =>
      if portBusy p (.vesselOutlet f) then arbiterOutcome .outletBusy none p
      else match arbiterChoice b p with
        | none => arbiterOutcome .none none p
        | some c =>
          if floorAllows b p f (chargeLitres b p c) then grantCharge b f c p else floorRefuses c p

/-- The states and steps of the cells, whose changes the arbiter is examined at (R119). -/
def cellSteps (p : Part) : List (CellState × Need) := allCells.map (fun c => ((cellRec p c).state, (cellRec p c).step))

/-- The arbiter is examined where a state or step of a cell has changed since `old` (R119). -/
def arbiterIfStepped (b : Books) (old p : Part) : Part := if cellSteps p = cellSteps old then p else examineArbiter b p

/-! ## The abandon step (R130) -/

/-- The abandon step of a cell: CHARGING or PLATING goes to DRAINING with liquor, to IDLE without. -/
def abandonStep (b : Books) (c : CellId) (p : Part) : Part :=
  let r := cellRec p c
  match r.state with
  | .charging | .plating =>
    if 0 < (b.liquor c).volume then
      seekDrain b c (leaveWaiting (.charge c) (setStep c .idle (enterDraining c .abandoned p)))
    else leaveWaiting (.charge c) (setCellState c .idle .abandoned (updCell c (fun x =>
      { x with step := .idle, rectifier := false, paused := false, runTimer := none }) p))
  | .offline | .idle | .draining | .harvest => p

/-- A CHARGING cell that waits takes reason MODE where the mode grants no charge (R115, R131). -/
def chargesWaitMode (p : Part) : Part :=
  allCells.foldl (fun q c =>
    let r := cellRec q c
    if r.state = .charging ∧ r.step.isWaiting = true ∧ cellHeld q c = false then setStep c (.waiting .mode) q
    else q) p

end Sys2Proof.Machine
end

