-- ==== Sys2Proof/Machine/Ends.lean ====
section
/-! DEFINITION. The end of a movement (R32), cuts (R29, R30, R31), the re-examination of waiting owners, and
the REUSE evaluation (R103), which cuts at the marks. -/

namespace Sys2Proof.Machine

/-! ## How a movement ends -/

/-- Why a movement is cut. The owner's report reads it for the lot's reason and the cell's step. -/
inductive CutWhy where
  /-- by its owner, or at a probe failure: no binding, no pause -/
  | plain
  /-- the general cut of LOCKDOWN or ENTER COMMISSIONING -/
  | general
  /-- the general cut of a warm restart -/
  | restart
  /-- the ABANDON of a frame that holds the cell (R130) -/
  | abandon
  /-- a pause at the allowance (R146) -/
  | pause
  /-- a pause at a window end (R148) -/
  | windowEnd
  /-- REJECT LOT (R55) -/
  | reject
  /-- the actions of a push, bound to the frame at a depth or unbound (R171) -/
  | frame (bound : Option Nat)
  deriving DecidableEq, Repr

/-- How a movement ended (R32); a stall names the depth of its FLOW STALL frame where it was stacked. -/
inductive Ending where
  | complete
  | cut (why : CutWhy)
  | stall (bound : Option Nat)
  deriving DecidableEq, Repr

/-- The reason a cell waits after a CHARGE or DRAIN that left work (R121, R126). -/
def Ending.toWait : Ending → WaitReason
  | .stall _ => .stall
  | .cut _ | .complete => .cut

/-! ## The owners' reports (R32 step 1) -/

/-- The end of a SLUG at the Field Link Unit and the Lot Unit: no slug in flight, no pending GO (R77, R30). -/
def slugEnds (b : Books) (m : Movement) (p : Part) : Part :=
  let p1 := match m.slug with
    | none => p
    | some s => updUnit s.unit (fun u =>
        { u with slug := none, outbound := if u.outbound = some .go then none else u.outbound }) p
  inflowEnds b m.lot p1

/-- The end of a SPILL (R104): the lot first, then the spill check at once. -/
def spillEnds (b : Books) (m : Movement) (p : Part) : Part :=
  spillCheck b (setSpill .idle none (inflowEnds b m.lot p))

/-- The end of a FILL (R105). -/
def fillEnds (b : Books) (p : Part) : Part := fillCheck b (setFill .idle none p)

/-- The lot of a RETURN goes back to REJECTED unless it has closed (R51, R41). -/
def returnedLot (lot : Option Nat) (e : Ending) (p : Part) : Part :=
  match lot with
  | none => p
  | some n => rejectLot n none (if e = .cut .restart then .restart else .returnEnd) p

/-- The end of a RETURN (R113): the lot, then the engine at once. That this examination is made in step 1 of R32, ahead of
the owners in the waiting list, is the model's choice (R113 says both at once and in step 2; log 83). -/
def returnEnds (b : Books) (m : Movement) (e : Ending) (p : Part) : Part :=
  examineReturn b (setReturn .idle none none (returnedLot m.lot e p))

/-- A cell whose CHARGE completed goes to PLATING (R121). -/
def chargeCompletes (b : Books) (c : CellId) (p : Part) : Part :=
  settleCell b c (setCellState c .plating .charged (updCell c (fun x =>
    { x with step := .idle, lastProbe := none, runTimer := x.runLimit, paused := false }) p))

/-- The end of a CHARGE (R121, R130). One cut by an ABANDON takes the abandon step; else one that ends short waits
HELD where a frame holds the cell, in every mode, and MODE where none does and the mode is not OPERATING, also where it
stalls and its own FLOW STALL has entered LOCKDOWN (R121 gives STALL, R131 MODE; the model's choice, log 84). -/
def chargeEnds (b : Books) (c : CellId) (e : Ending) (p : Part) : Part :=
  if e = .complete then chargeCompletes b c p
  else if e = .cut .abandon then abandonStep b c p
  else if cellHeld p c then setStep c (.waiting .held) p
  else if p.ctl.mode ≠ .operating then setStep c (.waiting .mode) p
  else setStep c (.waiting e.toWait) p

/-- The end of a DRAIN (R126): the cell, then the lot it filled (R116: CELL STATE goes first). -/
def drainEnds (b : Books) (m : Movement) (c : CellId) (e : Ending) (p : Part) : Part :=
  let p1 :=
    if (b.liquor c).volume = 0 then finishDrain c p
    else if cellHeld p c then drainWaits c .held none p
    else if !p.ctl.mode.running then drainWaits c .mode none p
    else drainWaits c e.toWait none p
  inflowEnds b m.lot p1

/-- What the Lot Unit does at the end of a DISCHARGE that left water (R49, R50, R55). -/
def dischargedLot (n : Nat) (e : Ending) (p : Part) : Part :=
  match e with
  | .complete => clearLot n .cut p
  | .stall (some d) => suspendLot n d p
  | .stall none => clearLot n .cut p
  | .cut (.frame (some d)) => suspendLot n d p
  | .cut .pause => clearLot n .pause p
  | .cut .windowEnd => clearLot n .pause p
  | .cut .reject => rejectLot n (some .host) .host p
  | .cut (.frame none) => clearLot n .cut p
  | .cut .plain | .cut .general | .cut .restart | .cut .abandon => clearLot n .cut p

/-- The GATE reason at the end of a DISCHARGE (R140, log 14). -/
def dischargeReason (e : Ending) (p : Part) : GateReason :=
  match e with
  | .cut .general | .cut .restart => .mode
  | .cut .windowEnd => .windowEnd
  | .cut (.frame _) => if (actionsInForce p).shutOutfall then .shutOutfall else .dischargeEnd
  | .complete | .stall _ | .cut .plain | .cut .abandon | .cut .pause | .cut .reject => .dischargeEnd

/-- The end of a DISCHARGE (R148): the lot unless it has closed, then the gate state. -/
def dischargeEnds (m : Movement) (e : Ending) (p : Part) : Part :=
  let p1 := match m.lot.bind (fun n => findLot n p) with
    | none => p
    | some l => dischargedLot l.number e p
  recomputeGate (dischargeReason e p1) (stopPersistence p1)

/-- The owner and the Lot Unit are told the end (R32 step 1, R41). -/
def ownerTold (b : Books) (m : Movement) (e : Ending) (p : Part) : Part :=
  match m.kind with
  | .slug => slugEnds b m p
  | .spill => spillEnds b m p
  | .fill => fillEnds b p
  | .ret => returnEnds b m e p
  | .charge => (match m.dest with
      | .cellInlet c => chargeEnds b c e p
      | .vesselInlet _ | .vesselOutlet _ | .cellOutlet _ | .makeupEntry | .outfall | .sumpUnit _ | .mains => p)
  | .drain => (match m.source with
      | .cellOutlet c => drainEnds b m c e p
      | .vesselInlet _ | .vesselOutlet _ | .cellInlet _ | .makeupEntry | .outfall | .sumpUnit _ | .mains => p)
  | .discharge => dischargeEnds m e p

/-! ## The waiting owners (R32 step 2) -/

/-- Who re-examines at a movement end. A cell's charge is examined by the arbiter (R120). -/
inductive Examiner where
  | spill | fill | returnEngine | arbiter | drain (c : CellId) | gate
  deriving DecidableEq, Repr

/-- The examiner of a place in the waiting list. -/
def WaitOwner.examiner : WaitOwner → Examiner
  | .spill => .spill
  | .fill => .fill
  | .returnEngine => .returnEngine
  | .charge _ => .arbiter
  | .drain c => .drain c
  | .discharge => .gate

/-- Those that each movement end reaches whether or not they stand in the list: the return engine (R109),
DRAINING cells (R125), the arbiter (R119: a drain's step is a change it is examined at), the gate (R144). -/
def standingExaminers : List Examiner :=
  [.returnEngine, .drain 0, .drain 1, .drain 2, .drain 3, .arbiter, .gate]

/-- The examiners of a movement end: the waiting list in its order, then the standing ones, each once
(log 7). -/
def examiners (p : Part) : List Examiner :=
  (p.mov.waiting.map (fun w => w.owner.examiner) ++ standingExaminers).foldl
    (fun acc x => if acc.contains x then acc else acc ++ [x]) []

/-- One owner re-examines its need. -/
def reexamine (b : Books) (x : Examiner) (p : Part) : Part :=
  match x with
  | .spill => reexamineSpill b p
  | .fill => reexamineFill b p
  | .returnEngine => examineReturn b p
  | .arbiter => examineArbiter b p
  | .drain c => seekDrain b c p
  | .gate => selectLot b p

/-- Every waiting owner re-examines, in the order found at the end. -/
def reexamineAll (b : Books) (p : Part) : Part :=
  (examiners p).foldl (fun q x => reexamine b x q) p

/-- The end of a movement that has left the table (R32): the owner is told, then the waiting owners re-examine. -/
def movementEnded (b : Books) (m : Movement) (e : Ending) (p : Part) : Part := reexamineAll b (ownerTold b m e p)

/-- A movement of the table ends (R32): its entry is removed, and it ends. -/
def endMovement (b : Books) (m : Movement) (e : Ending) (p : Part) : Part :=
  movementEnded b m e (removeMove m.number p)

/-! ## Cuts (R29, R30, R31) -/

/-- Set STOP as a unit's pending outbound, in place of a GO (R91). -/
def setStop (u : UnitId) (mv : Nat) (p : Part) : Part :=
  updUnit u (fun r => { r with outbound := some (.stop mv) }) p

/-- Tell the unit of a slug to stop, or that its grant is withdrawn (R30, R91). -/
def stopSlug (m : Movement) (p : Part) : Part :=
  match m.slug with
  | none => p
  | some s => setStop s.unit m.number p

/-- Cut a SLUG by its phase (R30). -/
def cutSlug (b : Books) (m : Movement) (why : CutWhy) (p : Part) : Part :=
  match m.phase with
  | .opening | .ready => endMovement b m (.cut why) (stopSlug m p)
  | .running => updMove m.number (fun x => { x with phase := .stopping }) (stopSlug m p)
  | .stopping => p

/-- Cut the movement of a number; one no longer in the table has no effect (R29). -/
def cutMovement (b : Books) (n : Nat) (why : CutWhy) (p : Part) : Part :=
  match findMove n p with
  | none => p
  | some m => if m.kind = .slug then cutSlug b m why p else endMovement b m (.cut why) p

/-- Cut the DISCHARGE in the table, if any. -/
def cutDischarge (b : Books) (why : CutWhy) (p : Part) : Part :=
  match dischargeMove p with
  | none => p
  | some m => cutMovement b m.number why p

/-- The general cut (R31) of every movement in the table as it stands, in table order (log 8), save a slug
that is being booked (R171) or the DISCHARGE that its gate pauses (R147, log 78). -/
def generalCut (b : Books) (why : CutWhy) (spare : Option Nat) (p : Part) : Part :=
  ((p.mov.entries.map Movement.number).filter (fun n => decide (some n ≠ spare))).foldl
    (fun q n => cutMovement b n why q) p

/-! ## The REUSE evaluation (R103) -/

/-- The movement of a need, cut at its mark (R104, R105). -/
def cutNeed (b : Books) (n : Need) (p : Part) : Part :=
  match n with
  | .running mv => cutMovement b mv .plain p
  | .idle | .waiting _ => p

/-- The spill check of an evaluation: a running SPILL is cut at the high mark, else the check of R104. -/
def spillEvaluation (b : Books) (v : VesselId) (p : Part) : Part :=
  if p.reg.spill.isRunning then
    if spillExcess b p v = 0 then cutNeed b p.reg.spill p else p
  else spillCheck b p

/-- The fill check of an evaluation: a running FILL is cut at the low mark, else the check of R105. -/
def fillEvaluation (b : Books) (v : VesselId) (p : Part) : Part :=
  if p.reg.fill.isRunning then
    if fillShortfall b p v = 0 then cutNeed b p.reg.fill p else p
  else fillCheck b p

/-- The REUSE evaluation (R103). With STOP REGULATION in force the block and the running movements are left
alone, and a need that would start one waits STOPPED (R109). The order in which the checks are made, and so that RESERVE LOW
is queued before OVERFLOW where one evaluation sends both, is the model's choice (R103 gives none; log 88). -/
def reuseEvaluation (b : Books) (p : Part) : Part :=
  let p1 := supplyCheck b p
  match roleVessel .reuse p1 with
  | none => p1
  | some v =>
    if !p1.reg.switchOn then p1
    else if (actionsInForce p1).stopRegulation then fillCheck b (spillCheck b p1)
    else fillEvaluation b v (spillEvaluation b v (blockCheck b v p1))

end Sys2Proof.Machine
end

