-- ==== Sys2Proof/Machine/Faults.lean ====
section
/-! DEFINITION. Raises, pushes and their actions, the entry to LOCKDOWN, and pops (chapter 10). -/

namespace Sys2Proof.Machine

/-! ## Types (R164) -/

/-- The row of a type in the Fault Table: its code less 1. -/
def FaultType.row : FaultType → Fin 16
  | .levelMismatch => 0
  | .flowStall => 1
  | .outfallExcursion => 2
  | .outfallPh => 3
  | .allowanceFloor => 4
  | .vesselOverflow => 5
  | .cellFault => 6
  | .slugTimeout => 7
  | .probeFailure => 8
  | .unitSilent => 9
  | .interlock k => ⟨10 + k.1, by have := k.2; omega⟩

/-- The code of a type, 1 to 16. -/
def FaultType.code (t : FaultType) : Nat := t.row.1 + 1

/-- The condition a frame begins with (R164). -/
def FaultType.atPush : FaultType → Condition
  | .flowStall | .slugTimeout => .cleared
  | .levelMismatch | .outfallExcursion | .outfallPh | .allowanceFloor | .vesselOverflow | .cellFault
  | .probeFailure | .unitSilent | .interlock _ => .present

/-! ## The entry to LOCKDOWN (R177) -/

/-- What every block does when it is told LOCKDOWN (R177 step 4, R131; the order of the blocks: log 49). -/
def blocksLockdown (b : Books) (p : Part) : Part :=
  examineArbiter b (seekDrains b (chargesWaitMode (settleCells b (recomputeGate .mode p))))

/-- Enter LOCKDOWN from OPERATING; in any other mode nothing changes (R177, R168). -/
def enterLockdown (b : Books) (cause : LockdownCause) (spare : Option Nat) (p : Part) : Part :=
  if p.ctl.mode = .operating then
    let p1 := { p with ctl := { p.ctl with mode := .lockdown } }
    blocksLockdown b (notify (.lockdown cause) (generalCut b .general spare p1))
  else p

/-! ## Raises (R164, R167, R168) -/

/-- A raise. `spare` is the number of a movement that no action and no entry to LOCKDOWN cuts: a slug whose DONE or
timeout is being booked (R171), or the DISCHARGE that the gate pauses after a raise not stacked (R147, log 78). -/
structure Raise where
  ftype       : FaultType
  subject     : Subject
  interrupted : Option Movement := none
  spare       : Option Nat := none
  deriving DecidableEq, Repr

/-- The default response holds in COMMISSIONING and for a response not loaded (R157, R167; log 25). -/
def takesDefault (t : FaultType) (p : Part) : Bool :=
  decide (p.ctl.mode = .commissioning) || !(p.flt.table.get t.row).loaded

/-- The frame of a raise (R167). -/
def newFrame (r : Raise) (p : Part) : Frame :=
  let resp := p.flt.table.get r.ftype.row
  let dflt := takesDefault r.ftype p
  let policy := if dflt then .manual else resp.policy
  let hold := if policy = .auto then some resp.hold else none
  let cleared := decide (r.ftype.atPush = .cleared)
  { ftype := r.ftype, time := p.gate.clock, subject := r.subject, interrupted := r.interrupted, lot := none
    actions := if dflt then defaultActions else resp.actions, policy := policy, hold := hold
    condition := r.ftype.atPush, clearedTime := if cleared then some p.gate.clock else none
    holdLeft := if cleared then hold else none }

/-- The last-fault record of a raise (R180). -/
def recordFault (r : Raise) (depth : Option Nat) (p : Part) : Part :=
  { p with flt := { p.flt with last := some ⟨r.ftype, r.subject, p.gate.clock, depth⟩ } }

/-- The depth to which the end of a DISCHARGE is bound: that of the frame whose subject is that discharge
(R171). -/
def boundTo (f : Frame) (depth : Nat) (m : Movement) : Option Nat :=
  match f.subject with
  | .discharge mv _ => if mv = m.number then some depth else none
  | .vessel _ | .movement _ | .cell _ | .unit _ | .probe _ | .pattern _ => none

/-- Step 1 of R171: SHUT OUTFALL cuts the DISCHARGE. -/
def applyShutOutfall (b : Books) (f : Frame) (depth : Nat) (p : Part) : Part :=
  match f.actions.shutOutfall, dischargeMove p with
  | true, some m => cutMovement b m.number (.frame (boundTo f depth m)) p
  | _, _ => p

/-- Step 2 of R171: STOP MOVEMENT cuts the interrupted movement, save a slug being booked. -/
def applyStopMovement (b : Books) (f : Frame) (depth : Nat) (spare : Option Nat) (p : Part) : Part :=
  match f.actions.stopMovement, f.interrupted with
  | true, some m => if some m.number = spare then p else cutMovement b m.number (.frame (boundTo f depth m)) p
  | _, _ => p

/-- Tell a held cell (R130, R172): in CHARGING or DRAINING its step is HELD unless its movement runs on. A cell in another
state, which has no movement of its own, keeps its step (R121 leaves it IDLE; the model's choice, log 85). -/
def holdCell (f : Frame) (c : CellId) (p : Part) : Part :=
  let r := cellRec p c
  if f.holdsCell c && !r.step.isRunning then
    match r.state with
    | .charging => setStep c (.waiting .held) p
    | .draining => drainWaits c .held none p
    | .offline | .idle | .plating | .harvest => p
  else p

/-- Tell the owners that a new frame holds (R172). A held gate reads the frame at its selections. -/
def holdOwners (f : Frame) (p : Part) : Part :=
  let p1 := allCells.foldl (fun q c => holdCell f c q) p
  let p2 := if f.holdsKind .spill && !p1.reg.spill.isRunning then setSpill (.waiting .held) none p1 else p1
  let p3 := if f.holdsKind .fill && !p2.reg.fill.isRunning then setFill (.waiting .held) none p2 else p2
  if f.holdsKind .ret && !p3.reg.ret.isRunning then setReturn (.waiting .held) none none p3 else p3

/-- Whether a frame holds any cell. -/
def Frame.holdsAnyCell (f : Frame) : Bool := allCells.any (fun c => f.holdsCell c)

/-- Announce the actions in force after a push (R170, R171 step 3), given those before it. The order of the blocks is the
model's (log 71). -/
def announcePush (b : Books) (f : Frame) (old : ActionSet) (p : Part) : Part :=
  let new := actionsInForce p
  let p1 := if new.shutOutfall && !old.shutOutfall then recomputeGate .shutOutfall p else p
  let p2 := holdOwners f (settleCells b p1)
  let p3 := if new.stopRegulation && !old.stopRegulation then reexamineNeeds b p2 else p2
  if decide (new ≠ old) || f.holdsAnyCell then examineArbiter b p3 else p3

/-- Apply the actions of a frame just pushed, in the order of R171. -/
def applyActions (b : Books) (f : Frame) (depth : Nat) (spare : Option Nat) (old : ActionSet) (p : Part) :
    Part :=
  let p1 := applyStopMovement b f depth spare (applyShutOutfall b f depth p)
  let p2 := announcePush b f old p1
  if f.actions.lockdown then enterLockdown b (.action depth f.ftype) spare p2 else p2

/-- Push a frame (R167). -/
def pushFrame (b : Books) (r : Raise) (p : Part) : Part :=
  let f := newFrame r p
  let depth := p.flt.stack.length + 1
  let p1 := recordFault r (some depth) { p with flt := { p.flt with stack := p.flt.stack ++ [f] } }
  let p2 := notify (.fault depth r.ftype r.subject f.actions f.policy f.time) p1
  applyActions b f depth r.spare (actionsInForce p) p2

/-- A raise that finds six frames (R168). -/
def notStacked (b : Books) (r : Raise) (p : Part) : Part :=
  enterLockdown b .fullStack r.spare
    (notify (.faultNotStacked r.ftype r.subject p.gate.clock) (recordFault r none p))

/-- A raise, taken in COMMISSIONING, OPERATING and LOCKDOWN (R164). -/
def raise (b : Books) (r : Raise) (p : Part) : Part :=
  if !p.ctl.mode.inService then p
  else if p.flt.stack.length < 6 then pushFrame b r p
  else notStacked b r p

/-- The raise for a movement that has stalled or timed out: its entry leaves the table before the raise (R28, R164), and
its ports and its reservation stay taken until it ends after the raise (R20, R28, R96; log 74). -/
def raiseBeforeEnd (b : Books) (r : Raise) (m : Movement) (p : Part) : Part :=
  setEnding p.mov.ending (raise b { r with interrupted := some m } (setEnding (some m) (removeMove m.number p)))

/-- A raise that a frame of the same type and subject on the stack turns into a PRESENT report (R164). -/
def raiseOrReport (b : Books) (r : Raise) (p : Part) : Part :=
  if hasFrame r.ftype r.subject p then reportOn r.ftype r.subject .present p else raise b r p

/-! ## Pops (R174 to R176, R178) -/

/-- The step of the lot bound to a popped frame (R50). -/
def popLot (way : PopWay) (f : Frame) (p : Part) : Part :=
  match f.lot with
  | none => p
  | some n =>
    match way with
    | .resume | .auto => clearLot n .resumed p
    | .abandon => rejectLot n (some .abandoned) .abandoned p

/-- A cell no longer held takes up its step (R130). A CHARGING cell that the arbiter does not take up then keeps WAITING
HELD (the model's choice, log 68). -/
def takeUpStep (b : Books) (c : CellId) (p : Part) : Part :=
  if cellHeld p c then p else seekDrain b c (settleCell b c p)

/-- The abandon of a cell's CHARGE, or its abandon step (R130). -/
def abandonCell (b : Books) (c : CellId) (p : Part) : Part :=
  match (cellRec p c).state, cellMove p c with
  | .charging, some m => cutMovement b m.number .abandon p
  | _, _ => abandonStep b c p

/-- The step of a cell that the popped frame held (R130, R174, R175). -/
def popCell (b : Books) (way : PopWay) (f : Frame) (c : CellId) (p : Part) : Part :=
  if f.holdsCell c then
    match way with
    | .resume | .auto => takeUpStep b c p
    | .abandon => takeUpStep b c (abandonCell b c p)
  else p

/-- The steps of the owners bound to or held by a popped frame (R176 step 2). That the lot goes first, then the cells from
C1 to C4, the needs and the gate last is the model's choice (log 71). -/
def popOwners (b : Books) (way : PopWay) (f : Frame) (p : Part) : Part :=
  let p1 := allCells.foldl (fun q c => popCell b way f c q) (popLot way f p)
  let p2 := if f.holdsKind .spill then reexamineSpill b p1 else p1
  let p3 := if f.holdsKind .fill then reexamineFill b p2 else p2
  let p4 := if f.holdsKind .ret then examineReturn b p3 else p3
  if f.holdsKind .discharge then selectLot b p4 else p4

/-- Announce the actions in force after the pop of `f` (R170, R176 step 3), given those before it. The order of the blocks
is the model's (log 71). -/
def announcePop (b : Books) (f : Frame) (old : ActionSet) (p : Part) : Part :=
  let new := actionsInForce p
  let p1 := if old.shutOutfall && !new.shutOutfall then recomputeGate .shutOutfall p else p
  let p2 := settleCells b p1
  let p3 := if old.stopRegulation && !new.stopRegulation then examineReturn b (reuseEvaluation b p2) else p2
  if decide (new ≠ old) || f.holdsAnyCell then examineArbiter b p3 else p3

/-- Steps 1 and 2 of R176: the frame leaves the stack, and its owners take their steps while its actions are still in
force. -/
def popSteps (b : Books) (way : PopWay) (f : Frame) (p : Part) : Part :=
  let p1 := setLeaving f.actions { p with flt := { p.flt with stack := p.flt.stack.dropLast } }
  setLeaving p.flt.leaving (popOwners b way f p1)

/-- Step 5 of R176: the gate, the needs, the DRAINING cells and the arbiter re-examine (that the drains go before the
arbiter is the model's choice, log 71). -/
def popReexamine (b : Books) (p : Part) : Part :=
  examineArbiter b (seekDrains b (reexamineNeeds b (selectLot b p)))

/-- One pop of the top frame, steps 1 to 5 of R176. -/
def popOnce (b : Books) (way : PopWay) (p : Part) : Part :=
  match p.flt.stack.getLast? with
  | none => p
  | some f =>
    let depth := p.flt.stack.length
    let p1 := announcePop b f (actionsInForce p) (popSteps b way f p)
    popReexamine b (notify (.faultPopped depth f.ftype f.subject way) p1)

/-- A frame on top that pops itself: AUTO, CLEARED, its hold run out (R178). -/
def topPops (p : Part) : Bool :=
  match p.flt.stack.getLast? with
  | none => false
  | some f => decide (f.policy = .auto ∧ f.condition = .cleared ∧ f.holdLeft = some 0)

/-- Step 6 of R176: AUTO frames that have held leave one after another, at most `fuel` of them. -/
def autoPops (b : Books) (fuel : Nat) (p : Part) : Part :=
  match fuel with
  | 0 => p
  | k + 1 => if topPops p then autoPops b k (popOnce b .auto p) else p

/-- A pop with all the steps of R176; the stack holds at most six frames. -/
def popFrame (b : Books) (way : PopWay) (p : Part) : Part := autoPops b 6 (popOnce b way p)

end Sys2Proof.Machine
end

