-- ==== Sys2Proof/Machine/Bookings.lean ====
section
/-! DEFINITION. What follows a booking (R8, R9, R26, R40 to R42, R52, R103, R119, R146): the one operation by
which every command books, and the meter quanta. The order of the neighbours is log 9. -/

namespace Sys2Proof.Machine

/-! ## Neighbours -/

/-- The vessel overflow rule at a booking that took a vessel from `old` to `new` litres (R9). -/
def overflowRule (b : Books) (v : VesselId) (old new : Nat) (spare : Option Nat) (p : Part) : Part :=
  match (vesselRec p v).capacity with
  | none => p
  | some k =>
    if hasFrame .vesselOverflow (.vessel v) p then
      if new ≤ k then reportOn .vesselOverflow (.vessel v) .cleared p
      else if old ≤ k then reportOn .vesselOverflow (.vessel v) .present p
      else p
    else if old ≤ k ∧ k < new then
      raise b { ftype := .vesselOverflow, subject := .vessel v,
                interrupted := moveAt p (.vesselInlet v), spare := spare } p
    else p

/-- The vessels and cells that a booking changes. -/
def Booking.vessels : Booking → List VesselId
  | .admission d _ _ | .makeup d _ | .cellToVessel _ d _ => [d]
  | .vesselToVessel s d _ => [s, d]
  | .vesselToCell s _ _ | .discharge s _ | .draw s _ | .sample s _ => [s]
  | .massCorrection v _ | .adoption v _ => [v]
  | .plating _ _ | .harvest _ _ => []

/-- Movements out of a source that stands at 0 complete (R26). -/
def completeEmptied (b : Books) (p : Part) : Part :=
  (p.mov.entries.filter (fun m => decide (sourceVolume b m.source = some 0))).foldl
    (fun q m => match findMove m.number q with
      | some x => endMovement b x .complete q
      | none => q) p

/-- Movements that have moved all they were asked for complete (R26). -/
def completeMoved (b : Books) (n : Option Nat) (p : Part) : Part :=
  match n.bind (fun k => findMove k p) with
  | none => p
  | some m => if m.requested ≤ m.movedLitres then endMovement b m .complete p else p

/-- The vessels of a list whose figures a booking changed. -/
def changedVessels (old new : Books) (vs : List VesselId) : List VesselId :=
  vs.filter (fun v => decide (old.vessel v ≠ new.vessel v))

/-- The overflow rule for every vessel of a booking. -/
def overflowRules (old new : Books) (vs : List VesselId) (spare : Option Nat) (p : Part) : Part :=
  vs.foldl (fun q v => overflowRule new v (old.vessel v).volume (new.vessel v).volume spare q) p

/-- REUSE and FEED are told of a change (R8): the evaluation of R103, and at FEED the arbiter before the return engine (the
model's choice, log 77). -/
def marksTold (b : Books) (changed : List VesselId) (p : Part) : Part :=
  let p1 := match roleVessel .reuse p with
    | some v => if changed.contains v then reuseEvaluation b p else p
    | none => p
  match roleVessel .feed p1 with
  | some v => if changed.contains v then examineReturn b (examineArbiter b p1) else p1
  | none => p1

/-- A lot whose vessel stands at 0 closes, unless it is FILLING (R52); the return engine and the needs are
told of a lot that leaves (R109). -/
def closeEmptied (b : Books) (v : VesselId) (p : Part) : Part :=
  match lotOf v p with
  | none => p
  | some l =>
    if l.state ≠ .filling ∧ (b.vessel v).volume = 0 then
      reexamineNeeds b (closeLot l (endKindOf l) p)
    else p

/-- What follows a booking in the vessels it changed: closing, the overflow rule, completion, and the marks. -/
def afterBooking (old new : Books) (vs : List VesselId) (mv spare : Option Nat) (p : Part) : Part :=
  let p1 := vs.foldl (fun q v => closeEmptied new v q) p
  let p2 := overflowRules old new vs spare p1
  let p3 := completeMoved new mv (completeEmptied new p2)
  marksTold new (changedVessels old new vs) p3

/-- Make a booking and tell its neighbours (R6, R8). `mv` is the movement booked, `told` what the Lot Unit and
the gate are told of it first. -/
def bookAndTell (k : Booking) (mv spare : Option Nat) (told : Books → Part → Part) (q : Plant) : Plant :=
  let new := q.books.book k
  ⟨new, afterBooking q.books new k.vessels mv spare (told new q.part)⟩

/-! ## Meter quanta (R25, R27) -/

/-- The kind of booking of a movement's quantum (R19); none where the entry's ports fit no kind. -/
def quantumBooking (m : Movement) (reuse : Option VesselId) (want : Nat) : Option Booking :=
  match m.kind, m.source, m.dest, reuse with
  | .spill, .vesselOutlet s, .vesselInlet d, _ => some (.vesselToVessel s d want)
  | .ret, .vesselOutlet s, .vesselInlet d, _ => some (.vesselToVessel s d want)
  | .charge, .vesselOutlet s, .cellInlet c, _ => some (.vesselToCell s c want)
  | .drain, .cellOutlet c, .vesselInlet d, _ => some (.cellToVessel c d want)
  | .discharge, .vesselOutlet s, _, _ => some (.discharge s want)
  | .fill, _, _, some r => some (.makeup r want)
  | _, _, _, _ => none

/-- The contribution or outflow of a quantum at the Lot Unit (R25, R41). -/
def lotTold (b : Books) (m : Movement) (litres mg : Nat) (p : Part) : Part :=
  match m.lot with
  | none => p
  | some n =>
    match m.kind, m.source with
    | .spill, .vesselOutlet v => sealCheck b n (updLot n (fun l =>
        { l with contributions := contribute (.vessel v) litres mg l.contributions }) p)
    | .drain, .cellOutlet c => sealCheck b n (updLot n (fun l =>
        { l with contributions := contribute (.cell c) litres mg l.contributions }) p)
    | .ret, _ => updLot n (fun l =>
        { l with returnedVolume := l.returnedVolume + litres, returnedMass := l.returnedMass + mg }) p
    | .discharge, _ => updLot n (fun l =>
        { l with dischargedVolume := l.dischargedVolume + litres
                 dischargedMass := l.dischargedMass + mg }) p
    | _, _ => p

/-- The measured concentration of a movement's lot. -/
def lotConc (m : Movement) (p : Part) : Nat :=
  ((m.lot.bind (fun n => findLot n p)).bind Lot.measuredConc).getD 0

/-- The entry, the Lot Unit and, for a DISCHARGE, the gate are told the quantum (R25, R145). -/
def quantumTold (m : Movement) (litres mg : Nat) (b : Books) (p : Part) : Part :=
  let conc := lotConc m p
  let p1 := updMove m.number (fun x =>
    { x with movedLitres := x.movedLitres + litres, movedMass := x.movedMass + mg
             lastProgress := p.gate.clock, quiet := 0 }) p
  let p2 := lotTold b m litres mg p1
  if m.kind = .discharge then debitDay litres conc p2 else p2

/-- The pause of a DISCHARGE at the allowance, if it is still in the table (R146). -/
def pauseDischarge (b : Books) (p : Part) : Part := cutDischarge b .pause p

/-- The subject of a fault about the DISCHARGE. -/
def dischargeSubject (m : Movement) : Subject := .discharge m.number (m.lot.getD 0)

/-- ALLOWANCE FLOOR (R147): a raise, or a PRESENT report where a frame of the type stands; then a pause of the
DISCHARGE that is still in the table. A raise that finds the stack full leaves the DISCHARGE to the pause, also where it
enters LOCKDOWN (R147 and R168 against R177; log 78). -/
def floorReachedAt (b : Books) (m : Movement) (p : Part) : Part :=
  let p1 :=
    if p.flt.stack.any (fun f => decide (f.ftype = .allowanceFloor)) then
      reportType .allowanceFloor .present p
    else raise b { ftype := .allowanceFloor, subject := dischargeSubject m, interrupted := some m
                   spare := if 6 ≤ p.flt.stack.length then some m.number else none } p
  pauseDischarge b p1

/-- The checks after an increment, while the DISCHARGE of that number is still in the table (R146). -/
def afterIncrement (b : Books) (n : Nat) (p : Part) : Part :=
  match findMove n p with
  | none => p
  | some m =>
    match incrementCheck p.gate ((sourceVolume b m.source).getD 0) with
    | .floor => floorReachedAt b m p
    | .pause => pauseDischarge b p
    | .none => p

/-- A stray quantum (R27), counted at its meter. -/
def strayQuantum (meter : Meter) (p : Part) : Part :=
  let m := p.mov
  match meter with
  | .vesselOutlet v => updVessel v (fun r => { r with stray := countUp r.stray }) p
  | .cellDrain c => { p with mov := { m with strays := { m.strays with
      cellDrain := updAt m.strays.cellDrain c countUp } } }
  | .makeup => { p with mov := { m with strays := { m.strays with makeup := countUp m.strays.makeup } } }
  | .outfall => { p with mov := { m with strays := { m.strays with outfall := countUp m.strays.outfall } } }

/-- A booked quantum (R25): 10 L, or what the source books, or what is left to move. -/
def bookedQuantum (m : Movement) (k : Booking) (q : Plant) : Plant :=
  let moved := k.moves q.books
  let r := bookAndTell k (some m.number) none (quantumTold m moved.1 moved.2) q
  if m.kind = .discharge then { r with part := afterIncrement r.books m.number r.part } else r

/-- A meter quantum (R25, R27), in the modes in which the plant lines are acted on. -/
def meterQuantum (meter : Meter) (q : Plant) : Plant :=
  if !q.part.ctl.mode.inService then q
  else match meteredMove meter q.part with
    | none => { q with part := strayQuantum meter q.part }
    | some m =>
      match quantumBooking m (roleVessel .reuse q.part) (min 10 (m.requested - m.movedLitres)) with
      | none => { q with part := strayQuantum meter q.part }
      | some k => bookedQuantum m k q

/-- A stray draw quantum (R27, R108). -/
def strayDraw (p : Part) : Part :=
  let m := p.mov
  { p with mov := { m with strays := { m.strays with draw := countUp m.strays.draw } } }

/-- A quantum of the reuse draw meter (R108). -/
def drawQuantum (q : Plant) : Plant :=
  if !q.part.ctl.mode.inService then q
  else match roleVessel .reuse q.part with
    | none => { q with part := strayDraw q.part }
    | some v =>
      if (q.books.vessel v).volume = 0 then { q with part := strayDraw q.part }
      else bookAndTell (.draw v 10) none none (fun _ p => p) q

end Sys2Proof.Machine
end

