-- ==== Sys2Proof/Machine/Link.lean ====
section
/-! DEFINITION. The Supervisory Link's transmitter and request buffer (12.3), and the frame of every command:
clear the record of what was sent, act, then let the transmitter begin a frame if it is free. -/

namespace Sys2Proof.Machine

/-! ## The transmitter (R196) -/

/-- Begin the transmission of a frame. -/
def beginFrame (f : SupFrame) (holds : Bool) (p : Part) : Part :=
  { p with link := { p.link with tx := some ⟨f, holds⟩, sent := p.link.sent ++ [f] } }

/-- When the transmitter is free it sends the oldest waiting reply, and otherwise the oldest notice, which
leaves the queue as its transmission begins (R196). While the RESET line is held the part is silent (R183). -/
def pump (p : Part) : Part :=
  if p.ctl.resetHeld then p
  else match p.link.tx, p.link.buffer, p.link.queue with
    | some _, _, _ => p
    | none, r :: _, _ => beginFrame (.reply r) true p
    | none, [], n :: rest => beginFrame (.notice n) false { p with link := { p.link with queue := rest } }
    | none, [], [] => p

/-- The end of the frame in transmission: a reply frees the oldest place of the buffer (R194, R196). -/
def frameEnds (p : Part) : Part :=
  match p.link.tx with
  | none => p
  | some t => { p with link := { p.link with
      tx := none, buffer := if t.holdsPlace then p.link.buffer.tail else p.link.buffer } }

/-! ## The frame of a command -/

/-- Forget what the step before sent (log 29). -/
def clearSent (p : Part) : Part :=
  { p with link := { p.link with sent := [] }, fld := { p.fld with sent := none } }

/-- A command that is acted on even while the RESET line is held: the lines themselves (R153, R183). -/
def lineCommand (f : Plant → Plant) (s : State) : Host.Outcome State Fault Refusal :=
  let q := f ⟨s.books, clearSent s.part⟩
  .next { s with books := q.books, part := pump q.part }

/-- Any other command: nothing is taken while the RESET line is held (R183, log 33). -/
def command (f : Plant → Plant) (s : State) : Host.Outcome State Fault Refusal :=
  lineCommand (fun q => if q.part.ctl.resetHeld then q else f q) s

/-- A command that cannot change a booked figure. -/
def partCommand (f : Books → Part → Part) (s : State) : Host.Outcome State Fault Refusal :=
  command (fun q => { q with part := f q.books q.part }) s

/-! ## Requests (R194, R195) -/

/-- The places of the request buffer that are held: by requests taken, and by those that wait behind a RESTART. -/
def Link.placesHeld (l : Link) : Nat := l.buffer.length + l.behind

/-- A request that waits in its place, not taken, behind a RESTART (R194, log 3). -/
def waitBehind (p : Part) : Part := { p with link := { p.link with behind := p.link.behind + 1 } }

/-- A request that finds a free place is taken at once and its reply waits there; behind a RESTART it waits in its
place; with all four places held it is discarded with no reply (R194, logs 1 and 3). -/
def request (n kind : Byte) (take : Plant → Plant × Reply) (q : Plant) : Plant :=
  if 4 ≤ q.part.link.placesHeld then q
  else if q.part.link.restarting then { q with part := waitBehind q.part }
  else
    let r := take q
    { r.1 with part := { r.1.part with link := { r.1.part.link with
        buffer := r.1.part.link.buffer ++ [⟨n, kind, r.2⟩] } } }

/-- A refusal: the status alone, nothing changed (R195). -/
def refuse (st : Status) (q : Plant) : Plant × Reply := (q, { status := st })

/-- A reply OK with nothing after it. -/
def okay (q : Plant) : Plant × Reply := (q, { status := .ok })

/-- A reply OK with items, nothing changed: the READ requests. -/
def answer (items : ReplyItems) (q : Plant) : Plant × Reply := (q, { status := .ok, items := items })

/-- A request taken in COMMISSIONING, OPERATING and LOCKDOWN, and refused with WRONG MODE otherwise. -/
def inService (take : Plant → Plant × Reply) (q : Plant) : Plant × Reply :=
  if q.part.ctl.mode.inService then take q else refuse .wrongMode q

/-- A request that names a thing by its number: BAD VALUE where there is none of that number. -/
def named {α : Type} (thing : Option α) (take : α → Plant → Plant × Reply) (q : Plant) : Plant × Reply :=
  match thing with
  | none => refuse .badValue q
  | some a => take a q

end Sys2Proof.Machine
end

