-- ==== Sys2Proof/Machine/Sources.lean ====
section
/-! DEFINITION. The Source Table: offers, slug bookings, aging and its requests (chapter 4). -/

namespace Sys2Proof.Machine

/-! ## The table -/

/-- The entry of a tag. -/
def findSource (t : Tag) (p : Part) : Option SourceEntry :=
  p.src.entries.find? (fun e => decide (e.tag = t))

/-- Change the entry of a tag. -/
def updSource (t : Tag) (f : SourceEntry → SourceEntry) (p : Part) : Part :=
  { p with src := { p.src with entries := p.src.entries.map (fun e => if e.tag = t then f e else e) } }

/-- Insert an entry in tag order. -/
def insertByTag (x : SourceEntry) (l : List SourceEntry) : List SourceEntry :=
  match l with
  | [] => [x]
  | y :: ys => if tagKey x.tag < tagKey y.tag then x :: y :: ys else y :: insertByTag x ys

/-- Add an entry. -/
def addSource (x : SourceEntry) (p : Part) : Part :=
  { p with src := { p.src with entries := insertByTag x p.src.entries } }

/-- Remove the entry of a tag; a removal clears the full-reported flag (R69). -/
def dropSource (t : Tag) (p : Part) : Part :=
  { p with src := { p.src with
      entries := p.src.entries.filter (fun e => decide (e.tag ≠ t)), fullReported := false } }

/-! ## Offers (R63 to R69) -/

/-- The classification of an offer. -/
inductive Classification where
  | continue_ (cls : WaterClass) (quarantineOnly bypass : Bool)
  | unitMismatch
  | unknownSource
  deriving DecidableEq, Repr

/-- CLASS CHANGE, when a present class differs from the offer's (R64). -/
def classNotice (t : Tag) (old : Option WaterClass) (new : WaterClass) (p : Part) : Part :=
  match old with
  | none => p
  | some c => if c = new then p else notify (.classChange t c new) p

/-- An offer of a LEARNED entry from a learning unit (R64). -/
def refreshEntry (e : SourceEntry) (u : UnitId) (cls : WaterClass) (p : Part) : Part :=
  let p1 := classNotice e.tag e.cls cls (updSource e.tag (fun x =>
    { x with origin := .learned true, cls := some cls, unit := u }) p)
  if e.unit = u then p1 else notify (.migrated e.tag e.unit u) p1

/-- An unknown tag is learned (R67). -/
def learnEntry (t : Tag) (u : UnitId) (cls : WaterClass) (p : Part) : Part :=
  notify (.sourceLearned t u cls)
    (addSource { tag := t, unit := u, origin := .learned true, cls := some cls } p)

/-- TABLE FULL, once per fill (R69). -/
def reportFull (t : Tag) (u : UnitId) (p : Part) : Part :=
  if p.src.fullReported then p
  else notify (.tableFull t u) { p with src := { p.src with fullReported := true } }

/-- The unknown-source policy's classification (R68). -/
def unknownClass (pol : UnknownPolicy) (cls : WaterClass) : Classification :=
  match pol with
  | .route => .continue_ cls false false
  | .quarantine => .continue_ cls true false
  | .refuse => .unknownSource

/-- An offer of an unknown tag (R67 to R69). -/
def offerUnknown (t : Tag) (u : UnitId) (cls : WaterClass) (p : Part) : Part × Classification :=
  if !(unitRec p u).learning then (p, unknownClass p.src.policy cls)
  else if p.src.entries.length < 64 then (learnEntry t u cls p, .continue_ cls false false)
  else (reportFull t u p, unknownClass p.src.policy cls)

/-- The Source Table takes an offer with a valid tag (R63). -/
def classifyOffer (t : Tag) (u : UnitId) (conc : Nat) (p : Part) : Part × Classification :=
  let cls := classOf p.fld.settings conc
  match findSource t p with
  | none => offerUnknown t u cls p
  | some e =>
    match e.origin with
    | .learned _ =>
      if (unitRec p u).learning then (refreshEntry e u cls p, .continue_ cls false false)
      else (p, .continue_ (e.cls.getD cls) false false)
    | .static pinned filter bypass =>
      if e.unit ≠ u then (p, .unitMismatch)
      else (classNotice t e.cls cls (updSource t (fun x => { x with cls := some cls }) p),
        .continue_ (pinned.getD cls) filter bypass)

/-! ## Slug bookings (R70) -/

/-- A total that stays at its top once there (R61). -/
def growTo (top n k : Nat) : Nat := min top (n + k)

/-- A slug booking at the Source Table (R70). -/
def sourceBooked (t : Tag) (conc litres mg : Nat) (p : Part) : Part :=
  updSource t (fun e =>
    { e with lastConc := some conc, slugs := growTo 4294967295 e.slugs 1
             litres := growTo 1000000000000000 e.litres litres, mg := growTo 1000000000000000 e.mg mg }) p

/-! ## Aging (R71, R72) -/

/-- One entry at a scan: a mark is cleared, an unmarked LEARNED entry is removed with its notice. -/
def ageEntry (e : SourceEntry) (p : Part) : Part :=
  match e.origin with
  | .static _ _ _ => p
  | .learned true => updSource e.tag (fun x => { x with origin := .learned false }) p
  | .learned false => notify (.sourceAged e.tag e.unit e.slugs e.litres e.mg) (dropSource e.tag p)

/-- The scan of R72, in tag order. -/
def agingScan (p : Part) : Part := p.src.entries.foldl (fun q e => ageEntry e q) p

/-- The whole aging period in seconds. -/
def agingSeconds (minutes : Nat) : Nat := minutes * 60

/-- The aging timer starts again with the whole period (R71). -/
def restartAging (p : Part) : Part :=
  { p with src := { p.src with agingLeft := agingSeconds p.src.agingPeriod } }

/-- AGING_EXPIRY: the timer runs in OPERATING and LOCKDOWN alone (R71, R72). -/
def agingExpires (p : Part) : Part :=
  if p.ctl.mode.running then restartAging (agingScan p) else p

/-! ## Requests (R73 to R76) -/

/-- The binding fields of a SET SOURCE. -/
def bindStatic (u : UnitId) (i : SourceItems) (e : SourceEntry) : SourceEntry :=
  { e with unit := u, origin := .static i.pinned i.filter i.bypass }

/-- SET SOURCE with its tag and unit (R73). -/
def setSourceTo (t : Tag) (i : SourceItems) (u : UnitId) (q : Plant) : Plant × Reply :=
  match findSource t q.part with
  | some _ => okay { q with part := updSource t (bindStatic u i) q.part }
  | none =>
    if 64 ≤ q.part.src.entries.length then refuse .full q
    else
      let e : SourceEntry := { tag := t, unit := u, origin := .static i.pinned i.filter i.bypass }
      okay { q with part := addSource e q.part }

/-- SET SOURCE (R73). -/
def takeSetSource (raw : RawTag) (i : SourceItems) (q : Plant) : Plant × Reply :=
  inService (named (tagOf raw) (fun t => named (unitOf i.unit) (setSourceTo t i))) q

/-- REMOVE SOURCE with its tag (R74). -/
def removeSourceOf (t : Tag) (q : Plant) : Plant × Reply :=
  match findSource t q.part with
  | none => refuse .noSuch q
  | some _ => okay { q with part := dropSource t q.part }

/-- REMOVE SOURCE (R74). -/
def takeRemoveSource (raw : RawTag) (q : Plant) : Plant × Reply :=
  inService (named (tagOf raw) removeSourceOf) q

/-- Whether an entry is LEARNED. -/
def SourceEntry.isLearned (e : SourceEntry) : Bool :=
  match e.origin with
  | .learned _ => true
  | .static _ _ _ => false

/-- The items every READ SOURCE reply carries (R75). -/
def sourceSummary (p : Part) : SourceSummary where
  entries := p.src.entries.length
  learned := (p.src.entries.filter SourceEntry.isLearned).length
  statics := (p.src.entries.filter (fun e => !e.isLearned)).length
  agingPeriod := p.src.agingPeriod
  agingLeft := p.src.agingLeft
  agingPaused := !p.ctl.mode.running
  policy := p.src.policy
  fullReported := p.src.fullReported

/-- The SLUG movements whose particulars carry a tag (R75). -/
def slugsOf (t : Tag) (p : Part) : Nat :=
  (p.mov.entries.filter (fun m => match m.slug with
    | some s => decide (s.tag = t)
    | none => false)).length

/-- Return an entry, moving the cursor to its tag, or END (R75). -/
def iterate (e : Option SourceEntry) (atEnd : Option Tag) (q : Plant) : Plant × Reply :=
  match e with
  | some x => ({ q with part := { q.part with src := { q.part.src with cursor := some x.tag } } },
      { status := .ok, items := .source (some (x, slugsOf x.tag q.part)) (sourceSummary q.part) })
  | none => ({ q with part := { q.part with src := { q.part.src with cursor := atEnd } } },
      { status := .end_, items := .source none (sourceSummary q.part) })

/-- READ SOURCE FIRST (R75). -/
def takeReadSourceFirst (q : Plant) : Plant × Reply :=
  inService (fun r => iterate r.part.src.entries.head? none r) q

/-- READ SOURCE NEXT from a cursor (R75). -/
def readNextFrom (cur : Tag) (q : Plant) : Plant × Reply :=
  iterate (q.part.src.entries.find? (fun e => decide (tagKey cur < tagKey e.tag))) (some cur) q

/-- READ SOURCE NEXT (R75). Its WRONG STATE carries the status alone (R195; the model's choice, log 61). -/
def takeReadSourceNext (q : Plant) : Plant × Reply :=
  inService (fun r => match r.part.src.cursor with
    | none => refuse .wrongState r
    | some cur => readNextFrom cur r) q

/-- SET AGING (R76). -/
def takeSetAging (period : Nat) (pol : UnknownPolicy) (q : Plant) : Plant × Reply :=
  inService (fun r =>
    if 1 ≤ period ∧ period ≤ 240 then
      let src := { r.part.src with agingPeriod := period, policy := pol }
      okay { r with part := restartAging { r.part with src := src } }
    else refuse .badValue r) q

end Sys2Proof.Machine
end

