-- ==== Sys2Proof/Machine/Field.lean ====
section
/-! DEFINITION. The Field Link Unit: turns, answers, routing, GO and STOP, slug bookings, silence (chapter 5).
The byte form of its records is in Codec.lean. -/

namespace Sys2Proof.Machine

/-! ## Turns (R79) -/

/-- The unit whose turn comes next: the lowest enabled address above the last one, else the lowest. -/
def nextUnit (p : Part) : Option UnitId :=
  let on := allUnits.filter (fun u => (unitRec p u).enabled)
  match p.fld.lastTurn with
  | none => on.head?
  | some l => (on.find? (fun u => decide (l.1 < u.1))).or on.head?

/-- The record sent at a unit's turn (R79, R89, R91). -/
def turnMessage (p : Part) (u : UnitId) : FieldMessage :=
  let r := unitRec p u
  match r.outbound, r.slug.bind (fun n => findMove n p) with
  | some (.stop mv), _ => .stop mv
  | some .go, some m => .go m.number m.requested
  | some .go, none => .poll
  | none, _ => .poll

/-- Put a record on the line. -/
def sendField (u : UnitId) (m : FieldMessage) (p : Part) : Part :=
  { p with fld := { p.fld with turn := some ⟨u, m⟩, sent := some (u, m) } }

/-- The part gives the next unit its turn (R79); log 22. -/
def giveTurn (p : Part) : Part :=
  if !p.ctl.mode.inService || p.fld.turn.isSome then p
  else match nextUnit p with
    | none => p
    | some u =>
      sendField u (turnMessage p u) { p with fld := { p.fld with lastTurn := some u } }

/-- The turn ends. -/
def endTurn (p : Part) : Part := { p with fld := { p.fld with turn := none } }

/-! ## Slugs -/

/-- The slug in flight of a unit. -/
def slugOf (p : Part) (u : UnitId) : Option Movement := (unitRec p u).slug.bind (fun n => findMove n p)

/-- The destination vessel of a movement. -/
def Movement.destVessel (m : Movement) : Option VesselId :=
  match m.dest with
  | .vesselInlet v => some v
  | .vesselOutlet _ | .cellInlet _ | .cellOutlet _ | .makeupEntry | .outfall | .sumpUnit _ | .mains => none

/-- A slug's booking at its lot: the contribution of its tag, then the seal check (R93, R40). -/
def slugTold (m : Movement) (s : SlugParticulars) (litres mg : Nat) (b : Books) (p : Part) : Part :=
  match m.lot with
  | none => p
  | some n => sealCheck b n (updLot n (fun l =>
      { l with contributions := contribute (.tag s.tag) litres mg l.contributions }) p)

/-- The admission of a slug with everything that steps 3 and 4 of R93 give. The moved figures of the entry stay 0 (the
model's choice, log 66). -/
def admitSlug (m : Movement) (s : SlugParticulars) (v : VesselId) (litres mg : Nat) (q : Plant) : Plant :=
  let r := bookAndTell (.admission v litres mg) none (some m.number) (slugTold m s litres mg) q
  { r with part := sourceBooked s.tag s.conc litres mg r.part }

/-- Stop the transfer timeout of a slug. -/
def stopTimeout (n : Nat) (p : Part) : Part := updMove n (fun x => { x with timeoutLeft := none }) p

/-- The litres by level difference (R96): 0 where it is negative or a reading is absent. -/
def levelDifference (now atGo : Option Nat) : Nat :=
  match now, atGo with
  | some a, some b => a - b
  | _, _ => 0

/-- Steps 1 to 3 of R96: the slug is booked by the level difference of its destination. -/
def bookByLevel (m : Movement) (s : SlugParticulars) (v : VesselId) (q : Plant) : Plant :=
  let litres := levelDifference (vesselRec q.part v).lastLevel s.levelAtGo
  admitSlug m s v litres (litres * s.conc) { q with part := stopTimeout m.number q.part }

/-- The transfer timeout of a slug expires (R96): booked, out of the table, SLUG TIMEOUT raised, ended, STOP set. -/
def slugTimesOut (m : Movement) (s : SlugParticulars) (v : VesselId) (q : Plant) : Plant :=
  let r := bookByLevel m s v q
  let p1 := raiseBeforeEnd r.books { ftype := .slugTimeout, subject := .unit s.unit } m r.part
  { r with part := setStop s.unit m.number (movementEnded r.books m (.cut .plain) p1) }

/-- TRANSFER_TIMEOUT of a movement number: acts while that slug's timeout runs (R95, log 4). -/
def transferTimeout (n : Nat) (q : Plant) : Plant :=
  match findMove n q.part with
  | none => q
  | some m =>
    match m.timeoutLeft, m.slug, m.destVessel with
    | some _, some s, some v => slugTimesOut m s v q
    | _, _, _ => q

/-! ## GO (R89, R90) -/

/-- GO is delivered: RUNNING, the level reading written, the transfer timeout started (R24, R89). -/
def deliverGo (u : UnitId) (n : Nat) (p : Part) : Part :=
  match findMove n p with
  | none => p
  | some m =>
    let level := m.destVessel.bind (fun v => (vesselRec p v).lastLevel)
    let p1 := updMove n (fun x =>
      { x with phase := .running, lastProgress := p.gate.clock, quiet := 0
               timeoutLeft := some p.fld.settings.transferTimeout
               slug := x.slug.map (fun s => { s with levelAtGo := level }) }) p
    updUnit u (fun r => { r with outbound := if r.outbound = some .go then none else r.outbound }) p1

/-- What is pending for a unit once its STOP is delivered (R24, R91): the GO of a slug that reached READY while
the STOP of the slug before it stood in its place, or nothing. -/
def outboundAfterStop (u : UnitId) (p : Part) : Option Outbound :=
  match slugOf p u with
  | none => none
  | some m => if m.phase = .ready then some .go else none

/-- The STOP of a slug is delivered: it is the message sent that is cleared (R81, R91), so a STOP that was set for
another slug while the turn was open stays pending. -/
def deliverStop (u : UnitId) (mv : Nat) (p : Part) : Part :=
  updUnit u (fun r => { r with
    outbound := if r.outbound = some (.stop mv) then outboundAfterStop u p else r.outbound }) p

/-- What an answer delivers: any valid answer a STOP, and `takesGo` answers a GO (R81, R89, R91). -/
def deliver (u : UnitId) (sent : FieldMessage) (takesGo : Bool) (p : Part) : Part :=
  match sent with
  | .stop mv => deliverStop u mv p
  | .go n _ => if takesGo then deliverGo u n p else p
  | .poll | .decision _ => p

/-! ## Misses and silence (R80, R83, R97) -/

/-- The slug of a unit that has become SILENT, by its phase (R97). -/
def silentSlug (b : Books) (u : UnitId) (p : Part) : Part :=
  match slugOf p u with
  | none => p
  | some m =>
    match m.phase with
    | .opening | .ready => endMovement b m (.cut .plain) (stopSlug m p)
    | .running | .stopping =>
      raise b { ftype := .unitSilent, subject := .unit u, interrupted := some m } p

/-- A unit becomes SILENT: the notice first, then its slug (R80, R97). -/
def becomeSilent (b : Books) (u : UnitId) (p : Part) : Part :=
  silentSlug b u (notify (.unitSilent u (unitRec p u).slug) (updUnit u (fun r =>
    { r with presence := .silent }) p))

/-- The grant of a ROUTED that drew a miss is withdrawn (R83). -/
def withdrawGrant (b : Books) (sent : FieldMessage) (p : Part) : Part :=
  match sent with
  | .decision (.routed _ _ mv) => cutMovement b mv .plain p
  | .decision (.wait _) | .decision (.refuse _) | .poll | .go _ _ | .stop _ => p

/-- A miss at the open turn (R80, R83; log 24 for the order). -/
def missTurn (b : Books) (t : Turn) (p : Part) : Part :=
  let n := min 255 ((unitRec p t.unit).missed + 1)
  let p1 := updUnit t.unit (fun r => { r with missed := n }) (endTurn p)
  let p2 := if p1.fld.settings.silenceLimit ≤ n ∧ (unitRec p1 t.unit).presence ≠ .silent then
    becomeSilent b t.unit p1 else p1
  withdrawGrant b t.sent p2

/-- FIELD_REPLY_TIMEOUT: a miss where a turn is open. -/
def replyTimeout (b : Books) (p : Part) : Part :=
  match p.fld.turn with
  | none => p
  | some t => missTurn b t p

/-! ## Answers (R81) -/

/-- A valid answer: missed count 0, presence PRESENT, and for a SILENT unit the notice and the report. -/
def answered (u : UnitId) (p : Part) : Part :=
  let old := (unitRec p u).presence
  let p1 := updUnit u (fun r => { r with missed := 0, presence := .present }) p
  if old = .silent then reportOn .unitSilent (.unit u) .cleared (notify (.unitPresent u) p1) else p1

/-- A record is the DECISION of a turn. -/
def FieldMessage.isDecision : FieldMessage → Bool
  | .decision _ => true
  | .poll | .go _ _ | .stop _ => false

/-- IDLE at the open turn (R81, R82). -/
def idleAnswer (t : Turn) (p : Part) : Part :=
  endTurn (deliver t.unit t.sent true (answered t.unit p))

/-! ## Routing (R84 to R88) -/

/-- A candidate of the list of R85. -/
inductive Candidate where
  | role (r : Role)
  | lot
  deriving DecidableEq, Repr

/-- Why a candidate was skipped (R86, R88). -/
inductive Skip where
  | disabled | blocked | noSpace | inletBusy | tableFull
  deriving DecidableEq, Repr

/-- The WAIT reason of a skip (R87). -/
def Skip.reason : Skip → DecisionReason
  | .blocked => .blocked
  | .noSpace => .noSpace
  | .tableFull => .tableFull
  | .inletBusy | .disabled => .inletBusy

/-- The candidate list (R85, rule 4). -/
def candidates (p : Part) (cls : WaterClass) (quarantineOnly : Bool) : List Candidate :=
  if decide (p.ctl.mode = .lockdown) || (actionsInForce p).quarantineIntake || quarantineOnly then
    [.role .quarantine]
  else match cls with
    | .red => [.role .feed, .role .quarantine]
    | .amber => [.lot, .role .quarantine]
    | .green => [.role .reuse, .lot, .role .quarantine]

/-- The four tests of R86; the first that fails skips the vessel. -/
def vesselSkip (b : Books) (p : Part) (v : VesselId) (volume : Nat) (bypass : Bool) : Option Skip :=
  let r := vesselRec p v
  if r.inlet = .disabled then some .disabled
  else if (decide (r.inlet = .blocked) || r.regBlock) && !bypass then some .blocked
  else if freeSpace b p (routingLimit p v) v < volume then some .noSpace
  else if portBusy p (.vesselInlet v) then some .inletBusy
  else none

/-- The vessel a candidate gives, with the lot of the slug, or its skip (R86). -/
def candidateVessel (c : Candidate) (volume : Nat) (p : Part) : Part × Except Skip (VesselId × Option Nat) :=
  match c with
  | .role r => (p, match roleVessel r p with
      | none => .error .disabled
      | some v => .ok (v, none))
  | .lot =>
    let a := askFilling volume p
    (a.1, match a.2 with
      | .named lot v => .ok (v, some lot)
      | .sealPending => .error .inletBusy
      | .noVessel => .error .disabled
      | .noSpace => .error .noSpace)

/-- The skip of a refused start (R88). -/
def startSkip : WaitReason → Skip
  | .tableFull => .tableFull
  | .mode | .sourceBusy | .sourceEmpty | .destinationBusy | .sealPending | .noVessel | .noSpace | .disabled
  | .inletBusy | .stopped | .held | .feedFull | .tooSmall | .floor | .cut | .stall => .inletBusy

/-- Start the slug into the vessel chosen (R88, rule 8). -/
def startSlug (b : Books) (s : SlugParticulars) (v : VesselId) (lot : Option Nat) (volume : Nat) (p : Part) :
    Part × Except Skip Nat :=
  let r := askStart b { kind := .slug, source := .sumpUnit s.unit, dest := .vesselInlet v,
                        requested := volume, lot := lot, slug := some s } p
  match r.2 with
  | .refused why => (r.1, .error (startSkip why))
  | .started n => (updUnit s.unit (fun u => { u with slug := some n }) r.1, .ok n)

/-- Test and start one candidate. -/
def tryCandidate (b : Books) (s : SlugParticulars) (bypass : Bool) (volume : Nat) (c : Candidate) (p : Part) :
    Part × Except Skip (VesselId × Nat) :=
  let a := candidateVessel c volume p
  match a.2 with
  | .error k => (a.1, .error k)
  | .ok (v, lot) =>
    match vesselSkip b a.1 v volume bypass with
    | some k => (a.1, .error k)
    | none =>
      let r := startSlug b s v lot volume a.1
      (r.1, match r.2 with
        | .error k => .error k
        | .ok n => .ok (v, n))

/-- Walk the candidates (R86 to R88): the slug started, or the skips in list order. TABLE FULL ends the walk. -/
def walkCandidates (b : Books) (s : SlugParticulars) (bypass : Bool) (volume : Nat) (cs : List Candidate)
    (skips : List Skip) (p : Part) : Part × Except (List Skip) (VesselId × Nat) :=
  match cs with
  | [] => (p, .error skips)
  | c :: rest =>
    let r := tryCandidate b s bypass volume c p
    match r.2 with
    | .ok x => (r.1, .ok x)
    | .error .tableFull => (r.1, .error (skips ++ [.tableFull]))
    | .error k => walkCandidates b s bypass volume rest (skips ++ [k]) r.1

/-- The greatest capacity among the HOLD vessels whose inlet is not DISABLED (R87). -/
def lotCapacity (p : Part) : Option Nat :=
  (allVessels.filter (fun v => decide ((vesselRec p v).role = .hold ∧ (vesselRec p v).inlet ≠ .disabled))).foldl
    (fun best v => match best with
      | none => some (capacityOf p v)
      | some k => some (max k (capacityOf p v))) none

/-- The capacity of a candidate (R87). -/
def candidateCapacity (p : Part) (c : Candidate) : Option Nat :=
  match c with
  | .role r => roleCapacity r p
  | .lot => lotCapacity p

/-- Rule 7 (R87). -/
def noCandidate (p : Part) (cs : List Candidate) (skips : List Skip) (volume : Nat) : Decision :=
  let caps := cs.filterMap (candidateCapacity p)
  if !caps.isEmpty && caps.all (fun k => decide (k < volume)) then .refuse .tooLarge
  else match skips.find? (fun k => decide (k ≠ .disabled)) with
    | none => .refuse .noRoute
    | some k => .wait k.reason

/-- Rules 4 to 8, on a CONTINUE. -/
def routeContinue (b : Books) (s : SlugParticulars) (quarantineOnly bypass : Bool) (volume : Nat) (p : Part) :
    Part × Decision :=
  let cs := candidates p s.cls quarantineOnly
  if (actionsInForce p).stopIntake then (p, .wait .stopped)
  else
    let r := walkCandidates b s bypass volume cs [] p
    match r.2 with
    | .ok (v, n) => (r.1, .routed v volume n)
    | .error skips => (r.1, noCandidate r.1 cs skips volume)

/-- The routing rules (R84 to R88). -/
def routeOffer (b : Books) (u : UnitId) (o : Offer) (p : Part) : Part × Decision :=
  if !p.ctl.mode.running then (p, .wait .mode)
  else if (unitRec p u).slug.isSome then (p, .refuse .oneAtATime)
  else match tagOf o.tag, offerRange o with
    | some t, true =>
      let c := classifyOffer t u o.conc p
      (match c.2 with
        | .unitMismatch => (c.1, .refuse .unitMismatch)
        | .unknownSource => (c.1, .refuse .unknownSource)
        | .continue_ cls quarantineOnly bypass =>
          routeContinue b { unit := u, tag := t, cls := cls, conc := o.conc, levelAtGo := none }
            quarantineOnly bypass o.volume c.1)
    | _, _ => (p, .refuse .badOffer)

/-- OFFER at the open turn: recorded, routed, decided in the same turn (R82). -/
def offerAnswer (b : Books) (t : Turn) (o : Offer) (p : Part) : Part :=
  let p1 := deliver t.unit t.sent false (answered t.unit p)
  let p2 := updUnit t.unit (fun r => { r with lastOffer := some o }) p1
  let d := routeOffer b t.unit o p2
  sendField t.unit (.decision d.2) (updUnit t.unit (fun r => { r with lastDecision := some d.2 }) d.1)

/-! ## DONE (R90 to R94) -/

/-- A late report (R92). -/
def lateReport (u : UnitId) (p : Part) : Part :=
  updUnit u (fun r => { r with late := countUp r.late }) p

/-- A DONE books the slug: its tag is the slug's, and its phase is READY, RUNNING or STOPPING (R92). -/
def doneBooks (m : Movement) (s : SlugParticulars) (tag : RawTag) : Bool :=
  decide (tagOf tag = some s.tag) && decide (m.phase ≠ .opening)

/-- The mass of a DONE (R93): the unit's estimate, else litres times the estimate of the offer; 0 for 0 L. -/
def doneMass (litres : Nat) (mass : Option Nat) (conc : Nat) : Nat :=
  if litres = 0 then 0 else mass.getD (litres * conc)

/-- OVER DELIVERY (R94). -/
def overDelivery (m : Movement) (s : SlugParticulars) (v : VesselId) (litres : Nat) (p : Part) : Part :=
  if m.requested < litres then notify (.overDelivery s.unit s.tag v m.requested litres) p else p

/-- No message for a slug stays pending once it is booked at its DONE (R91). -/
def clearOutboundFor (s : SlugParticulars) (n : Nat) (p : Part) : Part :=
  updUnit s.unit (fun r =>
    { r with outbound := if r.outbound = some (.stop n) ∨ r.outbound = some .go then none else r.outbound }) p

/-- The steps of R93. OVER DELIVERY goes after step 4 and before the movement's end at step 5, so after the FAULT of a VESSEL
OVERFLOW and before the LOT STATE of a seal at that end (R94 says after the booking; the model's choice, log 9). -/
def bookDone (m : Movement) (s : SlugParticulars) (v : VesselId) (litres : Nat) (mass : Option Nat)
    (q : Plant) : Plant :=
  let r := admitSlug m s v litres (doneMass litres mass s.conc) { q with part := stopTimeout m.number q.part }
  let p1 := endMovement r.books m .complete (overDelivery m s v litres r.part)
  { r with part := clearOutboundFor s m.number p1 }

/-- A GO whose answer was lost counts as delivered at a DONE of a slug in READY (R90). -/
def readyDelivered (u : UnitId) (m : Movement) (p : Part) : Part :=
  if m.phase = .ready then deliverGo u m.number p else p

/-- A DONE taken from a unit (R92). -/
def takeDone (u : UnitId) (tag : RawTag) (litres : Nat) (mass : Option Nat) (q : Plant) : Plant :=
  match slugOf q.part u with
  | none => { q with part := lateReport u q.part }
  | some m =>
    match m.slug, m.destVessel with
    | some s, some v =>
      if doneBooks m s tag then bookDone m s v litres mass { q with part := readyDelivered u m q.part }
      else { q with part := lateReport u q.part }
    | _, _ => { q with part := lateReport u q.part }

/-- A DONE for the tag of the unit's slug. -/
def doneForSlug (p : Part) (u : UnitId) (tag : RawTag) : Bool :=
  match (slugOf p u).bind Movement.slug with
  | some s => decide (tagOf tag = some s.tag)
  | none => false

/-- DONE at the open turn (R81, R89, R92). -/
def doneAnswer (t : Turn) (tag : RawTag) (litres : Nat) (mass : Option Nat) (q : Plant) : Plant :=
  let go := doneForSlug q.part t.unit tag
  takeDone t.unit tag litres mass
    { q with part := endTurn (deliver t.unit t.sent go (answered t.unit q.part)) }

/-! ## An answer at the open turn -/

/-- A valid answer of the polled unit. With no turn open it finds no turn and is passed over; in answer to a
DECISION anything but IDLE is a miss (R82, R83; log 22). -/
def fieldAnswer (a : FieldAnswer) (q : Plant) : Plant :=
  match q.part.fld.turn with
  | none => q
  | some t =>
    match a, t.sent.isDecision with
    | .idle, _ => { q with part := idleAnswer t q.part }
    | .offer o, false => { q with part := offerAnswer q.books t o q.part }
    | .done tag litres mass, false => doneAnswer t tag litres mass q
    | .offer _, true => { q with part := missTurn q.books t q.part }
    | .done _ _ _, true => { q with part := missTurn q.books t q.part }

/-! ## Travel and stall (R23, R28, R89) -/

/-- GO becomes the unit's pending outbound unless a STOP is pending (R89). -/
def setGo (m : Movement) (p : Part) : Part :=
  match m.slug with
  | none => p
  | some s => updUnit s.unit (fun u =>
      { u with outbound := match u.outbound with
          | some (.stop n) => some (.stop n)
          | some .go | none => some .go }) p

/-- TRAVEL_ELAPSED: a movement in OPENING takes RUNNING, or READY for a SLUG (R23). -/
def travelElapsed (n : Nat) (p : Part) : Part :=
  match findMove n p with
  | none => p
  | some m =>
    if m.phase ≠ .opening then p
    else if m.kind = .slug then
      setGo m (updMove n (fun x => { x with phase := .ready, travelLeft := 0 }) p)
    else updMove n (fun x =>
      { x with phase := .running, travelLeft := 0, quiet := 0, lastProgress := p.gate.clock }) p

/-- A stall (R28): the entry out of the table, the raise, then the end, bound to the frame where stacked. -/
def stallMove (b : Books) (m : Movement) (p : Part) : Part :=
  let p1 := raiseBeforeEnd b { ftype := .flowStall, subject := .movement m.number } m p
  movementEnded b m (.stall (p1.flt.last.bind LastFault.depth)) p1

/-- STALL_TIMEOUT of a movement number: acts on an internal movement in RUNNING (R28, log 4). -/
def stallTimeout (b : Books) (n : Nat) (p : Part) : Part :=
  match findMove n p with
  | none => p
  | some m => if m.kind ≠ .slug ∧ m.phase = .running then stallMove b m p else p

/-- Movements already quiet for longer than a new stall time stall at once (R28; longer, not as long: log 42), in table
order (the model's choice, log 77). -/
def stallQuiet (b : Books) (p : Part) : Part :=
  (p.mov.entries.filter (fun m => decide (p.mov.stallTime < m.quiet))).foldl
    (fun q m => stallTimeout b m.number q) p

end Sys2Proof.Machine
end

