-- ==== Sys2Proof/Machine/Patterns.lean ====
section
/-! DEFINITION. The Pattern Unit (chapter 9): matches, alarms and its requests. -/

namespace Sys2Proof.Machine

/-- A pattern enters ARMED (R154). -/
def PatternRec.arm (r : PatternRec) : PatternRec :=
  { r with state := .armed, overrun := false, matched := none, matchTime := none, snapshot := none }

/-- A match taken from ARMED: PENDING, the notice, then the fault or its PRESENT report (R157). -/
def matchArmed (b : Books) (k : PatternId) (i : Option InputId) (p : Part) : Part :=
  let snap := if (patternRec p k).latch then some p.pat.inputs else none
  let p1 := updPattern k (fun r =>
    { r with state := .pending, matched := i, matchTime := some p.gate.clock, snapshot := snap }) p
  raiseOrReport b { ftype := .interlock k, subject := .pattern k }
    (notify (.patternMatch k i p.gate.clock snap) p1)

/-- A pattern that is met (R157). -/
def takeMatch (b : Books) (k : PatternId) (i : Option InputId) (p : Part) : Part :=
  match (patternRec p k).state with
  | .armed => matchArmed b k i p
  | .pending | .taken => updPattern k (fun r => { r with overrun := true }) p

/-- Evaluate a pattern on an input change, or with none (R155, R156). -/
def evaluatePattern (b : Books) (change : Option (InputId × Bool)) (k : PatternId) (p : Part) : Part :=
  let r := patternRec p k
  if r.enabled && patternMet p.pat.inputs change r then
    takeMatch b k (matchedInput p.pat.inputs change r) p
  else p

/-- Every enabled pattern is evaluated (R157, R162), P1 first (the model's choice, log 70). -/
def evaluateAll (b : Books) (change : Option (InputId × Bool)) (p : Part) : Part :=
  allPatterns.foldl (fun q k => evaluatePattern b change k q) p

/-- The recorded state of an input takes the new state (R153). -/
def recordInput (i : InputId) (high : Bool) (p : Part) : Part :=
  { p with pat := { p.pat with inputs := p.pat.inputs.set i.1 high i.2 } }

/-- INPUT_CHANGE: recorded always; the patterns are evaluated in the modes in service (R153, R157). A level
that is already recorded is no change (log 32). -/
def inputChanges (b : Books) (i : InputId) (high : Bool) (p : Part) : Part :=
  if p.pat.inputs.get i = high then p
  else
    let p1 := recordInput i high p
    if p.ctl.mode.inService && !p.ctl.resetHeld then evaluateAll b (some (i, high)) p1 else p1

/-! ## Requests -/

/-- SET PATTERN on a pattern (R158). -/
def setPatternOf (i : PatternItems) (k : PatternId) (q : Plant) : Plant × Reply :=
  if i.mode = .andMode ∧ 1 < edgeCount i.terms then refuse .badValue q
  else if (patternRec q.part k).enabled then refuse .wrongState q
  else
    let p := updPattern k (fun r => { r with terms := i.terms, mode := i.mode, latch := i.latch }) q.part
    okay { q with part := p }

/-- SET PATTERN (R158). -/
def takeSetPattern (n : Nat) (i : PatternItems) (q : Plant) : Plant × Reply :=
  inService (named (patternOf n) (setPatternOf i)) q

/-- PATTERN ON on a pattern (R159). -/
def patternOnOf (k : PatternId) (q : Plant) : Plant × Reply :=
  let r := patternRec q.part k
  if r.enabled then okay q
  else if (activeInputs r).isEmpty then refuse .wrongState q
  else
    let p := evaluatePattern q.books none k (updPattern k (fun x => { x with enabled := true }) q.part)
    okay { q with part := p }

/-- PATTERN ON (R159). -/
def takePatternOn (n : Nat) (q : Plant) : Plant × Reply := inService (named (patternOf n) patternOnOf) q

/-- PATTERN OFF on a pattern (R159). -/
def patternOffOf (k : PatternId) (q : Plant) : Plant × Reply :=
  let r := patternRec q.part k
  match r.state, r.enabled with
  | .pending, _ | .taken, _ => refuse .wrongState q
  | .armed, true => okay { q with part := updPattern k (fun x => { x with enabled := false }) q.part }
  | .armed, false => okay q

/-- PATTERN OFF (R159). -/
def takePatternOff (n : Nat) (q : Plant) : Plant × Reply := inService (named (patternOf n) patternOffOf) q

/-- ALARM TAKE on a pattern (R160). -/
def alarmTakeOf (k : PatternId) (q : Plant) : Plant × Reply :=
  match (patternRec q.part k).state with
  | .pending => okay { q with part := updPattern k (fun x => { x with state := .taken }) q.part }
  | .armed | .taken => refuse .wrongState q

/-- ALARM TAKE (R160). -/
def takeAlarmTake (n : Nat) (q : Plant) : Plant × Reply := inService (named (patternOf n) alarmTakeOf) q

/-- The steps of ALARM CLEAR on a TAKEN pattern: ARMED, the CLEARED report, one evaluation (R160, R161). -/
def clearAlarm (b : Books) (k : PatternId) (p : Part) : Part :=
  evaluatePattern b none k
    (reportOn (.interlock k) (.pattern k) .cleared (updPattern k PatternRec.arm p))

/-- ALARM CLEAR on a pattern (R160). -/
def alarmClearOf (k : PatternId) (q : Plant) : Plant × Reply :=
  match (patternRec q.part k).state with
  | .taken =>
    let p := clearAlarm q.books k q.part
    ({ q with part := p }, { status := .ok, items := .patternState (patternRec p k).state })
  | .armed | .pending => refuse .wrongState q

/-- ALARM CLEAR (R160). -/
def takeAlarmClear (n : Nat) (q : Plant) : Plant × Reply := inService (named (patternOf n) alarmClearOf) q

/-- READ PATTERN (R163). -/
def patternReport (p : Part) (k : PatternId) : PatternReport where
  record := patternRec p k
  inputs := p.pat.inputs
  wouldMeet := patternMet p.pat.inputs none (patternRec p k)
  frame := (p.flt.stack.find? (Frame.names (.interlock k) (.pattern k))).map Frame.condition

/-- READ PATTERN (R163). -/
def takeReadPattern (n : Nat) (q : Plant) : Plant × Reply :=
  inService (named (patternOf n) (fun k r => answer (.pattern (patternReport r.part k)) r)) q

/-! ## Warm restart (R154, R162) -/

/-- Every pattern is set ARMED. -/
def armAll (p : Part) : Part :=
  { p with pat := { p.pat with patterns := p.pat.patterns.map PatternRec.arm } }

end Sys2Proof.Machine
end

