-- ==== Sys2Proof/Machine/Vessels.lean ====
section
/-! DEFINITION. The vessel requests and the level cross-check (chapter 1). -/

namespace Sys2Proof.Machine

/-! ## SET VESSEL (R1, R3, R4) -/

/-- The role that would hold after a SET VESSEL. -/
def roleAfter (i : VesselItems) (r : VesselRec) : Role := i.role.getD r.role

/-- The capacity that would hold after a SET VESSEL. -/
def capacityAfter (i : VesselItems) (r : VesselRec) : Option Nat := i.capacity.or r.capacity

/-- Check 2 of R4: ranges, the seal volume's place and bounds, a capacity for every role but UNUSED. A seal volume in a
request that takes the vessel out of HOLD is BAD VALUE (the model's choice, log 58). -/
def vesselItemsValid (i : VesselItems) (r : VesselRec) : Bool :=
  vesselRanges i &&
  (match i.sealVolume, capacityAfter i r with
    | none, _ => true
    | some k, some c => decide (roleAfter i r = .hold ∧ c ≤ 10 * k ∧ k ≤ c)
    | some _, none => false) &&
  (decide (roleAfter i r = .unused) || (capacityAfter i r).isSome)

/-- A SET VESSEL changes role or capacity; restating what is held is no change (R3). -/
def changesPlan (i : VesselItems) (r : VesselRec) : Bool :=
  decide (roleAfter i r ≠ r.role) || decide (capacityAfter i r ≠ r.capacity)

/-- Role and capacity may change: COMMISSIONING, booked volume 0, no lot, no movement (R3). -/
def planFree (b : Books) (p : Part) (v : VesselId) : Bool :=
  decide (p.ctl.mode = .commissioning) && decide ((b.vessel v).volume = 0) && (lotOf v p).isNone &&
    !(p.mov.entries.any (fun m => m.touches p v))

/-- The default seal volume: nine tenths of the capacity (R1). -/
def defaultSeal (c : Option Nat) : Option Nat := c.map (fun k => k * 9 / 10)

/-- The seal volume after a SET VESSEL (R1). -/
def sealAfter (i : VesselItems) (r : VesselRec) : Option Nat :=
  if roleAfter i r ≠ .hold then none
  else if i.sealVolume.isSome then i.sealVolume
  else if changesPlan i r then defaultSeal (capacityAfter i r)
  else r.sealVolume

/-- The record after a SET VESSEL that passed its checks (R1, R4). At a change to UNUSED the inlet is DISABLED, whatever
inlet state the request gives (the model's choice, log 64). -/
def applyVessel (i : VesselItems) (r : VesselRec) : VesselRec :=
  let role := roleAfter i r
  let toUnused := decide (role = .unused) && decide (r.role ≠ .unused)
  let leftReuse := decide (r.role = .reuse) && decide (role ≠ .reuse)
  { r with role := role, capacity := capacityAfter i r
           inlet := if toUnused then .disabled else orHeld i.inlet r.inlet
           regBlock := r.regBlock && !toUnused && !leftReuse
           tolerance := orHeld i.tolerance r.tolerance, travel := orHeld i.travel r.travel
           sealVolume := sealAfter i r, stray := if i.clearCount then 0 else r.stray }

/-- The REUSE vessel leaves the role or changes capacity: a switch that is ON becomes OFF, and the spill and
fill needs become IDLE (R100, R102; log 40). -/
def regulationEnds (p : Part) : Part :=
  if p.reg.switchOn then
    setFill .idle none (setSpill .idle none
      (notify .regulationOff { p with reg := { p.reg with switchOn := false } }))
  else p

/-- The REUSE vessel leaves the role: its regulation block clears, and regulation ends (R100, R102, R106; log 40). -/
def reuseLeaves (old : Option VesselId) (p : Part) : Part :=
  regulationEnds (match old with
    | none => p
    | some v => updVessel v (fun r => { r with regBlock := false }) p)

/-- What follows an applied SET VESSEL at regulation, the needs and the drains (R2, R100, R102, R107). A change of
capacity alone leaves the regulation block as it is (R106). Notice REGULATION goes before RESERVE LOW, and at an inlet
state change the needs re-examine before the drains seek (the model's choices, log 77). Such a change is no event of the
arbiter (R119), but the step of a drain that it moves is. -/
def vesselChanged (b : Books) (v : VesselId) (old : Part) (p : Part) : Part :=
  let was := roleVessel .reuse old
  let moved := decide (roleVessel .reuse p ≠ was)
  let resized := decide (was = some v) && decide ((vesselRec old v).capacity ≠ (vesselRec p v).capacity)
  let p1 := if moved then reuseLeaves was p else if resized then regulationEnds p else p
  let p2 := if moved then supplyCheck b p1 else p1
  if (vesselRec old v).inlet ≠ (vesselRec p v).inlet then
    arbiterIfStepped b p2 (seekDrains b (reexamineNeeds b p2))
  else p2

/-- SET VESSEL on a vessel (R4). -/
def setVesselOf (i : VesselItems) (v : VesselId) (q : Plant) : Plant × Reply :=
  let r := vesselRec q.part v
  if !vesselItemsValid i r then refuse .badValue q
  else if changesPlan i r && !planFree q.books q.part v then refuse .wrongState q
  else
    let p := vesselChanged q.books v q.part (updVessel v (applyVessel i) q.part)
    okay { q with part := p }

/-- SET VESSEL (R4). -/
def takeSetVessel (n : Nat) (i : VesselItems) (q : Plant) : Plant × Reply :=
  inService (named (vesselOf n) (setVesselOf i)) q

/-! ## READ VESSEL and READ ACCOUNTS (R5, R17) -/

/-- The reply of READ VESSEL. -/
def vesselReport (b : Books) (p : Part) (v : VesselId) : VesselReport where
  record := vesselRec p v
  holding := b.vessel v
  lot := (lotOf v p).map Lot.number
  inletMove := (moveAt p (.vesselInlet v)).map Movement.number
  outletMove := (moveAt p (.vesselOutlet v)).map Movement.number
  mismatch := hasFrame .levelMismatch (.vessel v) p

/-- READ VESSEL (R5). -/
def takeReadVessel (n : Nat) (q : Plant) : Plant × Reply :=
  inService (named (vesselOf n) (fun v r => answer (.vessel (vesselReport r.books r.part v)) r)) q

/-- The reply of READ ACCOUNTS (R17). -/
def accountsReport (b : Books) : AccountsReport where
  accounts := b.acc
  holderVolume := b.holderVolume
  vesselMass := b.vesselMass
  liquorMass := b.liquorMass
  cathodeMass := b.cathodeMass

/-- READ ACCOUNTS (R17). -/
def takeReadAccounts (q : Plant) : Plant × Reply :=
  inService (fun r => answer (.accounts (accountsReport r.books)) r) q

/-! ## ADOPT LEVEL (R12 to R14) -/

/-- The adopted lot of a HOLD vessel without a lot (R14). -/
def openAdopted (v : VesselId) (level : Nat) (p : Part) : Part :=
  if (vesselRec p v).role = .hold ∧ (lotOf v p).isNone = true ∧ 0 < level then
    let r := addLot v .settling (fun l =>
      { l with contributions := [⟨.adopted, level, 0⟩], timer := some p.lot.times.settle }) p
    settleOrSample r.2 (lotNotice r.2 .settling .adopted r.1)
  else p

/-- What an adoption does beside its booking: the flag, the CLEARED report, the lot (R13, R14). -/
def adoptionTold (v : VesselId) (level : Nat) (_ : Books) (p : Part) : Part :=
  openAdopted v level (reportOn .levelMismatch (.vessel v) .cleared
    (updVessel v (fun r => { r with adopted := true }) p))

/-- The adoption of R13. -/
def adoptLevel (v : VesselId) (level : Nat) (q : Plant) : Plant :=
  bookAndTell (.adoption v level) none none (adoptionTold v level) q

/-- Checks 3 to 5 of R12. -/
def adoptLevelOf (v : VesselId) (q : Plant) : Plant × Reply :=
  let r := vesselRec q.part v
  if r.role = .unused then refuse .wrongState q
  else match r.lastLevel with
    | none => refuse .noSuch q
    | some level =>
      if q.part.mov.entries.any (fun m => m.touches q.part v) then refuse .busy q
      else okay (adoptLevel v level q)

/-- Check 1 of R12: COMMISSIONING, or OPERATING or LOCKDOWN with a LEVEL MISMATCH frame naming the vessel. -/
def adoptMode (n : Nat) (p : Part) : Bool :=
  match p.ctl.mode with
  | .commissioning => true
  | .operating | .lockdown => (match vesselOf n with
      | some v => hasFrame .levelMismatch (.vessel v) p
      | none => false)
  | .starting | .failed => false

/-- ADOPT LEVEL (R12). -/
def takeAdoptLevel (n : Nat) (q : Plant) : Plant × Reply :=
  if adoptMode n q.part then named (vesselOf n) adoptLevelOf q else refuse .wrongMode q

/-! ## Level readings (R10, R11) -/

/-- The level reading differs from the books by more than the tolerance. -/
def outOfTolerance (r : VesselRec) (booked reading : Nat) : Bool :=
  decide (r.tolerance < reading - booked ∨ r.tolerance < booked - reading)

/-- The comparison of R11. -/
def crossCheck (b : Books) (v : VesselId) (reading : Nat) (p : Part) : Part :=
  let framed := hasFrame .levelMismatch (.vessel v) p
  if outOfTolerance (vesselRec p v) (b.vessel v).volume reading then
    if framed then reportOn .levelMismatch (.vessel v) .present p
    else if p.mov.entries.any (fun m => m.touches p v) then p
    else raise b { ftype := .levelMismatch, subject := .vessel v } p
  else if framed then reportOn .levelMismatch (.vessel v) .cleared p
  else p

/-- Whether a vessel is compared (R11). -/
def compared (p : Part) (v : VesselId) : Bool :=
  p.ctl.mode.inService && decide ((vesselRec p v).role ≠ .unused) && (vesselRec p v).adopted

/-- A level reading event (R10); log 27 for STARTING and FAILED. -/
def levelReading (b : Books) (v : VesselId) (reading : Option Nat) (p : Part) : Part :=
  match reading with
  | none => p
  | some n =>
    if 65535 < n then p
    else
      let p1 := updVessel v (fun r => { r with lastLevel := some n }) p
      if compared p1 v then crossCheck b v n p1 else p1

end Sys2Proof.Machine
end

