-- ==== Sys2Proof/Machine/LotRequests.lean ====
section
/-! DEFINITION. The lot requests and the lot timers (3.6, 3.7, 3.11, 3.12). -/

namespace Sys2Proof.Machine

/-! ## Timers (R39, R42, R44 to R46, R58) -/

/-- The lot of an expiry: it acts only on an open lot that is in the timer's state and whose timer runs
(R39, R58; log 4). -/
def expiring (n : Nat) (s : LotState) (p : Part) : Option Lot :=
  match findLot n p with
  | none => none
  | some l => if l.state = s ∧ l.timer.isSome = true ∧ p.ctl.mode.running = true then some l else none

/-- FILL_AGE_EXPIRY (R42). -/
def fillAgeExpires (b : Books) (n : Nat) (p : Part) : Part :=
  match expiring n .filling p with
  | none => p
  | some l => dueToSeal b l .fillAge p

/-- SETTLE_EXPIRY (R44). -/
def settleExpires (n : Nat) (p : Part) : Part :=
  match expiring n .settling p with
  | none => p
  | some _ => enterSampling n .settled p

/-- The lot after its sample: AWAITING VERDICT with the verdict timer started (R45). -/
def awaitVerdict (n : Nat) (p : Part) : Part :=
  lotNotice n .awaitingVerdict .sampled (updLot n (fun l =>
    { l with state := .awaitingVerdict, timer := some p.lot.times.verdict }) p)

/-- SAMPLE READY, then AWAITING VERDICT for a lot that the sample has left water (R45). For a lot that the sample empties,
SAMPLE READY is queued before the LOT STATE of its closing (R45 and R52 give no order: the model's choice, log 9). -/
def sampleTold (l : Lot) (b : Books) (p : Part) : Part :=
  let p1 := notify (.sampleReady l.number l.sampleNumber) p
  if (b.vessel l.vessel).volume = 0 then updLot l.number (fun x => { x with timer := none }) p1
  else awaitVerdict l.number p1

/-- SAMPLE_END: the sample booking and its notice (R45). -/
def sampleEnds (n : Nat) (q : Plant) : Plant :=
  match expiring n .sampling q.part with
  | none => q
  | some l =>
    bookAndTell (.sample l.vessel q.part.lot.times.sampleVolume) none none (sampleTold l) q

/-- VERDICT_EXPIRY: the first sample is drawn again, the second rejects the lot (R46). -/
def verdictExpires (b : Books) (n : Nat) (p : Part) : Part :=
  match expiring n .awaitingVerdict p with
  | none => p
  | some l =>
    if l.sampleNumber < 2 then enterSampling n .resample p
    else reexamineNeeds b (rejectLot n (some .noVerdict) .noVerdict p)

/-! ## Requests naming a lot (R54 to R57) -/

/-- A request that names an open lot: NO SUCH where no open lot has the number (3.11). -/
def onLot (n : Nat) (take : Lot → Plant → Plant × Reply) (q : Plant) : Plant × Reply :=
  inService (fun r => match findLot n r.part with
    | none => refuse .noSuch r
    | some l => take l r) q

/-- SEAL LOT on a lot (R56). -/
def sealLotOf (l : Lot) (q : Plant) : Plant × Reply :=
  if l.state ≠ .filling then refuse .wrongState q
  else
    let flight := l.sealPending.isSome || inflowInFlight q.part l.vessel
    let p := dueToSeal q.books l .host q.part
    let st := if flight then Status.started else Status.ok
    let p' := if (findLot l.number p).isNone then reexamineNeeds q.books p else p
    ({ q with part := p' }, { status := st })

/-- SEAL LOT (R56). -/
def takeSealLot (n : Nat) (q : Plant) : Plant × Reply := onLot n sealLotOf q

/-- Set held on a lot; a CLEARED lot leaves the queue (R49, R54). -/
def holdLotOf (l : Lot) (q : Plant) : Plant × Reply :=
  match l.state with
  | .filling | .discharging | .returning => refuse .wrongState q
  | .settling | .sampling | .awaitingVerdict | .cleared | .suspended | .rejected =>
    okay { q with part := leaveQueue l.number (updLot l.number (fun x => { x with held := true }) q.part) }

/-- HOLD LOT (R54). -/
def takeHoldLot (n : Nat) (q : Plant) : Plant × Reply := onLot n holdLotOf q

/-- Clear held on a lot (R54): a CLEARED lot rejoins the queue and the gate selects (R144); the return engine and the needs
are told of every release (R109). That the gate selects before the needs re-examine is the model's choice (log 77). -/
def unhold (b : Books) (l : Lot) (p : Part) : Part :=
  let p1 := joinQueue l.number (updLot l.number (fun x => { x with held := false }) p)
  let p2 := if l.state = .cleared then selectLot b p1 else p1
  reexamineNeeds b p2

/-- RELEASE LOT on a lot (R54). -/
def releaseLotOf (l : Lot) (q : Plant) : Plant × Reply :=
  if l.held then okay { q with part := unhold q.books l q.part } else okay q

/-- RELEASE LOT (R54). -/
def takeReleaseLot (n : Nat) (q : Plant) : Plant × Reply := onLot n releaseLotOf q

/-- REJECT LOT on a lot (R55): DISCHARGING is cut through the gate, and the engine is told of the lot. -/
def rejectLotOf (l : Lot) (q : Plant) : Plant × Reply :=
  match l.state with
  | .settling | .sampling | .awaitingVerdict | .cleared =>
    let p := reexamineNeeds q.books (rejectLot l.number (some .host) .host q.part)
    okay { q with part := p }
  | .discharging => okay { q with part := cutDischarge q.books .reject q.part }
  | .filling | .suspended | .rejected | .returning => refuse .wrongState q

/-- REJECT LOT (R55). -/
def takeRejectLot (n : Nat) (q : Plant) : Plant × Reply := onLot n rejectLotOf q

/-! ## VERDICT (R47, R48) -/

/-- Check 1 of R47. -/
def verdictRange (i : VerdictItems) : Bool :=
  decide ((i.sample = 1 ∨ i.sample = 2) ∧ i.conc ≤ 30000 ∧ i.ph ≤ 140)

/-- Checks 4 to 8 of R47, in order; none where the verdict is applied. -/
def verdictRefusal (i : VerdictItems) (l : Lot) (g : Gate) : Option Status :=
  if i.sample < l.sampleNumber then some .late
  else if l.state = .filling ∨ l.state = .settling ∨ l.state = .sampling then some .wrongState
  else if l.sampleNumber < i.sample then some .badValue
  else if l.state ≠ .awaitingVerdict then some .late
  else if g.limits.concLimit.isNone || g.limits.phBand.isNone then some .wrongState
  else none

/-- Where an applied verdict takes the lot `l` that it names (R48). A lot cleared unheld joins the queue, and the gate
selects (R49, R144); one cleared held joins none, so that no selection is made (R54). -/
def verdictTaken (i : VerdictItems) (l : Lot) (b : Books) (p : Part) : Part :=
  let p1 := updLot i.lot (fun x =>
    { x with measuredConc := some i.conc, measuredPh := some i.ph, verdict := some i.result, timer := none }) p
  if i.result = .fail then reexamineNeeds b (rejectLot i.lot (some .lab) .lab p1)
  else if concWithin p.gate.limits i.conc && phWithin p.gate.limits i.ph then
    let p2 := clearLot i.lot .pass p1
    if l.held then p2 else selectLot b p2
  else reexamineNeeds b (rejectLot i.lot (some .limit) .limit p1)

/-- The state an applied verdict gives the lot. -/
def verdictState (i : VerdictItems) (g : Gate) : LotState :=
  if i.result = .pass ∧ concWithin g.limits i.conc = true ∧ phWithin g.limits i.ph = true then .cleared
  else .rejected

/-- An applied verdict (R48). -/
def applyVerdict (i : VerdictItems) (l : Lot) (q : Plant) : Plant × Reply :=
  (bookAndTell (.massCorrection l.vessel i.conc) none none (verdictTaken i l) q,
    { status := .ok, items := .lotTook (verdictState i q.part.gate) })

/-- VERDICT (R47). -/
def takeVerdict (i : VerdictItems) (q : Plant) : Plant × Reply :=
  inService (fun r =>
    if !verdictRange i then refuse .badValue r
    else if r.part.lot.closed.any (fun c => decide (c.number = i.lot)) then refuse .late r
    else match findLot i.lot r.part with
      | none => refuse .noSuch r
      | some l => match verdictRefusal i l r.part.gate with
        | some st => refuse st r
        | none => applyVerdict i l r) q

/-! ## Reading lots and the lot times (R53, R57, R60) -/

/-- The reply of READ LOT (R57). -/
def lotReport (b : Books) (p : Part) (l : Lot) : LotReport where
  lot := l
  holding := b.vessel l.vessel
  timer := l.timer.map (fun t => (t, !p.ctl.mode.running))
  queued := p.gate.queue.any (fun x => decide (x.1 = l.number))

/-- READ LOT with the lot found, or NO SUCH. -/
def readLotOf (l : Option Lot) (q : Plant) : Plant × Reply :=
  match l with
  | none => refuse .noSuch q
  | some x => answer (.lot (lotReport q.books q.part x)) q

/-- READ LOT (R57). -/
def takeReadLot (n : Nat) (byVessel : Bool) (q : Plant) : Plant × Reply :=
  inService (fun r =>
    if byVessel then named (vesselOf n) (fun v x => readLotOf (lotOf v x.part) x) r
    else readLotOf (findLot n r.part) r) q

/-- READ CLOSED LOTS (R53). -/
def takeReadClosedLots (q : Plant) : Plant × Reply :=
  inService (fun r => answer (.closedLots r.part.lot.closed) r) q

/-- SET LOT TIMES (R60). -/
def takeSetLotTimes (i : LotTimeItems) (q : Plant) : Plant × Reply :=
  inService (fun r =>
    if lotTimeRanges i then
      let lot := { r.part.lot with times := applyLotTimes i r.part.lot.times }
      okay { r with part := { r.part with lot := lot } }
    else refuse .badValue r) q

end Sys2Proof.Machine
end

