-- ==== Sys2Proof/Machine/FlowRequests.lean ====
section
/-! DEFINITION. The requests of movements, of the Field Link, and of regulation (2.8, 5.9, 6.1, R78, R101, R102). -/

namespace Sys2Proof.Machine

/-! ## Movements (R33, R34) -/

/-- Put a movement in its place by number. -/
def insertByNumber (m : Movement) (l : List Movement) : List Movement :=
  match l with
  | [] => [m]
  | x :: xs => if m.number ≤ x.number then m :: x :: xs else x :: insertByNumber m xs

/-- The reply of READ MOVEMENTS: the entries in order of number. -/
def movementsReport (p : Part) : MovementsReport where
  entries := p.mov.entries.foldr insertByNumber []
  free := 12 - p.mov.entries.length
  nextNumber := p.mov.nextNumber
  waiting := p.mov.waiting
  strays := p.mov.strays

/-- READ MOVEMENTS; the clear-count item sets the seven counts to 0 once the reply is made (R33). -/
def takeReadMovements (clear : Bool) (q : Plant) : Plant × Reply :=
  inService (fun r =>
    let mov := if clear then { r.part.mov with strays := {} } else r.part.mov
    ({ r with part := { r.part with mov := mov } },
      { status := .ok, items := .movements (movementsReport r.part) })) q

/-- SET MOVEMENT TIMES (R34, R28). -/
def takeSetMovementTimes (i : MovementTimeItems) (q : Plant) : Plant × Reply :=
  inService (fun r =>
    if movementTimeRanges i then
      let p := { r.part with mov := applyMovementTimes i r.part.mov }
      okay { r with part := stallQuiet r.books p }
    else refuse .badValue r) q

/-! ## The Field Link (R78, R98, R99) -/

/-- A unit record after its enabled flag takes a value (R78). -/
def enableUnit (on : Bool) (r : UnitRec) : UnitRec :=
  if on = r.enabled then r
  else if on then { r with enabled := true, presence := .unknown, missed := 0 }
  else { r with enabled := false, presence := .unknown, missed := 0, outbound := none }

/-- Where no unit is enabled the round is over: polling resumes at the first enabled address (R79). -/
def roundOver (p : Part) : Part :=
  if allUnits.any (fun u => (unitRec p u).enabled) then p else { p with fld := { p.fld with lastTurn := none } }

/-- A unit is disabled: its frame is reported CLEARED if it was SILENT, and an open turn of it ends (log 22). -/
def unitDisabled (u : UnitId) (was : UnitRec) (p : Part) : Part :=
  let p1 := roundOver (if was.presence = .silent then reportOn .unitSilent (.unit u) .cleared p else p)
  match p1.fld.turn with
  | some t => if t.unit = u then endTurn p1 else p1
  | none => p1

/-- SET UNIT on an address (R78). With neither flag it is answered OK and changes nothing (the model's choice, log 56). -/
def setUnitOf (enabled learning : Option Bool) (u : UnitId) (q : Plant) : Plant × Reply :=
  let r := unitRec q.part u
  let on := enabled.getD r.enabled
  let off := r.enabled && !on
  if off && r.slug.isSome then refuse .busy q
  else
    let p := updUnit u (fun x => { enableUnit on x with learning := learning.getD x.learning }) q.part
    okay { q with part := if off then unitDisabled u r p else p }

/-- SET UNIT (R78). -/
def takeSetUnit (n : Nat) (enabled learning : Option Bool) (q : Plant) : Plant × Reply :=
  inService (named (unitOf n) (setUnitOf enabled learning)) q

/-- The slug in flight of a READ UNIT reply (R99). -/
def slugReport (m : Movement) : SlugReport where
  phase := m.phase
  vessel := m.destVessel
  granted := m.requested
  lot := m.lot
  timeoutLeft := m.timeoutLeft

/-- The reply of READ UNIT (R99). -/
def unitReport (p : Part) (u : UnitId) : UnitReport where
  record := unitRec p u
  slug := (slugOf p u).map slugReport
  settings := p.fld.settings
  enabled := (allUnits.filter (fun x => (unitRec p x).enabled)).length

/-- READ UNIT on an address; the clear-count item sets late reports to 0 once the reply is made (R99). -/
def readUnitOf (clear : Bool) (u : UnitId) (q : Plant) : Plant × Reply :=
  let p := if clear then updUnit u (fun r => { r with late := 0 }) q.part else q.part
  ({ q with part := p }, { status := .ok, items := .unit (unitReport q.part u) })

/-- READ UNIT (R99). -/
def takeReadUnit (n : Nat) (clear : Bool) (q : Plant) : Plant × Reply :=
  inService (named (unitOf n) (readUnitOf clear)) q

/-- SET ROUTING (R98). -/
def takeSetRouting (i : RoutingItems) (q : Plant) : Plant × Reply :=
  inService (fun r =>
    let new := applyRouting i r.part.fld.settings
    if routingRanges i && decide (new.amber < new.red) then
      okay { r with part := { r.part with fld := { r.part.fld with settings := new } } }
    else refuse .badValue r) q

/-! ## Regulation (R101, R102) -/

/-- The state of the unit that every SET REGULATION reply carries (R101). -/
def regulationReport (p : Part) : RegulationReport where
  unit := p.reg
  reuseHighVolume := reuseHighVolume p
  reuseLowVolume := reuseLowVolume p
  feedHighVolume := admissionLimit p
  feedLowVolume := chargeFloor p

/-- Checks 1 to 3 of R101 on the marks that would hold. -/
def regulationValid (i : RegulationItems) (p : Part) : Bool :=
  let m := applyMarks i p.reg.marks
  regulationRanges i && decide (m.reuseLow < m.reuseHigh ∧ m.feedLow < m.feedHigh) &&
    (match roleCapacity .reuse p with
      | none => true
      | some c => marksFit c m)

/-- The status of a SET REGULATION: the checks of R101 in order. A request with no settings goes through check 3 on the values
held and is BAD VALUE where they fail it (the model's choice, log 76). -/
def regulationStatus (i : RegulationItems) (p : Part) : Status :=
  if !p.ctl.mode.inService then .wrongMode
  else if !regulationValid i p then .badValue
  else if p.reg.switchOn && !noSettings i then .wrongState
  else .ok

/-- Apply new marks: the needs re-examine (R109), and a change of the FEED marks reaches the arbiter (R119), after the needs
(the model's choice, log 77). New REUSE marks govern the supply valve from the next REUSE booking on, with the switch OFF
(log 67). -/
def applyRegulation (b : Books) (i : RegulationItems) (p : Part) : Part :=
  let old := p.reg.marks
  let new := applyMarks i old
  let p1 := reexamineNeeds b { p with reg := { p.reg with marks := new } }
  if old.feedHigh ≠ new.feedHigh ∨ old.feedLow ≠ new.feedLow then examineArbiter b p1 else p1

/-- SET REGULATION (R101); the reply carries the state before it is applied (log 23). -/
def takeSetRegulation (i : RegulationItems) (q : Plant) : Plant × Reply :=
  let st := regulationStatus i q.part
  let p := if st = .ok ∧ noSettings i = false then applyRegulation q.books i q.part else q.part
  ({ q with part := p }, { status := st, items := .regulation (regulationReport q.part) })

/-- REGULATION ON (R102). -/
def takeRegulationOn (q : Plant) : Plant × Reply :=
  inService (fun r =>
    if r.part.reg.switchOn then okay r
    else match roleCapacity .reuse r.part with
      | none => refuse .wrongState r
      | some c =>
        if marksFit c r.part.reg.marks then
          let p := { r.part with reg := { r.part.reg with switchOn := true } }
          okay { r with part := examineReturn r.books (reuseEvaluation r.books p) }
        else refuse .wrongState r) q

/-- The steps of REGULATION OFF (R102). Under STOP REGULATION too the block clears, with OVERFLOW CLEARED, and under a
frame that holds a need the need becomes IDLE (R102 against R106 and R109: the model's choice, log 79). A running SPILL is
cut before a running FILL (R102 gives no order: the model's choice, log 77). -/
def switchOff (b : Books) (p : Part) : Part :=
  let p1 := { p with reg := { p.reg with switchOn := false } }
  let p2 := match roleVessel .reuse p1 with
    | none => p1
    | some v =>
      if (vesselRec p1 v).regBlock then
        notify (.overflow v false (b.vessel v).volume) (updVessel v (fun r => { r with regBlock := false }) p1)
      else p1
  let p3 := cutNeed b p2.reg.fill (cutNeed b p2.reg.spill p2)
  setFill .idle none (setSpill .idle none p3)

/-- REGULATION OFF (R102). -/
def takeRegulationOff (q : Plant) : Plant × Reply :=
  inService (fun r =>
    if r.part.reg.switchOn then okay { r with part := switchOff r.books r.part } else okay r) q

end Sys2Proof.Machine
end

