-- ==== Sys2Proof/Machine/CellRequests.lean ====
section
/-! DEFINITION. The cell requests, the cell probes, the run limit and the cell fault inputs (chapter 7). -/

namespace Sys2Proof.Machine

/-- The arbiter is examined where a cell's state has changed (R119). -/
def arbiterIfMoved (b : Books) (c : CellId) (old : CellState) (p : Part) : Part :=
  if (cellRec p c).state = old then p else examineArbiter b p

/-! ## Requests (R117, R118, R127, R128, R132) -/

/-- A new cathode capacity below the load of an IDLE cell sends HARVEST NEEDED (R117). -/
def capacityCompared (b : Books) (i : CellItems) (c : CellId) (p : Part) : Part :=
  match i.cathodeCapacity with
  | none => p
  | some k =>
    if (cellRec p c).state = .idle ∧ k ≤ b.cathode c then notify (.harvestNeeded c (b.cathode c)) p else p

/-- The arbiter is examined where a charge volume or a cathode capacity has changed (R119). -/
def arbiterIfResized (b : Books) (c : CellId) (old : CellRec) (p : Part) : Part :=
  let r := cellRec p c
  if r.chargeVolume = old.chargeVolume ∧ r.cathodeCapacity = old.cathodeCapacity then p else examineArbiter b p

/-- SET CELL on a cell (R117). -/
def setCellOf (i : CellItems) (c : CellId) (q : Plant) : Plant × Reply :=
  if !cellRanges i then refuse .badValue q
  else match (cellRec q.part c).state with
    | .offline | .idle =>
      let p := capacityCompared q.books i c (updCell c (applyCell i) q.part)
      okay { q with part := arbiterIfResized q.books c (cellRec q.part c) p }
    | .charging | .plating | .draining | .harvest => refuse .wrongState q

/-- SET CELL (R117): taken in COMMISSIONING. -/
def takeSetCell (n : Nat) (i : CellItems) (q : Plant) : Plant × Reply :=
  if q.part.ctl.mode = .commissioning then named (cellOf n) (setCellOf i) q else refuse .wrongMode q

/-- CELL ON on a cell (R118). -/
def cellOnOf (c : CellId) (q : Plant) : Plant × Reply :=
  let r := cellRec q.part c
  if r.state = .offline ∧ cellConfigured r = true then
    okay { q with part := examineArbiter q.books (setCellState c .idle .host q.part) }
  else refuse .wrongState q

/-- CELL ON (R118). -/
def takeCellOn (n : Nat) (q : Plant) : Plant × Reply := inService (named (cellOf n) cellOnOf) q

/-- CELL OFF on a cell (R118). -/
def cellOffOf (c : CellId) (q : Plant) : Plant × Reply :=
  if (cellRec q.part c).state = .idle then
    okay { q with part := examineArbiter q.books (setCellState c .offline .host q.part) }
  else refuse .wrongState q

/-- CELL OFF (R118). -/
def takeCellOff (n : Nat) (q : Plant) : Plant × Reply := inService (named (cellOf n) cellOffOf) q

/-- HARVEST on a cell (R127). -/
def harvestOf (c : CellId) (q : Plant) : Plant × Reply :=
  match (cellRec q.part c).state with
  | .idle | .offline =>
    okay { q with part := examineArbiter q.books (setCellState c .harvest .host q.part) }
  | .charging | .plating | .draining | .harvest => refuse .wrongState q

/-- HARVEST (R127). -/
def takeHarvest (n : Nat) (q : Plant) : Plant × Reply := inService (named (cellOf n) harvestOf) q

/-- The cell after its harvest is booked (R128). -/
def harvestTold (c : CellId) (b : Books) (p : Part) : Part :=
  let s := if cellConfigured (cellRec p c) then CellState.idle else CellState.offline
  examineArbiter b (setCellState c s .harvested (updCell c (fun x => { x with harvestRequired := false }) p))

/-- HARVEST DONE on a cell (R128). -/
def harvestDoneOf (weighed : Nat) (c : CellId) (q : Plant) : Plant × Reply :=
  if 1000000000 < weighed then refuse .badValue q
  else if (cellRec q.part c).state = .harvest then
    (bookAndTell (.harvest c weighed) none none (harvestTold c) q,
      { status := .ok, items := .harvested (q.books.cathode c) weighed })
  else refuse .wrongState q

/-- HARVEST DONE (R128). -/
def takeHarvestDone (n weighed : Nat) (q : Plant) : Plant × Reply :=
  inService (named (cellOf n) (harvestDoneOf weighed)) q

/-- The concentration the books imply for a liquor (R132). -/
def impliedConc (h : Holding) : Option Nat := if h.volume = 0 then none else some (h.mass / h.volume)

/-- The movement of a cell's RUNNING step. -/
def stepMove (p : Part) (c : CellId) : Option Movement :=
  match (cellRec p c).step with
  | .running n => findMove n p
  | .idle | .waiting _ => none

/-- The vessel and lot of a running DRAIN (R132). -/
def drainTarget (m : Movement) : Option (VesselId × Option Nat) :=
  if m.kind = .drain then m.destVessel.map (fun v => (v, m.lot)) else none

/-- The reply of READ CELL (R132). -/
def cellReport (b : Books) (p : Part) (c : CellId) : CellReport where
  record := cellRec p c
  liquor := b.liquor c
  load := b.cathode c
  holding := holdingFrames p c
  implied := impliedConc (b.liquor c)
  moved := (stepMove p c).map Movement.movedLitres
  target := (stepMove p c).bind drainTarget
  outcome := p.cel.outcome
  chosen := p.cel.chosen

/-- READ CELL (R132). -/
def takeReadCell (n : Nat) (q : Plant) : Plant × Reply :=
  inService (named (cellOf n) (fun c r => answer (.cell (cellReport r.books r.part c)) r)) q

/-! ## Probe readings and the run limit (R123, R124) -/

/-- The checks after a reading in PLATING, while paused is clear (R124). -/
def readingChecked (c : CellId) (conc : Nat) (b : Books) (p : Part) : Part :=
  let r := cellRec p c
  if r.state = .plating ∧ r.paused = false then
    arbiterIfMoved b c .plating (platingChecks b c (some conc) p)
  else p

/-- A valid reading becomes the cell's last probe reading (R123). -/
def recordProbe (c : CellId) (conc : Nat) (p : Part) : Part := updCell c (fun r => { r with lastProbe := some conc }) p

/-- A valid reading: recorded, and in PLATING booked where the liquor mass falls, then checked (R123). -/
def validProbe (c : CellId) (conc : Nat) (q : Plant) : Plant :=
  let p1 := recordProbe c conc q.part
  let h := q.books.liquor c
  if (cellRec p1 c).state = .plating ∧ conc * h.volume < h.mass then
    bookAndTell (.plating c conc) none none (readingChecked c conc) { q with part := p1 }
  else { q with part := readingChecked c conc q.books p1 }

/-- A cell probe reading event (R123); in STARTING and FAILED a valid one is recorded and not acted on (R184, R185,
log 27). -/
def probeReading (c : CellId) (reading : Option Nat) (q : Plant) : Plant :=
  match reading with
  | none => q
  | some n =>
    if 30000 < n then q
    else if q.part.ctl.mode.inService then validProbe c n q
    else { q with part := recordProbe c n q.part }

/-- RUN_LIMIT_EXPIRY: acts while the run timer runs, in the modes in service (R122, R124; log 4). -/
def runLimitExpires (b : Books) (c : CellId) (p : Part) : Part :=
  let r := cellRec p c
  let h := b.liquor c
  if p.ctl.mode.inService = true ∧ r.state = .plating ∧ r.runTimer.isSome = true ∧ r.paused = false then
    let p1 := notify (.incompleteRun c r.lastProbe h.volume h.mass) (enterDraining c .runLimit p)
    examineArbiter b (beginDrain b c p1)
  else p

/-! ## Cell fault inputs (R129) -/

/-- A cell fault input found or become ACTIVE raises CELL FAULT, or re-presents its frame. -/
def cellFaultActive (b : Books) (c : CellId) (p : Part) : Part :=
  raiseOrReport b { ftype := .cellFault, subject := .cell c, interrupted := cellMove p c } p

/-- CELL_FAULT_INPUT (R129): recorded always, acted on in the modes in service (log 32). -/
def cellFaultChanges (b : Books) (c : CellId) (active : Bool) (p : Part) : Part :=
  if (cellRec p c).faultInput = active then p
  else
    let p1 := updCell c (fun r => { r with faultInput := active }) p
    if p.ctl.resetHeld || !p.ctl.mode.inService then p1
    else if active then cellFaultActive b c p1
    else reportOn .cellFault (.cell c) .cleared p1

/-- Every cell fault input found ACTIVE raises CELL FAULT (R129, R190), C1 first (the model's choice, log 70). -/
def cellFaultsFound (b : Books) (p : Part) : Part :=
  allCells.foldl (fun q c => if (cellRec q c).faultInput then cellFaultActive b c q else q) p

end Sys2Proof.Machine
end

