-- ==== Sys2Proof/Machine/GateRequests.lean ====
section
/-! DEFINITION. The gate's requests, the outfall probes and the one-second tick (chapter 8). -/

namespace Sys2Proof.Machine

/-! ## Windows and clock (R133 to R136) -/

/-- A window open: the gate state is recomputed and a selection made (R135, R144). -/
def windowOpens (b : Books) (r : GateReason) (p : Part) : Part := selectLot b (recomputeGate r p)

/-- A window end: a running DISCHARGE is paused, and the gate is recomputed (R148). -/
def windowEnds (b : Books) (p : Part) : Part :=
  recomputeGate .windowEnd (cutDischarge b .windowEnd p)

/-- Compare the time of day with the windows before and after (R135, R136). -/
def compareWindows (b : Books) (was : Bool) (p : Part) : Part :=
  match was, inWindow p.gate with
  | false, true => windowOpens b .windowOpen p
  | true, false => windowEnds b p
  | false, false | true, true => p

/-- SET CLOCK to a time in range (R134). -/
def jumpClock (b : Books) (t : Nat) (p : Part) : Part :=
  let was := inWindow p.gate
  let p1 := { p with gate := { p.gate with clock := some t } }
  if !was && inWindow p1.gate then windowOpens b .clock p1 else recomputeGate .clock p1

/-- SET CLOCK (R134). -/
def takeSetClock (t : Nat) (q : Plant) : Plant × Reply :=
  inService (fun r =>
    if 86399 < t then refuse .badValue r
    else if r.part.ctl.mode = .operating ∧ r.part.gate.state = .running then refuse .busy r
    else okay { r with part := jumpClock r.books t r.part }) q

/-- SET WINDOWS (R136). With neither window it is answered OK and changes nothing (the model's choice, log 56). -/
def takeSetWindows (w1 w2 : Option Window) (q : Plant) : Plant × Reply :=
  inService (fun r =>
    if w1.all windowRange && w2.all windowRange then
      let g := r.part.gate
      let p := { r.part with gate := { g with w1 := orHeld w1 g.w1, w2 := orHeld w2 g.w2 } }
      okay { r with part := compareWindows r.books (inWindow g) p }
    else refuse .badValue r) q

/-! ## Limits (R137, R138) -/

/-- The relations of R138 on the values that would hold. -/
def limitRelations (l : Limits) : Bool :=
  (match l.phBand with
    | none => true
    | some (lo, hi) => decide (lo < hi)) &&
  (match l.massAllowance with
    | none => true
    | some a => decide (l.floor ≤ a))

/-- While the limits are unset, a request must carry the first four (R138). -/
def carriesFour (i : LimitItems) : Bool :=
  i.massAllowance.isSome && i.volumeAllowance.isSome && i.concLimit.isSome && i.phBand.isSome

/-- The checks of R138. -/
def limitsValid (i : LimitItems) (l : Limits) : Bool :=
  limitRanges i && limitRelations (applyLimits i l) && (limitsSet l || carriesFour i)

/-- New limits: ALLOWANCE FLOOR frames are reported, and a selection is made (R138). -/
def newLimits (b : Books) (i : LimitItems) (p : Part) : Part :=
  let p1 := { p with gate := { p.gate with limits := applyLimits i p.gate.limits } }
  let free := !p1.gate.limits.floorEnable || !floorReached p1.gate
  selectLot b (if free then reportType .allowanceFloor .cleared p1 else p1)

/-- SET LIMITS (R138). With no item while the limits are set it is answered OK and is a limits change all the same (the
model's choice, log 56). -/
def takeSetLimits (i : LimitItems) (q : Plant) : Plant × Reply :=
  inService (fun r =>
    if limitsValid i r.part.gate.limits then okay { r with part := newLimits r.books i r.part }
    else refuse .badValue r) q

/-! ## READ GATE (R152) -/

/-- One queued lot of the reply. -/
def queuedLot (b : Books) (p : Part) (x : Nat × Nat) : Option QueuedLot :=
  (findLot x.1 p).map (fun l =>
    { lot := x.1, clearance := x.2, volume := (b.vessel l.vessel).volume
      remaining := remainingMass b l, fits := lotFits b p.gate l })

/-- The reply of READ GATE. -/
def gateReport (b : Books) (p : Part) : GateReport where
  clock := p.gate.clock
  w1 := p.gate.w1
  w2 := p.gate.w2
  inWindow := inWindow p.gate
  limits := p.gate.limits
  todayVolume := p.gate.todayVolume
  todayMass := p.gate.todayMass
  massHeadroom := massHeadroom p.gate
  volumeHeadroom := volumeHeadroom p.gate
  state := p.gate.state
  outcome := p.gate.outcome
  running := if p.gate.state = .running then
    (dischargeMove p).map (fun m => (m.number, m.lot, m.movedLitres, m.movedMass)) else none
  queue := p.gate.queue.filterMap (queuedLot b p)
  silver := p.gate.silver
  ph := p.gate.ph
  silverTimer := p.gate.silverTimer
  phTimer := p.gate.phTimer

/-- READ GATE (R152). -/
def takeReadGate (q : Plant) : Plant × Reply :=
  inService (fun r => answer (.gate (gateReport r.books r.part)) r) q

/-! ## The outfall probes (R149 to R151) -/

/-- A probe's last reading becomes absent and its persistence timer stops (R149 to R151). -/
def losesReading (pr : Probe) (p : Part) : Part :=
  match pr with
  | .silver => { p with gate := { p.gate with silver := none, silverTimer := none } }
  | .ph => { p with gate := { p.gate with ph := none, phTimer := none } }

/-- A probe failure (R149): the raise, then the end of a discharge still in the table. -/
def probeFails (b : Books) (pr : Probe) (p : Part) : Part :=
  cutDischarge b .plain
    (raiseOrReport b { ftype := .probeFailure, subject := .probe pr } (losesReading pr p))

/-- Raise a fault about the running DISCHARGE, or report its frame PRESENT (R150, R151). -/
def raiseDischarge (b : Books) (t : FaultType) (p : Part) : Part :=
  match dischargeMove p with
  | none => p
  | some m => raiseOrReport b { ftype := t, subject := dischargeSubject m, interrupted := some m } p

/-- The persistence timer of a probe after a reading beyond (`bad`) or within its limit, while a DISCHARGE
runs: started where it is not running, stopped within the limit (R150). -/
def nextTimer (bad : Bool) (persistence : Nat) (t : Option Nat) : Option Nat :=
  if bad then t.or (if persistence = 0 then none else some persistence) else none

/-- A persistence of 0 raises the fault at the reading itself, where no timer started under an earlier persistence
still runs (R138, R150); `timer` is the probe's timer as the reading found it. -/
def immediate (b : Books) (t : FaultType) (bad : Bool) (timer : Option Nat) (p : Part) : Part :=
  if bad && timer.isNone && decide (p.gate.limits.persistence = 0) && decide (p.gate.state = .running) then
    raiseDischarge b t p
  else p

/-- The condition that a reading reports to every frame of its type. -/
def conditionOf (bad : Bool) : Condition := if bad then .present else .cleared

/-- A selection where a last reading has become present (R144). -/
def selectIfNew (b : Books) (old : Option Nat) (p : Part) : Part := if old.isNone then selectLot b p else p

/-- The silver reading is recorded and its timer set. -/
def storeSilver (n : Nat) (bad : Bool) (p : Part) : Part :=
  let g := p.gate
  let timer := if g.state = .running then nextTimer bad g.limits.persistence g.silverTimer else g.silverTimer
  { p with gate := { g with silver := some n, silverQuiet := 0, silverTimer := timer } }

/-- A valid silver reading (R149, R150). -/
def validSilver (b : Books) (n : Nat) (p : Part) : Part :=
  let bad := !concWithin p.gate.limits n
  let p1 := reportOn .probeFailure (.probe .silver) .cleared (storeSilver n bad p)
  let p2 := reportType .outfallExcursion (conditionOf bad) p1
  selectIfNew b p.gate.silver (immediate b .outfallExcursion bad p.gate.silverTimer p2)

/-- The pH reading is recorded and its timer set. -/
def storePh (n : Nat) (bad : Bool) (p : Part) : Part :=
  let g := p.gate
  let timer := if g.state = .running then nextTimer bad g.limits.persistence g.phTimer else g.phTimer
  { p with gate := { g with ph := some n, phQuiet := 0, phTimer := timer } }

/-- A valid pH reading (R149, R151). -/
def validPh (b : Books) (n : Nat) (p : Part) : Part :=
  let bad := !phWithin p.gate.limits n
  let p1 := reportOn .probeFailure (.probe .ph) .cleared (storePh n bad p)
  let p2 := reportType .outfallPh (conditionOf bad) p1
  selectIfNew b p.gate.ph (immediate b .outfallPh bad p.gate.phTimer p2)

/-- A reading that lies in a range, or none. -/
def validReading (top : Nat) (r : Option Nat) : Option Nat :=
  match r with
  | none => none
  | some n => if n ≤ top then some n else none

/-- A delivered reading ends the silence of its probe, valid or not. -/
def breakSilence (pr : Probe) (p : Part) : Part :=
  match pr with
  | .silver => { p with gate := { p.gate with silverQuiet := 0 } }
  | .ph => { p with gate := { p.gate with phQuiet := 0 } }

/-- OUTFALL_SILVER_READING (R149, R150). In FAILED the reading is recorded and not acted on, an invalid one as absent with no
raise; in STARTING it is passed over (R149, R184, R185; log 27). -/
def silverReading (b : Books) (r : Option Nat) (p : Part) : Part :=
  match p.ctl.mode, validReading 30000 r with
  | .starting, _ => p
  | .failed, x => { p with gate := { p.gate with silver := x, silverQuiet := 0 } }
  | .commissioning, some n | .operating, some n | .lockdown, some n => validSilver b n p
  | .commissioning, none | .operating, none | .lockdown, none =>
    probeFails b .silver (breakSilence .silver p)

/-- OUTFALL_PH_READING (R149, R151); in FAILED and STARTING as the silver reading (log 27). -/
def phReading (b : Books) (r : Option Nat) (p : Part) : Part :=
  match p.ctl.mode, validReading 140 r with
  | .starting, _ => p
  | .failed, x => { p with gate := { p.gate with ph := x, phQuiet := 0 } }
  | .commissioning, some n | .operating, some n | .lockdown, some n => validPh b n p
  | .commissioning, none | .operating, none | .lockdown, none => probeFails b .ph (breakSilence .ph p)

/-- PROBE_SILENCE_TIMEOUT (R149, log 4). -/
def probeSilent (b : Books) (pr : Probe) (p : Part) : Part :=
  if p.ctl.mode.inService then probeFails b pr p else p

/-- EXCURSION_EXPIRY: acts while the timer runs (R150, log 4). -/
def excursionExpires (b : Books) (p : Part) : Part :=
  if p.gate.silverTimer.isSome then
    raiseDischarge b .outfallExcursion { p with gate := { p.gate with silverTimer := none } }
  else p

/-- PH_PERSISTENCE_EXPIRY: acts while the timer runs (R151, log 4). -/
def phExpires (b : Books) (p : Part) : Part :=
  if p.gate.phTimer.isSome then
    raiseDischarge b .outfallPh { p with gate := { p.gate with phTimer := none } }
  else p

/-! ## The tick (R133; log 5) -/

/-- A second off a remaining time. -/
def countDown (t : Option Nat) : Option Nat := t.map (fun n => n - 1)

/-- A second of a movement: travel in OPENING, quiet in RUNNING, the transfer timeout. -/
def Movement.second (m : Movement) : Movement :=
  { m with travelLeft := m.travelLeft - 1
           quiet := if m.phase = .running then m.quiet + 1 else m.quiet
           timeoutLeft := countDown m.timeoutLeft }

/-- A second of a frame's hold (R178). -/
def Frame.second (f : Frame) : Frame := { f with holdLeft := countDown f.holdLeft }

/-- A second of a cell's run timer, unless it is paused (R122). -/
def CellRec.second (r : CellRec) : CellRec :=
  if r.paused then r else { r with runTimer := countDown r.runTimer }

/-- A second of every timer that runs in the modes in service. -/
def secondInService (p : Part) : Part :=
  { p with
    mov := { p.mov with entries := p.mov.entries.map Movement.second }
    flt := { p.flt with stack := p.flt.stack.map Frame.second }
    cel := { p.cel with cells := p.cel.cells.map CellRec.second }
    gate := { p.gate with
      silverTimer := countDown p.gate.silverTimer, phTimer := countDown p.gate.phTimer
      silverQuiet := p.gate.silverQuiet + 1, phQuiet := p.gate.phQuiet + 1 } }

/-- A second of the lot timers and the aging timer, which run in OPERATING and LOCKDOWN (R58, R71). -/
def secondRunning (p : Part) : Part :=
  { p with
    lot := { p.lot with lots := p.lot.lots.map (fun l => { l with timer := countDown l.timer }) }
    src := { p.src with agingLeft := p.src.agingLeft - 1 } }

/-- The day rolls at the time of day `now` (R139): DAY END, the totals to 0, the frames reported, a selection. -/
def rollDay (b : Books) (now : Nat) (p : Part) : Part :=
  let g := p.gate
  let p1 := notify (.dayEnd g.todayVolume g.todayMass g.limits.massAllowance g.limits.volumeAllowance now) p
  let p2 := { p1 with gate := { p1.gate with todayVolume := 0, todayMass := 0 } }
  selectLot b (reportType .allowanceFloor .cleared p2)

/-- The advance of a set clock (R133): the windows, then the day boundary (log 28). -/
def advanceClock (b : Books) (t : Nat) (p : Part) : Part :=
  let now := if t < 86399 then t + 1 else 0
  let p1 := { p with gate := { p.gate with clock := some now } }
  let p2 := compareWindows b (inWindow p.gate) p1
  if now = p2.gate.limits.dayBoundary * 60 then rollDay b now p2 else p2

/-- CLOCK_TICK (R133, log 5). -/
def tick (b : Books) (p : Part) : Part :=
  let p1 := if p.ctl.mode.inService then secondInService p else p
  let p2 := if p.ctl.mode.running then secondRunning p1 else p1
  match p2.gate.clock with
  | none => p2
  | some t => advanceClock b t p2

end Sys2Proof.Machine
end

