-- ==== Sys2Proof/Machine/FaultRequests.lean ====
section
/-! DEFINITION. The fault requests, RELEASE and the AUTO hold (chapter 10). -/

namespace Sys2Proof.Machine

/-- SET FAULT RESPONSE on a row of the table (R166). -/
def setResponseOf (i : ResponseItems) (row : Fin 16) (q : Plant) : Plant × Reply :=
  if 10 ≤ i.hold ∧ i.hold ≤ 3600 then
    let r : Response := { actions := i.actions, policy := i.policy, hold := i.hold, loaded := true }
    let flt := { q.part.flt with table := updAt q.part.flt.table row (fun _ => r) }
    okay { q with part := { q.part with flt := flt } }
  else refuse .badValue q

/-- SET FAULT RESPONSE (R166): taken in COMMISSIONING. -/
def takeSetFaultResponse (code : Nat) (i : ResponseItems) (q : Plant) : Plant × Reply :=
  if q.part.ctl.mode = .commissioning then named (indexOf 16 code) (setResponseOf i) q
  else refuse .wrongMode q

/-- One frame of READ FAULTS (R181). -/
def frameReport (x : Frame × Nat) : FrameReport where
  depth := x.2 + 1
  frame := x.1
  holdsGate := x.1.holdsKind .discharge
  holdsNeed := x.1.holdsKind .spill || x.1.holdsKind .fill || x.1.holdsKind .ret
  holdsCell := Vector.ofFn (fun c => x.1.holdsCell c)

/-- The reply of READ FAULTS (R181). -/
def faultsReport (p : Part) : FaultsReport where
  table := p.flt.table
  frames := p.flt.stack.zipIdx.map frameReport
  actions := actionsInForce p
  last := p.flt.last
  mode := p.ctl.mode

/-- READ FAULTS (R181). -/
def takeReadFaults (q : Plant) : Plant × Reply :=
  inService (fun r => answer (.faults (faultsReport r.part)) r) q

/-- Pop the frame that a request has been allowed, answering its type and subject (R174, R175). -/
def popAnswer (way : PopWay) (f : Frame) (q : Plant) : Plant × Reply :=
  ({ q with part := popFrame q.books way q.part }, { status := .ok, items := .popped f.ftype f.subject })

/-- Checks 1 to 3 of R174 on a depth. -/
def onTopFrame (depth : Nat) (take : Frame → Plant → Plant × Reply) (q : Plant) : Plant × Reply :=
  if depth < 1 ∨ 6 < depth then refuse .badValue q
  else match frameAt depth q.part with
    | none => refuse .noSuch q
    | some f => if depth = q.part.flt.stack.length then take f q else refuse .notTop q

/-- RESUME (R174). -/
def takeResume (depth : Nat) (q : Plant) : Plant × Reply :=
  inService (onTopFrame depth (fun f r =>
    if f.condition = .cleared then popAnswer .resume f r else refuse .wrongState r)) q

/-- ABANDON (R175). -/
def takeAbandon (depth : Nat) (q : Plant) : Plant × Reply :=
  inService (onTopFrame depth (popAnswer .abandon)) q

/-- The LOCKDOWN request (R179). -/
def takeLockdown (q : Plant) : Plant × Reply :=
  match q.part.ctl.mode with
  | .operating => okay { q with part := enterLockdown q.books .host none q.part }
  | .lockdown => okay q
  | .starting | .failed | .commissioning => refuse .wrongMode q

/-- The blocks take up their work in OPERATING: the gate selects, the cells and the needs go on (R131, R179). -/
def blocksOperating (b : Books) (p : Part) : Part :=
  let p1 := selectLot b (recomputeGate .mode p)
  let p2 := examineArbiter b (seekDrains b (settleCells b p1))
  reexamineNeeds b p2

/-- The steps of RELEASE (R179). -/
def releasePlant (b : Books) (p : Part) : Part :=
  blocksOperating b (notify .released { p with ctl := { p.ctl with mode := .operating } })

/-- RELEASE (R179). -/
def takeRelease (q : Plant) : Plant × Reply :=
  if q.part.ctl.mode = .lockdown then
    if q.part.flt.stack.isEmpty then okay { q with part := releasePlant q.books q.part }
    else (q, { status := .wrongState, items := .topDepth q.part.flt.stack.length })
  else refuse .wrongMode q

/-- AUTO_HOLD_EXPIRY of a frame's depth: the hold has run out; on top, the frame pops (R178, log 4). Below another, its hold
remaining stays present, at 0 (the model's choice, log 80). -/
def autoHoldExpires (b : Books) (depth : Nat) (p : Part) : Part :=
  match frameAt depth p with
  | none => p
  | some f =>
    if p.ctl.mode.inService = true ∧ f.policy = .auto ∧ f.condition = .cleared ∧ f.holdLeft.isSome = true then
      let stack := p.flt.stack.modify (depth - 1) (fun x => { x with holdLeft := some 0 })
      let p1 := { p with flt := { p.flt with stack := stack } }
      if depth = stack.length then popFrame b .auto p1 else p1
    else p

end Sys2Proof.Machine
end

