-- ==== Sys2Proof/Machine/Outputs.lean ====
section
/-! DEFINITION. The 51 outputs and the value commanded on each (R173, R187), computed from the state. -/

namespace Sys2Proof.Machine

/-- An output of R187's table. -/
inductive Output where
  | inletValve (v : VesselId)
  | outletValve (v : VesselId)
  | transferPump (v : VesselId)
  | sampleValve (v : VesselId)
  | cellInletValve (c : CellId)
  | drainValve (c : CellId)
  | drainPump (c : CellId)
  | rectifier (c : CellId)
  | makeupValve
  | outfallValve
  | supplyValve
  deriving DecidableEq, Repr

/-- The n-th output in the order of R187's table. -/
def outputAt (o : OutputId) : Output :=
  let n := o.1
  if h : n < 8 then .inletValve ⟨n, h⟩
  else if h : n < 16 then .outletValve ⟨n - 8, by omega⟩
  else if h : n < 24 then .transferPump ⟨n - 16, by omega⟩
  else if h : n < 32 then .sampleValve ⟨n - 24, by omega⟩
  else if h : n < 36 then .cellInletValve ⟨n - 32, by omega⟩
  else if h : n < 40 then .drainValve ⟨n - 36, by omega⟩
  else if h : n < 44 then .drainPump ⟨n - 40, by omega⟩
  else if h : n < 48 then .rectifier ⟨n - 44, by omega⟩
  else if n = 48 then .makeupValve
  else if n = 49 then .outfallValve
  else .supplyValve

/-- The valve of a port (2.2). -/
def portValve : Port → Option Output
  | .vesselInlet v => some (.inletValve v)
  | .vesselOutlet v => some (.outletValve v)
  | .cellInlet c => some (.cellInletValve c)
  | .cellOutlet c => some (.drainValve c)
  | .makeupEntry => some .makeupValve
  | .outfall => some .outfallValve
  | .sumpUnit _ | .mains => none

/-- The pump of a source port (R23). -/
def portPump : Port → Option Output
  | .vesselOutlet v => some (.transferPump v)
  | .cellOutlet c => some (.drainPump c)
  | .vesselInlet _ | .cellInlet _ | .makeupEntry | .outfall | .sumpUnit _ | .mains => none

/-- The value a movement drives on an output: its valves OPEN, its pump ON while RUNNING (R23, R30). The water
of a DISCHARGE runs out by the outlet pump of its vessel as of any vessel outlet (2.2). -/
def Movement.drives (m : Movement) (o : Output) : Option Bool :=
  if portValve m.source = some o ∨ portValve m.dest = some o then some true
  else if portPump m.source = some o then some (decide (m.phase = .running))
  else none

/-- The value that the movements of the table drive on an output. -/
def drivenValue (p : Part) (o : Output) : Option Bool := p.mov.entries.findSome? (fun m => m.drives o)

/-- An action in force holds an output closed or off (R173). -/
def forcedOff (a : ActionSet) (o : Output) : Bool :=
  match o with
  | .outfallValve => a.shutOutfall
  | .rectifier _ => a.stopCells
  | .transferPump _ | .drainPump _ => a.stopMovement
  | .inletValve _ => a.stopIntake
  | .makeupValve => a.stopRegulation
  | .outletValve _ | .sampleValve _ | .cellInletValve _ | .drainValve _ | .supplyValve => false

/-- The value an owning block commands outside a movement (R45, R58, R107, R122), and rest otherwise. The sample valve of
a lot that enters SAMPLING in COMMISSIONING stays closed until OPERATING (the model's choice, log 69). -/
def ownerValue (p : Part) (o : Output) : Bool :=
  match o with
  | .sampleValve v => p.ctl.mode.running && (match lotOf v p with
      | some l => decide (l.state = .sampling)
      | none => false)
  | .rectifier c => (cellRec p c).rectifier
  | .supplyValve => p.reg.supplyOpen
  | .inletValve _ | .outletValve _ | .transferPump _ | .cellInletValve _ | .drainValve _ | .drainPump _
  | .makeupValve | .outfallValve => false

/-- Every output is at rest while RESET is held, in STARTING and in FAILED (R183 to R185). -/
def outputsRest (p : Part) : Bool := p.ctl.resetHeld || !p.ctl.mode.inService

/-- The value commanded on an output: the first that applies of R187's list. `true` is OPEN or ON. -/
def commanded (p : Part) (o : OutputId) : Bool :=
  if outputsRest p then false
  else match drivenValue p (outputAt o) with
    | some x => x
    | none =>
      if forcedOff (actionsInForce p) (outputAt o) then false
      else (p.ctl.manual.get o).getD (ownerValue p (outputAt o))

/-! ## MANUAL OUTPUT and READ INPUTS (R186, R187) -/

/-- All outputs in order. -/
def allOutputs : List OutputId := (Vector.ofFn (fun o : OutputId => o)).toList

/-- The mask names an output that a movement drives (R187, log 41). -/
def masksDriven (i : ManualItems) (p : Part) : Bool :=
  allOutputs.any (fun o => (i.sets.get o).isSome && (drivenValue p (outputAt o)).isSome)

/-- The manual flags and values after a MANUAL OUTPUT. -/
def applyManual (i : ManualItems) (m : Vector (Option Bool) 51) : Vector (Option Bool) 51 :=
  Vector.ofFn (fun o => match i.sets.get o with
    | none => m.get o
    | some x => if i.release then none else some x)

/-- MANUAL OUTPUT (R187): taken in COMMISSIONING. -/
def takeManualOutput (i : ManualItems) (q : Plant) : Plant × Reply :=
  if q.part.ctl.mode ≠ .commissioning then refuse .wrongMode q
  else if masksDriven i q.part then refuse .busy q
  else
    let ctl := { q.part.ctl with manual := applyManual i q.part.ctl.manual }
    okay { q with part := { q.part with ctl := ctl } }

/-- One output of READ INPUTS; the read-back is a free value (log 13). -/
def outputReport (p : Part) (o : OutputId) : OutputReport where
  commanded := commanded p o
  readBack := Config.readBack p.ctl.readBacks o
  manual := (p.ctl.manual.get o).isSome

/-- READ INPUTS (R186). -/
def takeReadInputs (q : Plant) : Plant × Reply :=
  inService (fun r =>
    let p := r.part
    let items := ReplyItems.inputs p.pat.inputs (p.cel.cells.map CellRec.faultInput)
      (Vector.ofFn (outputReport p))
    let ctl := { p.ctl with readBacks := p.ctl.readBacks + 1 }
    ({ r with part := { p with ctl := ctl } }, { status := .ok, items := items })) q

end Sys2Proof.Machine
end

