-- ==== Sys2Proof/Machine/Modes.lean ====
section
/-! DEFINITION. Mode Control: the general reports, the mode requests, cold reset, the self-test, and the warm
restart (chapter 11). -/

namespace Sys2Proof.Machine

/-! ## Reports (R186) -/

/-- IDENTIFY (R186): taken in every mode in which the link is live. -/
def takeIdentify (q : Plant) : Plant × Reply := answer .identity q

/-- The top frame's type and condition (R181). -/
def topFrame (p : Part) : Option (FaultType × Condition) :=
  p.flt.stack.getLast?.map (fun f => (f.ftype, f.condition))

/-- The reply of STATUS (R186). -/
def statusReport (p : Part) : StatusReport where
  mode := p.ctl.mode
  lastStart := p.ctl.lastStart
  selfTest := p.ctl.selfTest
  clock := p.gate.clock
  stackHeight := p.flt.stack.length
  top := topFrame p
  actions := actionsInForce p
  pendingPattern := pendingPattern p
  gate := p.gate.state
  notices := p.link.queue.length
  lost := p.link.lost

/-- STATUS (R186): taken in every mode in which the link is live. -/
def takeStatus (q : Plant) : Plant × Reply := answer (.status (statusReport q.part)) q

/-! ## ENTER OPERATING and ENTER COMMISSIONING (R188, R189) -/

/-- Every manual flag clear (R187). -/
def clearManual (p : Part) : Part :=
  { p with ctl := { p.ctl with manual := Vector.replicate 51 none } }

/-- Mode Control takes a mode. -/
def setMode (m : Mode) (p : Part) : Part := { p with ctl := { p.ctl with mode := m } }

/-- The blocks take up their work at ENTER OPERATING, in the order R188 lists them (log 49). -/
def blocksEnter (b : Books) (p : Part) : Part :=
  let p1 := reexamineNeeds b (reuseEvaluation b p)
  let p2 := examineArbiter b (seekDrains b (settleCells b p1))
  selectLot b (recomputeGate .mode p2)

/-- The steps of ENTER OPERATING with every prerequisite met (R188). -/
def enterOperating (b : Books) (p : Part) : Part :=
  blocksEnter b (notify (.mode .commissioning .operating .host) (clearManual (setMode .operating p)))

/-- ENTER OPERATING (R188). -/
def takeEnterOperating (q : Plant) : Plant × Reply :=
  match q.part.ctl.mode with
  | .operating => okay q
  | .starting | .failed | .lockdown => refuse .wrongMode q
  | .commissioning =>
    if (missingItems q.part).isEmpty then okay { q with part := enterOperating q.books q.part }
    else (q, { status := .wrongState, items := .missing (missingItems q.part) })

/-- The steps of ENTER COMMISSIONING from OPERATING (R189; the order of the blocks: log 49). -/
def enterCommissioning (b : Books) (p : Part) : Part :=
  let p1 := notify (.mode .operating .commissioning .host) (clearManual (setMode .commissioning p))
  let p2 := settleCells b (chargesWaitMode (generalCut b .general none p1))
  examineArbiter b (seekDrains b (recomputeGate .mode p2))

/-- ENTER COMMISSIONING (R189). -/
def takeEnterCommissioning (q : Plant) : Plant × Reply :=
  match q.part.ctl.mode with
  | .commissioning => okay q
  | .starting | .failed | .lockdown => refuse .wrongMode q
  | .operating => okay { q with part := enterCommissioning q.books q.part }

/-! ## The warm restart (R190) -/

/-- The buffer and the queue are emptied and the lost flag cleared; a frame in transmission is sent whole, and
its end frees no place (R190 step 1, R196). A RESTART still waiting for the end of its OK leaves with its place. -/
def emptyLink (p : Part) : Part :=
  let tx := p.link.tx.map (fun t => { t with holdsPlace := false })
  { p with link := { p.link with
      buffer := [], queue := [], lost := false, tx := tx, restarting := false, behind := 0 } }

/-- Steps 1 and 2 of R190. A restart that finds COMMISSIONING changes no mode and sends no MODE (log 36). -/
def restartBegins (p : Part) : Part :=
  let p1 := emptyLink { p with ctl := { p.ctl with lastStart := .warm } }
  let p2 := notify (.start .warm p.ctl.selfTest .commissioning) p1
  let p3 := clearManual (setMode .commissioning p2)
  if p.ctl.mode = .operating then notify (.mode .operating .commissioning .restart) p3 else p3

/-- A SLUG is removed at once (R31): booked by level difference when its GO was delivered, else unbooked. -/
def restartSlug (m : Movement) (q : Plant) : Plant :=
  match m.phase, m.slug, m.destVessel with
  | .running, some s, some v | .stopping, some s, some v =>
    let r := bookByLevel m s v q
    { r with part := endMovement r.books m (.cut .restart) r.part }
  | _, _, _ => { q with part := endMovement q.books m (.cut .restart) q.part }

/-- Cut one movement as at a warm restart (R31). -/
def restartCut (n : Nat) (q : Plant) : Plant :=
  match findMove n q.part with
  | none => q
  | some m =>
    if m.kind = .slug then restartSlug m q
    else { q with part := endMovement q.books m (.cut .restart) q.part }

/-- Step 3 of R190: the general cut, then the waiting list is emptied. -/
def restartCuts (q : Plant) : Plant :=
  let r := (q.part.mov.entries.map Movement.number).foldl (fun x n => restartCut n x) q
  { r with part := { r.part with mov := { r.part.mov with waiting := [] } } }

/-- A SUSPENDED lot goes to CLEARED with held set (R59). -/
def restartLot (l : Lot) (p : Part) : Part :=
  if l.state = .suspended then
    clearLot l.number .restart (updLot l.number (fun x => { x with held := true }) p)
  else p

/-- The warm-restart values of a unit record (R77). -/
def UnitRec.restart (r : UnitRec) : UnitRec :=
  { r with presence := .unknown, missed := 0, slug := none, outbound := none, lastOffer := none
           lastDecision := none }

/-- The warm-restart values of a cell's step (R115). -/
def CellRec.restart (r : CellRec) : CellRec :=
  match r.state with
  | .charging | .draining => { r with step := .waiting .mode }
  | .offline | .idle | .plating | .harvest => r

/-- The warm-restart values of the tables that no notice tells (R61, R77, R79, R100, R115, R119, R144). An open turn is
dropped (the model's choice, log 59). -/
def restartTables (p : Part) : Part :=
  { p with
    src := { p.src with cursor := none }
    fld := { p.fld with units := p.fld.units.map UnitRec.restart, lastTurn := none, turn := none }
    reg := { p.reg with spill := .idle, fill := .idle, ret := .idle, returnSource := none }
    cel := { p.cel with cells := p.cel.cells.map CellRec.restart, outcome := none, chosen := none }
    gate := { p.gate with outcome := none } }

/-- Steps 4 and 5 of R190: the stack is emptied and each block takes its warm-restart values. SUSPENDED lots go to
CLEARED in the order of the lot list (the model's choice, log 70). -/
def restartBlocks (b : Books) (p : Part) : Part :=
  let p1 := { p with flt := { p.flt with stack := [] } }
  let p2 := p1.lot.lots.foldl (fun q l => restartLot l q) p1
  recomputeGate .mode (armAll (settleCells b (restartTables p2)))

/-- Step 6 of R190: the patterns and the cell fault inputs. -/
def restartRaises (b : Books) (p : Part) : Part := cellFaultsFound b (evaluateAll b none p)

/-- A warm restart from COMMISSIONING, OPERATING or LOCKDOWN (R190). -/
def warmRestart (q : Plant) : Plant :=
  let r := restartCuts { q with part := restartBegins q.part }
  { r with part := restartRaises r.books (restartBlocks r.books r.part) }

/-- A RESTART in FAILED: the self-test begins again (R191). The arbiter's outcome stands at MODE since the entry to
FAILED, so its examination at this change of mode records nothing new (R119). -/
def restartSelfTest (p : Part) : Part :=
  emptyLink { p with ctl := { p.ctl with mode := .starting, lastStart := .warm } }

/-- The steps of a restart in the present mode; in STARTING there is none (R190, R191). -/
def restartPlant (q : Plant) : Plant :=
  match q.part.ctl.mode with
  | .starting => q
  | .failed => { q with part := restartSelfTest q.part }
  | .commissioning | .operating | .lockdown => warmRestart q

/-- The RESTART request: refused in STARTING; else its OK is transmitted first, and the restart's steps are made at
the end of that frame (R190, R191, R196). -/
def takeRestart (q : Plant) : Plant × Reply :=
  if q.part.ctl.mode = .starting then refuse .wrongMode q
  else okay { q with part := { q.part with link := { q.part.link with restarting := true } } }

/-- The RESTART that waited for the end of its OK, and the requests behind it, are no longer held. -/
def endRestarting (p : Part) : Part := { p with link := { p.link with restarting := false, behind := 0 } }

/-- The end of a frame of the part (R196). At the end of the OK of a RESTART, the last of the buffer, the restart's
steps are made in the mode then held (R190, R191; log 3). -/
def transmitEnds (q : Plant) : Plant :=
  let p := frameEnds q.part
  if p.link.restarting && p.link.buffer.isEmpty then restartPlant { q with part := endRestarting p }
  else { q with part := p }

/-! ## The lines and the self-test (R183, R184, R190) -/

/-- The RESTART line becomes active: one restart, unless it was active already (R190). While the RESET line is
held nothing is restarted. -/
def restartLineActive (q : Plant) : Plant :=
  if q.part.ctl.restartLine then q
  else
    let r := { q with part := { q.part with ctl := { q.part.ctl with restartLine := true } } }
    if r.part.ctl.resetHeld then r else restartPlant r

/-- The RESTART line returns to inactive (R190, log 34). -/
def restartLineInactive (q : Plant) : Plant :=
  { q with part := { q.part with ctl := { q.part.ctl with restartLine := false } } }

/-- RESET_ASSERT (R183): both links fall silent; the rest stands until the cold reset (log 33). -/
def assertReset (q : Plant) : Plant :=
  let p := q.part
  let ctl := { p.ctl with resetHeld := true }
  { q with part := { p with
      ctl := ctl, link := { p.link with tx := none, rx := [] }, fld := { p.fld with turn := none } } }

/-- What follows the plant lines through a cold reset: the recorded inputs, the cell fault inputs and the
RESTART line (R153, R115, R190); the numbering of the free values goes on (log 13). -/
def keepLines (old new : Part) : Part :=
  { new with
    pat := { new.pat with inputs := old.pat.inputs }
    cel := { new.cel with cells := Vector.zipWith (fun (n o : CellRec) =>
      { n with faultInput := o.faultInput }) new.cel.cells old.cel.cells }
    ctl := { new.ctl with restartLine := old.ctl.restartLine, readBacks := old.ctl.readBacks } }

/-- COLD_RESET (R183). -/
def coldReset (q : Plant) : Plant := ⟨Books.reset, keepLines q.part Part.reset⟩

/-- What the self-test read from the lines (R153; log 11). -/
def recordLines (inputs : Vector Bool 24) (cellFaults : Vector Bool 4) (p : Part) : Part :=
  { p with
    pat := { p.pat with inputs := inputs }
    cel := { p.cel with cells := Vector.zipWith (fun (r : CellRec) x =>
      { r with faultInput := x }) p.cel.cells cellFaults } }

/-- SELF_TEST_END in STARTING: the result, the mode, START, and the cell fault inputs found ACTIVE (R184). The arbiter
is examined at the change of mode (R119). -/
def selfTestEnds (failed : SelfTest) (inputs : Vector Bool 24) (cellFaults : Vector Bool 4) (b : Books)
    (p : Part) : Part :=
  if p.ctl.mode ≠ .starting then p
  else
    let mode := if failed = {} then Mode.commissioning else .failed
    let p1 := recordLines inputs cellFaults { p with ctl := { p.ctl with selfTest := failed, mode := mode } }
    let p2 := examineArbiter b (notify (.start p.ctl.lastStart failed mode) p1)
    if mode = .commissioning then cellFaultsFound b (clearManual p2) else p2

end Sys2Proof.Machine
end

