-- ==== Sys2Proof/Machine/Codec.lean ====
section
/-! DEFINITION. Bytes on the two links (R192, R199, R200): CHECK, the writers and readers of items, the frames of
the Field Link, and the request bodies, written and read from one list of layouts. The layouts that 12.6 does
not list are log 20. -/

namespace Sys2Proof.Machine

/-! ## CHECK (R192) -/

/-- One bit into the CRC-16, polynomial x^16 + x^12 + x^5 + 1. -/
def crcBit (crc : Word16) (bit : Bool) : Word16 :=
  let s := crc <<< 1
  if crc.getLsbD 15 != bit then s ^^^ 0x1021#16 else s

/-- One byte into the CRC, most significant bit first. -/
def crcByte (crc : Word16) (b : Byte) : Word16 :=
  [7, 6, 5, 4, 3, 2, 1, 0].foldl (fun c i => crcBit c (b.getLsbD i)) crc

/-- CHECK of a list of bytes: initial value all ones, no final inversion. -/
def crc16 (bs : List Byte) : Word16 := bs.foldl crcByte 0xFFFF#16

/-! ## Writers (R199) -/

/-- A number in `k` bytes, most significant first. -/
def wNum (k n : Nat) : List Byte :=
  match k with
  | 0 => []
  | j + 1 => BitVec.ofNat 8 (n / 256 ^ j) :: wNum j n

/-- A flag: 0x01 set, 0x00 clear. An item that is its presence byte alone is written the same way. -/
def wFlag (b : Bool) : List Byte := [if b then 1#8 else 0#8]

/-- A two-valued item whose list names the `true` value first, as OPEN or CLOSED. -/
def wFirst (b : Bool) : List Byte := [if b then 0#8 else 1#8]

/-- An optional item of `w` bytes: the presence byte, then the item or zeros. -/
def wOpt {α : Type} (w : Nat) (f : α → List Byte) (x : Option α) : List Byte :=
  match x with
  | none => 0#8 :: List.replicate w 0#8
  | some a => 1#8 :: f a

/-- An optional number of `w` bytes. -/
def wOptNum (w : Nat) (x : Option Nat) : List Byte := wOpt w (wNum w) x

/-- An optional time of day. -/
def wTime (t : Stamp) : List Byte := wOptNum 3 t

/-- A list of varying length behind its count byte. -/
def wList {α : Type} (f : α → List Byte) (l : List α) : List Byte := wNum 1 l.length ++ l.flatMap f

/-- A signed account: eight bytes in two's complement. -/
def wSigned (i : Int) : List Byte := wNum 8 (BitVec.ofInt 64 i).toNat

/-- A set as one byte, its first member the least significant bit. -/
def wSet (bits : List Bool) : List Byte := [BitVec.ofNat 8 (bits.foldr (fun b n => 2 * n + b.toNat) 0)]

/-- An action set, in the order of R199. -/
def wActions (a : ActionSet) : List Byte :=
  wSet [a.shutOutfall, a.stopIntake, a.quarantineIntake, a.stopCells, a.stopMovement, a.stopRegulation,
        a.lockdown]

/-- A source tag as a record carries it. -/
def wRawTag (t : RawTag) : List Byte := wNum 1 t.line ++ wNum 1 t.kind ++ wNum 1 t.index

/-- The three bytes of a valid tag. -/
def rawOf (t : Tag) : RawTag := ⟨t.line.1 + 1, t.kind.ctorIdx, t.index.1 + 1⟩

/-- A valid source tag. -/
def wTag (t : Tag) : List Byte := wRawTag (rawOf t)

/-! ## Readers (R199) -/

/-- A reader takes its item from the front of the bytes, or refuses it. -/
abbrev Reader (α : Type) := List Byte → Option (α × List Byte)

/-- Read nothing. -/
def rDone {α : Type} (a : α) : Reader α := fun bs => some (a, bs)

/-- Read one item, then the next. -/
def rThen {α β : Type} (r : Reader α) (f : α → Reader β) : Reader β := fun bs =>
  match r bs with
  | none => none
  | some x => f x.1 x.2

/-- The number that `k` bytes continue from `acc`; bytes that are missing read 0. -/
def takeNum (k acc : Nat) (bs : List Byte) : Nat × List Byte :=
  match k with
  | 0 => (acc, bs)
  | j + 1 => takeNum j (acc * 256 + (bs.headD 0#8).toNat) bs.tail

/-- A number of `k` bytes. -/
def rNum (k : Nat) : Reader Nat := fun bs => some (takeNum k 0 bs)

/-- A byte that must name an entry of a list. -/
def rEnum {α : Type} (l : List α) : Reader α := fun bs =>
  match l[(takeNum 1 0 bs).1]? with
  | none => none
  | some a => some (a, (takeNum 1 0 bs).2)

/-- A flag or a presence byte: 0x00 or 0x01, nothing else. -/
def rFlag : Reader Bool := rEnum [false, true]

/-- An optional item of `w` bytes; an absent item's bytes are passed over. -/
def rOpt {α : Type} (w : Nat) (r : Reader α) : Reader (Option α) :=
  rThen rFlag (fun there => if there then rThen r (fun a => rDone (some a))
    else fun bs => some (none, bs.drop w))

/-- An optional number of `w` bytes. -/
def rOptNum (w : Nat) : Reader (Option Nat) := rOpt w (rNum w)

/-- `n` items, one after another. -/
def rMany {α : Type} (n : Nat) (r : Reader α) : Reader (List α) :=
  match n with
  | 0 => rDone []
  | k + 1 => rThen r (fun a => rThen (rMany k r) (fun l => rDone (a :: l)))

/-- A source tag, unchecked. -/
def rRawTag : Reader RawTag :=
  rThen (rNum 1) fun l => rThen (rNum 1) fun k => rThen (rNum 1) fun i => rDone ⟨l, k, i⟩

/-- An action set; a bit that names no action is refused. -/
def rActions : Reader ActionSet := fun bs =>
  let b := bs.headD 0#8
  if b.getLsbD 7 then none
  else some (⟨b.getLsbD 0, b.getLsbD 1, b.getLsbD 2, b.getLsbD 3, b.getLsbD 4, b.getLsbD 5, b.getLsbD 6⟩,
    bs.tail)

/-! ## The lists of enumerated items (R199) -/

/-- HOLD, FEED, REUSE, QUARANTINE, UNUSED (1.1). -/
def roles : List Role := [.hold, .feed, .reuse, .quarantine, .unused]
/-- DISABLED, BLOCKED, OPEN (1.1). -/
def inletStates : List InletState := [.disabled, .blocked, .opened]
/-- GREEN, AMBER, RED (4.1). -/
def classes : List WaterClass := [.green, .amber, .red]
/-- ROUTE, QUARANTINE, REFUSE (R76). -/
def policies : List UnknownPolicy := [.route, .quarantine, .refuse]
/-- HOLD THEN QUARANTINE, QUARANTINE ONLY (7.1). -/
def drainPrefs : List DrainPref := [.holdThenQuarantine, .quarantineOnly]
/-- PASS, FAIL (R47). -/
def labResults : List LabResult := [.pass, .fail]
/-- The six terms (9.2). -/
def termList : List Term := [.ignore, .low, .high, .anyEdge, .fall, .rise]
/-- AND, ANY, FIRST (9.2). -/
def patternModes : List PatternMode := [.andMode, .anyMode, .firstMode]
/-- MANUAL, AUTO (R165). -/
def framePolicies : List Policy := [.manual, .auto]

/-! ## Frames of the Field Link (R200) -/

/-- A field frame: lead byte, ADDRESS, KIND, LENGTH, BODY, CHECK over ADDRESS through BODY. -/
def fieldFrame (address kind : Nat) (body : List Byte) : List Byte :=
  let inner := wNum 1 address ++ wNum 1 kind ++ wNum 1 body.length ++ body
  0x5A#8 :: (inner ++ wNum 2 (crc16 inner).toNat)

/-- The body of a DECISION: decision, reason, vessel, granted volume, movement number; the last three zero
unless ROUTED (12.6), the reason 0 where ROUTED (the model's choice, log 63). -/
def decisionBody (d : Decision) : List Byte :=
  match d with
  | .routed v vol mv => wNum 1 0 ++ wNum 1 0 ++ wNum 1 (v.1 + 1) ++ wNum 2 vol ++ wNum 2 mv
  | .wait r => wNum 1 1 ++ wNum 1 r.ctorIdx ++ List.replicate 5 0#8
  | .refuse r => wNum 1 2 ++ wNum 1 r.ctorIdx ++ List.replicate 5 0#8

/-- The frame of a record from the part to a unit (R200). -/
def fieldBytes (u : UnitId) (m : FieldMessage) : List Byte :=
  match m with
  | .poll => fieldFrame (u.1 + 1) 0x01 []
  | .go mv vol => fieldFrame (u.1 + 1) 0x02 (wNum 2 mv ++ wNum 2 vol)
  | .stop mv => fieldFrame (u.1 + 1) 0x03 (wNum 2 mv)
  | .decision d => fieldFrame (u.1 + 1) 0x04 (decisionBody d)

/-- The four items of an OFFER (12.6). -/
def wOffer (o : Offer) : List Byte := wRawTag o.tag ++ wNum 2 o.volume ++ wNum 2 o.conc ++ wNum 1 o.ph

/-- The frame of a unit's answer (R200): ADDRESS is 0x80 plus the unit's. -/
def answerBytes (u : UnitId) (a : FieldAnswer) : List Byte :=
  match a with
  | .idle => fieldFrame (0x81 + u.1) 0x11 []
  | .offer o => fieldFrame (0x81 + u.1) 0x12 (wOffer o)
  | .done tag litres mass => fieldFrame (0x81 + u.1) 0x13 (wRawTag tag ++ wNum 2 litres ++ wOptNum 4 mass)

/-- OFFER's body. -/
def rOffer : Reader Offer :=
  rThen rRawTag fun t => rThen (rNum 2) fun v => rThen (rNum 2) fun c => rThen (rNum 1) fun x =>
    rDone ⟨t, v, c, x⟩

/-- The answer of a kind with a body of its kind's length; none otherwise (R200). A DONE whose mass presence byte is
neither 0 nor 1 is no answer (the model's choice, log 62). -/
def readAnswer (kind : Nat) (body : List Byte) : Option FieldAnswer :=
  if kind = 0x11 ∧ body.length = 0 then some .idle
  else if kind = 0x12 ∧ body.length = 8 then (rOffer body).map (fun x => .offer x.1)
  else if kind = 0x13 ∧ body.length = 10 then
    (rThen rRawTag (fun t => rThen (rNum 2) fun v => rThen (rOptNum 4) fun m =>
      rDone (FieldAnswer.done t v m)) body).map Prod.fst
  else none

/-- A unit's answer taken from its bytes, as R200 tells a valid one from the polled address: lead byte, CHECK,
ADDRESS, KIND and LENGTH. -/
def parseAnswer (u : UnitId) (bs : List Byte) : Option FieldAnswer :=
  match bs with
  | lead :: addr :: kind :: len :: rest =>
    let body := rest.take len.toNat
    let check := rest.drop len.toNat
    let inner := addr :: kind :: len :: body
    if lead = 0x5A#8 ∧ addr.toNat = 0x81 + u.1 ∧ check.length = 2 ∧
        (takeNum 2 0 check).1 = (crc16 inner).toNat ∧ body.length = len.toNat then
      readAnswer kind.toNat body
    else none
  | _ => none

/-! ## Request bodies, written (R199): the thing named, then the items in the order of the owning rule -/

/-- The mask of a MANUAL OUTPUT: 51 bits, the first output of R187's table the least significant. -/
def manualMask (i : ManualItems) : Nat :=
  (i.sets.toList.map Option.isSome).foldr (fun b n => 2 * n + b.toNat) 0

/-- The values of the masked outputs, in order. -/
def manualValues (i : ManualItems) : List Bool := i.sets.toList.filterMap id

/-- A window item. -/
def wWindow (w : Window) : List Byte := wNum 2 w.start ++ wNum 2 w.stop

/-- A pH band item. -/
def wBand (b : Nat × Nat) : List Byte := wNum 1 b.1 ++ wNum 1 b.2

/-- An optional enumerated item by its place in its list. -/
def wOptEnum (x : Option Nat) : List Byte := wOptNum 1 x

/-- SET VESSEL (R4). -/
def wVesselItems (i : VesselItems) : List Byte :=
  wOptEnum (i.role.map Role.ctorIdx) ++ wOptNum 2 i.capacity ++ wOptEnum (i.inlet.map InletState.ctorIdx) ++
    wOptNum 2 i.tolerance ++ wOptNum 1 i.travel ++ wOptNum 2 i.sealVolume ++ wFlag i.clearCount

/-- SET LOT TIMES (R60). -/
def wLotTimes (i : LotTimeItems) : List Byte :=
  wOptNum 3 i.fillAge ++ wOptNum 2 i.settle ++ wOptNum 2 i.sampleDuration ++ wOptNum 1 i.sampleVolume ++
    wOptNum 3 i.verdict

/-- SET REGULATION (6.1). -/
def wRegulation (i : RegulationItems) : List Byte :=
  wOptNum 1 i.reuseHigh ++ wOptNum 1 i.reuseLow ++ wOptNum 2 i.reserve ++ wOptNum 2 i.headroom ++
    wOptNum 1 i.feedHigh ++ wOptNum 1 i.feedLow

/-- SET CELL (7.1). -/
def wCellItems (i : CellItems) : List Byte :=
  wOptNum 2 i.chargeVolume ++ wOptNum 2 i.endConc ++ wOptNum 3 i.runLimit ++ wOptNum 4 i.cathodeCapacity ++
    wOptEnum (i.drainPref.map DrainPref.ctorIdx)

/-- SET LIMITS (R137). -/
def wLimits (i : LimitItems) : List Byte :=
  wOptNum 4 i.massAllowance ++ wOptNum 3 i.volumeAllowance ++ wOptNum 2 i.concLimit ++ wOpt 2 wBand i.phBand ++
    wOptNum 4 i.floor ++ wOpt 1 wFlag i.floorEnable ++ wOptNum 1 i.persistence ++ wOptNum 2 i.dayBoundary

/-- The KIND of a request: 0x01 onward in the order of 12.5, the order of the constructors. -/
def requestKind (r : Request) : Nat := r.ctorIdx + 1

/-- The BODY of a request. -/
def requestBody (r : Request) : List Byte :=
  match r with
  | .identify | .status | .restart | .enterOperating | .enterCommissioning | .readInputs | .readAccounts
  | .readClosedLots | .readSourceFirst | .readSourceNext | .regulationOn | .regulationOff | .readGate
  | .readFaults | .lockdown | .release => []
  | .manualOutput i => wNum 7 (manualMask i) ++ wList wFirst (manualValues i) ++ wFlag i.release
  | .setVessel v i => wNum 1 v ++ wVesselItems i
  | .readVessel n | .adoptLevel n | .cellOn n | .cellOff n | .harvest n | .readCell n | .patternOn n
  | .patternOff n | .alarmTake n | .alarmClear n | .readPattern n | .resume n | .abandon n => wNum 1 n
  | .readMovements clear => wFlag clear
  | .setMovementTimes i => wOptNum 2 i.stall ++ wOptNum 1 i.cellTravel ++ wOptNum 1 i.outfallTravel
  | .sealLot n | .holdLot n | .releaseLot n | .rejectLot n => wNum 2 n
  | .verdict i => wNum 2 i.lot ++ wNum 1 i.sample ++ wNum 2 i.conc ++ wNum 1 i.ph ++ wNum 1 i.result.ctorIdx
  | .readLot n byVessel => wNum 2 n ++ wFlag byVessel
  | .setLotTimes i => wLotTimes i
  | .setSource t i =>
    wRawTag t ++ wNum 1 i.unit ++ wOptEnum (i.pinned.map WaterClass.ctorIdx) ++ wFlag i.filter ++ wFlag i.bypass
  | .removeSource t => wRawTag t
  | .setAging period pol => wNum 1 period ++ wNum 1 pol.ctorIdx
  | .setUnit n en le => wNum 1 n ++ wOpt 1 wFlag en ++ wOpt 1 wFlag le
  | .readUnit n clear => wNum 1 n ++ wFlag clear
  | .setRouting i =>
    wOptNum 2 i.amber ++ wOptNum 2 i.red ++ wOptNum 1 i.silenceLimit ++ wOptNum 2 i.transferTimeout
  | .setRegulation i => wRegulation i
  | .setCell c i => wNum 1 c ++ wCellItems i
  | .harvestDone c w => wNum 1 c ++ wNum 4 w
  | .setWindows w1 w2 => wOpt 4 wWindow w1 ++ wOpt 4 wWindow w2
  | .setLimits i => wLimits i
  | .setClock t => wNum 3 t
  | .setPattern p i =>
    wNum 1 p ++ i.terms.toList.flatMap (fun t => wNum 1 t.ctorIdx) ++ wNum 1 i.mode.ctorIdx ++ wFlag i.latch
  | .setFaultResponse code i => wNum 1 code ++ wActions i.actions ++ wNum 1 i.policy.ctorIdx ++ wNum 2 i.hold

/-! ## Request bodies, read (R194, R199) -/

/-- A layout: the length of the body for the items present, and its reader. -/
structure Layout where
  length : List Byte → Nat
  read   : Reader Request

/-- A layout of one length. -/
def fixed (n : Nat) (r : Reader Request) : Layout := ⟨fun _ => n, r⟩

/-- A request without a body. -/
def bare (r : Request) : Layout := fixed 0 (rDone r)

/-- A request that names one thing by a number of `k` bytes and carries nothing else. -/
def naming (k : Nat) (f : Nat → Request) : Layout := fixed k (rThen (rNum k) fun n => rDone (f n))

/-- The bits of a mask, least significant first. -/
def maskBits (n m : Nat) : List Bool :=
  match n with
  | 0 => []
  | k + 1 => decide (m % 2 = 1) :: maskBits k (m / 2)

/-- Give the values to the masked outputs in order. -/
def fillMask (bits vals : List Bool) : List (Option Bool) :=
  match bits, vals with
  | [], _ => []
  | false :: bs, vs => none :: fillMask bs vs
  | true :: bs, v :: vs => some v :: fillMask bs vs
  | true :: bs, [] => none :: fillMask bs []

/-- The items of a MANUAL OUTPUT from its mask and values. -/
def manualOf (mask : Nat) (vals : List Bool) (release : Bool) : ManualItems where
  sets := Vector.ofFn (fun o : OutputId => ((fillMask (maskBits 51 mask) vals)[o.1]?).join)
  release := release

/-- The number of outputs that a mask names. -/
def maskCount (mask : Nat) : Nat := (maskBits 51 mask).count true

/-- MANUAL OUTPUT: mask, count, one value for each masked output, the release item. A bit beyond the 51 outputs
and a count other than the mask's are refused. -/
def manualLayout : Layout where
  length := fun bs => 9 + maskCount (takeNum 7 0 bs).1
  read := rThen (rNum 7) fun mask => rThen (rNum 1) fun n =>
    if mask < 2 ^ 51 ∧ n = maskCount mask then
      rThen (rMany n (rEnum [true, false])) fun vals => rThen rFlag fun rel =>
        rDone (.manualOutput (manualOf mask vals rel))
    else fun _ => none

/-- KIND 0x01 to 0x07. -/
def generalLayouts : List Layout :=
  [bare .identify, bare .status, bare .restart, bare .enterOperating, bare .enterCommissioning, manualLayout,
   bare .readInputs]

/-- The items of SET VESSEL. -/
def rVesselItems : Reader VesselItems :=
  rThen (rOpt 1 (rEnum roles)) fun ro => rThen (rOptNum 2) fun cap => rThen (rOpt 1 (rEnum inletStates)) fun inl =>
  rThen (rOptNum 2) fun tol => rThen (rOptNum 1) fun tr => rThen (rOptNum 2) fun sv => rThen rFlag fun cc =>
    rDone ⟨ro, cap, inl, tol, tr, sv, cc⟩

/-- KIND 0x08 to 0x0D. -/
def vesselLayouts : List Layout :=
  [fixed 17 (rThen (rNum 1) fun v => rThen rVesselItems fun i => rDone (.setVessel v i)),
   naming 1 .readVessel, naming 1 .adoptLevel, bare .readAccounts,
   fixed 1 (rThen rFlag fun c => rDone (.readMovements c)),
   fixed 7 (rThen (rOptNum 2) fun a => rThen (rOptNum 1) fun b => rThen (rOptNum 1) fun c =>
     rDone (.setMovementTimes ⟨a, b, c⟩))]

/-- The items of SET LOT TIMES. -/
def rLotTimes : Reader LotTimeItems :=
  rThen (rOptNum 3) fun a => rThen (rOptNum 2) fun b => rThen (rOptNum 2) fun c => rThen (rOptNum 1) fun d =>
  rThen (rOptNum 3) fun e => rDone ⟨a, b, c, d, e⟩

/-- The items of VERDICT. -/
def rVerdict : Reader VerdictItems :=
  rThen (rNum 2) fun l => rThen (rNum 1) fun s => rThen (rNum 2) fun c => rThen (rNum 1) fun x =>
  rThen (rEnum labResults) fun r => rDone ⟨l, s, c, x, r⟩

/-- KIND 0x0E to 0x15. -/
def lotLayouts : List Layout :=
  [naming 2 .sealLot, naming 2 .holdLot, naming 2 .releaseLot, naming 2 .rejectLot,
   fixed 7 (rThen rVerdict fun i => rDone (.verdict i)),
   fixed 3 (rThen (rNum 2) fun n => rThen rFlag fun b => rDone (.readLot n b)),
   bare .readClosedLots,
   fixed 16 (rThen rLotTimes fun i => rDone (.setLotTimes i))]

/-- The items of SET SOURCE. -/
def rSourceItems : Reader SourceItems :=
  rThen (rNum 1) fun u => rThen (rOpt 1 (rEnum classes)) fun c => rThen rFlag fun f => rThen rFlag fun b =>
    rDone ⟨u, c, f, b⟩

/-- KIND 0x16 to 0x1A. -/
def sourceLayouts : List Layout :=
  [fixed 8 (rThen rRawTag fun t => rThen rSourceItems fun i => rDone (.setSource t i)),
   fixed 3 (rThen rRawTag fun t => rDone (.removeSource t)),
   bare .readSourceFirst, bare .readSourceNext,
   fixed 2 (rThen (rNum 1) fun n => rThen (rEnum policies) fun k => rDone (.setAging n k))]

/-- The items of SET ROUTING. -/
def rRouting : Reader RoutingItems :=
  rThen (rOptNum 2) fun a => rThen (rOptNum 2) fun r => rThen (rOptNum 1) fun s => rThen (rOptNum 2) fun t =>
    rDone ⟨a, r, s, t⟩

/-- The items of SET REGULATION. -/
def rRegulation : Reader RegulationItems :=
  rThen (rOptNum 1) fun a => rThen (rOptNum 1) fun b => rThen (rOptNum 2) fun c => rThen (rOptNum 2) fun d =>
  rThen (rOptNum 1) fun e => rThen (rOptNum 1) fun f => rDone ⟨a, b, c, d, e, f⟩

/-- KIND 0x1B to 0x20. -/
def flowLayouts : List Layout :=
  [fixed 5 (rThen (rNum 1) fun n => rThen (rOpt 1 rFlag) fun en => rThen (rOpt 1 rFlag) fun le =>
     rDone (.setUnit n en le)),
   fixed 2 (rThen (rNum 1) fun n => rThen rFlag fun c => rDone (.readUnit n c)),
   fixed 11 (rThen rRouting fun i => rDone (.setRouting i)),
   fixed 14 (rThen rRegulation fun i => rDone (.setRegulation i)),
   bare .regulationOn, bare .regulationOff]

/-- The items of SET CELL. -/
def rCellItems : Reader CellItems :=
  rThen (rOptNum 2) fun a => rThen (rOptNum 2) fun b => rThen (rOptNum 3) fun c => rThen (rOptNum 4) fun d =>
  rThen (rOpt 1 (rEnum drainPrefs)) fun e => rDone ⟨a, b, c, d, e⟩

/-- KIND 0x21 to 0x26. -/
def cellLayouts : List Layout :=
  [fixed 18 (rThen (rNum 1) fun c => rThen rCellItems fun i => rDone (.setCell c i)),
   naming 1 .cellOn, naming 1 .cellOff, naming 1 .harvest,
   fixed 5 (rThen (rNum 1) fun c => rThen (rNum 4) fun w => rDone (.harvestDone c w)),
   naming 1 .readCell]

/-- A window item. -/
def rWindow : Reader Window := rThen (rNum 2) fun a => rThen (rNum 2) fun b => rDone ⟨a, b⟩

/-- A pH band item. -/
def rBand : Reader (Nat × Nat) := rThen (rNum 1) fun a => rThen (rNum 1) fun b => rDone (a, b)

/-- The items of SET LIMITS. -/
def rLimits : Reader LimitItems :=
  rThen (rOptNum 4) fun a => rThen (rOptNum 3) fun b => rThen (rOptNum 2) fun c => rThen (rOpt 2 rBand) fun d =>
  rThen (rOptNum 4) fun e => rThen (rOpt 1 rFlag) fun f => rThen (rOptNum 1) fun g => rThen (rOptNum 2) fun h =>
    rDone ⟨a, b, c, d, e, f, g, h⟩

/-- KIND 0x27 to 0x2A. -/
def gateLayouts : List Layout :=
  [fixed 10 (rThen (rOpt 4 rWindow) fun a => rThen (rOpt 4 rWindow) fun b => rDone (.setWindows a b)),
   fixed 27 (rThen rLimits fun i => rDone (.setLimits i)),
   naming 3 .setClock, bare .readGate]

/-- The items of SET PATTERN. -/
def rPatternItems : Reader PatternItems :=
  rThen (rMany 24 (rEnum termList)) fun ts => rThen (rEnum patternModes) fun m => rThen rFlag fun l =>
    rDone ⟨Vector.ofFn (fun i => ts.getD i.1 .ignore), m, l⟩

/-- KIND 0x2B to 0x30. -/
def patternLayouts : List Layout :=
  [fixed 27 (rThen (rNum 1) fun p => rThen rPatternItems fun i => rDone (.setPattern p i)),
   naming 1 .patternOn, naming 1 .patternOff, naming 1 .alarmTake, naming 1 .alarmClear, naming 1 .readPattern]

/-- The items of SET FAULT RESPONSE. -/
def rResponse : Reader ResponseItems :=
  rThen rActions fun a => rThen (rEnum framePolicies) fun k => rThen (rNum 2) fun h => rDone ⟨a, k, h⟩

/-- KIND 0x31 to 0x36. -/
def faultLayouts : List Layout :=
  [fixed 5 (rThen (rNum 1) fun n => rThen rResponse fun i => rDone (.setFaultResponse n i)),
   bare .readFaults, naming 1 .resume, naming 1 .abandon, bare .lockdown, bare .release]

/-- The layouts in the order of KIND, 0x01 first. -/
def layouts : List Layout :=
  generalLayouts ++ vesselLayouts ++ lotLayouts ++ sourceLayouts ++ flowLayouts ++ cellLayouts ++ gateLayouts ++
    patternLayouts ++ faultLayouts

/-- What the Supervisory Link Unit and the owner's layout find in a request (R194, R199). -/
inductive Parsed where
  | unknownKind
  | badLength
  | badItem
  | taken (r : Request)
  deriving DecidableEq, Repr

/-- The layout of a KIND; none for a KIND that names no request. -/
def layoutOf (kind : Nat) : Option Layout := if kind = 0 then none else layouts[kind - 1]?

/-- Read a request from its KIND and BODY. -/
def parseRequest (kind : Nat) (body : List Byte) : Parsed :=
  match layoutOf kind with
  | none => .unknownKind
  | some l =>
    if body.length ≠ l.length body then .badLength
    else match l.read body with
      | none => .badItem
      | some x => .taken x.1

/-! ## Frames of the Supervisory Link (R192) -/

/-- A supervisory frame: SYNC, LENGTH, KIND, REQUEST NUMBER, BODY, CHECK over LENGTH through BODY. -/
def supFrame (kind : Nat) (number : Byte) (body : List Byte) : List Byte :=
  let inner := wNum 2 (body.length + 2) ++ wNum 1 kind ++ number :: body
  0xC3#8 :: (inner ++ wNum 2 (crc16 inner).toNat)

/-- The frame in which the host sends a request. -/
def requestFrame (number : Byte) (r : Request) : List Byte := supFrame (requestKind r) number (requestBody r)

end Sys2Proof.Machine
end

