-- ==== Sys2Proof/Machine/Records.lean ====
section
/-! DEFINITION. The bytes of every reply and notice (R192, R195, R198, R199, 12.6). Items stand in the order in
which the owning rule names them; what 12.6 does not list is log 20. -/

namespace Sys2Proof.Machine

/-! ## Common items -/

/-- A vessel number. -/
def wVessel (v : VesselId) : List Byte := wNum 1 (v.1 + 1)
/-- A cell number. -/
def wCell (c : CellId) : List Byte := wNum 1 (c.1 + 1)
/-- A unit address. -/
def wUnit (u : UnitId) : List Byte := wNum 1 (u.1 + 1)
/-- A pattern number. -/
def wPattern (k : PatternId) : List Byte := wNum 1 (k.1 + 1)
/-- An input number. -/
def wInput (i : InputId) : List Byte := wNum 1 (i.1 + 1)
/-- A figure or an unsigned account: the fewest whole bytes for 10^15. -/
def wFigure (n : Nat) : List Byte := wNum 7 n
/-- A stamp that may be absent; one taken while the clock was unset is written absent. -/
def wOptTime (t : Option Stamp) : List Byte := wTime t.join
/-- The recorded states of I1 to I24, HIGH or LOW each. -/
def wInputs (v : Vector Bool 24) : List Byte := v.toList.flatMap wFirst
/-- The failed items of a self-test: one byte of bits in the order of R184 (the model's choice, log 20). -/
def wSelfTest (s : SelfTest) : List Byte := wSet [s.memory, s.inputs, s.outputs, s.clock]

/-- A port: kind and number (12.6). The number byte of a port that has no number (makeup entry, outfall, MAKEUP) is 0 (the
model's choice, log 20). -/
def wPort (port : Port) : List Byte :=
  wNum 1 port.ctorIdx ++ (match port with
    | .vesselInlet v | .vesselOutlet v => wVessel v
    | .cellInlet c | .cellOutlet c => wCell c
    | .sumpUnit u => wUnit u
    | .makeupEntry | .outfall | .mains => wNum 1 0)

/-- A subject: kind and number (12.6); a discharge is given by its movement, a probe by 0 for OUTFALL SILVER and 1 for OUTFALL
PH (the model's choices, log 20). -/
def wSubject (s : Subject) : List Byte :=
  wNum 1 s.ctorIdx ++ (match s with
    | .vessel v => wNum 2 (v.1 + 1)
    | .movement mv => wNum 2 mv
    | .discharge mv _ => wNum 2 mv
    | .cell c => wNum 2 (c.1 + 1)
    | .unit u => wNum 2 (u.1 + 1)
    | .probe pr => wNum 2 pr.ctorIdx
    | .pattern k => wNum 2 (k.1 + 1))

/-- A need or a step: state, movement number, waiting reason, each always written, as zeros in a state that has none (the
model's choice, log 20). -/
def wNeed (n : Need) : List Byte :=
  wNum 1 n.ctorIdx ++ (match n with
    | .idle => wNum 2 0 ++ wNum 1 0
    | .running mv => wNum 2 mv ++ wNum 1 0
    | .waiting r => wNum 2 0 ++ wNum 1 r.ctorIdx)

/-- A window with its non-empty flag. -/
def wWindowReport (w : Window) : List Byte := wWindow w ++ wFlag (decide (w.start < w.stop))

/-! ## Vessels, movements, lots -/

/-- READ VESSEL (R5). -/
def wVesselReport (r : VesselReport) : List Byte :=
  wNum 1 r.record.role.ctorIdx ++ wOptNum 2 r.record.capacity ++ wNum 1 r.record.inlet.ctorIdx ++
    wFlag r.record.regBlock ++ wNum 2 r.record.tolerance ++ wNum 1 r.record.travel ++
    wOptNum 2 r.record.sealVolume ++ wFigure r.holding.volume ++ wFigure r.holding.mass ++
    wOptNum 2 r.record.lastLevel ++ wFlag r.record.adopted ++ wNum 2 r.record.stray ++ wOptNum 2 r.lot ++
    wOptNum 2 r.inletMove ++ wOptNum 2 r.outletMove ++ wFlag r.mismatch

/-- READ ACCOUNTS (R15, R17). -/
def wAccountsReport (r : AccountsReport) : List Byte :=
  let a := r.accounts
  wFigure a.admittedVolume ++ wFigure a.admittedMass ++ wFigure a.makeupVolume ++ wSigned a.volumeCorrections ++
    wSigned a.massCorrections ++ wFigure a.dischargedVolume ++ wFigure a.dischargedMass ++
    wFigure a.reusedVolume ++ wFigure a.reusedMass ++ wFigure a.sampledVolume ++ wFigure a.sampledMass ++
    wFigure a.harvestedMass ++ wFigure r.holderVolume ++ wFigure r.vesselMass ++ wFigure r.liquorMass ++
    wFigure r.cathodeMass

/-- Slug particulars (2.1). -/
def wSlug (s : SlugParticulars) : List Byte :=
  wUnit s.unit ++ wTag s.tag ++ wNum 1 s.cls.ctorIdx ++ wNum 2 s.conc ++ wOptNum 2 s.levelAtGo

/-- An entry of the Movement Table (2.1). Its requested litres, moved litres and moved mass take the widths that 12.6 gives
these fields in a fault frame's copy (R199, log 81). -/
def wMovement (m : Movement) : List Byte :=
  wNum 2 m.number ++ wNum 1 m.kind.ctorIdx ++ wPort m.source ++ wPort m.dest ++ wNum 4 m.requested ++
    wNum 4 m.movedLitres ++ wNum 8 m.movedMass ++ wNum 1 m.phase.ctorIdx ++ wTime m.started ++
    wTime m.lastProgress ++ wOptNum 2 m.lot ++ wNum 1 m.travel ++ wOpt 10 wSlug m.slug

/-- The owner of a place in the waiting list: owner and cell number, 0 for an owner that is no cell (the model's choice,
log 20). -/
def wOwner (o : WaitOwner) : List Byte :=
  wNum 1 o.ctorIdx ++ (match o with
    | .charge c | .drain c => wCell c
    | .spill | .fill | .returnEngine | .discharge => wNum 1 0)

/-- A place of the waiting list (R33). -/
def wPlace (w : WaitPlace) : List Byte :=
  wOwner w.owner ++ wOpt 4 (fun x : Port × Port => wPort x.1 ++ wPort x.2) w.ports

/-- The seven stray counts (R33). -/
def wStrays (s : StrayCounts) : List Byte :=
  s.cellDrain.toList.flatMap (wNum 2) ++ wNum 2 s.makeup ++ wNum 2 s.outfall ++ wNum 2 s.draw

/-- READ MOVEMENTS (R33). -/
def wMovementsReport (r : MovementsReport) : List Byte :=
  wList wMovement r.entries ++ wNum 1 r.free ++ wNum 2 r.nextNumber ++ wList wPlace r.waiting ++
    wStrays r.strays

/-- The source of a contribution: type and three bytes (12.6). The bytes of a source that is no tag, the vessel or cell number
in the last byte and zeros for ADOPTED and OTHER, are the model's choice (log 86). -/
def wContribSource (s : ContribSource) : List Byte :=
  wNum 1 s.ctorIdx ++ (match s with
    | .tag t => wTag t
    | .vessel v => wNum 3 (v.1 + 1)
    | .cell c => wNum 3 (c.1 + 1)
    | .adopted | .other => wNum 3 0)

/-- A contribution (12.6). -/
def wContribution (c : Contribution) : List Byte :=
  wContribSource c.source ++ wNum 4 c.litres ++ wNum 4 c.mg

/-- READ LOT (12.6). -/
def wLotReport (r : LotReport) : List Byte :=
  let l := r.lot
  wNum 2 l.number ++ wVessel l.vessel ++ wNum 1 l.state.ctorIdx ++ wFlag l.held ++ wFlag l.sealPending.isSome ++
    wFlag r.queued ++ wTime l.opened ++ wOptTime l.sealed ++ wOptTime l.cleared ++ wNum 8 r.holding.volume ++
    wNum 8 r.holding.mass ++ wOptNum 4 l.volumeAtSeal ++ wOptNum 4 l.massAtSeal ++ wNum 1 l.sampleNumber ++
    wOptNum 2 l.measuredConc ++ wOptNum 1 l.measuredPh ++ wOptEnum (l.verdict.map LabResult.ctorIdx) ++
    wOptEnum (l.rejectReason.map RejectReason.ctorIdx) ++ wOptNum 8 l.clearanceNo ++ wOptNum 8 l.rejectionNo ++
    wOptNum 1 l.bindingFrame ++ wNum 4 l.dischargedVolume ++ wNum 4 l.dischargedMass ++
    wNum 4 l.returnedVolume ++ wNum 4 l.returnedMass ++
    wOpt 4 (fun t : Nat × Bool => wNum 3 t.1 ++ wFlag t.2) r.timer ++ wList wContribution l.contributions

/-- A closed record (R52). -/
def wClosedLot (c : ClosedLot) : List Byte :=
  wNum 2 c.number ++ wVessel c.vessel ++ wTime c.opened ++ wOptTime c.sealed ++ wTime c.closed ++
    wOptNum 4 c.volumeAtSeal ++ wOptNum 4 c.massAtSeal ++ wOptNum 2 c.measuredConc ++ wNum 1 c.samples ++
    wNum 4 c.dischargedVolume ++ wNum 4 c.dischargedMass ++ wNum 4 c.returnedVolume ++
    wNum 4 c.returnedMass ++ wNum 1 c.endKind.ctorIdx

/-! ## Sources, units, regulation -/

/-- The fields that only one origin has (4.1). The age mark is one flag byte, 0 for a STATIC entry, which has none (the
model's choice, log 20). -/
def wOrigin (o : Origin) : List Byte :=
  match o with
  | .learned mark => wNum 1 0 ++ wOptEnum none ++ wFlag false ++ wFlag false ++ wFlag mark
  | .static pinned filter bypass =>
    wNum 1 1 ++ wOptEnum (pinned.map WaterClass.ctorIdx) ++ wFlag filter ++ wFlag bypass ++ wFlag false

/-- An entry of the Source Table, all its fields (4.1). -/
def wSourceEntry (e : SourceEntry) : List Byte :=
  wTag e.tag ++ wUnit e.unit ++ wOrigin e.origin ++ wOptEnum (e.cls.map WaterClass.ctorIdx) ++
    wOptNum 2 e.lastConc ++ wNum 4 e.slugs ++ wFigure e.litres ++ wFigure e.mg

/-- What every READ SOURCE reply carries (R75). -/
def wSourceSummary (s : SourceSummary) : List Byte :=
  wNum 1 s.entries ++ wNum 1 s.learned ++ wNum 1 s.statics ++ wNum 1 s.agingPeriod ++ wNum 2 s.agingLeft ++
    wFlag s.agingPaused ++ wNum 1 s.policy.ctorIdx ++ wFlag s.fullReported

/-- A decision with its reason, as READ UNIT gives it; the reason byte of ROUTED is 0 (R82 gives it none; log 63). -/
def wDecision (d : Decision) : List Byte :=
  match d with
  | .routed _ _ _ => wNum 1 0 ++ wNum 1 0
  | .wait r => wNum 1 1 ++ wNum 1 r.ctorIdx
  | .refuse r => wNum 1 2 ++ wNum 1 r.ctorIdx

/-- A READ SOURCE reply (R75): the entry, what every reply carries, and with an entry its slugs in the Movement
Table, last as the rule lists them (R199). An END reply leaves out the entry and its slug count with their bytes, and a
returned entry has no presence byte (the model's choices, log 20). -/
def wSourceReply (x : Option (SourceEntry × Nat)) (s : SourceSummary) : List Byte :=
  match x with
  | none => wSourceSummary s
  | some (e, slugs) => wSourceEntry e ++ wSourceSummary s ++ wNum 1 slugs

/-- A slug in flight (R99). Its destination is a vessel inlet, so the vessel stands without a presence byte. -/
def wSlugReport (s : SlugReport) : List Byte :=
  wNum 1 s.phase.ctorIdx ++ (s.vessel.map wVessel).getD (wNum 1 0) ++ wNum 2 s.granted ++ wOptNum 2 s.lot ++
    wOptNum 2 s.timeoutLeft

/-- READ UNIT (R99). -/
def wUnitReport (r : UnitReport) : List Byte :=
  wFlag r.record.enabled ++ wFlag r.record.learning ++ wNum 1 r.record.presence.ctorIdx ++
    wNum 1 r.record.missed ++ wOptNum 2 r.record.slug ++
    wOptEnum (r.record.outbound.map Outbound.ctorIdx) ++ wNum 2 r.record.late ++
    wOpt 8 wOffer r.record.lastOffer ++ wOpt 2 wDecision r.record.lastDecision ++ wOpt 10 wSlugReport r.slug ++
    wNum 2 r.settings.amber ++ wNum 2 r.settings.red ++ wNum 1 r.settings.silenceLimit ++
    wNum 2 r.settings.transferTimeout ++ wNum 1 r.enabled

/-- The return engine's source: lot or QUARANTINE, with the lot number, 0 for QUARANTINE (the model's choice, log 20). -/
def wReturnSource (s : ReturnSource) : List Byte :=
  match s with
  | .lot n => wNum 1 0 ++ wNum 2 n
  | .quarantine => wNum 1 1 ++ wNum 2 0

/-- SET REGULATION (R101). -/
def wRegulationReport (r : RegulationReport) : List Byte :=
  let m := r.unit.marks
  wNum 1 m.reuseHigh ++ wNum 1 m.reuseLow ++ wNum 2 m.reserve ++ wNum 2 m.headroom ++ wNum 1 m.feedHigh ++
    wNum 1 m.feedLow ++ wFirst r.unit.switchOn ++ wNum 2 r.reuseHighVolume ++ wNum 2 r.reuseLowVolume ++
    wNum 2 r.feedHighVolume ++ wNum 2 r.feedLowVolume ++ wNum 2 m.reserve ++ wNum 2 m.headroom ++
    wFirst r.unit.supplyOpen ++ wNeed r.unit.spill ++ wNeed r.unit.fill ++ wNeed r.unit.ret ++
    wOpt 3 wReturnSource r.unit.returnSource

/-! ## Cells, gate, patterns, faults -/

/-- The run timer with its paused mark (R132). -/
def wRunTimer (r : CellRec) : List Byte := wOpt 4 (fun t => wNum 3 t ++ wFlag r.paused) r.runTimer

/-- READ CELL (R132). The implied concentration takes the two bytes of a concentration (4.1 of 00_scope; log 20), the moved
litres the four that 12.6 gives the field (log 81). -/
def wCellReport (r : CellReport) : List Byte :=
  let c := r.record
  wOptNum 2 c.chargeVolume ++ wNum 2 c.endConc ++ wOptNum 3 c.runLimit ++ wOptNum 4 c.cathodeCapacity ++
    wNum 1 c.drainPref.ctorIdx ++ wNum 1 c.state.ctorIdx ++ wNum 2 r.liquor.volume ++ wFigure r.liquor.mass ++
    wFigure r.load ++ wOptNum 2 c.lastProbe ++ wFirst c.rectifier ++ wFlag c.paused ++ wRunTimer c ++
    wFlag c.harvestRequired ++ wNeed c.step ++ wList (wNum 1) r.holding ++ wFirst c.faultInput ++
    wOptNum 2 r.implied ++ wOptNum 4 r.moved ++
    wOpt 4 (fun x : VesselId × Option Nat => wVessel x.1 ++ wOptNum 2 x.2) r.target ++
    wOptEnum (r.outcome.map ArbOutcome.ctorIdx) ++ wOpt 1 wCell r.chosen

/-- The limits (R137). -/
def wLimitsReport (l : Limits) : List Byte :=
  wOptNum 4 l.massAllowance ++ wOptNum 3 l.volumeAllowance ++ wOptNum 2 l.concLimit ++ wOpt 2 wBand l.phBand ++
    wNum 4 l.floor ++ wFlag l.floorEnable ++ wNum 1 l.persistence ++ wNum 2 l.dayBoundary

/-- A selection outcome: two bytes, the outcome and the refusal reason, 0 where it has none (the model's choice, log 20). -/
def wOutcome (o : SelOutcome) : List Byte :=
  wNum 1 o.ctorIdx ++ (match o with
    | .refused r => wNum 1 r.ctorIdx
    | .started | .noFit | .noLot | .probe | .held => wNum 1 0)

/-- A queued lot (R152): its clearance number in the eight bytes that 12.6 gives the field (log 81), its remaining mass in
eight bytes (the model's choice, log 20). -/
def wQueuedLot (q : QueuedLot) : List Byte :=
  wNum 2 q.lot ++ wNum 8 q.clearance ++ wFigure q.volume ++ wNum 8 q.remaining ++ wFlag q.fits

/-- The discharge that runs in READ GATE: movement number, lot, moved litres and moved mass, in the widths that 12.6 gives these
fields (R152, log 81); its lot is no optional item of its own (the model's choice, log 20). -/
def wRunning (x : Nat × Option Nat × Nat × Nat) : List Byte :=
  wNum 2 x.1 ++ wNum 2 (x.2.1.getD 0) ++ wNum 4 x.2.2.1 ++ wNum 8 x.2.2.2

/-- READ GATE (R152). A headroom is absent while its allowance is unset (the model's choice, log 20). -/
def wGateReport (r : GateReport) : List Byte :=
  wTime r.clock ++ wWindowReport r.w1 ++ wWindowReport r.w2 ++ wFlag r.inWindow ++ wLimitsReport r.limits ++
    wNum 4 r.todayVolume ++ wFigure r.todayMass ++ wOpt 8 wSigned r.massHeadroom ++
    wOpt 8 wSigned r.volumeHeadroom ++ wNum 1 r.state.ctorIdx ++ wOpt 2 wOutcome r.outcome ++
    wOpt 16 wRunning r.running ++ wList wQueuedLot r.queue ++ wOptNum 2 r.silver ++ wOptNum 1 r.ph ++
    wOptNum 1 r.silverTimer ++ wOptNum 1 r.phTimer

/-- READ PATTERN (R163). Whether a frame of the pattern is on the stack is the presence byte of its condition (the model's
choice, log 20). -/
def wPatternReport (r : PatternReport) : List Byte :=
  let x := r.record
  x.terms.toList.flatMap (fun t => wNum 1 t.ctorIdx) ++ wNum 1 x.mode.ctorIdx ++ wFlag x.latch ++
    wFlag x.enabled ++ wNum 1 x.state.ctorIdx ++ wFlag x.overrun ++ wOpt 1 wInput x.matched ++
    wOptTime x.matchTime ++ wOpt 24 wInputs x.snapshot ++ wInputs r.inputs ++ wFlag r.wouldMeet ++
    wOptEnum (r.frame.map Condition.ctorIdx)

/-- A response of the Fault Table (R165). -/
def wResponse (r : Response) : List Byte :=
  wActions r.actions ++ wNum 1 r.policy.ctorIdx ++ wNum 2 r.hold ++ wFlag r.loaded

/-- The interrupted movement of a frame (12.6). -/
def wInterrupted (m : Movement) : List Byte :=
  wNum 2 m.number ++ wNum 1 m.kind.ctorIdx ++ wNum 1 m.phase.ctorIdx ++ wPort m.source ++ wPort m.dest ++
    wNum 4 m.requested ++ wNum 4 m.movedLitres ++ wNum 8 m.movedMass

/-- A frame of READ FAULTS (12.6). A hold that has run out below another frame is written present with 0 (log 80). -/
def wFrameReport (r : FrameReport) : List Byte :=
  let f := r.frame
  wNum 1 r.depth ++ wNum 1 f.ftype.code ++ wTime f.time ++ wSubject f.subject ++
    wOpt 24 wInterrupted f.interrupted ++ wOptNum 2 f.lot ++ wActions f.actions ++ wNum 1 f.policy.ctorIdx ++
    wNum 2 (f.hold.getD 0) ++ wNum 1 f.condition.ctorIdx ++ wOptTime f.clearedTime ++ wOptNum 2 f.holdLeft ++
    wFlag r.holdsGate ++ wFlag r.holdsNeed ++ wSet r.holdsCell.toList

/-- The last-fault record (R180): its type by code, and whether the raise was stacked by the presence byte of the depth (the
model's choices, log 20). -/
def wLastFault (l : LastFault) : List Byte :=
  wNum 1 l.ftype.code ++ wSubject l.subject ++ wTime l.time ++ wOptNum 1 l.depth

/-- READ FAULTS (R181). -/
def wFaultsReport (r : FaultsReport) : List Byte :=
  r.table.toList.flatMap wResponse ++ wList wFrameReport r.frames ++ wActions r.actions ++
    wOpt 10 wLastFault r.last ++ wNum 1 r.mode.ctorIdx

/-! ## The general replies -/

/-- The characters of a text, one byte each. -/
def wText (t : String) : List Byte := t.toList.map (fun c => BitVec.ofNat 8 c.toNat)

/-- The capacities of 1.5, in the order of its table, a range by its two ends. -/
def wCapacities : List Byte :=
  [8, 4, 1, 31, 24, 64, 12, 16, 16, 2, 16, 6, 6, 24, 2, 32, 4, 10].flatMap (wNum 1) ++
    [1, 4000, 100, 60000].flatMap (wNum 2)

/-- The identity (R186). -/
def wIdentity : List Byte :=
  wText "GALINDE" ++ wText "EW-40" ++ wNum 1 (65 + Config.hardwareRevision.1) ++ wCapacities

/-- STATUS (R186). The matched input of the pending pattern is an optional item (the model's choice, log 20). -/
def wStatusReport (r : StatusReport) : List Byte :=
  wNum 1 r.mode.ctorIdx ++ wNum 1 r.lastStart.ctorIdx ++ wSelfTest r.selfTest ++ wTime r.clock ++
    wNum 1 r.stackHeight ++
    wOpt 2 (fun x : FaultType × Condition => wNum 1 x.1.code ++ wNum 1 x.2.ctorIdx) r.top ++
    wActions r.actions ++
    wOpt 3 (fun x : PatternId × Option InputId => wPattern x.1 ++ wOpt 1 wInput x.2) r.pendingPattern ++
    wNum 1 r.gate.ctorIdx ++ wNum 1 r.notices ++ wFlag r.lost

/-- The missing items of ENTER OPERATING (R188): one byte of bits in the order of its table, then the two lists (the model's
choice, log 20). -/
def wMissing (m : MissingReport) : List Byte :=
  wSet [m.clock, m.roles, m.adoption, m.responses, m.limits, m.units, m.stack] ++ wList wVessel m.notAdopted ++
    wList (wNum 1) m.notLoaded

/-- One output of READ INPUTS (R186). -/
def wOutput (o : OutputReport) : List Byte := wFirst o.commanded ++ wFirst o.readBack ++ wFlag o.manual

/-- The items of a reply after its status (R195). -/
def wReplyItems (i : ReplyItems) : List Byte :=
  match i with
  | .none => []
  | .identity => wIdentity
  | .status r => wStatusReport r
  | .missing m => wMissing m
  | .inputs ins cells outs => wInputs ins ++ cells.toList.flatMap wFirst ++ outs.toList.flatMap wOutput
  | .vessel r => wVesselReport r
  | .accounts r => wAccountsReport r
  | .movements r => wMovementsReport r
  | .lotTook s => wNum 1 s.ctorIdx
  | .lot r => wLotReport r
  | .closedLots l => wList wClosedLot l
  | .source e s => wSourceReply e s
  | .unit r => wUnitReport r
  | .regulation r => wRegulationReport r
  | .harvested load weighed => wFigure load ++ wNum 4 weighed
  | .cell r => wCellReport r
  | .gate r => wGateReport r
  | .patternState s => wNum 1 s.ctorIdx
  | .pattern r => wPatternReport r
  | .faults r => wFaultsReport r
  | .popped t s => wNum 1 t.code ++ wSubject s
  | .topDepth d => wNum 1 d
  | .unknownKind k => [k]

/-! ## Notices (R198) -/

/-- The KIND of a notice, 0x40 to 0x58 in the order of R198's table. -/
def noticeKind (n : NoticeBody) : Nat :=
  match n with
  | .start _ _ _ => 0x40
  | .mode _ _ _ => 0x41
  | .lockdown _ => 0x42
  | .released => 0x43
  | .fault _ _ _ _ _ _ => 0x44
  | .faultNotStacked _ _ _ => 0x44
  | .faultPopped _ _ _ _ => 0x45
  | .lotState _ _ _ => 0x46
  | .sampleReady _ _ => 0x47
  | .sourceLearned _ _ _ => 0x48
  | .classChange _ _ _ => 0x49
  | .migrated _ _ _ => 0x4A
  | .tableFull _ _ => 0x4B
  | .sourceAged _ _ _ _ _ => 0x4C
  | .unitSilent _ _ => 0x4D
  | .unitPresent _ => 0x4E
  | .overDelivery _ _ _ _ _ => 0x4F
  | .overflow _ _ _ => 0x50
  | .reserveLow _ _ => 0x51
  | .regulationOff => 0x52
  | .cellState _ _ _ => 0x53
  | .harvestNeeded _ _ => 0x54
  | .incompleteRun _ _ _ _ => 0x55
  | .gate _ _ _ _ => 0x56
  | .dayEnd _ _ _ _ _ => 0x57
  | .patternMatch _ _ _ _ => 0x58

/-- A lot's state in a notice; CLOSED, which 3.1 does not list, is 9, after its nine states (the model's choice, log 20). -/
def wLotStateNow (s : Option LotState) : List Byte :=
  match s with
  | .none => wNum 1 9
  | .some x => wNum 1 x.ctorIdx

/-- The depth and type of the frame that a cause names, for ACTION (R177). -/
def LockdownCause.frame : LockdownCause → Option (Nat × FaultType)
  | .action d t => some (d, t)
  | .fullStack | .host => none

/-- The cause of an entry to LOCKDOWN, and the depth and the type as optional items (R177, R199). -/
def wLockdownCause (c : LockdownCause) : List Byte :=
  wNum 1 c.ctorIdx ++ wOptNum 1 (c.frame.map Prod.fst) ++ wOptNum 1 (c.frame.map (fun x => x.2.code))

/-- The items of a notice, as its own rule names them; a fault type, here and in every reply, is its code 1 to 16, and the
matched input of PATTERN MATCH is an optional item, and so is each allowance of DAY END, absent while it is unset (the
model's choices, log 20). DAY END's time is never absent and has no presence byte: the day rolls with the clock set. -/
def wNoticeBody (n : NoticeBody) : List Byte :=
  match n with
  | .start k st m => wNum 1 k.ctorIdx ++ wIdentity ++ wSelfTest st ++ wNum 1 m.ctorIdx
  | .mode o new c => wNum 1 o.ctorIdx ++ wNum 1 new.ctorIdx ++ wNum 1 c.ctorIdx
  | .lockdown c => wLockdownCause c
  | .released => []
  | .fault d t s a k time =>
    wNum 1 d ++ wNum 1 t.code ++ wSubject s ++ wActions a ++ wNum 1 k.ctorIdx ++ wTime time
  | .faultNotStacked t s time => wNum 1 t.code ++ wSubject s ++ wTime time ++ wFlag true
  | .faultPopped d t s way => wNum 1 d ++ wNum 1 t.code ++ wSubject s ++ wNum 1 way.ctorIdx
  | .lotState n s r => wNum 2 n ++ wLotStateNow s ++ wNum 1 r.ctorIdx
  | .sampleReady n k => wNum 2 n ++ wNum 1 k
  | .sourceLearned t u c => wTag t ++ wUnit u ++ wNum 1 c.ctorIdx
  | .classChange t a b => wTag t ++ wNum 1 a.ctorIdx ++ wNum 1 b.ctorIdx
  | .migrated t a b => wTag t ++ wUnit a ++ wUnit b
  | .tableFull t u => wTag t ++ wUnit u
  | .sourceAged t u k l m => wTag t ++ wUnit u ++ wNum 4 k ++ wFigure l ++ wFigure m
  | .unitSilent u mv => wUnit u ++ wOptNum 2 mv
  | .unitPresent u => wUnit u
  | .overDelivery u t v g d => wUnit u ++ wTag t ++ wVessel v ++ wNum 2 g ++ wNum 2 d
  | .overflow v set b => wVessel v ++ wFirst set ++ wFigure b
  | .reserveLow reopened b => wFirst (!reopened) ++ wFigure b
  | .regulationOff => wFirst false
  | .cellState c s r => wCell c ++ wNum 1 s.ctorIdx ++ wNum 1 r.ctorIdx
  | .harvestNeeded c load => wCell c ++ wFigure load
  | .incompleteRun c probe v m => wCell c ++ wOptNum 2 probe ++ wNum 2 v ++ wFigure m
  | .gate o new r lot => wNum 1 o.ctorIdx ++ wNum 1 new.ctorIdx ++ wNum 1 r.ctorIdx ++ wOptNum 2 lot
  | .dayEnd v m ma va t => wNum 4 v ++ wFigure m ++ wOptNum 4 ma ++ wOptNum 3 va ++ wNum 3 t
  | .patternMatch k i t snap => wPattern k ++ wOpt 1 wInput i ++ wTime t ++ wOpt 24 wInputs snap

/-- The BODY of a notice: the lost mark, the time, the items (R198). -/
def noticeBytes (n : Notice) : List Byte := wFlag n.lostBefore ++ wTime n.time ++ wNoticeBody n.body

/-- The KIND of a reply (R195): the request's plus 0x80, and 0xFF for UNKNOWN. -/
def replyKind (p : Place) : Nat :=
  if p.reply.status = .unknown then 0xFF else p.kind.toNat + 0x80

/-- The bytes of a frame of the part on the Supervisory Link (R192, R195, R198). -/
def supBytes (f : SupFrame) : List Byte :=
  match f with
  | .reply p => supFrame (replyKind p) p.number (wNum 1 p.reply.status.ctorIdx ++ wReplyItems p.reply.items)
  | .notice n => supFrame (noticeKind n.body) 0#8 (noticeBytes n)

end Sys2Proof.Machine
end

