-- ==== Sys2Proof/Machine/Serve.lean ====
section
/-! DEFINITION. The taking of a request by its owner (R194, 12.5), the receiver of the Supervisory Link (R193),
and an answer on the Field Link taken from its bytes (R200). -/

namespace Sys2Proof.Machine

/-! ## Requests handed to their owners (R194) -/

/-- A request is taken: its KIND, its owner's rule, its place in the buffer. -/
def serve (n : Byte) (r : Request) (q : Plant) : Plant :=
  match r with
  | .identify => request n 0x01 takeIdentify q
  | .status => request n 0x02 takeStatus q
  | .restart => request n 0x03 takeRestart q
  | .enterOperating => request n 0x04 takeEnterOperating q
  | .enterCommissioning => request n 0x05 takeEnterCommissioning q
  | .manualOutput items => request n 0x06 (takeManualOutput items) q
  | .readInputs => request n 0x07 takeReadInputs q
  | .setVessel v items => request n 0x08 (takeSetVessel v items) q
  | .readVessel v => request n 0x09 (takeReadVessel v) q
  | .adoptLevel v => request n 0x0A (takeAdoptLevel v) q
  | .readAccounts => request n 0x0B takeReadAccounts q
  | .readMovements clear => request n 0x0C (takeReadMovements clear) q
  | .setMovementTimes items => request n 0x0D (takeSetMovementTimes items) q
  | .sealLot lot => request n 0x0E (takeSealLot lot) q
  | .holdLot lot => request n 0x0F (takeHoldLot lot) q
  | .releaseLot lot => request n 0x10 (takeReleaseLot lot) q
  | .rejectLot lot => request n 0x11 (takeRejectLot lot) q
  | .verdict items => request n 0x12 (takeVerdict items) q
  | .readLot number byVessel => request n 0x13 (takeReadLot number byVessel) q
  | .readClosedLots => request n 0x14 takeReadClosedLots q
  | .setLotTimes items => request n 0x15 (takeSetLotTimes items) q
  | .setSource tag items => request n 0x16 (takeSetSource tag items) q
  | .removeSource tag => request n 0x17 (takeRemoveSource tag) q
  | .readSourceFirst => request n 0x18 takeReadSourceFirst q
  | .readSourceNext => request n 0x19 takeReadSourceNext q
  | .setAging period policy => request n 0x1A (takeSetAging period policy) q
  | .setUnit address enabled learning => request n 0x1B (takeSetUnit address enabled learning) q
  | .readUnit address clear => request n 0x1C (takeReadUnit address clear) q
  | .setRouting items => request n 0x1D (takeSetRouting items) q
  | .setRegulation items => request n 0x1E (takeSetRegulation items) q
  | .regulationOn => request n 0x1F takeRegulationOn q
  | .regulationOff => request n 0x20 takeRegulationOff q
  | .setCell c items => request n 0x21 (takeSetCell c items) q
  | .cellOn c => request n 0x22 (takeCellOn c) q
  | .cellOff c => request n 0x23 (takeCellOff c) q
  | .harvest c => request n 0x24 (takeHarvest c) q
  | .harvestDone c weighed => request n 0x25 (takeHarvestDone c weighed) q
  | .readCell c => request n 0x26 (takeReadCell c) q
  | .setWindows w1 w2 => request n 0x27 (takeSetWindows w1 w2) q
  | .setLimits items => request n 0x28 (takeSetLimits items) q
  | .setClock time => request n 0x29 (takeSetClock time) q
  | .readGate => request n 0x2A takeReadGate q
  | .setPattern p items => request n 0x2B (takeSetPattern p items) q
  | .patternOn p => request n 0x2C (takePatternOn p) q
  | .patternOff p => request n 0x2D (takePatternOff p) q
  | .alarmTake p => request n 0x2E (takeAlarmTake p) q
  | .alarmClear p => request n 0x2F (takeAlarmClear p) q
  | .readPattern p => request n 0x30 (takeReadPattern p) q
  | .setFaultResponse code items => request n 0x31 (takeSetFaultResponse code items) q
  | .readFaults => request n 0x32 takeReadFaults q
  | .resume depth => request n 0x33 (takeResume depth) q
  | .abandon depth => request n 0x34 (takeAbandon depth) q
  | .lockdown => request n 0x35 takeLockdown q
  | .release => request n 0x36 takeRelease q

/-- A KIND that names no request is answered UNKNOWN with the KIND received (R194). -/
def answerUnknown (kind : Byte) (q : Plant) : Plant × Reply :=
  (q, { status := .unknown, items := .unknownKind kind })

/-- A refusal made from the KIND alone; every SET REGULATION reply carries the unit's state (R101, R195). -/
def refuseKind (kind : Byte) (st : Status) (q : Plant) : Plant × Reply :=
  (q, { status := st,
        items := if kind = 0x1E then .regulation (regulationReport q.part) else .none })

/-- The modes in which a request that carries items is taken: MANUAL OUTPUT, SET CELL and SET FAULT RESPONSE in
COMMISSIONING (R187, R117, R166), the others in the three modes in service. -/
def kindTaken (kind : Byte) (m : Mode) : Bool :=
  if kind = 0x06 ∨ kind = 0x21 ∨ kind = 0x31 then decide (m = .commissioning) else m.inService

/-- A request with an item outside its list: WRONG MODE where the mode does not take the request, else BAD VALUE
(R199, log 21). -/
def refuseItem (kind : Byte) (q : Plant) : Plant × Reply :=
  refuseKind kind (if kindTaken kind q.part.ctl.mode then .badValue else .wrongMode) q

/-! ## The receiver (R193) -/

/-- A frame whose CHECK matches. -/
structure RawFrame where
  kind   : Byte
  number : Byte
  body   : List Byte
  deriving DecidableEq, Repr

/-- An accepted frame is taken into the buffer and handed on, or discarded at a full buffer (R194). -/
def acceptFrame (f : RawFrame) (q : Plant) : Plant :=
  match parseRequest f.kind.toNat f.body with
  | .unknownKind => request f.number f.kind (answerUnknown f.kind) q
  | .badLength => request f.number f.kind (refuseKind f.kind .badValue) q
  | .badItem => request f.number f.kind (refuseItem f.kind) q
  | .taken r => serve f.number r q

/-- What the receiver finds at a SYNC: `rest` are the bytes after it. -/
inductive Found where
  /-- more bytes are wanted -/
  | collecting
  /-- LENGTH or CHECK is wrong -/
  | discarded
  /-- a frame, and the bytes after it -/
  | accepted (f : RawFrame) (rest : List Byte)
  deriving DecidableEq, Repr

/-- CHECK of a complete frame whose LENGTH is `len`. -/
def checkFrame (h l : Byte) (len : Nat) (body : List Byte) : Found :=
  let inner := body.take len
  match inner with
  | kind :: number :: b =>
    if (takeNum 2 0 (body.drop len)).1 = (crc16 (h :: l :: inner)).toNat then
      .accepted ⟨kind, number, b⟩ (body.drop (len + 2))
    else .discarded
  | _ => .discarded

/-- Examine the bytes after a SYNC (R193): LENGTH as soon as it is complete, then CHECK when it is. -/
def examine (rest : List Byte) : Found :=
  match rest with
  | h :: l :: body =>
    let len := h.toNat * 256 + l.toNat
    if len < 2 ∨ 1024 < len then .discarded
    else if body.length < len + 2 then .collecting
    else checkFrame h l len body
  | _ => .collecting

/-- Hunt through bytes and collect: the frames accepted, in order, and the bytes still held from a SYNC on. After
a discard the hunt goes on from the byte after the discarded SYNC. `fuel` is at least the number of bytes. -/
def scan (fuel : Nat) (bs : List Byte) : List RawFrame × List Byte :=
  match fuel, bs with
  | 0, _ => ([], bs)
  | _, [] => ([], [])
  | k + 1, b :: rest =>
    if b ≠ 0xC3#8 then scan k rest
    else match examine rest with
      | .collecting => ([], b :: rest)
      | .discarded => scan k rest
      | .accepted f after =>
        let r := scan k after
        (f :: r.1, r.2)

/-- Bytes arrive on the Supervisory Link (R193). -/
def receive (bytes : List Byte) (q : Plant) : Plant :=
  let held := q.part.link.rx ++ bytes
  let r := scan held.length held
  r.1.foldl (fun x f => acceptFrame f x)
    { q with part := { q.part with link := { q.part.link with rx := r.2 } } }

/-- A gap of 100 ms: the bytes before it are dropped (R193). -/
def dropCollected (p : Part) : Part := { p with link := { p.link with rx := [] } }

/-! ## Answers by their bytes (R200) -/

/-- An answer given as bytes at the open turn: what R200 does not call valid counts as a miss (R80). -/
def answerOfBytes (bytes : List Byte) (q : Plant) : Plant :=
  match q.part.fld.turn with
  | none => q
  | some t =>
    match parseAnswer t.unit bytes with
    | none => { q with part := missTurn q.books t q.part }
    | some a => fieldAnswer a q

end Sys2Proof.Machine
end

