-- ==== Sys2Proof/Machine/Requests.lean ====
section
/-! DEFINITION. The meanings of the 54 request rows: the request finds a place in the buffer, its owner takes it,
and its reply waits in the place (R194, R195). KIND numbers are those of 12.5. -/

namespace Sys2Proof.Machine

/-! ## The general requests (chapter 11) -/

/-- IDENTIFY: the fixed identity, in every mode (R186). -/
def execIdentify (n : Byte) (s : State) : Host.Outcome State Fault Refusal :=
  command (request n 0x01 takeIdentify) s

/-- STATUS: mode, start, self-test, clock, faults, patterns, gate and queue, in every mode (R186). -/
def execStatus (n : Byte) (s : State) : Host.Outcome State Fault Refusal :=
  command (request n 0x02 takeStatus) s

/-- RESTART: OK, and at the end of its frame the warm restart, or the self-test from FAILED (R190, R191). -/
def execRestart (n : Byte) (s : State) : Host.Outcome State Fault Refusal :=
  command (request n 0x03 takeRestart) s

/-- ENTER OPERATING: every prerequisite is checked; then OPERATING and every block told (R188). -/
def execEnterOperating (n : Byte) (s : State) : Host.Outcome State Fault Refusal :=
  command (request n 0x04 takeEnterOperating) s

/-- ENTER COMMISSIONING: COMMISSIONING with a general cut (R189). -/
def execEnterCommissioning (n : Byte) (s : State) : Host.Outcome State Fault Refusal :=
  command (request n 0x05 takeEnterCommissioning) s

/-- MANUAL OUTPUT: manual commands set or released on the masked outputs (R187). -/
def execManualOutput (n : Byte) (items : ManualItems) (s : State) : Host.Outcome State Fault Refusal :=
  command (request n 0x06 (takeManualOutput items)) s

/-- READ INPUTS: inputs, cell fault inputs and outputs (R186). -/
def execReadInputs (n : Byte) (s : State) : Host.Outcome State Fault Refusal :=
  command (request n 0x07 takeReadInputs) s

/-! ## The requests of vessels, books and movements (chapters 1 and 2) -/

/-- SET VESSEL: the whole request checked, then applied together (R4). -/
def execSetVessel (n : Byte) (v : Nat) (items : VesselItems) (s : State) : Host.Outcome State Fault Refusal :=
  command (request n 0x08 (takeSetVessel v items)) s

/-- READ VESSEL: one vessel record and what stands at its ports (R5). -/
def execReadVessel (n : Byte) (v : Nat) (s : State) : Host.Outcome State Fault Refusal :=
  command (request n 0x09 (takeReadVessel v)) s

/-- ADOPT LEVEL: the vessel is booked to its last reading through the corrections accounts (R12 to R14). -/
def execAdoptLevel (n : Byte) (v : Nat) (s : State) : Host.Outcome State Fault Refusal :=
  command (request n 0x0A (takeAdoptLevel v)) s

/-- READ ACCOUNTS: every account and the holder sums (R17). -/
def execReadAccounts (n : Byte) (s : State) : Host.Outcome State Fault Refusal :=
  command (request n 0x0B takeReadAccounts) s

/-- READ MOVEMENTS: the table, the waiting list and the stray counts (R33). -/
def execReadMovements (n : Byte) (clear : Bool) (s : State) : Host.Outcome State Fault Refusal :=
  command (request n 0x0C (takeReadMovements clear)) s

/-- SET MOVEMENT TIMES: stall, cell travel and outfall travel time (R34, R28). -/
def execSetMovementTimes (n : Byte) (items : MovementTimeItems) (s : State) :
    Host.Outcome State Fault Refusal :=
  command (request n 0x0D (takeSetMovementTimes items)) s

/-! ## The lot requests (chapter 3) -/

/-- SEAL LOT: a FILLING lot becomes due to seal (R56). -/
def execSealLot (n : Byte) (lot : Nat) (s : State) : Host.Outcome State Fault Refusal :=
  command (request n 0x0E (takeSealLot lot)) s

/-- HOLD LOT: held set (R54). -/
def execHoldLot (n : Byte) (lot : Nat) (s : State) : Host.Outcome State Fault Refusal :=
  command (request n 0x0F (takeHoldLot lot)) s

/-- RELEASE LOT: held cleared (R54). -/
def execReleaseLot (n : Byte) (lot : Nat) (s : State) : Host.Outcome State Fault Refusal :=
  command (request n 0x10 (takeReleaseLot lot)) s

/-- REJECT LOT: REJECTED with reason HOST (R55). -/
def execRejectLot (n : Byte) (lot : Nat) (s : State) : Host.Outcome State Fault Refusal :=
  command (request n 0x11 (takeRejectLot lot)) s

/-- VERDICT: a laboratory result checked and, for the awaited sample, applied (R47, R48). -/
def execVerdict (n : Byte) (items : VerdictItems) (s : State) : Host.Outcome State Fault Refusal :=
  command (request n 0x12 (takeVerdict items)) s

/-- READ LOT: an open lot's record (R57). -/
def execReadLot (n : Byte) (number : Nat) (byVessel : Bool) (s : State) : Host.Outcome State Fault Refusal :=
  command (request n 0x13 (takeReadLot number byVessel)) s

/-- READ CLOSED LOTS: the Closed Lot List (R53). -/
def execReadClosedLots (n : Byte) (s : State) : Host.Outcome State Fault Refusal :=
  command (request n 0x14 takeReadClosedLots) s

/-- SET LOT TIMES: the five settings of the Lot Unit (R60). -/
def execSetLotTimes (n : Byte) (items : LotTimeItems) (s : State) : Host.Outcome State Fault Refusal :=
  command (request n 0x15 (takeSetLotTimes items)) s

/-! ## The Source Table's requests (chapter 4) -/

/-- SET SOURCE: a STATIC entry made or replaced (R73). -/
def execSetSource (n : Byte) (tag : RawTag) (items : SourceItems) (s : State) :
    Host.Outcome State Fault Refusal :=
  command (request n 0x16 (takeSetSource tag items)) s

/-- REMOVE SOURCE: an entry removed (R74). -/
def execRemoveSource (n : Byte) (tag : RawTag) (s : State) : Host.Outcome State Fault Refusal :=
  command (request n 0x17 (takeRemoveSource tag)) s

/-- READ SOURCE FIRST: the entry with the smallest tag (R75). -/
def execReadSourceFirst (n : Byte) (s : State) : Host.Outcome State Fault Refusal :=
  command (request n 0x18 takeReadSourceFirst) s

/-- READ SOURCE NEXT: the entry beyond the cursor, or END (R75). -/
def execReadSourceNext (n : Byte) (s : State) : Host.Outcome State Fault Refusal :=
  command (request n 0x19 takeReadSourceNext) s

/-- SET AGING: aging period and unknown-source policy (R76). -/
def execSetAging (n : Byte) (period : Nat) (policy : UnknownPolicy) (s : State) :
    Host.Outcome State Fault Refusal :=
  command (request n 0x1A (takeSetAging period policy)) s

/-! ## The requests of the Field Link and of regulation (chapters 5 and 6) -/

/-- SET UNIT: enabled and learning of an address (R78). -/
def execSetUnit (n : Byte) (address : Nat) (enabled : Option Bool) (learning : Option Bool) (s : State) :
    Host.Outcome State Fault Refusal :=
  command (request n 0x1B (takeSetUnit address enabled learning)) s

/-- READ UNIT: a unit record, its slug and the routing settings (R99). -/
def execReadUnit (n : Byte) (address : Nat) (clear : Bool) (s : State) : Host.Outcome State Fault Refusal :=
  command (request n 0x1C (takeReadUnit address clear)) s

/-- SET ROUTING: thresholds, silence limit, transfer timeout (R98). -/
def execSetRouting (n : Byte) (items : RoutingItems) (s : State) : Host.Outcome State Fault Refusal :=
  command (request n 0x1D (takeSetRouting items)) s

/-- SET REGULATION: marks, reserve and headroom; every reply carries the unit's state (R101). -/
def execSetRegulation (n : Byte) (items : RegulationItems) (s : State) : Host.Outcome State Fault Refusal :=
  command (request n 0x1E (takeSetRegulation items)) s

/-- REGULATION ON: the switch ON and the REUSE evaluation (R102). -/
def execRegulationOn (n : Byte) (s : State) : Host.Outcome State Fault Refusal :=
  command (request n 0x1F takeRegulationOn) s

/-- REGULATION OFF: the switch OFF, the block cleared, SPILL and FILL cut (R102). -/
def execRegulationOff (n : Byte) (s : State) : Host.Outcome State Fault Refusal :=
  command (request n 0x20 takeRegulationOff) s

/-! ## The cell requests (chapter 7) -/

/-- SET CELL: a cell's configuration, in COMMISSIONING (R117). -/
def execSetCell (n : Byte) (c : Nat) (items : CellItems) (s : State) : Host.Outcome State Fault Refusal :=
  command (request n 0x21 (takeSetCell c items)) s

/-- CELL ON: OFFLINE to IDLE (R118). -/
def execCellOn (n : Byte) (c : Nat) (s : State) : Host.Outcome State Fault Refusal :=
  command (request n 0x22 (takeCellOn c)) s

/-- CELL OFF: IDLE to OFFLINE (R118). -/
def execCellOff (n : Byte) (c : Nat) (s : State) : Host.Outcome State Fault Refusal :=
  command (request n 0x23 (takeCellOff c)) s

/-- HARVEST: IDLE or OFFLINE to HARVEST (R127). -/
def execHarvest (n : Byte) (c : Nat) (s : State) : Host.Outcome State Fault Refusal :=
  command (request n 0x24 (takeHarvest c)) s

/-- HARVEST DONE: the weighed mass booked (R128). -/
def execHarvestDone (n : Byte) (c : Nat) (weighed : Nat) (s : State) : Host.Outcome State Fault Refusal :=
  command (request n 0x25 (takeHarvestDone c weighed)) s

/-- READ CELL: a cell record and the arbiter's outcome (R132). -/
def execReadCell (n : Byte) (c : Nat) (s : State) : Host.Outcome State Fault Refusal :=
  command (request n 0x26 (takeReadCell c)) s

/-! ## The gate's requests (chapter 8) -/

/-- SET WINDOWS: the discharge windows (R136). -/
def execSetWindows (n : Byte) (w1 : Option Window) (w2 : Option Window) (s : State) :
    Host.Outcome State Fault Refusal :=
  command (request n 0x27 (takeSetWindows w1 w2)) s

/-- SET LIMITS: the permit limits (R138). -/
def execSetLimits (n : Byte) (items : LimitItems) (s : State) : Host.Outcome State Fault Refusal :=
  command (request n 0x28 (takeSetLimits items)) s

/-- SET CLOCK: the time of day jumps (R134). -/
def execSetClock (n : Byte) (time : Nat) (s : State) : Host.Outcome State Fault Refusal :=
  command (request n 0x29 (takeSetClock time)) s

/-- READ GATE: clock, windows, limits, totals, queue and readings (R152). -/
def execReadGate (n : Byte) (s : State) : Host.Outcome State Fault Refusal :=
  command (request n 0x2A takeReadGate) s

/-! ## The pattern requests (chapter 9) -/

/-- SET PATTERN: terms, mode and latch of a disabled pattern (R158). -/
def execSetPattern (n : Byte) (p : Nat) (items : PatternItems) (s : State) :
    Host.Outcome State Fault Refusal :=
  command (request n 0x2B (takeSetPattern p items)) s

/-- PATTERN ON: enabled, and evaluated once (R159). -/
def execPatternOn (n : Byte) (p : Nat) (s : State) : Host.Outcome State Fault Refusal :=
  command (request n 0x2C (takePatternOn p)) s

/-- PATTERN OFF: an ARMED pattern disabled (R159). -/
def execPatternOff (n : Byte) (p : Nat) (s : State) : Host.Outcome State Fault Refusal :=
  command (request n 0x2D (takePatternOff p)) s

/-- ALARM TAKE: PENDING to TAKEN (R160). -/
def execAlarmTake (n : Byte) (p : Nat) (s : State) : Host.Outcome State Fault Refusal :=
  command (request n 0x2E (takeAlarmTake p)) s

/-- ALARM CLEAR: TAKEN to ARMED, the frame reported, one evaluation (R160). -/
def execAlarmClear (n : Byte) (p : Nat) (s : State) : Host.Outcome State Fault Refusal :=
  command (request n 0x2F (takeAlarmClear p)) s

/-- READ PATTERN: a pattern record, the inputs and its frame (R163). -/
def execReadPattern (n : Byte) (p : Nat) (s : State) : Host.Outcome State Fault Refusal :=
  command (request n 0x30 (takeReadPattern p)) s

/-! ## The fault requests (chapter 10) -/

/-- SET FAULT RESPONSE: the response of a fault type (R166). -/
def execSetFaultResponse (n : Byte) (code : Nat) (items : ResponseItems) (s : State) :
    Host.Outcome State Fault Refusal :=
  command (request n 0x31 (takeSetFaultResponse code items)) s

/-- READ FAULTS: table, stack, actions in force, last fault (R181). -/
def execReadFaults (n : Byte) (s : State) : Host.Outcome State Fault Refusal :=
  command (request n 0x32 takeReadFaults) s

/-- RESUME: the CLEARED top frame is popped (R174). -/
def execResume (n : Byte) (depth : Nat) (s : State) : Host.Outcome State Fault Refusal :=
  command (request n 0x33 (takeResume depth)) s

/-- ABANDON: the top frame is popped whatever its condition (R175). -/
def execAbandon (n : Byte) (depth : Nat) (s : State) : Host.Outcome State Fault Refusal :=
  command (request n 0x34 (takeAbandon depth)) s

/-- LOCKDOWN: entered from OPERATING with cause HOST (R179). -/
def execLockdown (n : Byte) (s : State) : Host.Outcome State Fault Refusal :=
  command (request n 0x35 takeLockdown) s

/-- RELEASE: LOCKDOWN to OPERATING with an empty stack (R179). -/
def execRelease (n : Byte) (s : State) : Host.Outcome State Fault Refusal :=
  command (request n 0x36 takeRelease) s

end Sys2Proof.Machine
end

