-- ==== Sys2Proof/Machine/Events.lean ====
section
/-! DEFINITION. The meanings of the 37 event rows: line events, resets, the Field Link, meters, readings, timers
and inputs. -/

namespace Sys2Proof.Machine

/-- SUPERVISORY_FRAME_ACCEPTED: the bytes of a frame go through the receiver (log 35); a frame whose CHECK
matches is taken into the buffer, or discarded at a full one (R193, R194). -/
def execSupervisoryFrameAccepted (bytes : List Byte) (s : State) : Host.Outcome State Fault Refusal :=
  command (receive bytes) s

/-- RECEIVE_GAP_TIMEOUT: the frame being collected is discarded (R193). -/
def execReceiveGapTimeout (s : State) : Host.Outcome State Fault Refusal :=
  partCommand (fun _ p => dropCollected p) s

/-- TRANSMIT_COMPLETE: the frame ends, its place is free, and the next frame begins; at the end of the OK of a RESTART
its steps are made (R190, R196). -/
def execTransmitComplete (s : State) : Host.Outcome State Fault Refusal :=
  command transmitEnds s

/-- RESET_ASSERT: both links silent, every output at rest (R183). -/
def execResetAssert (s : State) : Host.Outcome State Fault Refusal :=
  lineCommand assertReset s

/-- COLD_RESET: every block takes its cold-reset values and the self-test begins (R183). -/
def execColdReset (s : State) : Host.Outcome State Fault Refusal :=
  lineCommand coldReset s

/-- SELF_TEST_END: the result is recorded, the mode entered, START queued (R184). -/
def execSelfTestEnd (failed : SelfTest) (inputs : Vector Bool 24) (cellFaults : Vector Bool 4) (s : State) :
    Host.Outcome State Fault Refusal :=
  partCommand (selfTestEnds failed inputs cellFaults) s

/-- RESTART_LINE: the line becomes active and restarts the part once (R190). -/
def execRestartLine (s : State) : Host.Outcome State Fault Refusal :=
  lineCommand restartLineActive s

/-- FIELD_TURN: the next enabled unit has its turn (R79). -/
def execFieldTurn (s : State) : Host.Outcome State Fault Refusal :=
  partCommand (fun _ p => giveTurn p) s

/-- FIELD_REPLY_TIMEOUT: a miss at the open turn (R80, R83, R97). -/
def execFieldReplyTimeout (s : State) : Host.Outcome State Fault Refusal :=
  partCommand replyTimeout s

/-- FIELD_ANSWER_INVALID: an answer that R200 does not call valid is a miss (log 35) (R80, R200). -/
def execFieldAnswerInvalid (bytes : List Byte) (s : State) : Host.Outcome State Fault Refusal :=
  command (answerOfBytes bytes) s

/-- UNIT_IDLE: a valid IDLE at the open turn (R81, R82). -/
def execUnitIdle (s : State) : Host.Outcome State Fault Refusal :=
  command (fieldAnswer .idle) s

/-- UNIT_OFFER: an OFFER recorded, routed and decided (R82). -/
def execUnitOffer (offer : Offer) (s : State) : Host.Outcome State Fault Refusal :=
  command (fieldAnswer (.offer offer)) s

/-- UNIT_DONE: the unit's slug booked, or a late report (R92, R93). -/
def execUnitDone (tag : RawTag) (litres : Nat) (mass : Option Nat) (s : State) :
    Host.Outcome State Fault Refusal :=
  command (fieldAnswer (.done tag litres mass)) s

/-- TRANSFER_TIMEOUT: the slug is booked by level difference, SLUG TIMEOUT raised, STOP set (R96). -/
def execTransferTimeout (mv : Nat) (s : State) : Host.Outcome State Fault Refusal :=
  command (Sys2Proof.Machine.transferTimeout mv) s

/-- TRAVEL_ELAPSED: an internal movement takes RUNNING, a SLUG READY with GO pending (R23, R89). -/
def execTravelElapsed (mv : Nat) (s : State) : Host.Outcome State Fault Refusal :=
  partCommand (fun _ p => Sys2Proof.Machine.travelElapsed mv p) s

/-- METER_QUANTUM: up to 10 L booked for the movement on the meter, or counted stray (R25 to R27). -/
def execMeterQuantum (meter : Meter) (s : State) : Host.Outcome State Fault Refusal :=
  command (Sys2Proof.Machine.meterQuantum meter) s

/-- REUSE_DRAW_QUANTUM: a draw booked out of REUSE, or stray (R108). -/
def execReuseDrawQuantum (s : State) : Host.Outcome State Fault Refusal :=
  command drawQuantum s

/-- STALL_TIMEOUT: a RUNNING internal movement stops, FLOW STALL is raised, the movement ends (R28). -/
def execStallTimeout (mv : Nat) (s : State) : Host.Outcome State Fault Refusal :=
  partCommand (fun b p => Sys2Proof.Machine.stallTimeout b mv p) s

/-- LEVEL_READING: the last reading, and the cross-check (R10, R11). -/
def execLevelReading (v : VesselId) (reading : Option Nat) (s : State) : Host.Outcome State Fault Refusal :=
  partCommand (fun b p => Sys2Proof.Machine.levelReading b v reading p) s

/-- FILL_AGE_EXPIRY: a FILLING lot becomes due to seal (R42). -/
def execFillAgeExpiry (lot : Nat) (s : State) : Host.Outcome State Fault Refusal :=
  partCommand (fun b p => fillAgeExpires b lot p) s

/-- SETTLE_EXPIRY: SETTLING to SAMPLING (R44). -/
def execSettleExpiry (lot : Nat) (s : State) : Host.Outcome State Fault Refusal :=
  partCommand (fun _ p => settleExpires lot p) s

/-- SAMPLE_END: the sample booked, SAMPLE READY, AWAITING VERDICT (R45). -/
def execSampleEnd (lot : Nat) (s : State) : Host.Outcome State Fault Refusal :=
  command (sampleEnds lot) s

/-- VERDICT_EXPIRY: the lot is sampled again, or rejected (R46). -/
def execVerdictExpiry (lot : Nat) (s : State) : Host.Outcome State Fault Refusal :=
  partCommand (fun b p => verdictExpires b lot p) s

/-- AGING_EXPIRY: the scan of the LEARNED entries (R72). -/
def execAgingExpiry (s : State) : Host.Outcome State Fault Refusal :=
  partCommand (fun _ p => agingExpires p) s

/-- CELL_PROBE_READING: recorded, and plating booked (R123, R124). -/
def execCellProbeReading (c : CellId) (reading : Option Nat) (s : State) : Host.Outcome State Fault Refusal :=
  command (probeReading c reading) s

/-- RUN_LIMIT_EXPIRY: PLATING to DRAINING with INCOMPLETE RUN (R124). -/
def execRunLimitExpiry (c : CellId) (s : State) : Host.Outcome State Fault Refusal :=
  partCommand (fun b p => runLimitExpires b c p) s

/-- CELL_FAULT_INPUT: CELL FAULT raised, or its frame reported (R129). -/
def execCellFaultInput (c : CellId) (active : Bool) (s : State) : Host.Outcome State Fault Refusal :=
  lineCommand (fun q => { q with part := cellFaultChanges q.books c active q.part }) s

/-- CLOCK_TICK: one second (R133, R135, R139). -/
def execClockTick (s : State) : Host.Outcome State Fault Refusal :=
  partCommand tick s

/-- OUTFALL_SILVER_READING: the reading, its persistence, its frames (R149, R150). -/
def execOutfallSilverReading (reading : Option Nat) (s : State) : Host.Outcome State Fault Refusal :=
  partCommand (fun b p => silverReading b reading p) s

/-- OUTFALL_PH_READING: the reading, its persistence, its frames (R149, R151). -/
def execOutfallPhReading (reading : Option Nat) (s : State) : Host.Outcome State Fault Refusal :=
  partCommand (fun b p => phReading b reading p) s

/-- PROBE_SILENCE_TIMEOUT: a probe failure (R149). -/
def execProbeSilenceTimeout (probe : Probe) (s : State) : Host.Outcome State Fault Refusal :=
  partCommand (fun b p => probeSilent b probe p) s

/-- EXCURSION_EXPIRY: OUTFALL EXCURSION raised (R150). -/
def execExcursionExpiry (s : State) : Host.Outcome State Fault Refusal :=
  partCommand excursionExpires s

/-- PH_PERSISTENCE_EXPIRY: OUTFALL PH raised (R151). -/
def execPhPersistenceExpiry (s : State) : Host.Outcome State Fault Refusal :=
  partCommand phExpires s

/-- INPUT_CHANGE: the recorded state, and every enabled pattern evaluated (R153, R157). -/
def execInputChange (i : InputId) (high : Bool) (s : State) : Host.Outcome State Fault Refusal :=
  lineCommand (fun q => { q with part := inputChanges q.books i high q.part }) s

/-- AUTO_HOLD_EXPIRY: a frame whose hold has passed pops if it is top (R178). -/
def execAutoHoldExpiry (depth : Nat) (s : State) : Host.Outcome State Fault Refusal :=
  partCommand (fun b p => autoHoldExpires b depth p) s

/-- SUPERVISORY_FRAME_DISCARDED: the bytes go through the receiver (log 35), which discards a frame of wrong
LENGTH or CHECK and hunts again from the byte after its SYNC (R193). -/
def execSupervisoryFrameDiscarded (bytes : List Byte) (s : State) : Host.Outcome State Fault Refusal :=
  command (receive bytes) s

/-- RESTART_LINE_INACTIVE: the line is re-armed (R190). -/
def execRestartLineInactive (s : State) : Host.Outcome State Fault Refusal :=
  lineCommand Sys2Proof.Machine.restartLineInactive s

end Sys2Proof.Machine
end

