-- ==== Sys2Proof/Machine/Dispatch.lean ====
section
/-! DEFINITION. One arm for each row of spec/opcode_table.json. -/

namespace Sys2Proof.Machine

def exec (i : Instr) (s : State) : Host.Outcome State Fault Refusal :=
  match i with
  | .identify n => Sys2Proof.Machine.execIdentify n s
  | .status n => Sys2Proof.Machine.execStatus n s
  | .restart n => Sys2Proof.Machine.execRestart n s
  | .enterOperating n => Sys2Proof.Machine.execEnterOperating n s
  | .enterCommissioning n => Sys2Proof.Machine.execEnterCommissioning n s
  | .manualOutput n items => Sys2Proof.Machine.execManualOutput n items s
  | .readInputs n => Sys2Proof.Machine.execReadInputs n s
  | .setVessel n v items => Sys2Proof.Machine.execSetVessel n v items s
  | .readVessel n v => Sys2Proof.Machine.execReadVessel n v s
  | .adoptLevel n v => Sys2Proof.Machine.execAdoptLevel n v s
  | .readAccounts n => Sys2Proof.Machine.execReadAccounts n s
  | .readMovements n clear => Sys2Proof.Machine.execReadMovements n clear s
  | .setMovementTimes n items => Sys2Proof.Machine.execSetMovementTimes n items s
  | .sealLot n lot => Sys2Proof.Machine.execSealLot n lot s
  | .holdLot n lot => Sys2Proof.Machine.execHoldLot n lot s
  | .releaseLot n lot => Sys2Proof.Machine.execReleaseLot n lot s
  | .rejectLot n lot => Sys2Proof.Machine.execRejectLot n lot s
  | .verdict n items => Sys2Proof.Machine.execVerdict n items s
  | .readLot n number byVessel => Sys2Proof.Machine.execReadLot n number byVessel s
  | .readClosedLots n => Sys2Proof.Machine.execReadClosedLots n s
  | .setLotTimes n items => Sys2Proof.Machine.execSetLotTimes n items s
  | .setSource n tag items => Sys2Proof.Machine.execSetSource n tag items s
  | .removeSource n tag => Sys2Proof.Machine.execRemoveSource n tag s
  | .readSourceFirst n => Sys2Proof.Machine.execReadSourceFirst n s
  | .readSourceNext n => Sys2Proof.Machine.execReadSourceNext n s
  | .setAging n period policy => Sys2Proof.Machine.execSetAging n period policy s
  | .setUnit n address enabled learning => Sys2Proof.Machine.execSetUnit n address enabled learning s
  | .readUnit n address clear => Sys2Proof.Machine.execReadUnit n address clear s
  | .setRouting n items => Sys2Proof.Machine.execSetRouting n items s
  | .setRegulation n items => Sys2Proof.Machine.execSetRegulation n items s
  | .regulationOn n => Sys2Proof.Machine.execRegulationOn n s
  | .regulationOff n => Sys2Proof.Machine.execRegulationOff n s
  | .setCell n c items => Sys2Proof.Machine.execSetCell n c items s
  | .cellOn n c => Sys2Proof.Machine.execCellOn n c s
  | .cellOff n c => Sys2Proof.Machine.execCellOff n c s
  | .harvest n c => Sys2Proof.Machine.execHarvest n c s
  | .harvestDone n c weighed => Sys2Proof.Machine.execHarvestDone n c weighed s
  | .readCell n c => Sys2Proof.Machine.execReadCell n c s
  | .setWindows n w1 w2 => Sys2Proof.Machine.execSetWindows n w1 w2 s
  | .setLimits n items => Sys2Proof.Machine.execSetLimits n items s
  | .setClock n time => Sys2Proof.Machine.execSetClock n time s
  | .readGate n => Sys2Proof.Machine.execReadGate n s
  | .setPattern n p items => Sys2Proof.Machine.execSetPattern n p items s
  | .patternOn n p => Sys2Proof.Machine.execPatternOn n p s
  | .patternOff n p => Sys2Proof.Machine.execPatternOff n p s
  | .alarmTake n p => Sys2Proof.Machine.execAlarmTake n p s
  | .alarmClear n p => Sys2Proof.Machine.execAlarmClear n p s
  | .readPattern n p => Sys2Proof.Machine.execReadPattern n p s
  | .setFaultResponse n code items => Sys2Proof.Machine.execSetFaultResponse n code items s
  | .readFaults n => Sys2Proof.Machine.execReadFaults n s
  | .resume n depth => Sys2Proof.Machine.execResume n depth s
  | .abandon n depth => Sys2Proof.Machine.execAbandon n depth s
  | .lockdown n => Sys2Proof.Machine.execLockdown n s
  | .release n => Sys2Proof.Machine.execRelease n s
  | .supervisoryFrameAccepted bytes => Sys2Proof.Machine.execSupervisoryFrameAccepted bytes s
  | .receiveGapTimeout => Sys2Proof.Machine.execReceiveGapTimeout s
  | .transmitComplete => Sys2Proof.Machine.execTransmitComplete s
  | .resetAssert => Sys2Proof.Machine.execResetAssert s
  | .coldReset => Sys2Proof.Machine.execColdReset s
  | .selfTestEnd failed inputs cellFaults => Sys2Proof.Machine.execSelfTestEnd failed inputs cellFaults s
  | .restartLine => Sys2Proof.Machine.execRestartLine s
  | .fieldTurn => Sys2Proof.Machine.execFieldTurn s
  | .fieldReplyTimeout => Sys2Proof.Machine.execFieldReplyTimeout s
  | .fieldAnswerInvalid bytes => Sys2Proof.Machine.execFieldAnswerInvalid bytes s
  | .unitIdle => Sys2Proof.Machine.execUnitIdle s
  | .unitOffer offer => Sys2Proof.Machine.execUnitOffer offer s
  | .unitDone tag litres mass => Sys2Proof.Machine.execUnitDone tag litres mass s
  | .transferTimeout mv => Sys2Proof.Machine.execTransferTimeout mv s
  | .travelElapsed mv => Sys2Proof.Machine.execTravelElapsed mv s
  | .meterQuantum meter => Sys2Proof.Machine.execMeterQuantum meter s
  | .reuseDrawQuantum => Sys2Proof.Machine.execReuseDrawQuantum s
  | .stallTimeout mv => Sys2Proof.Machine.execStallTimeout mv s
  | .levelReading v reading => Sys2Proof.Machine.execLevelReading v reading s
  | .fillAgeExpiry lot => Sys2Proof.Machine.execFillAgeExpiry lot s
  | .settleExpiry lot => Sys2Proof.Machine.execSettleExpiry lot s
  | .sampleEnd lot => Sys2Proof.Machine.execSampleEnd lot s
  | .verdictExpiry lot => Sys2Proof.Machine.execVerdictExpiry lot s
  | .agingExpiry => Sys2Proof.Machine.execAgingExpiry s
  | .cellProbeReading c reading => Sys2Proof.Machine.execCellProbeReading c reading s
  | .runLimitExpiry c => Sys2Proof.Machine.execRunLimitExpiry c s
  | .cellFaultInput c active => Sys2Proof.Machine.execCellFaultInput c active s
  | .clockTick => Sys2Proof.Machine.execClockTick s
  | .outfallSilverReading reading => Sys2Proof.Machine.execOutfallSilverReading reading s
  | .outfallPhReading reading => Sys2Proof.Machine.execOutfallPhReading reading s
  | .probeSilenceTimeout probe => Sys2Proof.Machine.execProbeSilenceTimeout probe s
  | .excursionExpiry => Sys2Proof.Machine.execExcursionExpiry s
  | .phPersistenceExpiry => Sys2Proof.Machine.execPhPersistenceExpiry s
  | .inputChange input high => Sys2Proof.Machine.execInputChange input high s
  | .autoHoldExpiry depth => Sys2Proof.Machine.execAutoHoldExpiry depth s
  | .supervisoryFrameDiscarded bytes => Sys2Proof.Machine.execSupervisoryFrameDiscarded bytes s
  | .restartLineInactive => Sys2Proof.Machine.execRestartLineInactive s

end Sys2Proof.Machine
end

