-- ==== Sys2Proof/Safety.lean ====
section
/-! DEFINITION. What must hold of every state: the conservation laws of R16 and the bounds of the tables. -/

namespace Sys2Proof.Machine

/-! ## The conservation laws (R16) -/

/-- Booked mass over every holder (R16). -/
def Books.holderMass (b : Books) : Nat := b.vesselMass + b.liquorMass + b.cathodeMass

/-- The volume law of R16: admitted, makeup and corrections against the booked volume and what went out. -/
abbrev Books.volumeLaw (b : Books) : Prop :=
  (b.acc.admittedVolume : Int) + b.acc.makeupVolume + b.acc.volumeCorrections =
    (b.holderVolume : Int) + b.acc.dischargedVolume + b.acc.reusedVolume + b.acc.sampledVolume

/-- The mass law of R16. -/
abbrev Books.massLaw (b : Books) : Prop :=
  (b.acc.admittedMass : Int) + b.acc.massCorrections =
    (b.holderMass : Int) + b.acc.dischargedMass + b.acc.reusedMass + b.acc.sampledMass + b.acc.harvestedMass

/-- Both laws. -/
abbrev Books.balanced (b : Books) : Prop := b.volumeLaw ∧ b.massLaw

/-- A holder whose booked volume is 0 has booked mass 0 (R6). -/
abbrev Books.emptyHoldersClean (b : Books) : Prop :=
  (∀ v, (b.vessel v).volume = 0 → (b.vessel v).mass = 0) ∧
  (∀ c, (b.liquor c).volume = 0 → (b.liquor c).mass = 0)

/-- The Source Table is in tag order, so no two entries have the same tag (R61, R62). -/
abbrev SourceTable.inTagOrder (t : SourceTable) : Prop :=
  t.entries.Pairwise (fun x y => tagKey x.tag < tagKey y.tag)

/-! ## The bounds of the tables (00_scope.md 1.5) -/

/-- The request buffer and the Notice Queue hold no more than their places (R194, R197). -/
abbrev Link.bounded (l : Link) : Prop := l.placesHeld ≤ 4 ∧ l.queue.length ≤ 32

/-- The Fault Stack holds no more than six frames (R167). -/
abbrev FaultUnit.bounded (f : FaultUnit) : Prop := f.stack.length ≤ 6

/-- The Movement Table holds no more than 12 entries (2.1). -/
abbrev MovementUnit.bounded (m : MovementUnit) : Prop := m.entries.length ≤ 12

/-- The Source Table holds no more than 64 entries (R61). -/
abbrev SourceTable.bounded (t : SourceTable) : Prop := t.entries.length ≤ 64

/-- The Closed Lot List holds no more than 16 records (R53). -/
abbrev LotUnit.bounded (u : LotUnit) : Prop := u.closed.length ≤ 16

/-- Every table within its bound. -/
abbrev Part.bounded (p : Part) : Prop :=
  p.link.bounded ∧ p.flt.bounded ∧ p.mov.bounded ∧ p.src.bounded ∧ p.lot.bounded

/-! ## What the consequences of an event leave alone

An event is taken whole: what it changes itself is followed by the consequences that the rules give it (movements
start and end, cells and lots move on, frames are pushed, notices are queued). `standing` is the part with
everything that a consequence may change put at a fixed value: two parts with the same `standing` differ in
consequences alone. -/

/-- A vessel record less its regulation block. -/
def VesselRec.standing (r : VesselRec) : VesselRec := { r with regBlock := false }

/-- A unit record less its slug in flight and its pending outbound. -/
def UnitRec.standing (r : UnitRec) : UnitRec := { r with slug := none, outbound := none }

/-- A cell's configuration and fault input. -/
def CellRec.standing (r : CellRec) : CellRec :=
  { r with state := .offline, lastProbe := none, rectifier := false, paused := false, runTimer := none
           harvestRequired := false, step := .idle }

/-- What no consequence changes: settings, readings, clock, totals, the Source Table, the recorded inputs, the
Fault Table, Mode Control but for the mode, and the supervisory line but for the Notice Queue. -/
def Part.standing (p : Part) : Part :=
  { p with
    vessels := p.vessels.map VesselRec.standing
    mov := { p.mov with entries := [], nextNumber := 1, waiting := [] }
    lot := { p.lot with lots := [], closed := [], nextLot := 1, nextClearance := 1, nextRejection := 1 }
    fld := { p.fld with units := p.fld.units.map UnitRec.standing }
    reg := { p.reg with supplyOpen := false, spill := .idle, fill := .idle, ret := .idle, returnSource := none }
    cel := { cells := p.cel.cells.map CellRec.standing }
    gate := { p.gate with state := .shut, queue := [], outcome := none, silverTimer := none, phTimer := none }
    pat := { p.pat with patterns := p.pat.patterns.map PatternRec.arm }
    flt := { p.flt with stack := [], last := none }
    ctl := { p.ctl with mode := .starting }
    link := { p.link with queue := [], lost := false } }

/-- A frame with what a condition report, a binding or the running hold may change in it put at a fixed value: what it
took at its push (R166, R167). -/
def Frame.fixed (f : Frame) : Frame :=
  { f with lot := none, condition := .present, clearedTime := none, holdLeft := none }

/-! ## The state after a command -/

/-- The part at the start of a command: the record of what the last step sent is forgotten. -/
def State.begun (s : State) : Part := clearSent s.part

/-- The state after a command that left the books `b` and the part `p`: the transmitter has been examined. -/
def State.after (s : State) (b : Books) (p : Part) : State := { s with books := b, part := pump p }

/-- The reply of a request joins the request buffer (R194). -/
def Part.reply (n kind : Byte) (r : Reply) (p : Part) : Part :=
  { p with link := { p.link with buffer := p.link.buffer ++ [⟨n, kind, r⟩] } }

/-- The state after a request that booked nothing: its part with the reply in the buffer. -/
def State.answered (s : State) (n kind : Byte) (r : Reply) (p : Part) : State :=
  s.after s.books (p.reply n kind r)

/-- The state of a request that was refused, or answered, and changed nothing else. -/
def State.told (s : State) (n kind : Byte) (r : Reply) : State := s.answered n kind r s.begun

/-- The state after a command that changed nothing but what the transmitter begins to send. -/
def State.idled (s : State) : State := s.after s.books s.begun

/-- The RESET line is not held, so that commands are taken (R183). -/
abbrev State.live (s : State) : Prop := s.part.ctl.resetHeld = false

/-- A request finds a place in the buffer, and no RESTART before it waits for the end of its OK (R194). -/
abbrev State.hasPlace (s : State) : Prop :=
  s.live ∧ s.part.link.restarting = false ∧ s.part.link.placesHeld < 4

/-- The mode is COMMISSIONING, OPERATING or LOCKDOWN. -/
abbrev State.inService (s : State) : Prop := s.part.ctl.mode.inService = true

/-- Lines are read and timers run: RESET is not held and the mode is in service. -/
abbrev State.working (s : State) : Prop := s.live ∧ s.inService

/-- A request finds a place in a mode in which most requests are taken. -/
abbrev State.serves (s : State) : Prop := s.hasPlace ∧ s.inService

/-- The commands that act while the RESET line is held: the lines themselves (R153, R183). -/
def actsWhileHeld (c : Instr) : Bool :=
  match c with
  | .resetAssert | .coldReset | .restartLine | .restartLineInactive | .cellFaultInput _ _ | .inputChange _ _ => true
  | _ => false

/-- A port that is a sump unit (2.2). -/
def Port.isSump : Port → Bool
  | .sumpUnit _ => true
  | .vesselInlet _ | .vesselOutlet _ | .cellInlet _ | .cellOutlet _ | .makeupEntry | .outfall | .mains => false

/-- No two entries of the Movement Table have the same number (R18). -/
abbrev MovementUnit.distinct (m : MovementUnit) : Prop := (m.entries.map Movement.number).Nodup

/-- Every SLUG of the Movement Table comes from a sump unit (2.2). -/
abbrev MovementUnit.slugsFromSumps (m : MovementUnit) : Prop :=
  ∀ x ∈ m.entries, x.kind = .slug → x.source.isSump = true

/-- Two movements take no port in common; MAKEUP is no port (R20, 2.2). -/
abbrev Movement.apart (x y : Movement) : Prop :=
  ∀ port ∈ [x.source, x.dest], port ≠ .mains → y.source ≠ port ∧ y.dest ≠ port

/-- Each port is part of at most one movement of the table (R20). -/
abbrev MovementUnit.portsApart (m : MovementUnit) : Prop := m.entries.Pairwise Movement.apart

/-- The requests that STARTING and FAILED refuse: all but IDENTIFY, STATUS and RESTART. -/
def takenInService (r : Request) : Bool :=
  match r with
  | .identify | .status | .restart => false
  | _ => true

end Sys2Proof.Machine
end

