-- ==== Sys2Proof/Certificates/Slice0/Obligations.lean ====
section
/-! DEFINITION. The statements for the provers.

A statement about a command says what `exec` ANSWERS, for every state and operands under hypotheses on them alone.
`s.begun` is the part at the start of the command, `s.after b p` the state after a command that left books `b` and
part `p`, `s.answered n k r p` the same for a request numbered `n` of KIND `k` that booked nothing and replied `r`,
`s.told n k r` a request that changed nothing but its reply, `s.idled` a command that changed nothing
(Sys2Proof/Safety.lean). Where consequences follow, the frame is stated through `Part.standing`: everything that no
consequence touches is as the statement gives it. -/

open Sys2Proof Sys2Proof.Machine

/-! ## The machine -/

/-- A step takes the command at the front of the queue and runs it on the queue's rest; with no command waiting the
block idles (the model's choice, log 6). -/
def Obligations.StepRunsTheFrontCommand : Prop :=
  (∀ (c : Instr) (rest : List Instr) (s : State),
    step { s with pending := c :: rest } = exec c { s with pending := rest }) ∧
  (∀ s : State, s.pending = [] → step s = .next s)

/-- Every command answers a next state, whatever the state and the operands, and leaves the queue alone. -/
def Obligations.EveryCommandCompletes : Prop :=
  ∀ (c : Instr) (s : State), ∃ t, exec c s = .next t ∧ t.pending = s.pending

/-! ## Invariants -/

/-- The two laws of R16: every kind of booking keeps both, by the figures it changes on the two sides; every step,
a warm restart among them, keeps both; and at cold reset both hold. -/
def Obligations.ConservationLawsAreKept : Prop :=
  (∀ (k : Booking) (b : Books), b.balanced → (b.book k).balanced) ∧
  (∀ s t : State, s.books.balanced → step s = .next t → t.books.balanced) ∧
  Books.reset.balanced ∧
  (∀ (b : Books) (v : VesselId) (x m : Nat),
    (b.book (.admission v x m)).vessel v = ⟨(b.vessel v).volume + x, (b.vessel v).mass + m⟩ ∧
    (b.book (.admission v x m)).acc = { b.acc with
      admittedVolume := b.acc.admittedVolume + x, admittedMass := b.acc.admittedMass + m } ∧
    (b.book (.makeup v x)).vessel v = ⟨(b.vessel v).volume + x, (b.vessel v).mass⟩ ∧
    (b.book (.makeup v x)).acc = { b.acc with makeupVolume := b.acc.makeupVolume + x } ∧
    (b.book (.massCorrection v x)).vessel v = ⟨(b.vessel v).volume, x * (b.vessel v).volume⟩ ∧
    (b.book (.massCorrection v x)).acc = { b.acc with massCorrections :=
      b.acc.massCorrections + ((x * (b.vessel v).volume : Nat) - (b.vessel v).mass : Int) }) ∧
  (∀ (b : Books) (c : CellId) (x : Nat), let moved := (b.liquor c).mass - x * (b.liquor c).volume
    (b.book (.plating c x)).liquor c = ⟨(b.liquor c).volume, (b.liquor c).mass - moved⟩ ∧
    (b.book (.plating c x)).cathode c = b.cathode c + moved ∧ (b.book (.plating c x)).acc = b.acc ∧
    (b.book (.harvest c x)).cathode c = 0 ∧
    (b.book (.harvest c x)).acc = { b.acc with
      harvestedMass := b.acc.harvestedMass + x
      massCorrections := b.acc.massCorrections + ((x : Int) - b.cathode c) })

/-- A holder whose booked volume is 0 has booked mass 0: every step keeps it (R6). -/
def Obligations.EmptyHoldersBookNoMass : Prop :=
  ∀ s t : State, s.books.emptyHoldersClean → step s = .next t → t.books.emptyHoldersClean

/-- No table outgrows its places: 4 request places, 32 notices, 6 frames, 12 movements, 64 sources, 16 closed
lots. While the tables keep to them no two movements have the same number. Every SLUG comes from a sump unit, each port is
part of at most one movement (R20), and the Source Table stays in tag order. Between commands no action of a popped frame stays in force and no movement is about to
end (the model's own fields, logs 60 and 74). -/
def Obligations.TablesStayInForm : Prop :=
  ((∀ s t : State, s.part.bounded → step s = .next t → t.part.bounded) ∧
  (∀ s t : State, s.part.bounded → s.part.mov.distinct → step s = .next t → t.part.mov.distinct) ∧
  (∀ s t : State, s.part.mov.slugsFromSumps → step s = .next t → t.part.mov.slugsFromSumps) ∧
  (∀ s t : State, s.part.mov.portsApart → step s = .next t → t.part.mov.portsApart)) ∧
  (∀ s t : State, s.part.src.inTagOrder → step s = .next t → t.part.src.inTagOrder) ∧
  (∀ s t : State, s.part.flt.leaving = {} → step s = .next t → t.part.flt.leaving = {}) ∧
  (∀ s t : State, s.part.mov.ending = none → step s = .next t → t.part.mov.ending = none)

/-- The invariants hold at reset. -/
def Obligations.InvariantsHoldAtReset : Prop :=
  State.reset.books.balanced ∧ State.reset.books.emptyHoldersClean ∧ State.reset.part.bounded ∧
  State.reset.part.mov.distinct ∧ State.reset.part.mov.slugsFromSumps ∧ State.reset.part.mov.portsApart ∧
  State.reset.part.src.inTagOrder ∧
  State.reset.part.flt.leaving = {} ∧ State.reset.part.mov.ending = none ∧ State.reset.pending = []

/-- Values that the spec states for cold reset, block by block (R1, R15, R18, R34, R35, R60, R61, R77, R98, R100,
R115, R133, R135, R137, R139, R154, R165, R167, R180, R182, R183). -/
def Obligations.ResetLeavesTheStatedValues : Prop :=
  (∀ v, vesselRec State.reset.part v = ⟨.unused, none, .disabled, false, 200, 8, none, none, false, 0⟩) ∧
  State.reset.books.acc = ⟨0, 0, 0, 0, 0, 0, 0, 0, 0, 0, 0, 0⟩ ∧
  (∀ v, State.reset.books.vessel v = ⟨0, 0⟩) ∧
  (∀ c, State.reset.books.liquor c = ⟨0, 0⟩ ∧ State.reset.books.cathode c = 0) ∧
  State.reset.part.mov = ⟨[], 1, [], ⟨Vector.replicate 4 0, 0, 0, 0⟩, 120, 5, 12, none⟩ ∧
  State.reset.part.lot = ⟨[], [], 1, 1, 1, ⟨14400, 900, 30, 2, 14400⟩⟩ ∧
  State.reset.part.src = ⟨[], 30, .route, 1800, none, false⟩ ∧
  (∀ u, unitRec State.reset.part u = ⟨false, true, .unknown, 0, none, none, 0, none, none⟩) ∧
  State.reset.part.fld.settings = ⟨40, 800, 5, 900⟩ ∧
  State.reset.part.reg = ⟨⟨6, 2, 0, 0, 6, 2⟩, false, false, .idle, .idle, .idle, none⟩ ∧
  (∀ c, { cellRec State.reset.part c with faultInput := false } =
    ⟨none, 20, none, none, .holdThenQuarantine, .offline, none, false, false, none, false, .idle, false⟩) ∧
  State.reset.part.gate.clock = none ∧ State.reset.part.gate.w1 = ⟨0, 0⟩ ∧ State.reset.part.gate.w2 = ⟨0, 0⟩ ∧
  State.reset.part.gate.limits = ⟨none, none, none, none, 0, false, 15, 0⟩ ∧
  State.reset.part.gate.todayVolume = 0 ∧ State.reset.part.gate.todayMass = 0 ∧
  State.reset.part.gate.state = .shut ∧ State.reset.part.gate.queue = [] ∧ State.reset.part.gate.outcome = none ∧
  State.reset.part.gate.silver = none ∧ State.reset.part.gate.ph = none ∧
  (∀ k, patternRec State.reset.part k =
    ⟨Vector.replicate 24 .ignore, .andMode, false, false, .armed, false, none, none, none⟩) ∧
  (∀ r : Fin 16, State.reset.part.flt.table.get r = ⟨⟨false, false, false, false, false, false, false⟩, .manual,
    60, false⟩) ∧
  State.reset.part.flt.stack = [] ∧ State.reset.part.flt.last = none ∧
  State.reset.part.ctl.mode = .starting ∧ State.reset.part.ctl.lastStart = .cold ∧
  State.reset.part.link.buffer = [] ∧ State.reset.part.link.queue = [] ∧ State.reset.part.link.rx = [] ∧
  State.reset.part.link.lost = false

/-! ## Bookings (chapter 1) -/

/-- The proportional mass rule: what leaves a holder, and that each kind of booking that takes volume out of a
holder adds the same litres and milligrams at its other place (R7). -/
def Obligations.ProportionalMassRule : Prop :=
  (∀ (want : Nat) (h : Holding), let t := h.take want
    t.litres = min want h.volume ∧
    (0 < h.volume → t.mg = h.mass * t.litres / h.volume) ∧
    (0 < h.volume → t.litres = h.volume → t.mg = h.mass ∧ t.left.mass = 0) ∧
    (h.volume = 0 → t.litres = 0 ∧ t.mg = 0) ∧
    t.left = ⟨h.volume - t.litres, h.mass - t.mg⟩ ∧ t.mg ≤ h.mass) ∧
  (∀ (b : Books) (s d : VesselId) (w : Nat), s ≠ d → let t := (b.vessel s).take w
    ((b.book (.vesselToVessel s d w)).vessel s = t.left ∧
     (b.book (.vesselToVessel s d w)).vessel d = ⟨(b.vessel d).volume + t.litres, (b.vessel d).mass + t.mg⟩)) ∧
  (∀ (b : Books) (v : VesselId) (c : CellId) (w : Nat), let t := (b.vessel v).take w; let x := (b.liquor c).take w
    ((b.book (.vesselToCell v c w)).vessel v = t.left ∧
     (b.book (.vesselToCell v c w)).liquor c = ⟨(b.liquor c).volume + t.litres, (b.liquor c).mass + t.mg⟩ ∧
     (b.book (.cellToVessel c v w)).liquor c = x.left ∧
     (b.book (.cellToVessel c v w)).vessel v = ⟨(b.vessel v).volume + x.litres, (b.vessel v).mass + x.mg⟩)) ∧
  (∀ (b : Books) (v : VesselId) (w : Nat), let t := (b.vessel v).take w
    ((b.book (.discharge v w)).vessel v = t.left ∧ (b.book (.draw v w)).vessel v = t.left ∧
     (b.book (.sample v w)).vessel v = t.left ∧
     (b.book (.discharge v w)).acc = { b.acc with dischargedVolume := b.acc.dischargedVolume + t.litres,
                                                  dischargedMass := b.acc.dischargedMass + t.mg } ∧
     (b.book (.draw v w)).acc = { b.acc with reusedVolume := b.acc.reusedVolume + t.litres,
                                             reusedMass := b.acc.reusedMass + t.mg } ∧
     (b.book (.sample v w)).acc = { b.acc with sampledVolume := b.acc.sampledVolume + t.litres,
                                               sampledMass := b.acc.sampledMass + t.mg }))

/-! ## Resets, the lines and the modes (chapter 11) -/

/-- COLD_RESET gives every block its cold-reset values. What follows the plant lines stays as it stands: the
recorded inputs, the cell fault inputs, the RESTART line (logs 11, 13: and the numbering of the free read-back
values). -/
def Obligations.ColdResetRestoresEveryBlock : Prop :=
  ∀ s : State, exec .coldReset s = .next { s with
    books := Books.reset
    part := { Part.reset with
      pat := { Part.reset.pat with inputs := s.part.pat.inputs }
      cel := { cells := s.part.cel.cells.map (fun r => { faultInput := r.faultInput }) }
      ctl := { Part.reset.ctl with
        restartLine := s.part.ctl.restartLine, readBacks := s.part.ctl.readBacks } } }

/-- RESET_ASSERT silences both links and puts every output at rest; while the line is held no command but the lines
themselves is acted on (log 33). The RESTART line restarts once: while it is held active a second RESTART_LINE changes
nothing, and RESTART_LINE_INACTIVE re-arms it. In STARTING, and while RESET is held, it is recorded and not acted on. -/
def Obligations.ResetAndRestartLines : Prop :=
  ((∀ s : State, exec .resetAssert s = .next { s with part := { s.begun with
    ctl := { s.part.ctl with resetHeld := true }
    link := { s.begun.link with tx := none, rx := [] }
    fld := { s.begun.fld with turn := none } } }) ∧
  (∀ (p : Part) (o : OutputId), p.ctl.resetHeld = true ∨ p.ctl.mode.inService = false → commanded p o = false) ∧
  (∀ (c : Instr) (s : State), actsWhileHeld c = false → s.part.ctl.resetHeld = true →
    exec c s = .next { s with part := s.begun })) ∧
  (∀ s : State,
    (s.part.ctl.restartLine = true → exec .restartLine s = .next s.idled) ∧
    exec .restartLineInactive s =
      .next (s.after s.books { s.begun with ctl := { s.part.ctl with restartLine := false } }) ∧
    (s.part.ctl.restartLine = false → s.part.ctl.resetHeld = true ∨ s.part.ctl.mode = .starting →
      exec .restartLine s =
        .next (s.after s.books { s.begun with ctl := { s.part.ctl with restartLine := true } })))

/-- SELF_TEST_END in STARTING: the result and the lines are recorded, START is queued, and the mode is COMMISSIONING
for an empty result, FAILED otherwise; the arbiter is examined at the change of mode. At the entry to COMMISSIONING every
manual flag is clear, and each cell fault input found ACTIVE has its frame. That the command carries the states of the
lines and sets them is the model's choice (log 11). -/
def Obligations.SelfTestEndEntersItsMode : Prop :=
  ∀ (failed : SelfTest) (inputs : Vector Bool 24) (faults : Vector Bool 4) (s : State),
    s.live → s.part.ctl.mode = .starting →
    (failed ≠ {} → exec (.selfTestEnd failed inputs faults) s =
      .next (s.after s.books (arbiterOutcome .mode none (notify (.start s.part.ctl.lastStart failed .failed)
        (recordLines inputs faults
          { s.begun with ctl := { s.part.ctl with selfTest := failed, mode := .failed } }))))) ∧
    (failed = {} → (∀ c, faults.get c = false) → exec (.selfTestEnd failed inputs faults) s =
      .next (s.after s.books (clearManual (arbiterOutcome .mode none
        (notify (.start s.part.ctl.lastStart {} .commissioning) (recordLines inputs faults
          { s.begun with ctl := { s.part.ctl with selfTest := {}, mode := .commissioning } })))))) ∧
    (failed = {} → ∃ p, exec (.selfTestEnd failed inputs faults) s = .next (s.after s.books p) ∧
      p.ctl = { s.part.ctl with
        selfTest := {}, mode := .commissioning, manual := Vector.replicate 51 none } ∧
      p.pat.inputs = inputs ∧ (∀ c, (cellRec p c).faultInput = faults.get c) ∧
      p.standing = (clearManual (recordLines inputs faults
        { s.begun with ctl := { s.part.ctl with selfTest := {}, mode := .commissioning } })).standing ∧
      (s.part.flt.stack = [] → ∀ c, faults.get c = true → hasFrame .cellFault (.cell c) p = true))

/-- A RESTART in STARTING is refused. In FAILED, by request or by line, the self-test begins again: the buffer and
the Notice Queue are emptied with the requests that waited behind the RESTART, and the rest of the state is held. By
request, the OK is transmitted first, and the restart is made at the end of its frame (log 3). -/
def Obligations.RestartOutsideService : Prop :=
  ∀ (n : Byte) (s : State),
    (s.hasPlace → s.part.ctl.mode = .starting → exec (.restart n) s = .next (s.told n 0x03 { status := .wrongMode })) ∧
    (s.hasPlace → s.part.ctl.mode = .failed → exec (.restart n) s = .next (s.answered n 0x03 { status := .ok }
      { s.begun with link := { s.begun.link with restarting := true } })) ∧
    (∀ t x, s.live → s.part.ctl.mode = .failed → s.part.link.restarting = true → s.part.link.tx = some t →
      t.holdsPlace = true → s.part.link.buffer = [x] → exec .transmitComplete s = .next { s with
        part := { s.begun with
          ctl := { s.part.ctl with mode := .starting, lastStart := .warm }
          link := { s.begun.link with
            buffer := [], queue := [], lost := false, tx := none, restarting := false, behind := 0 } } }) ∧
    (s.live → s.part.ctl.restartLine = false → s.part.ctl.mode = .failed → exec .restartLine s = .next { s with
      part := { s.begun with
        ctl := { s.part.ctl with mode := .starting, lastStart := .warm, restartLine := true }
        link := { s.begun.link with
          buffer := [], queue := [], lost := false, restarting := false, behind := 0
          tx := s.part.link.tx.map (fun t => { t with holdsPlace := false }) } } })

/-- A warm restart. A RESTART finds its place, is answered OK, and waits for the end of that frame, the last of the
buffer, where its steps are made (log 3); the line makes them at once, from any mode in service. The steps: the link
emptied with START the first notice, COMMISSIONING with kind WARM and no manual flag; every movement ended, each SLUG
under way booked by the level difference of its destination (0 where it is negative or a reading is absent) at its
concentration estimate, every other figure and setting kept, and the waiting list emptied; the stack emptied; the
warm-restart values of the tables; and no frame but those of the patterns and cell fault inputs then found. A turn then
open is dropped (log 59), and MODE with cause RESTART follows START from OPERATING alone (log 36). -/
def Obligations.WarmRestart : Prop :=
  ((∀ (n : Byte) (s : State), s.hasPlace → s.part.ctl.mode ≠ .starting →
    exec (.restart n) s = .next (s.answered n 0x03 { status := .ok }
      { s.begun with link := { s.begun.link with restarting := true } })) ∧
  (∀ s : State, s.working →
    let restarted (p : Part) :=
      let cut := restartCuts ⟨s.books, restartBegins p⟩
      s.after cut.books (restartRaises cut.books (restartBlocks cut.books cut.part))
    (∀ t x, s.part.link.restarting = true → s.part.link.tx = some t → t.holdsPlace = true →
      s.part.link.buffer = [x] → exec .transmitComplete s = .next (restarted { s.begun with
        link := { s.begun.link with tx := none, buffer := [], restarting := false, behind := 0 } })) ∧
    (s.part.ctl.restartLine = false → exec .restartLine s =
      .next (restarted { s.begun with ctl := { s.part.ctl with restartLine := true } })))) ∧
  (∀ (b : Books) (p : Part), p.ctl.mode.inService = true →
    restartBegins p = { p with
      ctl := { p.ctl with mode := .commissioning, lastStart := .warm, manual := Vector.replicate 51 none }
      link := { p.link with
        buffer := [], lost := false, restarting := false, behind := 0
        tx := p.link.tx.map (fun t => { t with holdsPlace := false })
        queue := ⟨false, p.gate.clock, .start .warm p.ctl.selfTest .commissioning⟩ ::
          (if p.ctl.mode = .operating then
            [⟨false, p.gate.clock, .mode .operating .commissioning .restart⟩] else []) } } ∧
    ∃ later, (restartRaises b (restartBlocks b (restartCuts ⟨b, restartBegins p⟩).part)).link.queue =
      (restartBegins p).link.queue ++ later) ∧
  (∀ (b : Books) (p : Part), p.ctl.mode = .commissioning → p.mov.distinct → p.mov.slugsFromSumps →
    let admits (m : Movement) : Option (SlugParticulars × VesselId × Nat) :=
      match m.kind, m.phase, m.slug, m.dest with
      | .slug, .running, some x, .vesselInlet v | .slug, .stopping, some x, .vesselInlet v =>
        some (x, v, match (vesselRec p v).lastLevel, x.levelAtGo with
          | some now, some go => now - go
          | _, _ => 0)
      | _, _, _, _ => none
    let q := restartCuts ⟨b, p⟩
    q.part.ctl = p.ctl ∧ q.part.mov.entries = [] ∧ q.part.mov.waiting = [] ∧
    q.books = p.mov.entries.foldl (fun c m => match admits m with
      | some (x, v, litres) => c.book (.admission v litres (litres * x.conc))
      | none => c) b ∧
    q.part.standing = (p.mov.entries.foldl (fun r m => match admits m with
      | some (x, _, litres) => sourceBooked x.tag x.conc litres (litres * x.conc) r
      | none => r) p).standing) ∧
  (∀ (b : Books) (p : Part), p.ctl.mode = .commissioning →
    let q := restartBlocks b p
    q.ctl = p.ctl ∧ q.vessels = p.vessels ∧ q.mov = p.mov ∧ q.flt = { p.flt with stack := [] } ∧
    q.src = { p.src with cursor := none } ∧
    q.fld = { p.fld with
      lastTurn := none, turn := none
      units := p.fld.units.map (fun r => { r with
        presence := .unknown, missed := 0, slug := none, outbound := none, lastOffer := none, lastDecision := none }) } ∧
    q.reg = { p.reg with spill := .idle, fill := .idle, ret := .idle, returnSource := none } ∧
    q.cel = { p.cel with
      outcome := none, chosen := none
      cells := p.cel.cells.map (fun r => { r with
        rectifier := false, paused := decide (r.state = .plating)
        step := if r.state = .charging ∨ r.state = .draining then .waiting .mode else r.step }) } ∧
    q.gate = { p.gate with state := .shut, outcome := none } ∧
    q.pat = { p.pat with patterns := p.pat.patterns.map (fun r => { r with
      state := .armed, overrun := false, matched := none, matchTime := none, snapshot := none }) } ∧
    ((p.lot.lots.map Lot.number).Nodup → (∀ l ∈ p.lot.lots, l.state = .suspended → l.clearanceNo.isSome = true) →
      q.lot = { p.lot with lots := p.lot.lots.map (fun l => if l.state = .suspended then
        { l with state := .cleared, held := true, timer := none, bindingFrame := none } else l) })) ∧
  (∀ (b : Books) (p : Part), p.ctl.mode = .commissioning → p.mov.entries = [] → p.flt.stack = [] →
    let q := restartRaises b p
    q.ctl = p.ctl ∧ q.mov.entries = [] ∧ q.standing = p.standing ∧
    (∀ f ∈ q.flt.stack, (∃ k, f.ftype = .interlock k ∧ f.subject = .pattern k) ∨
      (∃ c, f.ftype = .cellFault ∧ f.subject = .cell c)) ∧
    (∀ c, (cellRec p c).faultInput = true → q.flt.stack.length < 6 →
      hasFrame .cellFault (.cell c) q = true) ∧
    ((∀ c, (cellRec p c).faultInput = false) →
      (∀ k, (patternRec p k).enabled = true → patternMet p.pat.inputs none (patternRec p k) = false) → q = p))

/-- ENTER OPERATING: refused outside COMMISSIONING but for OPERATING itself, refused with the missing items where a
prerequisite fails, and otherwise OPERATING with every manual flag clear. Nothing is missing exactly when the clock is
set, the role rules are met, every role vessel is adopted, every response is loaded, the limits are set, a unit is
enabled, and the stack is empty. After the notice MODE every block takes up its work: the REUSE evaluation and the
needs, the rectifiers, the DRAINING cells and the arbiter, the gate with a selection. ENTER COMMISSIONING: from
OPERATING the mode is COMMISSIONING with every manual flag clear and the notice MODE queued; after the general cut no
movement but SLUGs in STOPPING is left, a waiting CHARGING cell waits MODE, the PLATING cells pause, the gate is
recomputed, and the DRAINING cells and the arbiter find the mode. The order of the blocks in both is the model's (log
49). -/
def Obligations.OperatingAndCommissioning : Prop :=
  (∀ (n : Byte) (s : State), s.hasPlace →
    (s.part.ctl.mode = .operating → exec (.enterOperating n) s = .next (s.told n 0x04 { status := .ok })) ∧
    (s.part.ctl.mode = .starting ∨ s.part.ctl.mode = .failed ∨ s.part.ctl.mode = .lockdown →
      exec (.enterOperating n) s = .next (s.told n 0x04 { status := .wrongMode })) ∧
    (s.part.ctl.mode = .commissioning → (missingItems s.part).isEmpty = false →
      exec (.enterOperating n) s = .next (s.told n 0x04
        { status := .wrongState, items := .missing (missingItems s.part) })) ∧
    (s.part.ctl.mode = .commissioning → (missingItems s.part).isEmpty = true →
      let entered := notify (.mode .commissioning .operating .host)
        (clearManual { s.begun with ctl := { s.part.ctl with mode := .operating } })
      let regulated := reexamineNeeds s.books (reuseEvaluation s.books entered)
      let cells := examineArbiter s.books (seekDrains s.books (settleCells s.books regulated))
      ∃ p, exec (.enterOperating n) s = .next (s.answered n 0x04 { status := .ok } p) ∧
        p = selectLot s.books (recomputeGate .mode cells) ∧
        p.ctl = { s.part.ctl with mode := .operating, manual := Vector.replicate 51 none } ∧
        p.standing = (clearManual s.begun).standing)) ∧
  (∀ p : Part, (missingItems p).isEmpty = true ↔
    p.gate.clock.isSome = true ∧
    (roleCount .feed p = 1 ∧ roleCount .quarantine p = 1 ∧ roleCount .reuse p ≤ 1 ∧ 1 ≤ roleCount .hold p ∧
      ∀ v, (vesselRec p v).role ≠ .unused → (vesselRec p v).capacity.isSome = true) ∧
    (∀ v, (vesselRec p v).role ≠ .unused → (vesselRec p v).adopted = true) ∧
    (∀ r : Fin 16, (p.flt.table.get r).loaded = true) ∧
    (p.gate.limits.massAllowance.isSome = true ∧ p.gate.limits.volumeAllowance.isSome = true ∧
      p.gate.limits.concLimit.isSome = true ∧ p.gate.limits.phBand.isSome = true) ∧
    (∃ u, (unitRec p u).enabled = true) ∧
    p.flt.stack = []) ∧
  (∀ (n : Byte) (s : State), s.hasPlace →
    (s.part.ctl.mode = .commissioning → exec (.enterCommissioning n) s = .next (s.told n 0x05 { status := .ok })) ∧
    (s.part.ctl.mode = .starting ∨ s.part.ctl.mode = .failed ∨ s.part.ctl.mode = .lockdown →
      exec (.enterCommissioning n) s = .next (s.told n 0x05 { status := .wrongMode })) ∧
    (s.part.ctl.mode = .operating → s.part.mov.distinct →
      let entered := notify (.mode .operating .commissioning .host)
        (clearManual { s.begun with ctl := { s.part.ctl with mode := .commissioning } })
      let cells := settleCells s.books (chargesWaitMode (generalCut s.books .general none entered))
      ∃ p, exec (.enterCommissioning n) s = .next (s.answered n 0x05 { status := .ok } p) ∧
        p = examineArbiter s.books (seekDrains s.books (recomputeGate .mode cells)) ∧
        p.ctl = { s.part.ctl with mode := .commissioning, manual := Vector.replicate 51 none } ∧
        (∀ m ∈ p.mov.entries, m.kind = .slug ∧ m.phase = .stopping) ∧
        p.standing = (clearManual s.begun).standing))

/-- STARTING and FAILED refuse every request but IDENTIFY, STATUS and RESTART with WRONG MODE; a SET REGULATION reply
carries the unit's state all the same. With all four places held a request is discarded with no reply; behind a RESTART
whose OK is not yet out it takes a place and waits there, not taken (log 3). -/
def Obligations.RequestsThatAreNotTaken : Prop :=
  (∀ (n : Byte) (r : Request) (s : State), s.hasPlace → s.part.ctl.mode = .starting ∨ s.part.ctl.mode = .failed →
    takenInService r = true →
    exec (rowOf n r) s = .next (s.told n (BitVec.ofNat 8 (requestKind r))
      { status := .wrongMode
        items := match r with
          | .setRegulation _ => .regulation (regulationReport s.part)
          | _ => .none })) ∧
  (∀ (n : Byte) (r : Request) (s : State), s.live →
    (4 ≤ s.part.link.buffer.length + s.part.link.behind → exec (rowOf n r) s = .next s.idled) ∧
    (s.part.link.buffer.length + s.part.link.behind < 4 → s.part.link.restarting = true → exec (rowOf n r) s =
      .next (s.after s.books { s.begun with link := { s.begun.link with behind := s.part.link.behind + 1 } })))

/-- MANUAL OUTPUT: WRONG MODE outside COMMISSIONING, BUSY where the mask names an output that a movement drives, and
otherwise each masked output has its flag set with the given value, or cleared by the release item. In the modes in
service the value commanded on an output is the first of: what a movement drives (its valves OPEN, its pump ON while
RUNNING and driven from OPENING on, log 41), rest where an action in force holds it, the manual value while its flag is
set, and what its owning block commands; in any other mode, and while RESET is held, every output is at rest. The sample
valve follows a lot in SAMPLING in OPERATING and LOCKDOWN alone (log 69). -/
def Obligations.ManualOutput : Prop :=
  (∀ (n : Byte) (i : ManualItems) (s : State), s.hasPlace →
    (s.part.ctl.mode ≠ .commissioning →
      exec (.manualOutput n i) s = .next (s.told n 0x06 { status := .wrongMode })) ∧
    (s.part.ctl.mode = .commissioning →
      (∃ o, (i.sets.get o).isSome = true ∧ (drivenValue s.part (outputAt o)).isSome = true) →
      exec (.manualOutput n i) s = .next (s.told n 0x06 { status := .busy })) ∧
    (s.part.ctl.mode = .commissioning →
      (∀ o, (i.sets.get o).isSome = true → drivenValue s.part (outputAt o) = none) →
      exec (.manualOutput n i) s = .next (s.answered n 0x06 { status := .ok }
        { s.begun with ctl := { s.part.ctl with manual := Vector.ofFn (fun o =>
            match i.sets.get o, i.release with
            | none, _ => s.part.ctl.manual.get o
            | some _, true => none
            | some x, false => some x) } }))) ∧
  (∀ (p : Part) (k : OutputId),
    let o := outputAt k
    (p.ctl.resetHeld = true ∨ p.ctl.mode.inService = false → commanded p k = false) ∧
    (p.ctl.resetHeld = false → p.ctl.mode.inService = true →
      (∀ x, drivenValue p o = some x → commanded p k = x) ∧
      (drivenValue p o = none → forcedOff (actionsInForce p) o = true → commanded p k = false) ∧
      (drivenValue p o = none → forcedOff (actionsInForce p) o = false →
        (∀ x, p.ctl.manual.get k = some x → commanded p k = x) ∧
        (p.ctl.manual.get k = none → commanded p k = ownerValue p o)))) ∧
  (∀ (p : Part) (o : Output),
    (drivenValue p o = none ↔ ∀ m ∈ p.mov.entries, m.drives o = none) ∧
    (∀ x, drivenValue p o = some x → ∃ m ∈ p.mov.entries, m.drives o = some x) ∧
    (∀ m : Movement,
      (portValve m.source = some o ∨ portValve m.dest = some o → m.drives o = some true) ∧
      (portValve m.source ≠ some o → portValve m.dest ≠ some o →
        (portPump m.source = some o → m.drives o = some (decide (m.phase = .running))) ∧
        (portPump m.source ≠ some o → m.drives o = none)))) ∧
  (∀ (v : VesselId) (c : CellId),
    portValve (.vesselInlet v) = some (.inletValve v) ∧ portValve (.vesselOutlet v) = some (.outletValve v) ∧
    portValve (.cellInlet c) = some (.cellInletValve c) ∧ portValve (.cellOutlet c) = some (.drainValve c) ∧
    portValve .makeupEntry = some .makeupValve ∧ portValve .outfall = some .outfallValve ∧
    portPump (.vesselOutlet v) = some (.transferPump v) ∧ portPump (.cellOutlet c) = some (.drainPump c)) ∧
  (∀ (p : Part) (a : ActionSet) (v : VesselId) (c : CellId),
    (forcedOff a .outfallValve = a.shutOutfall ∧ forcedOff a (.rectifier c) = a.stopCells ∧
      forcedOff a (.transferPump v) = a.stopMovement ∧ forcedOff a (.drainPump c) = a.stopMovement ∧
      forcedOff a (.inletValve v) = a.stopIntake ∧ forcedOff a .makeupValve = a.stopRegulation ∧
      forcedOff a (.outletValve v) = false ∧ forcedOff a (.sampleValve v) = false ∧
      forcedOff a (.cellInletValve c) = false ∧ forcedOff a (.drainValve c) = false ∧
      forcedOff a .supplyValve = false) ∧
    ownerValue p .supplyValve = p.reg.supplyOpen ∧ ownerValue p (.rectifier c) = (cellRec p c).rectifier ∧
    (ownerValue p (.sampleValve v) = true ↔
      p.ctl.mode.running = true ∧ ∃ l, lotOf v p = some l ∧ l.state = .sampling) ∧
    ownerValue p (.inletValve v) = false ∧ ownerValue p (.outletValve v) = false ∧
    ownerValue p (.transferPump v) = false ∧ ownerValue p (.cellInletValve c) = false ∧
    ownerValue p (.drainValve c) = false ∧ ownerValue p (.drainPump c) = false ∧
    ownerValue p .makeupValve = false ∧ ownerValue p .outfallValve = false)

/-! ## The Supervisory Link (chapter 12) -/

/-- TRANSMIT_COMPLETE ends the frame in transmission, a reply frees the oldest place, and the next frame begins (the end
of the OK of a RESTART is stated with the restart): the oldest reply, else the oldest notice, which leaves the queue. A
notice joins a queue of fewer than 32 with the mark of the lost flag, which is cleared; a notice that finds 32 is
dropped and sets the flag. -/
def Obligations.TransmitterAndNoticeQueue : Prop :=
  ((∀ s : State, s.live →
    let ended := match s.part.link.tx with
      | none => s.begun
      | some t => { s.begun with link := { s.begun.link with
          tx := none, buffer := if t.holdsPlace then s.part.link.buffer.tail else s.part.link.buffer } }
    s.part.link.restarting = false ∨ ended.link.buffer ≠ [] →
      exec .transmitComplete s = .next (s.after s.books ended)) ∧
  (∀ p : Part, p.ctl.resetHeld = false → p.link.tx = none →
    (∀ r rest, p.link.buffer = r :: rest → pump p = { p with link := { p.link with
      tx := some ⟨.reply r, true⟩, sent := p.link.sent ++ [.reply r] } }) ∧
    (∀ x rest, p.link.buffer = [] → p.link.queue = x :: rest → pump p = { p with link := { p.link with
      tx := some ⟨.notice x, false⟩, queue := rest, sent := p.link.sent ++ [.notice x] } }) ∧
    (p.link.buffer = [] → p.link.queue = [] → pump p = p)) ∧
  (∀ p : Part, p.link.tx.isSome = true → pump p = p)) ∧
  (∀ (body : NoticeBody) (p : Part),
    (p.link.queue.length < 32 → notify body p = { p with link := { p.link with
      queue := p.link.queue ++ [⟨p.link.lost, p.gate.clock, body⟩], lost := false } }) ∧
    (32 ≤ p.link.queue.length → notify body p = { p with link := { p.link with lost := true } }))

/-- RECEIVE_GAP_TIMEOUT drops the bytes collected. A byte that is no SYNC is passed over while hunting, and so is a
whole frame whose CHECK does not match, as SUPERVISORY_FRAME_DISCARDED brings them. After a discard, for a LENGTH outside
2 to 1 024 as soon as it is complete or for a CHECK that does not match, the receiver hunts on through the bytes after the
discarded frame's SYNC and through those that follow. A frame whose CHECK matches but
whose KIND names no request is answered UNKNOWN with the KIND received; one of a known KIND whose BODY has not the
length of its items is answered BAD VALUE. -/
def Obligations.ReceiverAndMisshapenFrames : Prop :=
  ((∀ s : State, s.live → exec .receiveGapTimeout s =
    .next (s.after s.books { s.begun with link := { s.begun.link with rx := [] } })) ∧
  (∀ (bytes : List Byte) (s : State), s.live → s.part.link.rx = [] → (∀ b ∈ bytes, b ≠ 0xC3#8) →
    exec (.supervisoryFrameDiscarded bytes) s = .next s.idled) ∧
  (∀ (h l kind number c d : Byte) (body : List Byte) (s : State), s.live → s.part.link.rx = [] →
    h.toNat * 256 + l.toNat = body.length + 2 → body.length ≤ 1022 →
    (∀ b ∈ h :: l :: kind :: number :: body ++ [c, d], b ≠ 0xC3#8) →
    c.toNat * 256 + d.toNat ≠ (crc16 (h :: l :: kind :: number :: body)).toNat →
    exec (.supervisoryFrameDiscarded (0xC3#8 :: h :: l :: kind :: number :: body ++ [c, d])) s = .next s.idled)) ∧
  (∀ s : State, s.live → s.part.link.rx = [] →
    let arrive (bytes : List Byte) := exec (.supervisoryFrameDiscarded bytes) s
    (∀ bytes more : List Byte, (∀ b ∈ bytes, b ≠ 0xC3#8) → arrive (bytes ++ more) = arrive more) ∧
    (∀ (h l : Byte) (more : List Byte), h.toNat * 256 + l.toNat < 2 ∨ 1024 < h.toNat * 256 + l.toNat →
      arrive (0xC3#8 :: h :: l :: more) = arrive (h :: l :: more)) ∧
    (∀ (h l c d : Byte) (inner more : List Byte), h.toNat * 256 + l.toNat = inner.length →
      2 ≤ inner.length → inner.length ≤ 1024 → c.toNat * 256 + d.toNat ≠ (crc16 (h :: l :: inner)).toNat →
      arrive (0xC3#8 :: h :: l :: inner ++ c :: d :: more) = arrive (h :: l :: inner ++ c :: d :: more))) ∧
  (∀ (kind n : Byte) (body : List Byte) (s : State), s.hasPlace → s.part.link.rx = [] → body.length ≤ 1022 →
    (kind = 0 ∨ 0x36 < kind.toNat →
      exec (.supervisoryFrameAccepted (supFrame kind.toNat n body)) s =
        .next (s.told n kind { status := .unknown, items := .unknownKind kind })) ∧
    (∀ l, layoutOf kind.toNat = some l → body.length ≠ l.length body →
      exec (.supervisoryFrameAccepted (supFrame kind.toNat n body)) s =
        .next (s.told n kind { status := .badValue
                               items := if kind = 0x1E then .regulation (regulationReport s.part) else .none })))

/-- A request written in the byte form of 12.5, 12.6 and R199 is read back with every item at every value that its
bytes admit (the layouts of items that 12.6 does not list are the model's, log 20). -/
def Obligations.RequestBodiesRoundTrip : Prop :=
  ∀ r : Request, requestFits r = true → parseRequest (requestKind r) (requestBody r) = .taken r

/-- A request that arrives as a frame does what its row does: a row stands for an accepted frame (log 1), and the bytes of
a frame decide what it is (log 35). -/
def Obligations.AcceptedFrameIsItsRow : Prop :=
  ∀ (n : Byte) (r : Request) (s : State), s.part.link.rx = [] → requestFits r = true →
    exec (.supervisoryFrameAccepted (requestFrame n r)) s = exec (rowOf n r) s

/-! ## Vessels and readings of the state (chapter 1 and the READ requests) -/

/-- SET VESSEL is checked whole and applied together: no vessel of that number, items out of range, role or capacity
changed where they may not be, and otherwise OK with the record changed. An item is in range as 1.1 and R4 give it, a
seal volume only for a role HOLD after the request (log 58) and a role other than UNUSED only with a capacity; role and
capacity change in COMMISSIONING alone, with booked volume 0, no lot and no movement. The record takes every item given;
a vessel that takes the role UNUSED has its inlet DISABLED whatever the request gives (log 64) and its regulation block
clear. The switch goes OFF where the REUSE vessel or its capacity changes, with the spill and fill needs IDLE and no
OVERFLOW for the block that the leaving clears (log 40); notice REGULATION goes before RESERVE LOW, and at an inlet state
change the needs re-examine before the drains seek (log 77). -/
def Obligations.SetVesselAppliesTogether : Prop :=
  (∀ (n : Byte) (k : Nat) (i : VesselItems) (s : State), s.serves → vesselOf k = none →
    exec (.setVessel n k i) s = .next (s.told n 0x08 { status := .badValue })) ∧
  (∀ (n : Byte) (k : Nat) (v : VesselId) (i : VesselItems) (s : State), s.serves → vesselOf k = some v →
    (vesselItemsValid i (vesselRec s.part v) = false →
      exec (.setVessel n k i) s = .next (s.told n 0x08 { status := .badValue })) ∧
    (vesselItemsValid i (vesselRec s.part v) = true → changesPlan i (vesselRec s.part v) = true →
      planFree s.books s.part v = false →
      exec (.setVessel n k i) s = .next (s.told n 0x08 { status := .wrongState })) ∧
    (vesselItemsValid i (vesselRec s.part v) = true →
      changesPlan i (vesselRec s.part v) = false ∨ planFree s.books s.part v = true →
      let changed := updVessel v (applyVessel i) s.begun
      let was := roleVessel .reuse s.part
      let ends (q : Part) := if q.reg.switchOn = true then setFill .idle none (setSpill .idle none
        (notify .regulationOff { q with reg := { q.reg with switchOn := false } })) else q
      let unblocked := match was with
        | none => changed
        | some w => updVessel w (fun r => { r with regBlock := false }) changed
      let told := if roleVessel .reuse changed ≠ was then supplyCheck s.books (ends unblocked)
        else if was = some v ∧ (vesselRec s.part v).capacity ≠ (vesselRec changed v).capacity then ends changed
        else changed
      ∃ p, exec (.setVessel n k i) s = .next (s.answered n 0x08 { status := .ok } p) ∧
        p = (if (vesselRec s.part v).inlet = (vesselRec changed v).inlet then told
          else arbiterIfStepped s.books told (seekDrains s.books (reexamineNeeds s.books told))) ∧
        p.ctl = s.part.ctl ∧
        p.standing = { changed with reg := { s.part.reg with
          switchOn := s.part.reg.switchOn && decide (roleVessel .reuse changed = roleVessel .reuse s.part ∧
            roleCapacity .reuse changed = roleCapacity .reuse s.part) } }.standing)) ∧
  (∀ (i : VesselItems) (r : VesselRec),
    let role := i.role.getD r.role
    let capacity := i.capacity.or r.capacity
    (vesselItemsValid i r = true ↔
      (∀ x, i.capacity = some x → 100 ≤ x ∧ x ≤ 60000) ∧ (∀ x, i.tolerance = some x → 10 ≤ x ∧ x ≤ 5000) ∧
      (∀ x, i.travel = some x → 1 ≤ x ∧ x ≤ 60) ∧
      (∀ k, i.sealVolume = some k → role = .hold ∧ ∃ c, capacity = some c ∧ c ≤ 10 * k ∧ k ≤ c) ∧
      (role ≠ .unused → capacity.isSome = true)) ∧
    (changesPlan i r = true ↔ role ≠ r.role ∨ capacity ≠ r.capacity) ∧
    applyVessel i r = { r with
      role := role, capacity := capacity
      inlet := if role = .unused ∧ r.role ≠ .unused then .disabled else i.inlet.getD r.inlet
      regBlock := if (role = .unused ∧ r.role ≠ .unused) ∨ (r.role = .reuse ∧ role ≠ .reuse) then false else r.regBlock
      tolerance := i.tolerance.getD r.tolerance, travel := i.travel.getD r.travel
      sealVolume := if role ≠ .hold then none
        else if i.sealVolume.isSome then i.sealVolume
        else if role ≠ r.role ∨ capacity ≠ r.capacity then capacity.map (fun c => c * 9 / 10)
        else r.sealVolume
      stray := if i.clearCount then 0 else r.stray }) ∧
  (∀ (b : Books) (p : Part) (v : VesselId), planFree b p v = true ↔
    p.ctl.mode = .commissioning ∧ (b.vessel v).volume = 0 ∧ lotOf v p = none ∧
      ∀ m ∈ p.mov.entries, m.touches p v = false)

/-- ADOPT LEVEL: its checks in order, and the adoption booking: the booked volume becomes the last reading, the
difference goes to the volume corrections, a mass that stays on 0 L is taken out through the mass corrections, the
adopted flag is set, and a LEVEL MISMATCH frame of the vessel is CLEARED. A HOLD vessel without a lot gets its adopted
lot in SETTLING, or at once in SAMPLING with a settle time of 0 (log 16), under the first lot number from the next one
on that no open lot and no closed record has, and no other vessel or level gets one. A FILLING lot in the vessel meets
no seal check at the adoption (log 15). -/
def Obligations.AdoptLevelBooksTheReading : Prop :=
  (∀ (n : Byte) (k : Nat) (s : State), s.hasPlace →
    (adoptMode k s.part = true ↔ s.part.ctl.mode = .commissioning ∨
      ((s.part.ctl.mode = .operating ∨ s.part.ctl.mode = .lockdown) ∧
        ∃ v, vesselOf k = some v ∧ ∃ f ∈ s.part.flt.stack, f.ftype = .levelMismatch ∧ f.subject = .vessel v)) ∧
    (adoptMode k s.part = false → exec (.adoptLevel n k) s = .next (s.told n 0x0A { status := .wrongMode })) ∧
    (adoptMode k s.part = true → vesselOf k = none →
      exec (.adoptLevel n k) s = .next (s.told n 0x0A { status := .badValue })) ∧
    (∀ v, adoptMode k s.part = true → vesselOf k = some v →
      ((vesselRec s.part v).role = .unused →
        exec (.adoptLevel n k) s = .next (s.told n 0x0A { status := .wrongState })) ∧
      ((vesselRec s.part v).role ≠ .unused → (vesselRec s.part v).lastLevel = none →
        exec (.adoptLevel n k) s = .next (s.told n 0x0A { status := .noSuch })) ∧
      (∀ level, (vesselRec s.part v).role ≠ .unused → (vesselRec s.part v).lastLevel = some level →
        ((∃ m ∈ s.part.mov.entries, m.touches s.part v = true) →
          exec (.adoptLevel n k) s = .next (s.told n 0x0A { status := .busy })) ∧
        ((∀ m ∈ s.part.mov.entries, m.touches s.part v = false) →
          let booked := s.books.book (.adoption v level)
          let p := afterBooking s.books booked [v] none none (openAdopted v level
            (reportOn .levelMismatch (.vessel v) .cleared (updVessel v (fun r => { r with adopted := true }) s.begun)))
          exec (.adoptLevel n k) s = .next (s.after booked (p.reply n 0x0A { status := .ok })) ∧
          p.standing = (updVessel v (fun r => { r with adopted := true }) s.begun).standing)))) ∧
  (∀ (b : Books) (v : VesselId) (level : Nat),
    (b.book (.adoption v level)).vessel v = ⟨level, if level = 0 then 0 else (b.vessel v).mass⟩ ∧
    (b.book (.adoption v level)).acc = { b.acc with
      volumeCorrections := b.acc.volumeCorrections + ((level : Int) - (b.vessel v).volume)
      massCorrections := b.acc.massCorrections - (if level = 0 then ((b.vessel v).mass : Int) else 0) }) ∧
  (∀ (v : VesselId) (level : Nat) (p : Part),
    let held := p.lot.lots.map Lot.number ++ p.lot.closed.map ClosedLot.number
    let n := freeNumberFrom 25 p.lot.nextLot held
    ((vesselRec p v).role ≠ .hold ∨ (lotOf v p).isSome = true ∨ level = 0 → openAdopted v level p = p) ∧
    ((vesselRec p v).role = .hold → lotOf v p = none → 0 < level → 0 < p.lot.times.settle →
      openAdopted v level p = lotNotice n .settling .adopted { p with lot := { p.lot with
        nextLot := if n < 65535 then n + 1 else 1
        lots := p.lot.lots ++ [{ number := n, vessel := v, state := .settling, opened := p.gate.clock
                                 contributions := [⟨.adopted, level, 0⟩], timer := some p.lot.times.settle }] } }) ∧
    ((vesselRec p v).role = .hold → lotOf v p = none → 0 < level → p.lot.times.settle = 0 →
      openAdopted v level p = lotNotice n .sampling .settled (updLot n (fun l => { l with
        state := .sampling, sampleNumber := l.sampleNumber + 1, timer := some p.lot.times.sampleDuration })
          (lotNotice n .settling .adopted { p with lot := { p.lot with
            nextLot := if n < 65535 then n + 1 else 1
            lots := p.lot.lots ++ [{ number := n, vessel := v, state := .settling, opened := p.gate.clock
                                     contributions := [⟨.adopted, level, 0⟩], timer := some 0 }] } }))) ∧
    (p.lot.nextLot ∉ held → n = p.lot.nextLot) ∧
    (held.length < 25 → 1 ≤ p.lot.nextLot → p.lot.nextLot ≤ 65535 → n ∉ held))

/-- LEVEL READING: an invalid reading, or one above 65 535 L, is discarded; a valid one is recorded, and for a compared
vessel raises LEVEL MISMATCH, or reports its frame PRESENT or CLEARED. That a valid reading of STARTING and FAILED is
recorded is read from the spec (log 27). -/
def Obligations.LevelReadingIsComparedWithTheBooks : Prop :=
  ∀ (v : VesselId) (s : State), s.live →
    exec (.levelReading v none) s = .next s.idled ∧
    (∀ x, 65535 < x → exec (.levelReading v (some x)) s = .next s.idled) ∧
    (∀ x, x ≤ 65535 →
      let read := updVessel v (fun r => { r with lastLevel := some x }) s.begun
      let far := (vesselRec s.part v).tolerance + (s.books.vessel v).volume < x ∨
        (vesselRec s.part v).tolerance + x < (s.books.vessel v).volume
      (compared s.part v = true ↔ s.inService ∧ (vesselRec s.part v).role ≠ .unused ∧
        (vesselRec s.part v).adopted = true) ∧
      (compared s.part v = false → exec (.levelReading v (some x)) s = .next (s.after s.books read)) ∧
      (compared s.part v = true → far → hasFrame .levelMismatch (.vessel v) s.part = true →
        exec (.levelReading v (some x)) s =
          .next (s.after s.books (reportOn .levelMismatch (.vessel v) .present read))) ∧
      (compared s.part v = true → far → hasFrame .levelMismatch (.vessel v) s.part = false →
        (∃ m ∈ s.part.mov.entries, m.touches s.part v = true) →
        exec (.levelReading v (some x)) s = .next (s.after s.books read)) ∧
      (compared s.part v = true → far → hasFrame .levelMismatch (.vessel v) s.part = false →
        (∀ m ∈ s.part.mov.entries, m.touches s.part v = false) →
        exec (.levelReading v (some x)) s =
          .next (s.after s.books (raise s.books { ftype := .levelMismatch, subject := .vessel v } read))) ∧
      (compared s.part v = true → ¬ far → hasFrame .levelMismatch (.vessel v) s.part = true →
        exec (.levelReading v (some x)) s =
          .next (s.after s.books (reportOn .levelMismatch (.vessel v) .cleared read))) ∧
      (compared s.part v = true → ¬ far → hasFrame .levelMismatch (.vessel v) s.part = false →
        exec (.levelReading v (some x)) s = .next (s.after s.books read)))

/-- READ ACCOUNTS carries every account and four sums: booked volume over vessels and cell liquors, booked mass over
vessels, over cell liquors, over cathodes; in any other mode it is refused with WRONG MODE. -/
def Obligations.ReadAccountsCarriesTheSums : Prop :=
  ∀ (n : Byte) (s : State), s.hasPlace →
    (s.inService → exec (.readAccounts n) s = .next (s.told n 0x0B { status := .ok, items := .accounts {
      accounts := s.books.acc
      holderVolume := (s.books.vessels.toList.map Holding.volume).sum + (s.books.liquors.toList.map Holding.volume).sum
      vesselMass := (s.books.vessels.toList.map Holding.mass).sum
      liquorMass := (s.books.liquors.toList.map Holding.mass).sum
      cathodeMass := s.books.cathodes.toList.sum } })) ∧
    (s.part.ctl.mode.inService = false → exec (.readAccounts n) s = .next (s.told n 0x0B { status := .wrongMode }))

/-- The requests that read and change nothing are answered OK with their reports. READ MOVEMENTS and READ UNIT clear
their counts once the reply is made, READ INPUTS counts its free read-backs (log 13), READ SOURCE FIRST and NEXT move
the cursor in tag order, and NEXT with no cursor is refused with the status alone (log 61). -/
def Obligations.Reads : Prop :=
  (∀ (n : Byte) (s : State), s.hasPlace →
    exec (.identify n) s = .next (s.told n 0x01 { status := .ok, items := .identity }) ∧
    exec (.status n) s = .next (s.told n 0x02 { status := .ok, items := .status (statusReport s.part) }) ∧
    (s.inService →
      (∀ k v, vesselOf k = some v → exec (.readVessel n k) s =
        .next (s.told n 0x09 { status := .ok, items := .vessel (vesselReport s.books s.part v) })) ∧
      (∀ k l, findLot k s.part = some l → exec (.readLot n k false) s =
        .next (s.told n 0x13 { status := .ok, items := .lot (lotReport s.books s.part l) })) ∧
      (∀ k v l, vesselOf k = some v → lotOf v s.part = some l → exec (.readLot n k true) s =
        .next (s.told n 0x13 { status := .ok, items := .lot (lotReport s.books s.part l) })) ∧
      (∀ k, findLot k s.part = none → exec (.readLot n k false) s = .next (s.told n 0x13 { status := .noSuch })) ∧
      exec (.readClosedLots n) s = .next (s.told n 0x14 { status := .ok, items := .closedLots s.part.lot.closed }) ∧
      (∀ k c, cellOf k = some c → exec (.readCell n k) s =
        .next (s.told n 0x26 { status := .ok, items := .cell (cellReport s.books s.part c) })) ∧
      exec (.readGate n) s = .next (s.told n 0x2A { status := .ok, items := .gate (gateReport s.books s.part) }) ∧
      (∀ k a, patternOf k = some a → exec (.readPattern n k) s =
        .next (s.told n 0x30 { status := .ok, items := .pattern (patternReport s.part a) })) ∧
      exec (.readFaults n) s = .next (s.told n 0x32 { status := .ok, items := .faults (faultsReport s.part) }))) ∧
  (∀ (n : Byte) (s : State), s.serves →
    (∀ clear, exec (.readMovements n clear) s = .next (s.answered n 0x0C
      { status := .ok, items := .movements (movementsReport s.part) }
      { s.begun with mov := { s.part.mov with strays := if clear then {} else s.part.mov.strays } })) ∧
    (∀ k u clear, unitOf k = some u → exec (.readUnit n k clear) s = .next (s.answered n 0x1C
      { status := .ok, items := .unit (unitReport s.part u) }
      (if clear then updUnit u (fun r => { r with late := 0 }) s.begun else s.begun))) ∧
    exec (.readInputs n) s = .next (s.answered n 0x07
      { status := .ok, items := .inputs s.part.pat.inputs (s.part.cel.cells.map CellRec.faultInput)
          (Vector.ofFn (fun o => ⟨commanded s.part o, Config.readBack s.part.ctl.readBacks o,
            (s.part.ctl.manual.get o).isSome⟩)) }
      { s.begun with ctl := { s.part.ctl with readBacks := s.part.ctl.readBacks + 1 } }) ∧
    (∀ e rest, s.part.src.entries = e :: rest → exec (.readSourceFirst n) s = .next (s.answered n 0x18
      { status := .ok, items := .source (some (e, slugsOf e.tag s.part)) (sourceSummary s.part) }
      { s.begun with src := { s.part.src with cursor := some e.tag } })) ∧
    (s.part.src.entries = [] → exec (.readSourceFirst n) s = .next (s.answered n 0x18
      { status := .end_, items := .source none (sourceSummary s.part) }
      { s.begun with src := { s.part.src with cursor := none } })) ∧
    (s.part.src.cursor = none → exec (.readSourceNext n) s = .next (s.told n 0x19 { status := .wrongState })) ∧
    (∀ t before e rest, s.part.src.cursor = some t → s.part.src.entries = before ++ e :: rest →
      (∀ x ∈ before, tagKey x.tag ≤ tagKey t) → tagKey t < tagKey e.tag →
      exec (.readSourceNext n) s = .next (s.answered n 0x19
        { status := .ok, items := .source (some (e, slugsOf e.tag s.part)) (sourceSummary s.part) }
        { s.begun with src := { s.part.src with cursor := some e.tag } })) ∧
    (∀ t, s.part.src.cursor = some t → (∀ x ∈ s.part.src.entries, tagKey x.tag ≤ tagKey t) →
      exec (.readSourceNext n) s = .next (s.told n 0x19
        { status := .end_, items := .source none (sourceSummary s.part) })))

/-! ## Settings that act on what starts after them -/

/-- SET LOT TIMES, SET AGING, SET ROUTING and SET FAULT RESPONSE: WRONG MODE where they are not taken; a setting out of
range is refused with BAD VALUE and nothing applied; otherwise all are applied together, and nothing else changes but the
aging timer, which restarts: no running timer, no age mark, no movement and no frame. Cold reset sets the defaults of SET
LOT TIMES and SET ROUTING, and a warm restart keeps the settings. -/
def Obligations.SettingsAreAppliedTogether : Prop :=
  (Part.reset.lot.times = { fillAge := 14400, settle := 900, sampleDuration := 30, sampleVolume := 2, verdict := 14400 } ∧
    Part.reset.fld.settings = { amber := 40, red := 800, silenceLimit := 5, transferTimeout := 900 }) ∧
  (∀ (b : Books) (p : Part), p.ctl.mode = .commissioning →
    let q := restartRaises b (restartBlocks b p)
    q.lot.times = p.lot.times ∧ q.fld.settings = p.fld.settings ∧ q.flt.table = p.flt.table) ∧
  ∀ (n : Byte) (s : State), s.hasPlace →
    (s.part.ctl.mode.inService = false →
      (∀ i, exec (.setLotTimes n i) s = .next (s.told n 0x15 { status := .wrongMode })) ∧
      (∀ period policy, exec (.setAging n period policy) s = .next (s.told n 0x1A { status := .wrongMode })) ∧
      (∀ i, exec (.setRouting n i) s = .next (s.told n 0x1D { status := .wrongMode }))) ∧
    (∀ i, s.inService →
      exec (.setLotTimes n i) s = .next (if
          (∀ x, i.fillAge = some x → x ≤ 86400) ∧ (∀ x, i.settle = some x → x ≤ 7200) ∧
          (∀ x, i.sampleDuration = some x → 10 ≤ x ∧ x ≤ 600) ∧ (∀ x, i.sampleVolume = some x → 1 ≤ x ∧ x ≤ 20) ∧
          (∀ x, i.verdict = some x → 600 ≤ x ∧ x ≤ 86400)
        then s.answered n 0x15 { status := .ok } { s.begun with lot := { s.part.lot with times :=
          { fillAge := i.fillAge.getD s.part.lot.times.fillAge, settle := i.settle.getD s.part.lot.times.settle
            sampleDuration := i.sampleDuration.getD s.part.lot.times.sampleDuration
            sampleVolume := i.sampleVolume.getD s.part.lot.times.sampleVolume
            verdict := i.verdict.getD s.part.lot.times.verdict } } }
        else s.told n 0x15 { status := .badValue })) ∧
    (∀ period policy, s.inService →
      exec (.setAging n period policy) s = .next (if 1 ≤ period ∧ period ≤ 240
        then s.answered n 0x1A { status := .ok } { s.begun with src := { s.part.src with
          agingPeriod := period, policy := policy, agingLeft := period * 60 } }
        else s.told n 0x1A { status := .badValue })) ∧
    (∀ i, s.inService →
      exec (.setRouting n i) s = .next (if
          (∀ x, i.amber = some x → 1 ≤ x ∧ x ≤ 30000) ∧ (∀ x, i.red = some x → 1 ≤ x ∧ x ≤ 30000) ∧
          (∀ x, i.silenceLimit = some x → 2 ≤ x ∧ x ≤ 20) ∧ (∀ x, i.transferTimeout = some x → 60 ≤ x ∧ x ≤ 3600) ∧
          i.amber.getD s.part.fld.settings.amber < i.red.getD s.part.fld.settings.red
        then s.answered n 0x1D { status := .ok } { s.begun with fld := { s.begun.fld with settings :=
          { amber := i.amber.getD s.part.fld.settings.amber, red := i.red.getD s.part.fld.settings.red
            silenceLimit := i.silenceLimit.getD s.part.fld.settings.silenceLimit
            transferTimeout := i.transferTimeout.getD s.part.fld.settings.transferTimeout } } }
        else s.told n 0x1D { status := .badValue })) ∧
    (∀ code i, s.part.ctl.mode ≠ .commissioning →
      exec (.setFaultResponse n code i) s = .next (s.told n 0x31 { status := .wrongMode })) ∧
    (∀ code i, s.part.ctl.mode = .commissioning → (¬ (1 ≤ code ∧ code ≤ 16) ∨ ¬ (10 ≤ i.hold ∧ i.hold ≤ 3600)) →
      exec (.setFaultResponse n code i) s = .next (s.told n 0x31 { status := .badValue })) ∧
    (∀ (row : Fin 16) i, s.part.ctl.mode = .commissioning → 10 ≤ i.hold → i.hold ≤ 3600 →
      exec (.setFaultResponse n (row.1 + 1) i) s = .next (s.answered n 0x31 { status := .ok }
        { s.begun with flt := { s.part.flt with
            table := s.part.flt.table.set row.1 ⟨i.actions, i.policy, i.hold, true⟩ row.2 } }))

/-! ## Consequences -/

/-- No consequence touches what stands: settings, the level and the outfall readings, clock, day totals, the Source Table,
recorded inputs, the Fault Table, Mode Control but for the mode, and the supervisory line but for the Notice Queue are as
the event itself left them, whatever movements, lots, cells, needs, frames and patterns do in answer. A cell's last probe
reading is none of these: the end of its CHARGE makes it absent. -/
def Obligations.ConsequencesLeaveTheRestStanding : Prop :=
  ∀ (b b' : Books) (p : Part),
    (∀ m e, (endMovement b m e p).standing = p.standing) ∧ (∀ m e, (movementEnded b m e p).standing = p.standing) ∧
    (∀ r m, (raiseBeforeEnd b r m p).standing = p.standing) ∧
    (∀ n why, (cutMovement b n why p).standing = p.standing) ∧
    (∀ why spare, (generalCut b why spare p).standing = p.standing) ∧
    (∀ r, (raise b r p).standing = p.standing) ∧
    (∀ way, (popFrame b way p).standing = p.standing) ∧
    (∀ cause spare, (enterLockdown b cause spare p).standing = p.standing) ∧
    (∀ vs mv spare, (afterBooking b b' vs mv spare p).standing = p.standing) ∧
    (∀ change, (evaluateAll b change p).standing = p.standing) ∧
    (reexamineNeeds b p).standing = p.standing ∧ (reuseEvaluation b p).standing = p.standing ∧
    (selectLot b p).standing = p.standing ∧ (∀ r, (recomputeGate r p).standing = p.standing) ∧
    (examineArbiter b p).standing = p.standing ∧ (settleCells b p).standing = p.standing ∧
    (seekDrains b p).standing = p.standing ∧
    (∀ n why r, (rejectLot n why r p).standing = p.standing) ∧ (∀ n r, (clearLot n r p).standing = p.standing) ∧
    (∀ l r, (sealLot b l r p).standing = p.standing) ∧ (∀ l k, (closeLot l k p).standing = p.standing)

/-! ## Movements (chapter 2) -/

/-- A start is made in OPERATING or LOCKDOWN with both ports free, a source holder that books volume and a free entry:
the entry begins in OPENING under a number that no entry has, with the longest travel time of its ports. A start that
fails a check takes no entry, and the first failing check gives the reason. An owner that is refused stands in the
waiting list, but for SOURCE EMPTY; one that stood there keeps its place in the order and takes the ports it asked for
last (R21 says only that it is entered unless it is there already; that its ports are replaced is the model's choice,
log 82); one that starts leaves it. A movement end removes the entry, tells the owner, and then lets the waiting
owners re-examine, each once (their order is the model's, log 7). A movement completes at the booking by which it has
moved all it was asked for, or its source stands at 0. A port is occupied by a movement of the table, or by one that
has left it and has not ended, as at the raise for a stall or a timeout; what either has yet to bring is the reserved
volume (log 74). A cut ends an internal movement at once and has no effect on one that has left the table; of a SLUG
in OPENING or READY it ends the movement, with STOP pending at the unit, a RUNNING one it takes to STOPPING with STOP
pending, and one in STOPPING it leaves. The general cut cuts every movement in table order (log 8), save a SLUG being
booked, or the DISCHARGE of log 78. -/
def Obligations.MovementStartChecks : Prop :=
  ∀ (b : Books) (a : StartAsk) (p : Part),
    (p.ctl.mode ≠ .operating → p.ctl.mode ≠ .lockdown → (askStart b a p).2 = .refused .mode) ∧
    (p.ctl.mode = .operating ∨ p.ctl.mode = .lockdown →
      (portBusy p a.source = true → (askStart b a p).2 = .refused .sourceBusy) ∧
      (portBusy p a.source = false → sourceVolume b a.source = some 0 → (askStart b a p).2 = .refused .sourceEmpty) ∧
      (portBusy p a.source = false → sourceVolume b a.source ≠ some 0 → portBusy p a.dest = true →
        (askStart b a p).2 = .refused .destinationBusy) ∧
      (portBusy p a.source = false → sourceVolume b a.source ≠ some 0 → portBusy p a.dest = false →
        12 ≤ p.mov.entries.length → (askStart b a p).2 = .refused .tableFull) ∧
      (portBusy p a.source = false → sourceVolume b a.source ≠ some 0 → portBusy p a.dest = false →
        p.mov.entries.length < 12 → ∃ n,
          (askStart b a p).2 = .started n ∧ (∀ m ∈ p.mov.entries, m.number ≠ n) ∧
          (askStart b a p).1.mov.entries = p.mov.entries ++
            [{ number := n, kind := a.kind, source := a.source, dest := a.dest, requested := a.requested
               movedLitres := 0, movedMass := 0, phase := .opening, started := p.gate.clock
               lastProgress := p.gate.clock, lot := a.lot, slug := a.slug
               travel := max (portTravel p a.source) (portTravel p a.dest)
               travelLeft := max (portTravel p a.source) (portTravel p a.dest), quiet := 0, timeoutLeft := none }])) ∧
    (∀ why, (askStart b a p).2 = .refused why → (askStart b a p).1.mov.entries = p.mov.entries) ∧
    (∀ o, a.waiter = some o →
      let waits := p.mov.waiting.any (fun w => decide (w.owner = o))
      let left := p.mov.waiting.filter (fun w => decide (w.owner ≠ o))
      let place : WaitPlace := ⟨o, some (a.source, a.dest)⟩
      (∀ n, (askStart b a p).2 = .started n → (askStart b a p).1.mov.waiting = left) ∧
      ((askStart b a p).2 = .refused .sourceEmpty → (askStart b a p).1.mov.waiting = left) ∧
      (∀ why, why ≠ .sourceEmpty → (askStart b a p).2 = .refused why → (askStart b a p).1.mov.waiting =
        if waits then p.mov.waiting.map (fun w => if w.owner = o then place else w) else p.mov.waiting ++ [place])) ∧
    (∀ m e, endMovement b m e p = movementEnded b m e (removeMove m.number p) ∧
      movementEnded b m e p = (examiners (ownerTold b m e p)).foldl (fun q x => reexamine b x q) (ownerTold b m e p)) ∧
    (∀ port, portBusy p port = true ↔ port ≠ .mains ∧
      ∃ m, (m ∈ p.mov.entries ∨ p.mov.ending = some m) ∧ (m.source = port ∨ m.dest = port)) ∧
    (∀ v, reservedVolume p v = (((p.mov.entries ++ p.mov.ending.toList).filter (fun m => decide (m.dest = .vesselInlet v) ||
      (decide (m.dest = .makeupEntry) && decide (roleVessel .reuse p = some v)))).map (fun m =>
        if m.kind = .slug then m.requested else m.requested - m.movedLitres)).sum) ∧
    (∀ r m, let left := removeMove m.number p
      let raised := raise b { r with interrupted := some m } { left with mov := { left.mov with ending := some m } }
      raiseBeforeEnd b r m p = { raised with mov := { raised.mov with ending := p.mov.ending } }) ∧
    (∀ n, (removeMove n p).mov.entries = p.mov.entries.filter (fun m => decide (m.number ≠ n))) ∧
    ((examiners p).Nodup ∧ (∀ w ∈ p.mov.waiting, w.owner.examiner ∈ examiners p) ∧
      (∀ x, x = .returnEngine ∨ x = .arbiter ∨ x = .gate ∨ (∃ c, x = .drain c) → x ∈ examiners p)) ∧
    (∀ n m, findMove n p = some m →
      (m.requested ≤ m.movedLitres → completeMoved b (some n) p = endMovement b m .complete p) ∧
      (m.movedLitres < m.requested → completeMoved b (some n) p = p)) ∧
    (∀ m, p.mov.entries.filter (fun x => decide (sourceVolume b x.source = some 0)) = [m] →
      findMove m.number p = some m → completeEmptied b p = endMovement b m .complete p) ∧
    ((∀ m ∈ p.mov.entries, sourceVolume b m.source ≠ some 0) → completeEmptied b p = p) ∧
    (∀ n why,
      (findMove n p = none → cutMovement b n why p = p) ∧
      (∀ m, findMove n p = some m →
        let told := match m.slug with
          | some x => updUnit x.unit (fun r => { r with outbound := some (.stop m.number) }) p
          | none => p
        (m.kind ≠ .slug → cutMovement b n why p = endMovement b m (.cut why) p) ∧
        (m.kind = .slug →
          (m.phase = .opening ∨ m.phase = .ready → cutMovement b n why p = endMovement b m (.cut why) told) ∧
          (m.phase = .running →
            cutMovement b n why p = updMove m.number (fun x => { x with phase := .stopping }) told) ∧
          (m.phase = .stopping → cutMovement b n why p = p)))) ∧
    (∀ why spare, generalCut b why spare p =
      ((p.mov.entries.map Movement.number).filter (fun k => decide (some k ≠ spare))).foldl
        (fun q k => cutMovement b k why q) p)

/-- TRAVEL_ELAPSED takes a movement in OPENING to RUNNING, a SLUG to READY with GO pending at its unit unless a STOP is.
SET MOVEMENT TIMES checks and applies together, and stalls what has been quiet for longer than a new stall time. At
STALL_TIMEOUT the entry of a RUNNING internal movement is removed, FLOW STALL is raised with the movement as subject and
its copy as interrupted movement while its ports are still occupied (log 74), and then the movement ends with reason
STALL, bound to the frame where it was stacked; a SLUG, or a movement that does not run, does not stall. -/
def Obligations.MovementTimes : Prop :=
  ((∀ (n : Nat) (s : State), s.live →
    (findMove n s.part = none → exec (.travelElapsed n) s = .next s.idled) ∧
    (∀ m, findMove n s.part = some m → m.phase ≠ .opening → exec (.travelElapsed n) s = .next s.idled) ∧
    (∀ m, findMove n s.part = some m → m.phase = .opening → m.kind ≠ .slug →
      exec (.travelElapsed n) s = .next (s.after s.books (updMove n (fun x =>
        { x with phase := .running, travelLeft := 0, quiet := 0, lastProgress := s.part.gate.clock }) s.begun))) ∧
    (∀ m x, findMove n s.part = some m → m.phase = .opening → m.kind = .slug → m.slug = some x →
      exec (.travelElapsed n) s = .next (s.after s.books (updUnit x.unit (fun u => { u with
          outbound := match u.outbound with
            | some (.stop k) => some (.stop k)
            | _ => some .go })
        (updMove n (fun y => { y with phase := .ready, travelLeft := 0 }) s.begun))))) ∧
  (∀ (n : Byte) (i : MovementTimeItems) (s : State), s.serves →
    let set := { s.begun with mov := { s.part.mov with
      stallTime := i.stall.getD s.part.mov.stallTime, cellTravel := i.cellTravel.getD s.part.mov.cellTravel
      outfallTravel := i.outfallTravel.getD s.part.mov.outfallTravel } }
    (movementTimeRanges i = true ↔ (∀ x, i.stall = some x → 10 ≤ x ∧ x ≤ 900) ∧
      (∀ x, i.cellTravel = some x → 1 ≤ x ∧ x ≤ 60) ∧ (∀ x, i.outfallTravel = some x → 1 ≤ x ∧ x ≤ 60)) ∧
    (movementTimeRanges i = false → exec (.setMovementTimes n i) s = .next (s.told n 0x0D { status := .badValue })) ∧
    (movementTimeRanges i = true → (∃ p, exec (.setMovementTimes n i) s =
      .next (s.answered n 0x0D { status := .ok } p) ∧ p.standing = set.standing)) ∧
    (movementTimeRanges i = true → s.part.mov.distinct →
      (∀ m ∈ s.part.mov.entries, m.kind ≠ .slug → m.phase = .running → m.quiet ≤ set.mov.stallTime) →
      exec (.setMovementTimes n i) s = .next (s.answered n 0x0D { status := .ok } set)) ∧
    (∀ m, movementTimeRanges i = true → s.part.mov.entries = [m] → m.kind ≠ .slug → m.phase = .running →
      set.mov.stallTime < m.quiet →
      exec (.setMovementTimes n i) s = .next (s.answered n 0x0D { status := .ok } (stallMove s.books m set))))) ∧
  (∀ (n : Nat) (s : State), s.live →
    (findMove n s.part = none → exec (.stallTimeout n) s = .next s.idled) ∧
    (∀ m, findMove n s.part = some m → m.kind = .slug ∨ m.phase ≠ .running →
      exec (.stallTimeout n) s = .next s.idled) ∧
    (∀ m, findMove n s.part = some m → m.kind ≠ .slug → m.phase = .running →
      let raised := raiseBeforeEnd s.books { ftype := .flowStall, subject := .movement n } m s.begun
      exec (.stallTimeout n) s =
        .next (s.after s.books (movementEnded s.books m (.stall (raised.flt.last.bind LastFault.depth)) raised)) ∧
      (s.inService → raised.flt.last = some ⟨.flowStall, .movement n, s.part.gate.clock,
        if s.part.flt.stack.length < 6 then some (s.part.flt.stack.length + 1) else none⟩)))

/-- METER_QUANTUM books, for the movement on the meter, the least of 10 L, what its source books and what is left to
move, by the booking of its kind, and tells the entry, the lot (a contribution with its seal check, or the discharged or
returned figures) and, for a DISCHARGE, the day's totals (an absent silver reading counts as 0 at the debit, log 19), with
the checks of the increment last; a quantum that meets no
such movement is stray and counted at its meter. A REUSE_DRAW_QUANTUM books a draw, or is stray. After every booking the
neighbours act in the model's order (log 9): an emptied lot closes, then VESSEL OVERFLOW is raised at the crossing of the
capacity of a vessel with no such frame, or its frame is reported PRESENT at a new crossing and CLEARED at or below the
capacity, then movements complete, and REUSE and FEED are told. -/
def Obligations.MeterQuantaAreBookedOrStray : Prop :=
  (∀ (meter : Meter) (s : State), s.working →
    (let metered (m : Movement) : Prop := (m.phase = .opening ∨ m.phase = .running) ∧ match meter with
       | .vesselOutlet v => m.source = .vesselOutlet v ∧ (m.kind = .spill ∨ m.kind = .ret ∨ m.kind = .charge)
       | .cellDrain c => m.source = .cellOutlet c ∧ m.kind = .drain
       | .makeup => m.kind = .fill
       | .outfall => m.kind = .discharge
     (meteredMove meter s.part = none ↔ ∀ m ∈ s.part.mov.entries, ¬ metered m) ∧
     (∀ m, meteredMove meter s.part = some m → m ∈ s.part.mov.entries ∧ metered m)) ∧
    (meteredMove meter s.part = none →
      exec (.meterQuantum meter) s = .next (s.after s.books (match meter with
        | .vesselOutlet v => updVessel v (fun r => { r with stray := countUp r.stray }) s.begun
        | .cellDrain c => { s.begun with mov := { s.part.mov with strays := { s.part.mov.strays with
            cellDrain := updAt s.part.mov.strays.cellDrain c countUp } } }
        | .makeup => { s.begun with mov := { s.part.mov with strays := { s.part.mov.strays with
            makeup := countUp s.part.mov.strays.makeup } } }
        | .outfall => { s.begun with mov := { s.part.mov with strays := { s.part.mov.strays with
            outfall := countUp s.part.mov.strays.outfall } } }))) ∧
    (∀ m k, meteredMove meter s.part = some m →
      quantumBooking m (roleVessel .reuse s.part) (min 10 (m.requested - m.movedLitres)) = some k →
      let q := bookedQuantum m k ⟨s.books, s.begun⟩
      exec (.meterQuantum meter) s = .next (s.after (s.books.book k) q.part) ∧
        q.part.standing = (if m.kind = .discharge then debitDay (k.moves s.books).1 (lotConc m s.part) s.begun
          else s.begun).standing)) ∧
  (∀ (m : Movement) (k : Booking) (q : Plant),
    let new := q.books.book k
    let told := quantumTold m (k.moves q.books).1 (k.moves q.books).2 new q.part
    let booked := afterBooking q.books new k.vessels (some m.number) none told
    bookedQuantum m k q = ⟨new, if m.kind = .discharge then afterIncrement new m.number booked else booked⟩) ∧
  (∀ (m : Movement) (litres mg : Nat) (b : Books) (p : Part),
    let entry := updMove m.number (fun x => { x with
      movedLitres := x.movedLitres + litres, movedMass := x.movedMass + mg, lastProgress := p.gate.clock
      quiet := 0 }) p
    let lot := lotTold b m litres mg entry
    quantumTold m litres mg b p = if m.kind = .discharge then { lot with gate := { lot.gate with
      todayVolume := lot.gate.todayVolume + litres
      todayMass := lot.gate.todayMass + litres * max (lotConc m p) (lot.gate.silver.getD 0) } } else lot) ∧
  (∀ (b : Books) (m : Movement) (litres mg : Nat) (p : Part),
    (m.lot = none → lotTold b m litres mg p = p) ∧
    (∀ n, m.lot = some n →
      let gains (src : ContribSource) := sealCheck b n (updLot n (fun l =>
        { l with contributions := contribute src litres mg l.contributions }) p)
      (∀ v, m.kind = .spill → m.source = .vesselOutlet v → lotTold b m litres mg p = gains (.vessel v)) ∧
      (∀ c, m.kind = .drain → m.source = .cellOutlet c → lotTold b m litres mg p = gains (.cell c)) ∧
      (m.kind = .ret → lotTold b m litres mg p = updLot n (fun l =>
        { l with returnedVolume := l.returnedVolume + litres, returnedMass := l.returnedMass + mg }) p) ∧
      (m.kind = .discharge → lotTold b m litres mg p = updLot n (fun l =>
        { l with dischargedVolume := l.dischargedVolume + litres
                 dischargedMass := l.dischargedMass + mg }) p))) ∧
  (∀ (b : Books) (n : Nat) (p : Part) (l : Lot), findLot n p = some l →
    (∀ k, l.state = .filling → (vesselRec p l.vessel).sealVolume = some k → k ≤ (b.vessel l.vessel).volume →
      l.sealPending = none →
      ((∃ m ∈ p.mov.entries, m.dest = .vesselInlet l.vessel) → sealCheck b n p =
        updLot l.number (fun x => { x with sealPending := some .sealVolume, timer := none }) p) ∧
      ((∀ m ∈ p.mov.entries, m.dest ≠ .vesselInlet l.vessel) → 0 < (b.vessel l.vessel).volume →
        sealCheck b n p = sealLot b l .sealVolume p)) ∧
    (l.state ≠ .filling ∨ l.sealPending.isSome = true ∨
      (∀ k, (vesselRec p l.vessel).sealVolume = some k → (b.vessel l.vessel).volume < k) → sealCheck b n p = p)) ∧
  (∀ (old new : Books) (vs : List VesselId) (mv spare : Option Nat) (p : Part),
    afterBooking old new vs mv spare p =
      marksTold new (vs.filter (fun v => decide (old.vessel v ≠ new.vessel v)))
        (completeMoved new mv (completeEmptied new
          (vs.foldl (fun q v => overflowRule new v (old.vessel v).volume (new.vessel v).volume spare q)
            (vs.foldl (fun q v => closeEmptied new v q) p))))) ∧
  (∀ (b : Books) (v : VesselId) (was now : Nat) (spare : Option Nat) (p : Part),
    ((vesselRec p v).capacity = none → overflowRule b v was now spare p = p) ∧
    (∀ k, (vesselRec p v).capacity = some k →
      let frame := hasFrame .vesselOverflow (.vessel v) p
      (frame = true → now ≤ k → overflowRule b v was now spare p =
        reportOn .vesselOverflow (.vessel v) .cleared p) ∧
      (frame = true → was ≤ k → k < now → overflowRule b v was now spare p =
        reportOn .vesselOverflow (.vessel v) .present p) ∧
      (frame = false → was ≤ k → k < now → overflowRule b v was now spare p = raise b
        { ftype := .vesselOverflow, subject := .vessel v, interrupted := moveAt p (.vesselInlet v)
          spare := spare } p) ∧
      (k < was → k < now → overflowRule b v was now spare p = p) ∧
      (frame = false → now ≤ k → overflowRule b v was now spare p = p))) ∧
  (∀ (m : Movement) (r : Option VesselId) (w : Nat),
    (∀ a b, m.kind = .spill ∨ m.kind = .ret → m.source = .vesselOutlet a → m.dest = .vesselInlet b →
      quantumBooking m r w = some (.vesselToVessel a b w)) ∧
    (∀ a c, m.kind = .charge → m.source = .vesselOutlet a → m.dest = .cellInlet c →
      quantumBooking m r w = some (.vesselToCell a c w)) ∧
    (∀ c b, m.kind = .drain → m.source = .cellOutlet c → m.dest = .vesselInlet b →
      quantumBooking m r w = some (.cellToVessel c b w)) ∧
    (∀ a, m.kind = .discharge → m.source = .vesselOutlet a → quantumBooking m r w = some (.discharge a w)) ∧
    (∀ b, m.kind = .fill → r = some b → quantumBooking m r w = some (.makeup b w))) ∧
  (∀ (m : Movement) (litres mg : Nat) (b : Books) (p : Part), findMove m.number p = some m →
    findMove m.number (quantumTold m litres mg b p) = some { m with
      movedLitres := m.movedLitres + litres, movedMass := m.movedMass + mg, lastProgress := p.gate.clock
      quiet := 0 }) ∧
  (∀ s : State, s.working →
    (∀ v, roleVessel .reuse s.part = some v → 0 < (s.books.vessel v).volume →
      ∃ p, exec .reuseDrawQuantum s = .next (s.after (s.books.book (.draw v 10)) p) ∧
        p.standing = s.begun.standing) ∧
    (roleVessel .reuse s.part = none ∨ (∃ v, roleVessel .reuse s.part = some v ∧ (s.books.vessel v).volume = 0) →
      exec .reuseDrawQuantum s = .next (s.after s.books { s.begun with mov := { s.part.mov with
        strays := { s.part.mov.strays with draw := countUp s.part.mov.strays.draw } } })))

/-! ## Lots (chapter 3) -/

/-- What clearing and rejecting do to a lot: the state, no timer, no binding frame; the first time the clearance number
and time, or the reject reason and rejection number. A CLEARED lot that is not held joins the discharge queue once, in
the place of its clearance number, a REJECTED lot is out of it. Before that, how a FILLING lot is named or opened for an
owner, and what its contributions list enters; after it, what closing a lot records. -/
def Obligations.LotsClearAndAreRejected : Prop :=
  (∀ (n : Nat) (l : Lot) (p : Part), findLot n p = some l →
    (∀ why r, (rejectLot n why r p).gate.queue = p.gate.queue.filter (fun x => decide (x.1 ≠ n)) ∧
      (l.rejectionNo = none →
        (rejectLot n why r p).lot = { p.lot with
          nextRejection := p.lot.nextRejection + 1
          lots := p.lot.lots.map (fun x => if x.number = n then { x with
            state := .rejected, timer := none, bindingFrame := none, rejectReason := why
            rejectionNo := some p.lot.nextRejection } else x) }) ∧
      (l.rejectionNo ≠ none →
        (rejectLot n why r p).lot = { p.lot with
          lots := p.lot.lots.map (fun x => if x.number = n then { x with
            state := .rejected, timer := none, bindingFrame := none } else x) })) ∧
    (∀ r,
      (l.clearanceNo = none → (clearLot n r p).lot = { p.lot with
        nextClearance := p.lot.nextClearance + 1
        lots := p.lot.lots.map (fun x => if x.number = n then { x with
          state := .cleared, timer := none, bindingFrame := none, clearanceNo := some p.lot.nextClearance
          cleared := some p.gate.clock } else x) }) ∧
      (l.clearanceNo ≠ none → (clearLot n r p).lot = { p.lot with
        lots := p.lot.lots.map (fun x => if x.number = n then { x with
          state := .cleared, timer := none, bindingFrame := none } else x) }) ∧
      (l.held = true → (clearLot n r p).gate.queue = p.gate.queue) ∧
      (l.held = false →
        let k := l.clearanceNo.getD p.lot.nextClearance
        let others := p.gate.queue.filter (fun x => decide (x.1 ≠ n))
        (∃ before after, (clearLot n r p).gate.queue = before ++ (n, k) :: after ∧ before ++ after = others ∧
          (∀ x ∈ before, x.2 ≤ k) ∧ (∀ x, after.head? = some x → k < x.2)) ∧
        (others.Pairwise (fun x y => x.2 ≤ y.2) →
          (clearLot n r p).gate.queue.Pairwise (fun x y => x.2 ≤ y.2))))) ∧
  (∀ (want : Nat) (p : Part),
    let opens (v : VesselId) := (vesselRec p v).role = .hold ∧ lotOf v p = none ∧ (vesselRec p v).inlet = .opened
    let n := freeNumberFrom 25 p.lot.nextLot (p.lot.lots.map Lot.number ++ p.lot.closed.map ClosedLot.number)
    (∀ l, fillingLot p = some l → l.sealPending.isSome = true → askFilling want p = (p, .sealPending)) ∧
    (∀ l, fillingLot p = some l → l.sealPending = none → askFilling want p = (p, .named l.number l.vessel)) ∧
    (fillingLot p = none → (∀ v, ¬ opens v) → askFilling want p = (p, .noVessel)) ∧
    (∀ v, fillingLot p = none → opens v → (∀ w, opens w → v ≤ w) →
      (capacityOf p v < want → askFilling want p = (p, .noSpace)) ∧
      (want ≤ capacityOf p v → askFilling want p = (lotNotice n .filling .opened { p with lot := { p.lot with
        nextLot := if n < 65535 then n + 1 else 1
        lots := p.lot.lots ++ [{ number := n, vessel := v, state := .filling, opened := p.gate.clock
                                 timer := if p.lot.times.fillAge = 0 then none else some p.lot.times.fillAge }] } }, .named n v)))) ∧
  (∀ (src : ContribSource) (litres mg : Nat) (l : List Contribution),
    let grown (x : ContribSource) := l.map (fun c => if c.source = x then ⟨x, c.litres + litres, c.mg + mg⟩ else c)
    let named := (l.filter (fun c => decide (c.source ≠ .other))).length
    (litres = 0 → mg = 0 → contribute src litres mg l = l) ∧
    (0 < litres ∨ 0 < mg →
      ((∃ c ∈ l, c.source = src) → contribute src litres mg l = grown src) ∧
      ((∀ c ∈ l, c.source ≠ src) → named < 15 → contribute src litres mg l = l ++ [⟨src, litres, mg⟩]) ∧
      ((∀ c ∈ l, c.source ≠ src) → 15 ≤ named →
        ((∃ c ∈ l, c.source = .other) → contribute src litres mg l = grown .other) ∧
        ((∀ c ∈ l, c.source ≠ .other) → contribute src litres mg l = l ++ [⟨.other, litres, mg⟩])))) ∧
  (∀ (b : Books) (v : VesselId) (l : Lot) (p : Part), lotOf v p = some l →
    let kind := endKindOf l
    (l.state = .filling ∨ 0 < (b.vessel v).volume → closeEmptied b v p = p) ∧
    (l.state ≠ .filling → (b.vessel v).volume = 0 →
      closeEmptied b v p = reexamineNeeds b (closeLot l kind p)) ∧
    (0 < l.dischargedVolume → l.returnedVolume = 0 → kind = .discharged) ∧
    (l.dischargedVolume = 0 → 0 < l.returnedVolume → kind = .returned) ∧
    (0 < l.dischargedVolume → 0 < l.returnedVolume → kind = .split) ∧
    (l.dischargedVolume = 0 → l.returnedVolume = 0 → kind = .emptied)) ∧
  (∀ (l : Lot) (kind : EndKind) (p : Part),
    closeLot l kind p = notify (.lotState l.number none kind.toLot) { p with
      lot := { p.lot with
        lots := p.lot.lots.filter (fun x => decide (x.number ≠ l.number))
        closed := (if p.lot.closed.length < 16 then p.lot.closed else p.lot.closed.tail) ++
          [{ number := l.number, vessel := l.vessel, opened := l.opened, sealed := l.sealed, closed := p.gate.clock
             volumeAtSeal := l.volumeAtSeal, massAtSeal := l.massAtSeal, measuredConc := l.measuredConc
             samples := l.sampleNumber, dischargedVolume := l.dischargedVolume, dischargedMass := l.dischargedMass
             returnedVolume := l.returnedVolume, returnedMass := l.returnedMass, endKind := kind }] }
      gate := { p.gate with queue := p.gate.queue.filter (fun x => decide (x.1 ≠ l.number)) }
      flt := { p.flt with stack := p.flt.stack.map (fun f =>
        if f.lot = some l.number then { f with lot := none } else f) } })

/-- HOLD LOT, RELEASE LOT and REJECT LOT: NO SUCH where no open lot has the number, WRONG STATE in the states that
rule them out, and otherwise held set, held cleared (a CLEARED lot rejoins the queue and the gate selects, and then
the needs re-examine: the order of the two is the model's choice, log 77), or REJECTED with reason HOST, a running
DISCHARGE being cut first. -/
def Obligations.LotRequests : Prop :=
  ∀ (n : Byte) (k : Nat) (s : State), s.serves →
    (findLot k s.part = none →
      exec (.holdLot n k) s = .next (s.told n 0x0F { status := .noSuch }) ∧
      exec (.releaseLot n k) s = .next (s.told n 0x10 { status := .noSuch }) ∧
      exec (.rejectLot n k) s = .next (s.told n 0x11 { status := .noSuch }) ∧
      exec (.sealLot n k) s = .next (s.told n 0x0E { status := .noSuch })) ∧
    (∀ l, findLot k s.part = some l →
      (l.state = .filling ∨ l.state = .discharging ∨ l.state = .returning →
        exec (.holdLot n k) s = .next (s.told n 0x0F { status := .wrongState })) ∧
      (l.state ≠ .filling → l.state ≠ .discharging → l.state ≠ .returning →
        exec (.holdLot n k) s = .next (s.answered n 0x0F { status := .ok }
          (leaveQueue k (updLot k (fun x => { x with held := true }) s.begun)))) ∧
      (l.held = false → exec (.releaseLot n k) s = .next (s.told n 0x10 { status := .ok })) ∧
      (l.held = true → l.state = .cleared → exec (.releaseLot n k) s = .next (s.answered n 0x10 { status := .ok }
        (reexamineNeeds s.books (selectLot s.books
          (joinQueue k (updLot k (fun x => { x with held := false }) s.begun)))))) ∧
      (l.held = true → l.state ≠ .cleared → exec (.releaseLot n k) s = .next (s.answered n 0x10 { status := .ok }
        (reexamineNeeds s.books (updLot k (fun x => { x with held := false }) s.begun)))) ∧
      (l.state = .settling ∨ l.state = .sampling ∨ l.state = .awaitingVerdict ∨ l.state = .cleared →
        exec (.rejectLot n k) s = .next (s.answered n 0x11 { status := .ok }
          (reexamineNeeds s.books (rejectLot k (some .host) .host s.begun)))) ∧
      (l.state = .discharging → exec (.rejectLot n k) s = .next (s.answered n 0x11 { status := .ok }
        (cutDischarge s.books .reject s.begun))) ∧
      (l.state = .filling ∨ l.state = .suspended ∨ l.state = .rejected ∨ l.state = .returning →
        exec (.rejectLot n k) s = .next (s.told n 0x11 { status := .wrongState })))

/-- SEAL LOT and FILL_AGE_EXPIRY on a FILLING lot: with an inflow in flight the seal is pending, with water and no
inflow the lot seals at once (SETTLING, with its figures), and an empty lot is closed by the request, or has its timer
started afresh by the expiry. -/
def Obligations.LotsSeal : Prop :=
  (∀ (n : Byte) (k : Nat) (l : Lot) (s : State), s.serves → findLot k s.part = some l →
    (l.state ≠ .filling → exec (.sealLot n k) s = .next (s.told n 0x0E { status := .wrongState })) ∧
    (l.state = .filling → l.sealPending.isSome = true →
      exec (.sealLot n k) s = .next (s.told n 0x0E { status := .started })) ∧
    (l.state = .filling → l.sealPending = none → inflowInFlight s.part l.vessel = true →
      exec (.sealLot n k) s = .next (s.answered n 0x0E { status := .started }
        (updLot k (fun x => { x with sealPending := some .host, timer := none }) s.begun))) ∧
    (l.state = .filling → l.sealPending = none → inflowInFlight s.part l.vessel = false →
      0 < (s.books.vessel l.vessel).volume →
      exec (.sealLot n k) s = .next (s.answered n 0x0E { status := .ok } (sealLot s.books l .host s.begun))) ∧
    (l.state = .filling → l.sealPending = none → inflowInFlight s.part l.vessel = false →
      (s.books.vessel l.vessel).volume = 0 →
      exec (.sealLot n k) s = .next (s.answered n 0x0E { status := .ok }
        (reexamineNeeds s.books (closeLot l .emptied s.begun))))) ∧
  (∀ (k : Nat) (l : Lot) (s : State), s.live → findLot k s.part = some l →
    (l.state ≠ .filling ∨ l.timer = none ∨ s.part.ctl.mode.running = false →
      exec (.fillAgeExpiry k) s = .next s.idled) ∧
    (l.state = .filling → l.timer.isSome = true → l.sealPending = none → s.part.ctl.mode.running = true →
      (inflowInFlight s.part l.vessel = true → exec (.fillAgeExpiry k) s = .next (s.after s.books
        (updLot k (fun x => { x with sealPending := some .fillAge, timer := none }) s.begun))) ∧
      (inflowInFlight s.part l.vessel = false → 0 < (s.books.vessel l.vessel).volume →
        exec (.fillAgeExpiry k) s = .next (s.after s.books (sealLot s.books l .fillAge s.begun))) ∧
      (inflowInFlight s.part l.vessel = false → (s.books.vessel l.vessel).volume = 0 →
        exec (.fillAgeExpiry k) s = .next (s.after s.books (updLot k (fun x => { x with
          timer := if s.part.lot.times.fillAge = 0 then none else some s.part.lot.times.fillAge }) s.begun))))) ∧
  (∀ (b : Books) (l : Lot) (r : SealReason) (p : Part), 0 < p.lot.times.settle →
    (sealLot b l r p).lot.lots = p.lot.lots.map (fun x => if x.number = l.number then { x with
      state := .settling, sealed := some p.gate.clock, volumeAtSeal := some (b.vessel l.vessel).volume
      massAtSeal := some (b.vessel l.vessel).mass, sealPending := none, timer := some p.lot.times.settle } else x))

/-- SETTLE_EXPIRY begins a sample; SAMPLE_END books it to the sampled accounts, sends SAMPLE READY, and a lot that
still holds water awaits its verdict, while one that the sample empties closes after that notice (their order is the
model's choice, log 9); VERDICT_EXPIRY draws the second sample, or rejects the lot with NO VERDICT. -/
def Obligations.LotTimers : Prop :=
  ∀ (k : Nat) (l : Lot) (s : State), s.live → findLot k s.part = some l →
    let sampling (r : LotReason) := lotNotice k .sampling r (updLot k (fun x => { x with
      state := .sampling, sampleNumber := x.sampleNumber + 1, timer := some s.part.lot.times.sampleDuration }) s.begun)
    (s.part.ctl.mode.running = false ∨ l.timer = none →
      exec (.settleExpiry k) s = .next s.idled ∧ exec (.sampleEnd k) s = .next s.idled ∧
      exec (.verdictExpiry k) s = .next s.idled) ∧
    (s.part.ctl.mode.running = true → l.timer.isSome = true →
      (l.state = .settling → exec (.settleExpiry k) s = .next (s.after s.books (sampling .settled))) ∧
      (l.state = .sampling →
        let booked := s.books.book (.sample l.vessel s.part.lot.times.sampleVolume)
        let ready := notify (.sampleReady k l.sampleNumber) s.begun
        (0 < (booked.vessel l.vessel).volume →
          exec (.sampleEnd k) s = .next (s.after booked (afterBooking s.books booked [l.vessel] none none
            (lotNotice k .awaitingVerdict .sampled (updLot k (fun x => { x with
              state := .awaitingVerdict, timer := some s.part.lot.times.verdict }) ready))))) ∧
        ((booked.vessel l.vessel).volume = 0 →
          exec (.sampleEnd k) s = .next (s.after booked (afterBooking s.books booked [l.vessel] none none
            (updLot k (fun x => { x with timer := none }) ready))))) ∧
      (l.state = .awaitingVerdict → l.sampleNumber < 2 →
        exec (.verdictExpiry k) s = .next (s.after s.books (sampling .resample))) ∧
      (l.state = .awaitingVerdict → 2 ≤ l.sampleNumber →
        exec (.verdictExpiry k) s = .next (s.after s.books
          (reexamineNeeds s.books (rejectLot k (some .noVerdict) .noVerdict s.begun)))))

/-- VERDICT: its nine checks in order with their statuses, and an applied verdict: the lot's mass is replaced by the
measured concentration times its volume, the difference going to the mass corrections, and the lot is CLEARED where the
result is PASS and the figures lie within the limits, REJECTED otherwise. A lot CLEARED with held clear joins the discharge
queue and the gate makes a selection; one CLEARED with held set joins none and no selection is made, so that the clearing
leaves the queue, the last outcome and the rest of the gate as they were, and so does the whole command where the booking
has nothing else to follow it. -/
def Obligations.VerdictIsCheckedAndApplied : Prop :=
  (∀ (n : Byte) (i : VerdictItems) (s : State), s.serves →
    (verdictRange i = false → exec (.verdict n i) s = .next (s.told n 0x12 { status := .badValue })) ∧
    (verdictRange i = true → (∃ c ∈ s.part.lot.closed, c.number = i.lot) →
      exec (.verdict n i) s = .next (s.told n 0x12 { status := .late })) ∧
    (verdictRange i = true → (∀ c ∈ s.part.lot.closed, c.number ≠ i.lot) → findLot i.lot s.part = none →
      exec (.verdict n i) s = .next (s.told n 0x12 { status := .noSuch })) ∧
    (∀ l, verdictRange i = true → (∀ c ∈ s.part.lot.closed, c.number ≠ i.lot) → findLot i.lot s.part = some l →
      (∀ st, verdictRefusal i l s.part.gate = some st →
        exec (.verdict n i) s = .next (s.told n 0x12 { status := st })) ∧
      (verdictRefusal i l s.part.gate = none →
        let booked := s.books.book (.massCorrection l.vessel i.conc)
        let marked := updLot i.lot (fun x => { x with
          measuredConc := some i.conc, measuredPh := some i.ph, verdict := some i.result, timer := none }) s.begun
        let passes := i.result = .pass ∧ concWithin s.part.gate.limits i.conc = true ∧
          phWithin s.part.gate.limits i.ph = true
        let cleared := clearLot i.lot .pass marked
        let answeredAfter (p : Part) := s.after booked ((afterBooking s.books booked [l.vessel] none none p).reply n 0x12
          { status := .ok, items := .lotTook .cleared })
        (passes → l.held = false →
          exec (.verdict n i) s = .next (answeredAfter (selectLot booked cleared)) ∧
          cleared.gate = { s.part.gate with queue := cleared.gate.queue } ∧
          (i.lot, l.clearanceNo.getD s.part.lot.nextClearance) ∈ cleared.gate.queue) ∧
        (passes → l.held = true →
          exec (.verdict n i) s = .next (answeredAfter cleared) ∧ cleared.gate = s.part.gate ∧
          ((vesselRec s.part l.vessel).role = .hold → 0 < (s.books.vessel l.vessel).volume →
            (∀ m ∈ s.part.mov.entries, sourceVolume s.books m.source ≠ some 0) →
            hasFrame .vesselOverflow (.vessel l.vessel) s.part = false →
            (answeredAfter cleared).part.gate = s.part.gate)) ∧
        (¬ passes → exec (.verdict n i) s = .next (s.after booked ((afterBooking s.books booked [l.vessel] none none
          (reexamineNeeds booked (rejectLot i.lot (some (if i.result = .fail then .lab else .limit))
            (if i.result = .fail then .lab else .limit) marked))).reply n 0x12
            { status := .ok, items := .lotTook .rejected }))))) ) ∧
  (∀ (i : VerdictItems) (l : Lot) (g : Gate),
    (verdictRange i = true ↔ (i.sample = 1 ∨ i.sample = 2) ∧ i.conc ≤ 30000 ∧ i.ph ≤ 140) ∧
    verdictRefusal i l g =
      if i.sample < l.sampleNumber then some .late
      else if l.state = .filling ∨ l.state = .settling ∨ l.state = .sampling then some .wrongState
      else if l.sampleNumber < i.sample then some .badValue
      else if l.state = .cleared ∨ l.state = .discharging ∨ l.state = .suspended ∨ l.state = .rejected ∨
        l.state = .returning then some .late
      else if g.limits.concLimit = none ∨ g.limits.phBand = none then some .wrongState
      else none) ∧
  (∀ (b : Books) (v : VesselId) (conc : Nat),
    (b.book (.massCorrection v conc)).vessel v = ⟨(b.vessel v).volume, conc * (b.vessel v).volume⟩ ∧
    (b.book (.massCorrection v conc)).acc = { b.acc with massCorrections :=
      b.acc.massCorrections + ((conc * (b.vessel v).volume : Nat) : Int) - (b.vessel v).mass })

/-! ## The Source Table (chapter 4) -/

/-- SET SOURCE makes or replaces the STATIC entry of a tag, REMOVE SOURCE removes an entry; each answers as its checks
say, and nothing but the table changes. -/
def Obligations.SourceRequests : Prop :=
  ∀ (n : Byte) (raw : RawTag) (s : State), s.serves →
    (tagOf raw = none →
      (∀ i, exec (.setSource n raw i) s = .next (s.told n 0x16 { status := .badValue })) ∧
      exec (.removeSource n raw) s = .next (s.told n 0x17 { status := .badValue })) ∧
    (∀ t i, tagOf raw = some t → unitOf i.unit = none →
      exec (.setSource n raw i) s = .next (s.told n 0x16 { status := .badValue })) ∧
    (∀ t i u e, tagOf raw = some t → unitOf i.unit = some u → findSource t s.part = some e →
      exec (.setSource n raw i) s = .next (s.answered n 0x16 { status := .ok } { s.begun with src := { s.part.src with
        entries := s.part.src.entries.map (fun x => if x.tag = t then
          { x with unit := u, origin := .static i.pinned i.filter i.bypass } else x) } })) ∧
    (∀ t i u, tagOf raw = some t → unitOf i.unit = some u → findSource t s.part = none →
      let e : SourceEntry := ⟨t, u, .static i.pinned i.filter i.bypass, none, none, 0, 0, 0⟩
      (64 ≤ s.part.src.entries.length →
        exec (.setSource n raw i) s = .next (s.told n 0x16 { status := .full })) ∧
      (s.part.src.entries.length < 64 →
        exec (.setSource n raw i) s = .next (s.answered n 0x16 { status := .ok } { s.begun with
          src := { s.part.src with entries := insertByTag e s.part.src.entries } }))) ∧
    (∀ t, tagOf raw = some t → findSource t s.part = none →
      exec (.removeSource n raw) s = .next (s.told n 0x17 { status := .noSuch })) ∧
    (∀ t e, tagOf raw = some t → findSource t s.part = some e →
      exec (.removeSource n raw) s = .next (s.answered n 0x17 { status := .ok } { s.begun with src := { s.part.src with
        entries := s.part.src.entries.filter (fun x => decide (x.tag ≠ t)), fullReported := false } }))

/-- What the Source Table makes of an offer: a LEARNED entry is refreshed by a learning unit and left alone by another,
a STATIC entry answers for its own unit only, an unknown tag is learned by a learning unit while there is room, and
otherwise the unknown-source policy decides. A class that changes sends CLASS CHANGE, a unit that changes MIGRATED after
it. -/
def Obligations.OfferIsClassified : Prop :=
  ∀ (t : Tag) (u : UnitId) (conc : Nat) (p : Part),
    let cls := if conc < p.fld.settings.amber then WaterClass.green
      else if conc < p.fld.settings.red then .amber else .red
    let byPolicy := match p.src.policy with
      | .route => Classification.continue_ cls false false
      | .quarantine => .continue_ cls true false
      | .refuse => .unknownSource
    let classTold (old : Option WaterClass) (q : Part) := match old with
      | some c => if c = cls then q else notify (.classChange t c cls) q
      | none => q
    let unitTold (old : UnitId) (q : Part) := if old = u then q else notify (.migrated t old u) q
    let kept (f : SourceEntry → SourceEntry) := { p with src := { p.src with
      entries := p.src.entries.map (fun x => if x.tag = t then f x else x) } }
    (∀ e mark, findSource t p = some e → e.origin = .learned mark → (unitRec p u).learning = true →
      classifyOffer t u conc p = (unitTold e.unit (classTold e.cls (kept (fun x =>
        { x with origin := .learned true, cls := some cls, unit := u }))), .continue_ cls false false)) ∧
    (∀ e mark old, findSource t p = some e → e.origin = .learned mark → (unitRec p u).learning = false →
      e.cls = some old → classifyOffer t u conc p = (p, .continue_ old false false)) ∧
    (∀ e pinned filter bypass, findSource t p = some e → e.origin = .static pinned filter bypass →
      (e.unit ≠ u → classifyOffer t u conc p = (p, .unitMismatch)) ∧
      (e.unit = u → classifyOffer t u conc p = (classTold e.cls (kept (fun x => { x with cls := some cls })),
        .continue_ (pinned.getD cls) filter bypass))) ∧
    (findSource t p = none → (unitRec p u).learning = true → p.src.entries.length < 64 →
      let e : SourceEntry := ⟨t, u, .learned true, some cls, none, 0, 0, 0⟩
      classifyOffer t u conc p = (notify (.sourceLearned t u cls)
        { p with src := { p.src with entries := insertByTag e p.src.entries } }, .continue_ cls false false)) ∧
    (findSource t p = none → (unitRec p u).learning = false → classifyOffer t u conc p = (p, byPolicy)) ∧
    (findSource t p = none → (unitRec p u).learning = true → 64 ≤ p.src.entries.length →
      (p.src.fullReported = true → classifyOffer t u conc p = (p, byPolicy)) ∧
      (p.src.fullReported = false → classifyOffer t u conc p =
        (notify (.tableFull t u) { p with src := { p.src with fullReported := true } }, byPolicy)))

/-- AGING_EXPIRY in OPERATING and LOCKDOWN: every LEARNED entry whose age mark is clear is removed with its SOURCE
AGED notice, in tag order, and the full-reported flag is then clear; every other LEARNED entry has its mark cleared, a
STATIC entry is untouched, no movement is, and the timer restarts with the whole period. In the other modes the timer is
paused (log 4: the expiry is then passed over). The order of the notices, by tag, is the model's (log 55). -/
def Obligations.AgingScan : Prop :=
  ∀ s : State, s.live →
    (s.part.ctl.mode.running = false → exec .agingExpiry s = .next s.idled) ∧
    (s.part.ctl.mode.running = true → s.part.src.inTagOrder →
      let aged := s.part.src.entries.filter (fun e => decide (e.origin = .learned false))
      let told := aged.foldl (fun q e => notify (.sourceAged e.tag e.unit e.slugs e.litres e.mg) q) s.begun
      exec .agingExpiry s = .next (s.after s.books { told with src := { s.part.src with
        entries := s.part.src.entries.filterMap (fun e => match e.origin with
          | .learned true => some { e with origin := .learned false }
          | .learned false => none
          | .static _ _ _ => some e)
        fullReported := s.part.src.fullReported && aged.isEmpty
        agingLeft := s.part.src.agingPeriod * 60 } }))

/-! ## The Field Link (chapter 5) -/

/-- SET UNIT: BUSY where it would disable a unit with a slug in flight; else both flags apply. A unit that becomes
enabled is UNKNOWN with no misses; one that becomes disabled loses its pending outbound and its open turn besides, and
its UNIT SILENT frame is reported CLEARED if it was SILENT; where no unit is left enabled, polling resumes at the lowest
enabled address. The end of the open turn is the model's choice (log 22), and so is the reply OK to a request that carries
neither flag (log 56). -/
def Obligations.SetUnit : Prop :=
  ∀ (n : Byte) (k : Nat) (u : UnitId) (en le : Option Bool) (s : State), s.serves → unitOf k = some u →
    let r := unitRec s.part u
    let learn := le.getD r.learning
    ((en = none ∨ en = some r.enabled) → exec (.setUnit n k en le) s = .next (s.answered n 0x1B { status := .ok }
      (updUnit u (fun _ => { r with learning := learn }) s.begun))) ∧
    (r.enabled = false → en = some true → exec (.setUnit n k en le) s = .next (s.answered n 0x1B { status := .ok }
      (updUnit u (fun _ => { r with enabled := true, presence := .unknown, missed := 0, learning := learn })
        s.begun))) ∧
    (r.enabled = true → en = some false → r.slug.isSome = true →
      exec (.setUnit n k en le) s = .next (s.told n 0x1B { status := .busy })) ∧
    (r.enabled = true → en = some false → r.slug = none →
      let off := updUnit u (fun _ => { r with
        enabled := false, presence := .unknown, missed := 0, outbound := none, learning := learn }) s.begun
      let told := if r.presence = .silent then reportOn .unitSilent (.unit u) .cleared off else off
      let ended (p : Part) := if s.part.fld.turn.map Turn.unit = some u then endTurn p else p
      ((∃ w, w ≠ u ∧ (unitRec s.part w).enabled = true) →
        exec (.setUnit n k en le) s = .next (s.answered n 0x1B { status := .ok } (ended told))) ∧
      ((∀ w, w ≠ u → (unitRec s.part w).enabled = false) →
        exec (.setUnit n k en le) s = .next (s.answered n 0x1B { status := .ok }
          (ended { told with fld := { told.fld with lastTurn := none } }))))

/-- FIELD_TURN: the turns go to the enabled units in ascending address and start again at the lowest. The record sent is
the pending STOP or GO, and POLL otherwise. No turn is given while one is open (log 22), in STARTING or FAILED, or with
no unit enabled. -/
def Obligations.FieldTurnsGoRound : Prop :=
  (∀ s : State, s.live →
    (s.part.fld.turn.isSome = true ∨ s.part.ctl.mode.inService = false ∨ nextUnit s.part = none →
      exec .fieldTurn s = .next s.idled) ∧
    (∀ u, s.part.fld.turn = none → s.inService → nextUnit s.part = some u →
      exec .fieldTurn s = .next (s.after s.books { s.begun with fld := { s.part.fld with
        lastTurn := some u, turn := some ⟨u, turnMessage s.part u⟩, sent := some (u, turnMessage s.part u) } }))) ∧
  (∀ p : Part,
    (nextUnit p = none → ∀ u, (unitRec p u).enabled = false) ∧
    (∀ u, nextUnit p = some u → (unitRec p u).enabled = true ∧
      ((∃ l, p.fld.lastTurn = some l ∧ l < u ∧ ∀ w, (unitRec p w).enabled = true → l < w → u ≤ w) ∨
       ((∀ l, p.fld.lastTurn = some l → ∀ w, (unitRec p w).enabled = true → w ≤ l) ∧
          ∀ w, (unitRec p w).enabled = true → u ≤ w)))) ∧
  (∀ (p : Part) (u : UnitId),
    (∀ mv, (unitRec p u).outbound = some (.stop mv) → turnMessage p u = .stop mv) ∧
    (∀ k m, (unitRec p u).outbound = some .go → (unitRec p u).slug = some k → findMove k p = some m →
      turnMessage p u = .go k m.requested) ∧
    ((unitRec p u).outbound = none → turnMessage p u = .poll))

/-- A miss, by silence or by an answer that is not valid: the missed count rises to at most 255 and the turn ends; at
the silence limit the unit becomes SILENT, UNIT SILENT is sent, a slug in OPENING or READY is removed with STOP pending,
and for one under way UNIT SILENT is raised; a ROUTED that drew the miss is withdrawn. A miss with no turn open is passed
over (log 22), and the count comes before the withdrawal of a ROUTED (log 24). -/
def Obligations.FieldMisses : Prop :=
  (∀ s : State, s.live → s.part.fld.turn = none → exec .fieldReplyTimeout s = .next s.idled) ∧
  (∀ (t : Turn) (bytes : List Byte) (s : State), s.live → s.part.fld.turn = some t → parseAnswer t.unit bytes = none →
    exec (.fieldAnswerInvalid bytes) s = exec .fieldReplyTimeout s) ∧
  (∀ (t : Turn) (s : State), s.live → s.part.fld.turn = some t →
    let missed := min 255 ((unitRec s.part t.unit).missed + 1)
    let counted := updUnit t.unit (fun r => { r with missed := missed }) (endTurn s.begun)
    let silent := notify (.unitSilent t.unit (unitRec s.part t.unit).slug)
      (updUnit t.unit (fun r => { r with presence := .silent }) counted)
    let quiet := s.part.fld.settings.silenceLimit ≤ missed ∧ (unitRec s.part t.unit).presence ≠ .silent
    ((¬ quiet) → (∀ v vol mv, t.sent ≠ .decision (.routed v vol mv)) →
      exec .fieldReplyTimeout s = .next (s.after s.books counted)) ∧
    (∀ v vol mv, (¬ quiet) → t.sent = .decision (.routed v vol mv) →
      exec .fieldReplyTimeout s = .next (s.after s.books (cutMovement s.books mv .plain counted))) ∧
    (quiet → (∀ v vol mv, t.sent ≠ .decision (.routed v vol mv)) →
      (slugOf s.part t.unit = none → exec .fieldReplyTimeout s = .next (s.after s.books silent)) ∧
      (∀ m x, slugOf s.part t.unit = some m → m.slug = some x → m.phase = .opening ∨ m.phase = .ready →
        exec .fieldReplyTimeout s = .next (s.after s.books
          (endMovement s.books m (.cut .plain) (setStop x.unit m.number silent)))) ∧
      (∀ m, slugOf s.part t.unit = some m → m.phase = .running ∨ m.phase = .stopping →
        exec .fieldReplyTimeout s = .next (s.after s.books
          (raise s.books { ftype := .unitSilent, subject := .unit t.unit, interrupted := some m } silent)))) ∧
    (∀ v vol mv, quiet → t.sent = .decision (.routed v vol mv) →
      (slugOf s.part t.unit = none →
        exec .fieldReplyTimeout s = .next (s.after s.books (cutMovement s.books mv .plain silent))) ∧
      (∀ m x, slugOf s.part t.unit = some m → m.slug = some x → m.phase = .opening ∨ m.phase = .ready →
        exec .fieldReplyTimeout s = .next (s.after s.books (cutMovement s.books mv .plain
          (endMovement s.books m (.cut .plain) (setStop x.unit m.number silent)))))))

/-- A valid answer sets the missed count to 0 and the unit PRESENT, for a SILENT unit with UNIT PRESENT and its frame
CLEARED. IDLE then completes the turn and delivers a STOP or a GO: at a GO the SLUG is RUNNING, with the level reading
written and the transfer timeout started; the STOP sent is cleared, and one set for another slug meanwhile stays
pending; at a STOP that stood in the place of the GO of a slug in READY, that GO is pending then (log 57). IDLE with no
turn open is passed over (log 22). -/
def Obligations.UnitIdleDelivers : Prop :=
  (∀ s : State, s.live → s.part.fld.turn = none → exec .unitIdle s = .next s.idled) ∧
  (∀ (t : Turn) (s : State), s.live → s.part.fld.turn = some t →
    let known := updUnit t.unit (fun r => { r with missed := 0, presence := .present }) s.begun
    let heard := if (unitRec s.part t.unit).presence = .silent then
      reportOn .unitSilent (.unit t.unit) .cleared (notify (.unitPresent t.unit) known) else known
    (t.sent = .poll ∨ (∃ d, t.sent = .decision d) →
      exec .unitIdle s = .next (s.after s.books (endTurn heard))) ∧
    (∀ mv, t.sent = .stop mv → (unitRec s.part t.unit).outbound ≠ some (.stop mv) →
      exec .unitIdle s = .next (s.after s.books (endTurn heard))) ∧
    (∀ mv, t.sent = .stop mv → (unitRec s.part t.unit).outbound = some (.stop mv) →
      ((∀ m, slugOf s.part t.unit = some m → m.phase ≠ .ready) → exec .unitIdle s =
        .next (s.after s.books (endTurn (updUnit t.unit (fun r => { r with outbound := none }) heard)))) ∧
      (∀ m, slugOf s.part t.unit = some m → m.phase = .ready → exec .unitIdle s =
        .next (s.after s.books (endTurn (updUnit t.unit (fun r => { r with outbound := some .go }) heard))))) ∧
    (∀ mv vol m v, t.sent = .go mv vol → findMove mv s.part = some m → m.dest = .vesselInlet v →
      exec .unitIdle s = .next (s.after s.books (endTurn (updUnit t.unit (fun r => { r with
          outbound := if r.outbound = some .go then none else r.outbound })
        (updMove mv (fun x => { x with
          phase := .running, lastProgress := s.part.gate.clock, quiet := 0
          timeoutLeft := some s.part.fld.settings.transferTimeout
          slug := x.slug.map (fun y => { y with levelAtGo := (vesselRec s.part v).lastLevel }) }) heard))))))

/-- UNIT_OFFER: the offer is recorded and decided in its turn by the routing rules, the decision is recorded and sent;
offered in answer to a DECISION it is a miss, and with no turn open it is passed over (log 22). The routing rules end an
offer by their checks, in order; a CONTINUE walks the candidates in list order and takes the first that passes the four
tests of its vessel and whose start is made, TABLE FULL ending the walk; with none taken the decision is TOO LARGE, NO
ROUTE, or WAIT with the reason of the first candidate that was not skipped as DISABLED. A ROUTED stands for a SLUG in
OPENING from the unit into the vessel's inlet for the whole offered volume, which fitted the vessel's limit less what it
books and what was reserved, the inlet being neither DISABLED nor, without bypass, BLOCKED. -/
def Obligations.OffersAreRouted : Prop :=
  (∀ (o : Offer) (s : State), s.live →
    (s.part.fld.turn = none → exec (.unitOffer o) s = .next s.idled) ∧
    (∀ u d, s.part.fld.turn = some ⟨u, .decision d⟩ → exec (.unitOffer o) s = exec .fieldReplyTimeout s) ∧
    (∀ u sent, s.part.fld.turn = some ⟨u, sent⟩ → sent.isDecision = false →
      let taken := updUnit u (fun r => { r with lastOffer := some o }) (deliver u sent false (answered u s.begun))
      let decided := routeOffer s.books u o taken
      exec (.unitOffer o) s = .next (s.after s.books (sendField u (.decision decided.2)
        (updUnit u (fun r => { r with lastDecision := some decided.2 }) decided.1))))) ∧
  ((∀ (b : Books) (u : UnitId) (o : Offer) (p : Part),
    (p.ctl.mode.running = false → routeOffer b u o p = (p, .wait .mode)) ∧
    (p.ctl.mode.running = true → (unitRec p u).slug.isSome = true → routeOffer b u o p = (p, .refuse .oneAtATime)) ∧
    (offerRange o = true ↔ 1 ≤ o.volume ∧ o.volume ≤ 4000 ∧ o.conc ≤ 30000 ∧ o.ph ≤ 140) ∧
    (p.ctl.mode.running = true → (unitRec p u).slug = none → tagOf o.tag = none ∨ offerRange o = false →
      routeOffer b u o p = (p, .refuse .badOffer)) ∧
    (∀ t, p.ctl.mode.running = true → (unitRec p u).slug = none → tagOf o.tag = some t → offerRange o = true →
      let c := classifyOffer t u o.conc p
      (c.2 = .unitMismatch → routeOffer b u o p = (c.1, .refuse .unitMismatch)) ∧
      (c.2 = .unknownSource → routeOffer b u o p = (c.1, .refuse .unknownSource)) ∧
      (∀ cls q y, c.2 = .continue_ cls q y →
        ((actionsInForce c.1).stopIntake = true → routeOffer b u o p = (c.1, .wait .stopped)) ∧
        ((actionsInForce c.1).stopIntake = false → routeOffer b u o p = routeContinue b
          { unit := u, tag := t, cls := cls, conc := o.conc, levelAtGo := none } q y o.volume c.1)))) ∧
  (∀ (b : Books) (x : SlugParticulars) (q y : Bool) (vol : Nat) (p : Part), (actionsInForce p).stopIntake = false →
    let cs := candidates p x.cls q
    let walk := walkCandidates b x y vol cs [] p
    (∀ v n, walk.2 = .ok (v, n) → routeContinue b x q y vol p = (walk.1, .routed v vol n)) ∧
    (∀ skips, walk.2 = .error skips → routeContinue b x q y vol p = (walk.1, noCandidate walk.1 cs skips vol))) ∧
  (∀ (b : Books) (x : SlugParticulars) (y : Bool) (vol : Nat) (skips : List Skip) (p : Part),
    walkCandidates b x y vol [] skips p = (p, .error skips) ∧
    (∀ c rest,
      let tried := tryCandidate b x y vol c p
      (∀ r, tried.2 = .ok r → walkCandidates b x y vol (c :: rest) skips p = (tried.1, .ok r)) ∧
      (tried.2 = .error .tableFull →
        walkCandidates b x y vol (c :: rest) skips p = (tried.1, .error (skips ++ [.tableFull]))) ∧
      (∀ k, k ≠ .tableFull → tried.2 = .error k →
        walkCandidates b x y vol (c :: rest) skips p = walkCandidates b x y vol rest (skips ++ [k]) tried.1))) ∧
  (∀ (b : Books) (x : SlugParticulars) (y : Bool) (vol : Nat) (c : Candidate) (p : Part),
    let found := candidateVessel c vol p
    (∀ k, found.2 = .error k → tryCandidate b x y vol c p = (found.1, .error k)) ∧
    (∀ v lot, found.2 = .ok (v, lot) →
      (∀ k, vesselSkip b found.1 v vol y = some k → tryCandidate b x y vol c p = (found.1, .error k)) ∧
      (vesselSkip b found.1 v vol y = none →
        let asked := askStart b { kind := .slug, source := .sumpUnit x.unit, dest := .vesselInlet v
                                  requested := vol, lot := lot, slug := some x } found.1
        (∀ n, asked.2 = .started n → tryCandidate b x y vol c p =
          (updUnit x.unit (fun r => { r with slug := some n }) asked.1, .ok (v, n))) ∧
        (asked.2 = .refused .tableFull → tryCandidate b x y vol c p = (asked.1, .error .tableFull)) ∧
        (∀ why, why ≠ .tableFull → asked.2 = .refused why →
          tryCandidate b x y vol c p = (asked.1, .error .inletBusy))))) ∧
  (∀ (vol : Nat) (p : Part),
    (∀ r, candidateVessel (.role r) vol p = (p, match roleVessel r p with
      | none => .error .disabled
      | some v => .ok (v, none))) ∧
    (let asked := askFilling vol p
     candidateVessel .lot vol p = (asked.1, match asked.2 with
      | .named lot v => .ok (v, some lot)
      | .sealPending => .error .inletBusy
      | .noVessel => .error .disabled
      | .noSpace => .error .noSpace))) ∧
  (∀ (b : Books) (p : Part) (v : VesselId) (vol : Nat) (y : Bool),
    let r := vesselRec p v
    let disabled := r.inlet = .disabled
    let blocked := y = false ∧ (r.inlet = .blocked ∨ r.regBlock = true)
    let full := routingLimit p v - (b.vessel v).volume - reservedVolume p v < vol
    let capacity := r.capacity.getD 0
    (r.role = .feed → routingLimit p v = capacity * p.reg.marks.feedHigh / 8) ∧
    (r.role = .reuse →
      routingLimit p v = if p.reg.switchOn then capacity - p.reg.marks.headroom else capacity) ∧
    (r.role ≠ .feed → r.role ≠ .reuse → routingLimit p v = capacity) ∧
    (disabled → vesselSkip b p v vol y = some .disabled) ∧
    (¬ disabled → blocked → vesselSkip b p v vol y = some .blocked) ∧
    (¬ disabled → ¬ blocked → full → vesselSkip b p v vol y = some .noSpace) ∧
    (¬ disabled → ¬ blocked → ¬ full →
      vesselSkip b p v vol y = if portBusy p (.vesselInlet v) then some .inletBusy else none)) ∧
  (∀ (p : Part) (cs : List Candidate) (skips : List Skip) (vol : Nat),
    let sized (k : Nat) := ∃ c ∈ cs, candidateCapacity p c = some k
    let tooLarge := (∃ k, sized k) ∧ ∀ k, sized k → k < vol
    (tooLarge → noCandidate p cs skips vol = .refuse .tooLarge) ∧
    (¬ tooLarge → (∀ k ∈ skips, k = .disabled) → noCandidate p cs skips vol = .refuse .noRoute) ∧
    (∀ before k after, ¬ tooLarge → skips = before ++ k :: after → (∀ j ∈ before, j = .disabled) → k ≠ .disabled →
      noCandidate p cs skips vol = .wait (match k with
        | .blocked => .blocked
        | .noSpace => .noSpace
        | .tableFull => .tableFull
        | _ => .inletBusy)) ∧
    (∀ r, candidateCapacity p (.role r) = roleCapacity r p) ∧
    (let open_ (v : VesselId) := (vesselRec p v).role = .hold ∧ (vesselRec p v).inlet ≠ .disabled
     (candidateCapacity p .lot = none ↔ ∀ v, ¬ open_ v) ∧
     (∀ k, candidateCapacity p .lot = some k →
       (∃ v, open_ v ∧ k = (vesselRec p v).capacity.getD 0) ∧
       ∀ v, open_ v → (vesselRec p v).capacity.getD 0 ≤ k))) ∧
  (∀ (b : Books) (x : SlugParticulars) (q y : Bool) (vol : Nat) (p : Part) (v : VesselId) (granted n : Nat),
    (routeContinue b x q y vol p).2 = .routed v granted n →
    let r := (routeContinue b x q y vol p).1
    granted = vol ∧ (unitRec r x.unit).slug = some n ∧
      (vesselRec r v).inlet ≠ .disabled ∧
      (y = true ∨ ((vesselRec r v).inlet ≠ .blocked ∧ (vesselRec r v).regBlock = false)) ∧
      vol ≤ routingLimit p v - (b.vessel v).volume - reservedVolume p v ∧
      ∃ m ∈ r.mov.entries, m.number = n ∧ m.kind = .slug ∧ m.source = .sumpUnit x.unit ∧ m.dest = .vesselInlet v ∧
        m.requested = vol ∧ m.phase = .opening ∧ m.slug = some x) ∧
  (∀ (p : Part) (cls : WaterClass) (q : Bool),
    (p.ctl.mode = .lockdown ∨ (actionsInForce p).quarantineIntake = true ∨ q = true →
      candidates p cls q = [.role .quarantine]) ∧
    (p.ctl.mode ≠ .lockdown → (actionsInForce p).quarantineIntake = false → q = false →
      candidates p cls q = match cls with
        | .red => [.role .feed, .role .quarantine]
        | .amber => [.lot, .role .quarantine]
        | .green => [.role .reuse, .lot, .role .quarantine])))

/-- UNIT_DONE: for the tag of the unit's slug, in READY or later, the litres and their mass (the unit's estimate, else
the offer's; none with 0 L) are admitted to the destination vessel and to the source's totals, the slug's lot takes its
contribution and its seal check, OVER DELIVERY is sent for litres above the granted volume, before the movement's end (its
place among the notices is the model's, log 9), the movement ends with reason COMPLETE, and no message for the slug stays pending; any other DONE is a late report and changes nothing else but
what its turn delivers; in answer to a DECISION it is a miss. A DONE with no turn open is passed over (log 22), and a
mass estimate above 2 000 000 000 mg is booked as given (log 30). -/
def Obligations.DoneIsBookedOrLate : Prop :=
  ∀ (tag : RawTag) (litres : Nat) (mass : Option Nat) (s : State), s.live →
    (s.part.fld.turn = none → exec (.unitDone tag litres mass) s = .next s.idled) ∧
    (∀ u d, s.part.fld.turn = some ⟨u, .decision d⟩ →
      exec (.unitDone tag litres mass) s = exec .fieldReplyTimeout s) ∧
    (∀ u sent, s.part.fld.turn = some ⟨u, sent⟩ → sent.isDecision = false →
      let heard := answered u s.begun
      let known := endTurn (updUnit u (fun r => { r with missed := 0, presence := .present }) s.begun)
      (∀ m x v, slugOf s.part u = some m → m.slug = some x → m.dest = .vesselInlet v → m.phase ≠ .opening →
        tagOf tag = some x.tag →
        let mg := if litres = 0 then 0 else mass.getD (litres * x.conc)
        let booked := s.books.book (.admission v litres mg)
        let delivered := endTurn (deliver u sent true heard)
        let running := match slugOf delivered u with
          | some y => if y.phase = .ready then deliverGo u y.number delivered else delivered
          | none => delivered
        let stopped := updMove m.number (fun y => { y with timeoutLeft := none }) running
        let lotTold := match m.lot with
          | none => stopped
          | some k => sealCheck booked k (updLot k (fun l =>
              { l with contributions := contribute (.tag x.tag) litres mg l.contributions }) stopped)
        let told := sourceBooked x.tag x.conc litres mg (afterBooking s.books booked [v] none (some m.number) lotTold)
        let silenced (r : UnitRec) : UnitRec :=
          { r with outbound := if r.outbound = some (.stop m.number) ∨ r.outbound = some .go then none else r.outbound }
        let overTold := if m.requested < litres
          then notify (.overDelivery x.unit x.tag v m.requested litres) told else told
        ∃ p, exec (.unitDone tag litres mass) s = .next (s.after booked p) ∧
          p = updUnit x.unit silenced (endMovement booked m .complete overTold) ∧
          p.standing = (sourceBooked x.tag x.conc litres mg known).standing) ∧
      (slugOf s.part u = none ∨ (∃ m x, slugOf s.part u = some m ∧ m.slug = some x ∧
          (m.phase = .opening ∧ (∀ mv vol, sent ≠ .go mv vol) ∨ tagOf tag ≠ some x.tag)) →
        ∃ p, exec (.unitDone tag litres mass) s = .next (s.after s.books p) ∧
          p = updUnit u (fun r => { r with late := countUp r.late })
            (endTurn (deliver u sent (doneForSlug s.part u tag) heard)) ∧
          p.standing = (updUnit u (fun r => { r with late := countUp r.late }) known).standing))

/-- TRANSFER_TIMEOUT of a slug whose timeout runs: it is booked by the level difference of its destination (0 where it
is negative or a reading is absent) at its concentration estimate, SLUG TIMEOUT is raised with the unit as subject and
the copy of the entry, which has left the table by then while its ports are still occupied (log 74), the movement ends
with reason CUT, and STOP is pending at the unit. The copy is the entry as it stood before the booking, its moved
figures 0 (log 66). -/
def Obligations.TransferTimeoutBooksByLevel : Prop :=
  ∀ (n : Nat) (s : State), s.working →
    (findMove n s.part = none ∨ (∃ m, findMove n s.part = some m ∧ m.timeoutLeft = none) →
      exec (.transferTimeout n) s = .next s.idled) ∧
    (∀ m x v, findMove n s.part = some m → m.timeoutLeft.isSome = true → m.slug = some x → m.dest = .vesselInlet v →
      let litres := match (vesselRec s.part v).lastLevel, x.levelAtGo with
        | some now, some go => now - go
        | _, _ => 0
      let booked := s.books.book (.admission v litres (litres * x.conc))
      let told := sourceBooked x.tag x.conc litres (litres * x.conc) (afterBooking s.books booked [v] none (some n)
        (slugTold m x litres (litres * x.conc) booked (stopTimeout n s.begun)))
      ∃ p, exec (.transferTimeout n) s = .next (s.after booked p) ∧
        p = setStop x.unit n (movementEnded booked m (.cut .plain) (raiseBeforeEnd booked
          { ftype := .slugTimeout, subject := .unit x.unit } m told)) ∧
        p.standing = (sourceBooked x.tag x.conc litres (litres * x.conc) s.begun).standing ∧
        (∃ depth, p.flt.last = some ⟨.slugTimeout, .unit x.unit, s.part.gate.clock, depth⟩) ∧
        (unitRec p x.unit).outbound = some (.stop n))

/-- An answer written in the byte form of R200 and 12.6 is read back from the polled address with every item at every
value that its bytes admit, and does what its row does: the bytes decide, also against the row that brings them (log
35). -/
def Obligations.FieldAnswersRoundTrip : Prop :=
  (∀ (u : UnitId) (a : FieldAnswer),
    (match a with
      | .idle => true
      | .offer o => offerFits o
      | .done t l m => tagFits t && fits 2 l && optFits 4 m) = true →
    parseAnswer u (answerBytes u a) = some a) ∧
  (∀ (t : Turn) (s : State), s.part.fld.turn = some t →
    exec (.fieldAnswerInvalid (answerBytes t.unit .idle)) s = exec .unitIdle s ∧
    (∀ o, offerFits o = true →
      exec (.fieldAnswerInvalid (answerBytes t.unit (.offer o))) s = exec (.unitOffer o) s) ∧
    (∀ g l m, (tagFits g && fits 2 l && optFits 4 m) = true →
      exec (.fieldAnswerInvalid (answerBytes t.unit (.done g l m))) s = exec (.unitDone g l m) s))

/-! ## Regulation and cells (chapters 6 and 7) -/

/-- SET REGULATION: its checks in order, a mark of 1 to 7 eighths and a reserve or headroom of at most 60 000 L; every reply carries the unit's state as it stood (log 23), a request with no
setting changes nothing, its status BAD VALUE where the held values fail check 3 (log 76), and applied marks reach the
needs and, for FEED, the arbiter after them (the model's order, log 77). REGULATION ON and OFF turn the switch: ON with the REUSE evaluation, OFF with the
block cleared, SPILL and FILL cut and their needs IDLE, whatever actions and frames stand (the model's choice, log 79). -/
def Obligations.RegulationRequests : Prop :=
  (∀ (n : Byte) (i : RegulationItems) (s : State), s.hasPlace →
    let told (st : Status) := Host.Outcome.next (s.told n 0x1E
      { status := st, items := .regulation (regulationReport s.part) })
    let set := { s.begun with reg := { s.part.reg with marks := applyMarks i s.part.reg.marks } }
    (s.part.ctl.mode.inService = false → exec (.setRegulation n i) s = told .wrongMode) ∧
    (s.inService → regulationValid i s.part = false → exec (.setRegulation n i) s = told .badValue) ∧
    (s.inService → regulationValid i s.part = true → i = {} → exec (.setRegulation n i) s = told .ok) ∧
    (s.inService → i ≠ {} → regulationValid i s.part = true → s.part.reg.switchOn = true →
      exec (.setRegulation n i) s = told .wrongState) ∧
    (s.inService → i ≠ {} → regulationValid i s.part = true → s.part.reg.switchOn = false →
      exec (.setRegulation n i) s = .next (s.answered n 0x1E
        { status := .ok, items := .regulation (regulationReport s.part) }
        (if s.part.reg.marks.feedHigh = set.reg.marks.feedHigh ∧ s.part.reg.marks.feedLow = set.reg.marks.feedLow
          then reexamineNeeds s.books set else examineArbiter s.books (reexamineNeeds s.books set))))) ∧
  (∀ (i : RegulationItems) (p : Part),
    let m := applyMarks i p.reg.marks
    let eighths (x : Option Nat) := ∀ k, x = some k → 1 ≤ k ∧ k ≤ 7
    let litres (x : Option Nat) := ∀ k, x = some k → k ≤ 60000
    regulationValid i p = true ↔
      (eighths i.reuseHigh ∧ eighths i.reuseLow ∧ litres i.reserve ∧ litres i.headroom ∧
        eighths i.feedHigh ∧ eighths i.feedLow) ∧
      m.reuseLow < m.reuseHigh ∧ m.feedLow < m.feedHigh ∧
      ∀ c, roleCapacity .reuse p = some c →
        m.reserve < c * m.reuseLow / 8 ∧ c * m.reuseHigh / 8 < c - m.headroom) ∧
  (∀ (n : Byte) (s : State), s.serves →
    let m := s.part.reg.marks
    let off := { s.begun with reg := { s.part.reg with switchOn := false } }
    (s.part.reg.switchOn = true → exec (.regulationOn n) s = .next (s.told n 0x1F { status := .ok })) ∧
    (s.part.reg.switchOn = false → roleCapacity .reuse s.part = none →
      exec (.regulationOn n) s = .next (s.told n 0x1F { status := .wrongState })) ∧
    (∀ c, s.part.reg.switchOn = false → roleCapacity .reuse s.part = some c →
      (¬ (m.reserve < c * m.reuseLow / 8 ∧ c * m.reuseHigh / 8 < c - m.headroom) →
        exec (.regulationOn n) s = .next (s.told n 0x1F { status := .wrongState })) ∧
      (m.reserve < c * m.reuseLow / 8 → c * m.reuseHigh / 8 < c - m.headroom →
        exec (.regulationOn n) s = .next (s.answered n 0x1F { status := .ok }
          (examineReturn s.books (reuseEvaluation s.books
            { s.begun with reg := { s.part.reg with switchOn := true } }))))) ∧
    (s.part.reg.switchOn = false → exec (.regulationOff n) s = .next (s.told n 0x20 { status := .ok })) ∧
    (s.part.reg.switchOn = true →
      let freed := match roleVessel .reuse s.part with
        | some v => if (vesselRec s.part v).regBlock then
            notify (.overflow v false (s.books.vessel v).volume) (updVessel v (fun r => { r with regBlock := false }) off)
          else off
        | none => off
      exec (.regulationOff n) s = .next (s.answered n 0x20 { status := .ok }
        (setFill .idle none (setSpill .idle none
          (cutNeed s.books s.part.reg.fill (cutNeed s.books s.part.reg.spill freed)))))))

/-- The REUSE evaluation makes the supply valve check in every case (that it comes first, so that RESERVE LOW is queued
before OVERFLOW where one evaluation sends both, and that the block, the spill and the fill are checked in this order, is
the model's choice, log 88), and with the switch ON and no STOP REGULATION the
block, spill and fill checks, a running SPILL being cut at or below the high mark and a running FILL at or above the low
mark; under STOP REGULATION no block changes and none is cut, and a need that would start one waits STOPPED (log 50).
The supply valve closes at or below the reserve and reopens at the low mark, and is closed with no REUSE vessel; the
overflow block sets above capacity less headroom and clears at the high mark; each change is told, and between the
bounds each keeps its state. The spill check asks the Lot Unit for a lot and a SPILL of the excess that fits; the fill
check asks for a FILL of the shortfall; the return engine takes the unheld REJECTED lot of the lowest rejection number,
else QUARANTINE with water, and asks for a RETURN of what FEED has room for. A need that runs is left by these checks;
one that cannot start stands WAITING with its reason, those of the return engine in the order of log 26 and with no
source while it is held (log 72), and a held need waits HELD also where it wants nothing (log 37). The ports that a need
shows while it waits without having asked are the model's (log 75). The spill check asks for its lot, which may open
one, in COMMISSIONING as well (log 51). The valve follows the marks held whatever the switch (log 67), and where both
its conditions hold at one volume it closes first (log 65). -/
def Obligations.ReuseMarksAct : Prop :=
  (∀ (b : Books) (p : Part),
    let valve := supplyCheck b p
    (roleVessel .reuse p = none ∨ p.reg.switchOn = false → reuseEvaluation b p = valve) ∧
    (∀ v, roleVessel .reuse p = some v → p.reg.switchOn = true →
      ((actionsInForce p).stopRegulation = true → reuseEvaluation b p = fillCheck b (spillCheck b valve)) ∧
      ((actionsInForce p).stopRegulation = false →
        reuseEvaluation b p = fillEvaluation b v (spillEvaluation b v (blockCheck b v valve))))) ∧
  (∀ (b : Books) (p : Part) (v : VesselId), roleVessel .reuse p = some v →
    let vol := (b.vessel v).volume
    let high := (vesselRec p v).capacity.getD 0 * p.reg.marks.reuseHigh / 8
    let low := (vesselRec p v).capacity.getD 0 * p.reg.marks.reuseLow / 8
    (∀ n, p.reg.spill = .running n →
      (vol ≤ high → spillEvaluation b v p = cutMovement b n .plain p) ∧
      (high < vol → spillEvaluation b v p = p)) ∧
    ((∀ n, p.reg.spill ≠ .running n) → spillEvaluation b v p = spillCheck b p) ∧
    (∀ n, p.reg.fill = .running n →
      (low ≤ vol → fillEvaluation b v p = cutMovement b n .plain p) ∧
      (vol < low → fillEvaluation b v p = p)) ∧
    ((∀ n, p.reg.fill ≠ .running n) → fillEvaluation b v p = fillCheck b p)) ∧
  (∀ (b : Books) (p : Part),
    (roleVessel .reuse p = none → supplyCheck b p = { p with reg := { p.reg with supplyOpen := false } }) ∧
    (∀ v, roleVessel .reuse p = some v →
      let vol := (b.vessel v).volume
      let cap := (vesselRec p v).capacity.getD 0
      (p.reg.supplyOpen = true → vol ≤ p.reg.marks.reserve →
        supplyCheck b p = notify (.reserveLow false vol) { p with reg := { p.reg with supplyOpen := false } }) ∧
      (p.reg.supplyOpen = true → p.reg.marks.reserve < vol → supplyCheck b p = p) ∧
      (p.reg.supplyOpen = false → cap * p.reg.marks.reuseLow / 8 ≤ vol →
        supplyCheck b p = notify (.reserveLow true vol) { p with reg := { p.reg with supplyOpen := true } }) ∧
      (p.reg.supplyOpen = false → vol < cap * p.reg.marks.reuseLow / 8 → supplyCheck b p = p) ∧
      ((vesselRec p v).regBlock = false → cap - p.reg.marks.headroom < vol →
        blockCheck b v p = notify (.overflow v true vol) (updVessel v (fun r => { r with regBlock := true }) p)) ∧
      ((vesselRec p v).regBlock = false → vol ≤ cap - p.reg.marks.headroom → blockCheck b v p = p) ∧
      ((vesselRec p v).regBlock = true → vol ≤ cap * p.reg.marks.reuseHigh / 8 →
        blockCheck b v p = notify (.overflow v false vol) (updVessel v (fun r => { r with regBlock := false }) p)) ∧
      ((vesselRec p v).regBlock = true → cap * p.reg.marks.reuseHigh / 8 < vol → blockCheck b v p = p))) ∧
  (∀ (b : Books) (p : Part), let waits (r : WaitReason) := setSpill (.waiting r) none
    ((∃ n, p.reg.spill = .running n) → spillCheck b p = p) ∧
    ((∀ n, p.reg.spill ≠ .running n) → p.reg.switchOn = false ∨ roleVessel .reuse p = none →
      spillCheck b p = setSpill .idle none p) ∧
    (∀ v, (∀ n, p.reg.spill ≠ .running n) → p.reg.switchOn = true → roleVessel .reuse p = some v →
      let e := (b.vessel v).volume - (vesselRec p v).capacity.getD 0 * p.reg.marks.reuseHigh / 8
      let asked := askFilling (min e 100) p
      (kindHeld p .spill = true → spillCheck b p = waits .held p) ∧
      (kindHeld p .spill = false → e = 0 → spillCheck b p = setSpill .idle none p) ∧
      (kindHeld p .spill = false → 0 < e → (actionsInForce p).stopRegulation = true →
        spillCheck b p = waits .stopped p) ∧
      (kindHeld p .spill = false → 0 < e → (actionsInForce p).stopRegulation = false →
        (asked.2 = .sealPending → spillCheck b p = waits .sealPending asked.1) ∧
        (asked.2 = .noVessel → spillCheck b p = waits .noVessel asked.1) ∧
        (asked.2 = .noSpace → spillCheck b p = waits .noSpace asked.1) ∧
        (∀ lot t, asked.2 = .named lot t →
          let want := min e ((vesselRec asked.1 t).capacity.getD 0 - (b.vessel t).volume - reservedVolume asked.1 t)
          let ports := some (Port.vesselOutlet v, Port.vesselInlet t)
          let r := askStart b { kind := .spill, source := .vesselOutlet v, dest := .vesselInlet t,
                                requested := want, lot := some lot } asked.1
          ((vesselRec asked.1 t).inlet = .disabled → spillCheck b p = waits .disabled asked.1) ∧
          ((vesselRec asked.1 t).inlet ≠ .disabled → want = 0 →
            spillCheck b p = setSpill (.waiting .noSpace) ports asked.1) ∧
          ((vesselRec asked.1 t).inlet ≠ .disabled → 0 < want →
            (∀ n, r.2 = .started n → spillCheck b p = setSpill (.running n) none r.1) ∧
            (∀ why, r.2 = .refused why → spillCheck b p = setSpill (.waiting why) ports r.1)))))) ∧
  (∀ (b : Books) (p : Part),
    ((∃ n, p.reg.fill = .running n) → fillCheck b p = p) ∧
    ((∀ n, p.reg.fill ≠ .running n) → p.reg.switchOn = false ∨ roleVessel .reuse p = none →
      fillCheck b p = setFill .idle none p) ∧
    (∀ v, (∀ n, p.reg.fill ≠ .running n) → p.reg.switchOn = true → roleVessel .reuse p = some v →
      let short := (vesselRec p v).capacity.getD 0 * p.reg.marks.reuseLow / 8 - (b.vessel v).volume
      let r := askStart b { kind := .fill, source := .mains, dest := .makeupEntry, requested := short } p
      (kindHeld p .fill = true → fillCheck b p = setFill (.waiting .held) none p) ∧
      (kindHeld p .fill = false → short = 0 → fillCheck b p = setFill .idle none p) ∧
      (kindHeld p .fill = false → 0 < short → (actionsInForce p).stopRegulation = true →
        fillCheck b p = setFill (.waiting .stopped) none p) ∧
      (kindHeld p .fill = false → 0 < short → (actionsInForce p).stopRegulation = false →
        (∀ n, r.2 = .started n → fillCheck b p = setFill (.running n) none r.1) ∧
        (∀ why, r.2 = .refused why → fillCheck b p = setFill (.waiting why) (some (.mains, .makeupEntry)) r.1)))) ∧
  (∀ (b : Books) (p : Part), let returnable (l : Lot) := l ∈ p.lot.lots ∧ l.state = .rejected ∧ l.held = false
    (∀ l, firstRejected p = some l → returnable l ∧ ∀ k, returnable k → l.rejectionNo.getD 0 ≤ k.rejectionNo.getD 0) ∧
    (firstRejected p = none ↔ ∀ l, ¬ returnable l) ∧
    (∀ l, firstRejected p = some l → findReturnSource b p = some (.lot l.number, l.vessel, some l.number)) ∧
    (∀ v, firstRejected p = none → roleVessel .quarantine p = some v → findReturnSource b p =
      if 0 < (b.vessel v).volume then some (.quarantine, v, none) else none) ∧
    (firstRejected p = none → roleVessel .quarantine p = none → findReturnSource b p = none) ∧
    ((∃ n, p.reg.ret = .running n) → examineReturn b p = p) ∧
    ((∀ n, p.reg.ret ≠ .running n) →
      (kindHeld p .ret = true → examineReturn b p = setReturn (.waiting .held) none none p) ∧
      (kindHeld p .ret = false → findReturnSource b p = none → examineReturn b p = setReturn .idle none none p) ∧
      (∀ src v lot, kindHeld p .ret = false → findReturnSource b p = some (src, v, lot) →
        ((actionsInForce p).stopRegulation = true →
          examineReturn b p = setReturn (.waiting .stopped) (some src) none p) ∧
        (∀ f, (actionsInForce p).stopRegulation = false → roleVessel .feed p = some f →
          let stock := (b.vessel v).volume
          let room := (vesselRec p f).capacity.getD 0 * p.reg.marks.feedHigh / 8 - (b.vessel f).volume
          let ports := some (Port.vesselOutlet v, Port.vesselInlet f)
          let waits (r : WaitReason) := setReturn (.waiting r) (some src) ports
          let r := askStart b { kind := .ret, source := .vesselOutlet v, dest := .vesselInlet f,
                                requested := min stock room, lot := lot } p
          (portBusy p (.vesselInlet f) = true → examineReturn b p = waits .inletBusy p) ∧
          (portBusy p (.vesselInlet f) = false → room = 0 → examineReturn b p = waits .feedFull p) ∧
          (portBusy p (.vesselInlet f) = false → 0 < room → min stock room < min stock 50 →
            examineReturn b p = waits .tooSmall p) ∧
          (portBusy p (.vesselInlet f) = false → 0 < room → min stock 50 ≤ min stock room →
            ((vesselRec p f).inlet = .disabled → examineReturn b p = waits .disabled p) ∧
            ((vesselRec p f).inlet ≠ .disabled →
              (∀ why, r.2 = .refused why → examineReturn b p = waits why r.1) ∧
              (∀ n, r.2 = .started n → examineReturn b p =
                let begun := setReturn (.running n) (some src) none r.1
                match lot with
                | some k => lotNotice k .returning .returnStart (updLot k (fun l => { l with state := .returning }) begun)
                | none => begun)))))))

/-- SET CELL in COMMISSIONING on an OFFLINE or IDLE cell, with HARVEST NEEDED where a new cathode capacity finds an IDLE cell
loaded to it, and the arbiter examined at a new charge volume or capacity; CELL ON, CELL OFF and HARVEST change a cell's state where its
state and items allow it; HARVEST DONE books the weighed mass: the cathode to 0, the weighed mass to the harvested
account, the difference to the mass corrections. -/
def Obligations.CellRequests : Prop :=
  (∀ (n : Byte) (k : Nat) (i : CellItems) (s : State), s.hasPlace →
    (s.part.ctl.mode ≠ .commissioning →
      exec (.setCell n k i) s = .next (s.told n 0x21 { status := .wrongMode })) ∧
    (s.part.ctl.mode = .commissioning → cellOf k = none ∨ cellRanges i = false →
      exec (.setCell n k i) s = .next (s.told n 0x21 { status := .badValue })) ∧
    (cellRanges i = true ↔ (∀ x, i.chargeVolume = some x → 50 ≤ x ∧ x ≤ 2000) ∧
      (∀ x, i.endConc = some x → x ≤ 30000) ∧ (∀ x, i.runLimit = some x → 600 ≤ x ∧ x ≤ 86400) ∧
      (∀ x, i.cathodeCapacity = some x → 1 ≤ x ∧ x ≤ 50000000)) ∧
    (∀ c, s.part.ctl.mode = .commissioning → cellOf k = some c → cellRanges i = true →
      ((cellRec s.part c).state ≠ .offline → (cellRec s.part c).state ≠ .idle →
        exec (.setCell n k i) s = .next (s.told n 0x21 { status := .wrongState })) ∧
      ((cellRec s.part c).state = .offline ∨ (cellRec s.part c).state = .idle →
        let set := updCell c (applyCell i) s.begun
        let told := if (cellRec s.part c).state = .idle ∧ (∃ x, i.cathodeCapacity = some x ∧ x ≤ s.books.cathode c)
          then notify (.harvestNeeded c (s.books.cathode c)) set else set
        ∃ p, exec (.setCell n k i) s = .next (s.answered n 0x21 { status := .ok } p) ∧
          p = (if (cellRec set c).chargeVolume = (cellRec s.part c).chargeVolume ∧
              (cellRec set c).cathodeCapacity = (cellRec s.part c).cathodeCapacity
            then told else examineArbiter s.books told) ∧
          cellRec p c = { cellRec s.part c with
            chargeVolume := i.chargeVolume.or (cellRec s.part c).chargeVolume
            endConc := i.endConc.getD (cellRec s.part c).endConc
            runLimit := i.runLimit.or (cellRec s.part c).runLimit
            cathodeCapacity := i.cathodeCapacity.or (cellRec s.part c).cathodeCapacity
            drainPref := i.drainPref.getD (cellRec s.part c).drainPref } ∧
          p.standing = (updCell c (fun _ => cellRec p c) s.begun).standing))) ∧
  (∀ (n : Byte) (k : Nat) (c : CellId) (s : State), s.serves → cellOf k = some c →
    let r := cellRec s.part c
    let put (x : CellState) := examineArbiter s.books (setCellState c x .host s.begun)
    (r.state = .offline → r.chargeVolume.isSome = true → r.runLimit.isSome = true → r.cathodeCapacity.isSome = true →
      exec (.cellOn n k) s = .next (s.answered n 0x22 { status := .ok } (put .idle))) ∧
    (r.state ≠ .offline ∨ r.chargeVolume = none ∨ r.runLimit = none ∨ r.cathodeCapacity = none →
      exec (.cellOn n k) s = .next (s.told n 0x22 { status := .wrongState })) ∧
    (r.state = .idle → exec (.cellOff n k) s = .next (s.answered n 0x23 { status := .ok } (put .offline))) ∧
    (r.state ≠ .idle → exec (.cellOff n k) s = .next (s.told n 0x23 { status := .wrongState })) ∧
    (r.state = .idle ∨ r.state = .offline →
      exec (.harvest n k) s = .next (s.answered n 0x24 { status := .ok } (put .harvest))) ∧
    (r.state ≠ .idle → r.state ≠ .offline → exec (.harvest n k) s = .next (s.told n 0x24 { status := .wrongState })) ∧
    (∀ w, 1000000000 < w → exec (.harvestDone n k w) s = .next (s.told n 0x25 { status := .badValue })) ∧
    (∀ w, w ≤ 1000000000 → r.state ≠ .harvest →
      exec (.harvestDone n k w) s = .next (s.told n 0x25 { status := .wrongState })) ∧
    (∀ w, w ≤ 1000000000 → r.state = .harvest →
      let after := if r.chargeVolume.isSome ∧ r.runLimit.isSome ∧ r.cathodeCapacity.isSome
        then CellState.idle else .offline
      let booked := s.books.book (.harvest c w)
      exec (.harvestDone n k w) s = .next (s.after booked ((afterBooking s.books booked [] none none
        (examineArbiter booked (setCellState c after .harvested
          (updCell c (fun x => { x with harvestRequired := false }) s.begun)))).reply n 0x25
            { status := .ok, items := .harvested (s.books.cathode c) w })))) ∧
  (∀ (b : Books) (c : CellId) (w : Nat),
    (b.book (.harvest c w)).cathode c = 0 ∧
    (b.book (.harvest c w)).acc = { b.acc with
      harvestedMass := b.acc.harvestedMass + w
      massCorrections := b.acc.massCorrections + ((w : Int) - b.cathode c) })

/-- CELL PROBE READING: an invalid one is discarded; in PLATING a reading that lowers the liquor mass books the
difference to the cathode, and any other is only recorded, with the checks of the run made while the cell is not paused.
RUN LIMIT EXPIRY sends a PLATING cell to DRAINING with INCOMPLETE RUN. Outside the modes in service a reading is recorded
and not acted on (log 27), and no run limit expires. CELL FAULT INPUT is recorded always, one that is no change is idle
(log 32), and in service it raises CELL FAULT, or reports its frame. -/
def Obligations.CellReadingsAndLimits : Prop :=
  (∀ (c : CellId) (s : State), s.live →
    exec (.cellProbeReading c none) s = .next s.idled ∧
    (∀ x, 30000 < x → exec (.cellProbeReading c (some x)) s = .next s.idled) ∧
    (∀ x, x ≤ 30000 →
      let read := updCell c (fun r => { r with lastProbe := some x }) s.begun
      let lower := x * (s.books.liquor c).volume < (s.books.liquor c).mass
      (¬ s.inService ∨ (cellRec s.part c).state ≠ .plating →
        exec (.cellProbeReading c (some x)) s = .next (s.after s.books read)) ∧
      (s.inService → (cellRec s.part c).state = .plating → (cellRec s.part c).paused = true → ¬ lower →
        exec (.cellProbeReading c (some x)) s = .next (s.after s.books read)) ∧
      (s.inService → (cellRec s.part c).state = .plating → (cellRec s.part c).paused = true → lower →
        let booked := s.books.book (.plating c x)
        exec (.cellProbeReading c (some x)) s =
          .next (s.after booked (afterBooking s.books booked [] none none read))) ∧
      (s.inService → (cellRec s.part c).state = .plating → (cellRec s.part c).paused = false → ¬ lower →
        exec (.cellProbeReading c (some x)) s = .next (s.after s.books
          (arbiterIfMoved s.books c .plating (platingChecks s.books c (some x) read)))) ∧
      (s.inService → (cellRec s.part c).state = .plating → (cellRec s.part c).paused = false → lower →
        let booked := s.books.book (.plating c x)
        exec (.cellProbeReading c (some x)) s = .next (s.after booked (afterBooking s.books booked [] none none
          (arbiterIfMoved booked c .plating (platingChecks booked c (some x) read))))))) ∧
  (∀ (b : Books) (c : CellId) (x : Nat) (p : Part),
    let full := ∃ k, (cellRec p c).cathodeCapacity = some k ∧ k ≤ b.cathode c
    let draining (r : CellReason) (q : Part) := notify (.cellState c .draining r) (updCell c (fun y => { y with
      state := .draining, rectifier := false, paused := false, runTimer := none }) q)
    (full → platingChecks b c (some x) p = beginDrain b c (notify (.harvestNeeded c (b.cathode c))
      (draining .cathodeFull (updCell c (fun y => { y with harvestRequired := true }) p)))) ∧
    (¬ full → x ≤ (cellRec p c).endConc →
      platingChecks b c (some x) p = beginDrain b c (draining .endConcentration p)) ∧
    (¬ full → (cellRec p c).endConc < x → platingChecks b c (some x) p = p)) ∧
  (∀ (b : Books) (c : CellId) (x : Nat), x * (b.liquor c).volume < (b.liquor c).mass →
    (b.book (.plating c x)).liquor c = ⟨(b.liquor c).volume, x * (b.liquor c).volume⟩ ∧
    (b.book (.plating c x)).cathode c = b.cathode c + ((b.liquor c).mass - x * (b.liquor c).volume)) ∧
  (∀ (c : CellId) (s : State), s.live →
    let r := cellRec s.part c
    (¬ s.inService ∨ r.state ≠ .plating ∨ r.runTimer = none ∨ r.paused = true → exec (.runLimitExpiry c) s = .next s.idled) ∧
    (s.inService → r.state = .plating → r.runTimer.isSome = true → r.paused = false →
      exec (.runLimitExpiry c) s = .next (s.after s.books (examineArbiter s.books (beginDrain s.books c
        (notify (.incompleteRun c r.lastProbe (s.books.liquor c).volume (s.books.liquor c).mass)
          (notify (.cellState c .draining .runLimit) (updCell c (fun x => { x with
            state := .draining, rectifier := false, paused := false, runTimer := none }) s.begun))))))) ) ∧
  (∀ (c : CellId) (s : State),
    let changed (on : Bool) := updCell c (fun r => { r with faultInput := on }) s.begun
    (∀ on, (cellRec s.part c).faultInput = on → exec (.cellFaultInput c on) s = .next s.idled) ∧
    (∀ on, (cellRec s.part c).faultInput = !on → s.part.ctl.resetHeld = true ∨ s.part.ctl.mode.inService = false →
      exec (.cellFaultInput c on) s = .next (s.after s.books (changed on))) ∧
    (s.working → (cellRec s.part c).faultInput = true → exec (.cellFaultInput c false) s =
      .next (s.after s.books (reportOn .cellFault (.cell c) .cleared (changed false)))) ∧
    (s.working → (cellRec s.part c).faultInput = false →
      (hasFrame .cellFault (.cell c) s.part = true → exec (.cellFaultInput c true) s =
        .next (s.after s.books (reportOn .cellFault (.cell c) .present (changed true)))) ∧
      (hasFrame .cellFault (.cell c) s.part = false → exec (.cellFaultInput c true) s =
        .next (s.after s.books (raise s.books
          { ftype := .cellFault, subject := .cell c, interrupted := cellMove s.part c } (changed true))))))

/-- The feed-outlet arbiter grants only in OPERATING, without STOP CELLS, with the FEED outlet free (with no FEED
vessel its outcome is OUTLET BUSY, log 44); it chooses a waiting CHARGING cell first, else the IDLE cell of the lowest
load below its capacity, and none only where no cell qualifies; and it asks for a CHARGE only where FEED less the
charge litres stays at or above the low-mark volume: a CHARGING cell that the floor refuses leaves the waiting list
(log 46). After a start that is refused the cell waits in CHARGING with the reason, and the outcome shown is GRANTED
(log 10). A CHARGE that ends COMPLETE begins PLATING, its step IDLE also where a frame holds the cell (log 85); one
that ends short, but by the cut of an ABANDON, waits HELD where a frame holds the cell, else MODE outside OPERATING,
also where it stalls and its own FLOW STALL has entered LOCKDOWN (log 84), else with the reason of its end; the
rectifier is ON exactly in PLATING in OPERATING with no STOP CELLS and no hold, and the pause that clears makes the
checks of the run; a DRAINING cell seeks the FILLING lot and then QUARANTINE, and in a mode that starts no movement
waits MODE (log 17) and shows the ports of log 75; the end of a DRAIN with no liquor left ends the cell's round; and
the abandon step drains or frees a cell. -/
def Obligations.ArbiterExamination : Prop :=
  (∀ (b : Books) (p : Part),
    (p.ctl.mode ≠ .operating → examineArbiter b p = arbiterOutcome .mode none p) ∧
    (p.ctl.mode = .operating → (actionsInForce p).stopCells = true →
      examineArbiter b p = arbiterOutcome .stopped none p) ∧
    (p.ctl.mode = .operating → (actionsInForce p).stopCells = false → roleVessel .feed p = none →
      examineArbiter b p = arbiterOutcome .outletBusy none p) ∧
    chargeFloor p = (match roleVessel .feed p with
      | some f => (vesselRec p f).capacity.getD 0
      | none => 0) * p.reg.marks.feedLow / 8 ∧
    (∀ c, (mayCharge b p c = true ↔ (cellRec p c).state = .idle ∧ cellHeld p c = false ∧
        ∃ k, (cellRec p c).cathodeCapacity = some k ∧ b.cathode c < k) ∧
      (wantsRemainder p c = true ↔ (cellRec p c).state = .charging ∧ (∃ r, (cellRec p c).step = .waiting r) ∧
        cellHeld p c = false) ∧
      (cellHeld p c = true ↔ ∃ f ∈ p.flt.stack, (f.ftype = .cellFault ∧ f.subject = .cell c) ∨
        (f.actions.stopMovement = true ∧
          ∃ m, f.interrupted = some m ∧ (m.dest = .cellInlet c ∨ m.source = .cellOutlet c)))) ∧
    (∀ f, p.ctl.mode = .operating → (actionsInForce p).stopCells = false → roleVessel .feed p = some f →
      (portBusy p (.vesselOutlet f) = true → examineArbiter b p = arbiterOutcome .outletBusy none p) ∧
      (portBusy p (.vesselOutlet f) = false → arbiterChoice b p = none →
        examineArbiter b p = arbiterOutcome .none none p) ∧
      (∀ c, portBusy p (.vesselOutlet f) = false → arbiterChoice b p = some c →
        let litres := if (cellRec p c).state = .charging
          then (cellRec p c).chargeVolume.getD 0 - (b.liquor c).volume else (cellRec p c).chargeVolume.getD 0
        ((b.vessel f).volume < chargeFloor p + litres →
          (examineArbiter b p).mov.entries = p.mov.entries ∧ (examineArbiter b p).cel.outcome = some .floor ∧
          (examineArbiter b p).cel.chosen = some c ∧ (cellRec (examineArbiter b p) c).state = (cellRec p c).state) ∧
        (let asks := if (cellRec p c).state = .charging then p
           else notify (.cellState c .charging .grant) (updCell c (fun r => { r with state := .charging }) p)
         let r := askStart b { kind := .charge, source := .vesselOutlet f, dest := .cellInlet c, requested := litres
                               waiter := some (.charge c) } asks
         let left := if (cellRec p c).state = .charging
           then leaveWaiting (.charge c) (updCell c (fun x => { x with step := .waiting .floor }) p) else p
         let ended (o : ArbOutcome) (q : Part) := { q with cel := { q.cel with outcome := some o, chosen := some c } }
         ((b.vessel f).volume < chargeFloor p + litres → examineArbiter b p = ended .floor left) ∧
         (chargeFloor p + litres ≤ (b.vessel f).volume →
           (∀ n, r.2 = .started n →
             examineArbiter b p = ended .granted (updCell c (fun x => { x with step := .running n }) r.1)) ∧
           (∀ why, r.2 = .refused why →
             examineArbiter b p = ended .granted (updCell c (fun x => { x with step := .waiting why }) r.1)))) ∧
        (chargeFloor p + litres ≤ (b.vessel f).volume → 0 < (b.vessel f).volume → p.mov.entries.length < 12 →
          portBusy p (.cellInlet c) = false →
          (cellRec (examineArbiter b p) c).state = .charging ∧ (examineArbiter b p).cel.outcome = some .granted ∧
          ∃ n m, (cellRec (examineArbiter b p) c).step = .running n ∧
            (examineArbiter b p).mov.entries = p.mov.entries ++ [m] ∧ m.number = n ∧ m.kind = .charge ∧
            m.source = .vesselOutlet f ∧ m.dest = .cellInlet c ∧ m.requested = litres ∧ m.phase = .opening))) ∧
    (∀ c, arbiterChoice b p = some c →
      (wantsRemainder p c = true ∧ ∀ d, wantsRemainder p d = true → c ≤ d) ∨
      ((∀ d, wantsRemainder p d = false) ∧ mayCharge b p c = true ∧
        ∀ d, mayCharge b p d = true → b.cathode c < b.cathode d ∨ (b.cathode c = b.cathode d ∧ c ≤ d))) ∧
    (arbiterChoice b p = none ↔ ∀ c, wantsRemainder p c = false ∧ mayCharge b p c = false)) ∧
  (∀ (b : Books) (c : CellId) (p : Part),
    let wanted (q : Part) := decide ((cellRec q c).state = .plating ∧ q.ctl.mode = .operating) &&
      !(actionsInForce q).stopCells && !cellHeld q c
    let set := updCell c (fun r => { r with
      rectifier := wanted p, paused := decide ((cellRec p c).state = .plating) && !wanted p }) p
    ((cellRec p c).state ≠ .plating ∨ (cellRec p c).paused = false ∨ wanted p = false → settleCell b c p = set) ∧
    ((cellRec p c).state = .plating → (cellRec p c).paused = true → wanted p = true →
      settleCell b c p = platingChecks b c (cellRec p c).lastProbe set) ∧
    chargeEnds b c .complete p = settleCell b c (notify (.cellState c .plating .charged) (updCell c (fun r => { r with
      state := .plating, step := .idle, lastProbe := none, runTimer := r.runLimit, paused := false }) p)) ∧
    (∀ e, e ≠ .complete → e ≠ .cut .abandon →
      let why := if cellHeld p c then WaitReason.held else if p.ctl.mode ≠ .operating then .mode else match e with
        | .stall _ => .stall
        | _ => .cut
      chargeEnds b c e p = updCell c (fun r => { r with step := .waiting why }) p) ∧
    chargeEnds b c (.cut .abandon) p = abandonStep b c p ∧
    ((cellRec p c).state = .charging ∨ (cellRec p c).state = .plating →
      (0 < (b.liquor c).volume → abandonStep b c p = seekDrain b c (leaveWaiting (.charge c) (updCell c (fun r =>
        { r with step := .idle }) (notify (.cellState c .draining .abandoned) (updCell c (fun r => { r with
          state := .draining, rectifier := false, paused := false, runTimer := none }) p))))) ∧
      ((b.liquor c).volume = 0 → abandonStep b c p = leaveWaiting (.charge c) (notify (.cellState c .idle .abandoned)
        (updCell c (fun r => { r with
          state := .idle, step := .idle, rectifier := false, paused := false, runTimer := none }) p)))) ∧
    ((cellRec p c).state ≠ .charging → (cellRec p c).state ≠ .plating → abandonStep b c p = p)) ∧
  (∀ (b : Books) (c : CellId) (p : Part), let liquor := (b.liquor c).volume
    let fails (q : Part) (v : VesselId) : Option WaitReason :=
      if (vesselRec q v).inlet = .disabled then some .disabled
      else if (vesselRec q v).capacity.getD 0 - (b.vessel v).volume - reservedVolume q v < liquor then some .noSpace
      else if portBusy q (.vesselInlet v) = true then some .inletBusy else none
    let waits (r : WaitReason) (ports : Option (Port × Port)) (q : Part) :=
      enterWaiting (.drain c) ports (updCell c (fun x => { x with step := .waiting r }) q)
    let drainsTo (v : VesselId) (lot : Option Nat) (q : Part) :=
      let r := askStart b { kind := .drain, source := .cellOutlet c, dest := .vesselInlet v, requested := liquor,
                            lot := lot, waiter := some (.drain c) } q
      match r.2 with
      | .started n => updCell c (fun x => { x with step := .running n }) r.1
      | .refused why => waits why (some (.cellOutlet c, .vesselInlet v)) r.1
    let toQuarantine (q : Part) := match roleVessel .quarantine q with
      | none => waits .disabled none q
      | some v => match fails q v with
        | some why => waits why (some (.cellOutlet c, .vesselInlet v)) q
        | none => drainsTo v none q
    let asked := askFilling liquor p
    let walked := if (cellRec p c).drainPref = .quarantineOnly ∨ p.ctl.mode = .lockdown then toQuarantine p
      else match asked.2 with
        | .named lot v => if fails asked.1 v = none then drainsTo v (some lot) asked.1 else toQuarantine asked.1
        | _ => toQuarantine asked.1
    ((cellRec p c).state ≠ .draining ∨ (∃ n, (cellRec p c).step = .running n) → seekDrain b c p = p) ∧
    ((cellRec p c).state = .draining → (∀ n, (cellRec p c).step ≠ .running n) →
      (cellHeld p c = true → seekDrain b c p = waits .held none p) ∧
      (cellHeld p c = false → walked.ctl = p.ctl ∧ seekDrain b c p = if p.ctl.mode.running then walked
        else updCell c (fun x => { x with step := .waiting .mode }) walked))) ∧
  (∀ (b : Books) (m : Movement) (c : CellId) (e : Ending) (p : Part),
    ((b.liquor c).volume = 0 → drainEnds b m c e p = inflowEnds b m.lot (leaveWaiting (.drain c)
      (let next := if (cellRec p c).harvestRequired then CellState.harvest else .idle
       notify (.cellState c next .drained) (updCell c (fun x => { x with
         state := next, harvestRequired := false, step := .idle }) p)))) ∧
    (0 < (b.liquor c).volume →
      let why := if cellHeld p c then WaitReason.held else if p.ctl.mode.running = false then .mode else match e with
        | .stall _ => .stall
        | _ => .cut
      drainEnds b m c e p = inflowEnds b m.lot
        (enterWaiting (.drain c) none (updCell c (fun x => { x with step := .waiting why }) p))))

/-! ## The gate (chapter 8) -/

/-- SET CLOCK, SET WINDOWS and SET LIMITS are checked whole and applied together. A jump of the clock into a window, or
a window set over the time of day, is a window open with a selection; a window taken away ends a running DISCHARGE; new
limits report the ALLOWANCE FLOOR frames and make a selection. The reasons that GATE carries (CLOCK at a jump, WINDOW
OPEN or WINDOW END at SET WINDOWS) are the model's choice (log 14), and so is the OK to a SET WINDOWS with neither window
(log 56), and that a SET LIMITS with no item is a limits change (log 56). -/
def Obligations.GateSettings : Prop :=
  (∀ (n : Byte) (t : Nat) (s : State), s.serves →
    let set := { s.begun with gate := { s.part.gate with clock := some t } }
    (86399 < t → exec (.setClock n t) s = .next (s.told n 0x29 { status := .badValue })) ∧
    (t ≤ 86399 → s.part.ctl.mode = .operating → s.part.gate.state = .running →
      exec (.setClock n t) s = .next (s.told n 0x29 { status := .busy })) ∧
    (t ≤ 86399 → ¬ (s.part.ctl.mode = .operating ∧ s.part.gate.state = .running) →
      (inWindow s.part.gate = false → inWindow set.gate = true →
        exec (.setClock n t) s = .next (s.answered n 0x29 { status := .ok }
          (selectLot s.books (recomputeGate .clock set)))) ∧
      (inWindow s.part.gate = true ∨ inWindow set.gate = false →
        exec (.setClock n t) s = .next (s.answered n 0x29 { status := .ok } (recomputeGate .clock set))))) ∧
  (∀ (n : Byte) (w1 w2 : Option Window) (s : State), s.serves →
    let ranged := ∀ w, w1 = some w ∨ w2 = some w → w.start ≤ 1439 ∧ w.stop ≤ 1440
    let set := { s.begun with gate := { s.part.gate with
      w1 := w1.getD s.part.gate.w1, w2 := w2.getD s.part.gate.w2 } }
    (¬ ranged → exec (.setWindows n w1 w2) s = .next (s.told n 0x27 { status := .badValue })) ∧
    (ranged → exec (.setWindows n w1 w2) s = .next (s.answered n 0x27 { status := .ok }
      (match inWindow s.part.gate, inWindow set.gate with
        | false, true => selectLot s.books (recomputeGate .windowOpen set)
        | true, false => recomputeGate .windowEnd (cutDischarge s.books .windowEnd set)
        | _, _ => set)))) ∧
  (∀ (n : Byte) (i : LimitItems) (s : State), s.serves →
    let set := { s.begun with gate := { s.part.gate with limits := applyLimits i s.part.gate.limits } }
    let l := set.gate.limits
    let old := s.part.gate.limits
    (limitRanges i = true ↔
      (∀ x, i.massAllowance = some x → x ≤ 1000000000) ∧ (∀ x, i.volumeAllowance = some x → x ≤ 10000000) ∧
      (∀ x, i.concLimit = some x → x ≤ 5000) ∧ (∀ lo hi, i.phBand = some (lo, hi) → lo ≤ 140 ∧ hi ≤ 140) ∧
      (∀ x, i.floor = some x → x ≤ 1000000000) ∧ (∀ x, i.persistence = some x → x ≤ 120) ∧
      (∀ x, i.dayBoundary = some x → x ≤ 1439)) ∧
    l = { massAllowance := i.massAllowance.or old.massAllowance
          volumeAllowance := i.volumeAllowance.or old.volumeAllowance
          concLimit := i.concLimit.or old.concLimit, phBand := i.phBand.or old.phBand
          floor := i.floor.getD old.floor, floorEnable := i.floorEnable.getD old.floorEnable
          persistence := i.persistence.getD old.persistence
          dayBoundary := i.dayBoundary.getD old.dayBoundary } ∧
    let valid := limitRanges i = true ∧ (∀ lo hi, l.phBand = some (lo, hi) → lo < hi) ∧
      (∀ a, l.massAllowance = some a → l.floor ≤ a) ∧
      (limitsSet s.part.gate.limits = true ∨ (i.massAllowance.isSome = true ∧ i.volumeAllowance.isSome = true ∧
        i.concLimit.isSome = true ∧ i.phBand.isSome = true))
    (¬ valid → exec (.setLimits n i) s = .next (s.told n 0x28 { status := .badValue })) ∧
    (valid → exec (.setLimits n i) s = .next (s.answered n 0x28 { status := .ok } (selectLot s.books
      (if l.floorEnable = false ∨ l.massAllowance.all (fun a => decide (l.floor + s.part.gate.todayMass ≤ a)) = true
        then reportType .allowanceFloor .cleared set else set)))))

/-- The gate state is the first that applies: SHUT outside OPERATING and LOCKDOWN or every window, BARRED in LOCKDOWN or
under SHUT OUTFALL, RUNNING with a DISCHARGE in the table, else OPEN. A selection is made while it is OPEN and its
conditions still hold, both probes read, no frame holds the gate and a lot is queued: it takes the first queued lot that
fits, and none only where no queued lot does, and starts its DISCHARGE: the lot goes to DISCHARGING and out of the queue, and the gate is RUNNING. A start that is
refused leaves the lot and the queue as they were, with the refusal's reason as the outcome. After each increment the first check that applies is acted on: below an enabled floor
ALLOWANCE FLOOR is raised, or its frame reported PRESENT, and a DISCHARGE still in the table is paused, with a frame
that stood before as well (log 48), and where the stack is full the entry to LOCKDOWN leaves it to that pause (log 78); at
a spent allowance, or where the next quantum could pass the volume allowance, it is paused. These checks come after the booking has been told (log 9). With a probe absent the outcome is PROBE, also
where the gate is held or the queue empty (log 73). At the end of a DISCHARGE that left water the lot goes to CLEARED
with reason PAUSE after a pause or a window end and with reason CUT after any cut or stall that is bound to no frame, to
SUSPENDED where a frame is named, which then names the lot, and to REJECTED at REJECT LOT; then the persistence timers
stop and the gate state is recomputed. -/
def Obligations.GateSelection : Prop :=
  (∀ p : Part, gateStateOf p =
    if p.ctl.mode.running = false ∨ inWindow p.gate = false then .shut
    else if p.ctl.mode = .lockdown ∨ (actionsInForce p).shutOutfall = true then .barred
    else if (∃ m ∈ p.mov.entries, m.kind = .discharge) then .running
    else .open_) ∧
  (∀ (b : Books) (g : Gate) (l : Lot), lotFits b g l = true ↔
    ∃ conc ph limit lo hi mass volume,
      l.measuredConc = some conc ∧ g.limits.concLimit = some limit ∧ conc ≤ limit ∧
      l.measuredPh = some ph ∧ g.limits.phBand = some (lo, hi) ∧ lo ≤ ph ∧ ph ≤ hi ∧
      g.limits.massAllowance = some mass ∧ g.limits.volumeAllowance = some volume ∧
      let headroom := (mass : Int) - g.todayMass - (if g.limits.floorEnable then (g.limits.floor : Int) else 0)
      0 < headroom ∧ (((b.vessel l.vessel).volume * conc : Nat) : Int) ≤ headroom ∧
        ((b.vessel l.vessel).volume : Int) ≤ (volume : Int) - g.todayVolume) ∧
  (∀ (b : Books) (p : Part),
    (p.gate.state ≠ .open_ ∨ gateStateOf p ≠ .open_ →
      (selectLot b p).mov.entries = p.mov.entries ∧ (selectLot b p).lot = p.lot) ∧
    (p.gate.state = .open_ → gateStateOf p = .open_ →
      (p.gate.silver = none ∨ p.gate.ph = none → (selectLot b p).gate.outcome = some .probe) ∧
      (p.gate.silver.isSome = true → p.gate.ph.isSome = true →
        (kindHeld p .discharge = true → (selectLot b p).gate.outcome = some .held) ∧
        (kindHeld p .discharge = false → p.gate.queue = [] → (selectLot b p).gate.outcome = some .noLot) ∧
        (kindHeld p .discharge = false → p.gate.queue ≠ [] → firstFit b p = none →
          (selectLot b p).gate.outcome = some .noFit) ∧
        (∀ l, kindHeld p .discharge = false → p.gate.queue ≠ [] → firstFit b p = some l →
          let r := askStart b { kind := .discharge, source := .vesselOutlet l.vessel, dest := .outfall
                                requested := (b.vessel l.vessel).volume, lot := some l.number
                                waiter := some .discharge } p
          (∀ why, r.2 = .refused why →
            selectLot b p = { r.1 with gate := { r.1.gate with outcome := some (.refused why) } } ∧
            r.1.lot = p.lot ∧ r.1.gate = p.gate) ∧
          (∀ n, r.2 = .started n →
            let begun := notify (.lotState l.number (some .discharging) .dischargeStart)
              (updLot l.number (fun x => { x with state := .discharging }) r.1)
            let runs := recomputeGate .dischargeStart { begun with gate := { begun.gate with
              queue := begun.gate.queue.filter (fun x => decide (x.1 ≠ l.number)) } }
            selectLot b p = { runs with gate := { runs.gate with outcome := some .started } } ∧
            (selectLot b p).gate.state = .running ∧
            (selectLot b p).lot.lots = p.lot.lots.map (fun x =>
              if x.number = l.number then { x with state := .discharging } else x))) ∧
        (∀ l, kindHeld p .discharge = false → p.gate.queue ≠ [] → firstFit b p = some l →
          p.ctl.mode.running = true → portBusy p (.vesselOutlet l.vessel) = false →
          0 < (b.vessel l.vessel).volume → portBusy p .outfall = false → p.mov.entries.length < 12 →
          (selectLot b p).gate.outcome = some .started ∧
          (selectLot b p).gate.queue = p.gate.queue.filter (fun x => decide (x.1 ≠ l.number)) ∧
          ∃ m, (selectLot b p).mov.entries = p.mov.entries ++ [m] ∧ m.kind = .discharge ∧
            m.source = .vesselOutlet l.vessel ∧ m.dest = .outfall ∧ m.lot = some l.number ∧
            m.requested = (b.vessel l.vessel).volume)))) ∧
  (∀ (b : Books) (p : Part) (l : Lot), firstFit b p = some l → ∃ before x after,
    p.gate.queue = before ++ x :: after ∧ findLot x.1 p = some l ∧ lotFits b p.gate l = true ∧
    ∀ y ∈ before, ∀ k, findLot y.1 p = some k → lotFits b p.gate k = false) ∧
  (∀ (b : Books) (p : Part), firstFit b p = none ↔
    ∀ y ∈ p.gate.queue, ∀ k, findLot y.1 p = some k → lotFits b p.gate k = false) ∧
  (∀ (g : Gate) (left : Nat),
    let short := ∃ a, g.limits.massAllowance = some a ∧ (a : Int) - g.todayMass < g.limits.floor
    let spent := ∃ a, g.limits.massAllowance = some a ∧ a ≤ g.todayMass
    let tight := ∃ v, g.limits.volumeAllowance = some v ∧
      (v : Int) - g.todayVolume < 10 ∧ (v : Int) - g.todayVolume < left
    (g.limits.floorEnable = true → short → incrementCheck g left = .floor) ∧
    (g.limits.floorEnable = false → spent → incrementCheck g left = .pause) ∧
    (¬ (g.limits.floorEnable = true ∧ short) → ¬ (g.limits.floorEnable = false ∧ spent) →
      (tight → incrementCheck g left = .pause) ∧ (¬ tight → incrementCheck g left = .none))) ∧
  (∀ (b : Books) (n : Nat) (p : Part),
    (findMove n p = none → afterIncrement b n p = p) ∧
    (∀ m, findMove n p = some m →
      let check := incrementCheck p.gate ((sourceVolume b m.source).getD 0)
      let stands := ∃ f ∈ p.flt.stack, f.ftype = .allowanceFloor
      (check = .none → afterIncrement b n p = p) ∧
      (check = .pause → afterIncrement b n p = cutDischarge b .pause p) ∧
      (check = .floor → stands →
        afterIncrement b n p = cutDischarge b .pause (reportType .allowanceFloor .present p)) ∧
      (∀ lot, check = .floor → ¬ stands → m.lot = some lot → afterIncrement b n p = cutDischarge b .pause (raise b
        { ftype := .allowanceFloor, subject := .discharge m.number lot, interrupted := some m
          spare := if p.flt.stack.length < 6 then none else some m.number } p)))) ∧
  (∀ (m : Movement) (k : Booking) (q : Plant), m.kind = .discharge →
    let booked := bookAndTell k (some m.number) none
      (quantumTold m (k.moves q.books).1 (k.moves q.books).2) q
    bookedQuantum m k q = ⟨booked.books, afterIncrement booked.books m.number booked.part⟩) ∧
  (∀ (n : Nat) (p : Part),
    dischargedLot n (.cut .pause) p = clearLot n .pause p ∧ dischargedLot n (.cut .windowEnd) p = clearLot n .pause p ∧
    dischargedLot n (.cut .plain) p = clearLot n .cut p ∧ dischargedLot n (.cut .general) p = clearLot n .cut p ∧
    dischargedLot n (.cut .restart) p = clearLot n .cut p ∧
    dischargedLot n (.cut (.frame none)) p = clearLot n .cut p ∧ dischargedLot n (.stall none) p = clearLot n .cut p ∧
    (∀ d, dischargedLot n (.cut (.frame (some d))) p = suspendLot n d p ∧
      dischargedLot n (.stall (some d)) p = suspendLot n d p ∧
      suspendLot n d p = lotNotice n .suspended .fault
        (let marked := updLot n (fun l => { l with state := .suspended, bindingFrame := some d }) p
         { marked with flt := { p.flt with
            stack := p.flt.stack.modify (d - 1) (fun f => { f with lot := some n }) } })) ∧
    dischargedLot n (.cut .reject) p = rejectLot n (some .host) .host p) ∧
  (∀ (b : Books) (m : Movement) (e : Ending) (p : Part), m.kind = .discharge →
    let stopped (q : Part) := { q with gate := { q.gate with silverTimer := none, phTimer := none } }
    (∀ n l, m.lot = some n → findLot n p = some l →
      ∃ r, ownerTold b m e p = recomputeGate r (stopped (dischargedLot n e p))) ∧
    ((∀ n, m.lot = some n → findLot n p = none) → ∃ r, ownerTold b m e p = recomputeGate r (stopped p)))

/-- CLOCK_TICK is one second (log 5): every running timer counts down by one in the modes that run it, and a set clock
advances; at a window bound the window opens or ends, and at the day boundary the day rolls, with DAY END, the totals at
0 and the ALLOWANCE FLOOR frames CLEARED. Where both fall in one second the window acts first (the model's choice, log
28). -/
def Obligations.ClockTick : Prop :=
  ∀ s : State, s.live →
    let timed := if s.part.ctl.mode.inService then { s.begun with
        mov := { s.part.mov with entries := s.part.mov.entries.map (fun m => { m with
          travelLeft := m.travelLeft - 1, quiet := if m.phase = .running then m.quiet + 1 else m.quiet
          timeoutLeft := m.timeoutLeft.map (fun k => k - 1) }) }
        flt := { s.part.flt with stack := s.part.flt.stack.map (fun f => { f with
          holdLeft := f.holdLeft.map (fun k => k - 1) }) }
        cel := { s.part.cel with cells := s.part.cel.cells.map (fun r =>
          if r.paused then r else { r with runTimer := r.runTimer.map (fun k => k - 1) }) }
        gate := { s.part.gate with
          silverTimer := s.part.gate.silverTimer.map (fun k => k - 1)
          phTimer := s.part.gate.phTimer.map (fun k => k - 1)
          silverQuiet := s.part.gate.silverQuiet + 1, phQuiet := s.part.gate.phQuiet + 1 } } else s.begun
    let ran := if s.part.ctl.mode.running then { timed with
        lot := { s.part.lot with lots := s.part.lot.lots.map (fun l => { l with
          timer := l.timer.map (fun k => k - 1) }) }
        src := { s.part.src with agingLeft := s.part.src.agingLeft - 1 } } else timed
    (s.part.gate.clock = none → exec .clockTick s = .next (s.after s.books ran)) ∧
    (∀ t, s.part.gate.clock = some t →
      let now := if t < 86399 then t + 1 else 0
      let set := { ran with gate := { ran.gate with clock := some now } }
      let bounded := match inWindow s.part.gate, inWindow set.gate with
        | false, true => selectLot s.books (recomputeGate .windowOpen set)
        | true, false => recomputeGate .windowEnd (cutDischarge s.books .windowEnd set)
        | _, _ => set
      (now ≠ s.part.gate.limits.dayBoundary * 60 → exec .clockTick s = .next (s.after s.books bounded)) ∧
      (now = s.part.gate.limits.dayBoundary * 60 →
        let told := notify (.dayEnd s.part.gate.todayVolume s.part.gate.todayMass s.part.gate.limits.massAllowance
          s.part.gate.limits.volumeAllowance now) bounded
        exec .clockTick s = .next (s.after s.books (selectLot s.books (reportType .allowanceFloor .cleared
          { told with gate := { told.gate with todayVolume := 0, todayMass := 0 } })))))

/-- A valid outfall reading is recorded, its persistence timer set, the PROBE FAILURE frame of its probe CLEARED and the
frames of its limit reported; a probe failure, by a reading or by silence, raises PROBE FAILURE, or reports its frame, and
ends the discharge; the expiry of a persistence timer that runs raises its fault with the running discharge, and so does
a reading beyond its limit at a persistence of 0 with no timer running. -/
def Obligations.OutfallProbes : Prop :=
  (∀ s : State, s.working →
    (∀ x, x ≤ 30000 → s.part.gate.state ≠ .running →
      let read := reportType .outfallExcursion (if concWithin s.part.gate.limits x then .cleared else .present)
        (reportOn .probeFailure (.probe .silver) .cleared
          { s.begun with gate := { s.part.gate with silver := some x, silverQuiet := 0 } })
      exec (.outfallSilverReading (some x)) s =
        .next (s.after s.books (if s.part.gate.silver.isSome then read else selectLot s.books read))) ∧
    (∀ x m lot, x ≤ 30000 → s.part.gate.silver.isSome = true → s.part.gate.state = .running →
      s.part.gate.limits.persistence = 0 → concWithin s.part.gate.limits x = false → s.part.gate.silverTimer = none →
      dischargeMove s.part = some m → m.lot = some lot →
      exec (.outfallSilverReading (some x)) s = .next (s.after s.books (raiseOrReport s.books
        { ftype := .outfallExcursion, subject := .discharge m.number lot, interrupted := some m }
        (reportType .outfallExcursion .present (reportOn .probeFailure (.probe .silver) .cleared
          { s.begun with gate := { s.part.gate with silver := some x, silverQuiet := 0 } }))))) ∧
    (∀ x, x ≤ 30000 → s.part.gate.silver.isSome = true → s.part.gate.state = .running →
      0 < s.part.gate.limits.persistence ∨ s.part.gate.silverTimer.isSome = true ∨ concWithin s.part.gate.limits x = true →
      let read := { s.begun with gate := { s.part.gate with
        silver := some x, silverQuiet := 0
        silverTimer := if concWithin s.part.gate.limits x then none
          else s.part.gate.silverTimer.or (some s.part.gate.limits.persistence) } }
      exec (.outfallSilverReading (some x)) s = .next (s.after s.books (reportType .outfallExcursion
        (if concWithin s.part.gate.limits x then .cleared else .present)
        (reportOn .probeFailure (.probe .silver) .cleared read)))) ∧
    (∀ x, x ≤ 140 → s.part.gate.state ≠ .running →
      let read := reportType .outfallPh (if phWithin s.part.gate.limits x then .cleared else .present)
        (reportOn .probeFailure (.probe .ph) .cleared
          { s.begun with gate := { s.part.gate with ph := some x, phQuiet := 0 } })
      exec (.outfallPhReading (some x)) s =
        .next (s.after s.books (if s.part.gate.ph.isSome then read else selectLot s.books read))) ∧
    (∀ x m lot, x ≤ 140 → s.part.gate.ph.isSome = true → s.part.gate.state = .running →
      s.part.gate.limits.persistence = 0 → phWithin s.part.gate.limits x = false → s.part.gate.phTimer = none →
      dischargeMove s.part = some m → m.lot = some lot →
      exec (.outfallPhReading (some x)) s = .next (s.after s.books (raiseOrReport s.books
        { ftype := .outfallPh, subject := .discharge m.number lot, interrupted := some m }
        (reportType .outfallPh .present (reportOn .probeFailure (.probe .ph) .cleared
          { s.begun with gate := { s.part.gate with ph := some x, phQuiet := 0 } }))))) ∧
    (∀ x, x ≤ 140 → s.part.gate.ph.isSome = true → s.part.gate.state = .running →
      0 < s.part.gate.limits.persistence ∨ s.part.gate.phTimer.isSome = true ∨ phWithin s.part.gate.limits x = true →
      let read := { s.begun with gate := { s.part.gate with
        ph := some x, phQuiet := 0
        phTimer := if phWithin s.part.gate.limits x then none
          else s.part.gate.phTimer.or (some s.part.gate.limits.persistence) } }
      exec (.outfallPhReading (some x)) s = .next (s.after s.books (reportType .outfallPh
        (if phWithin s.part.gate.limits x then .cleared else .present)
        (reportOn .probeFailure (.probe .ph) .cleared read)))) ∧
    (let lostSilver := { s.begun with gate := { s.part.gate with silver := none, silverTimer := none } }
     let lostPh := { s.begun with gate := { s.part.gate with ph := none, phTimer := none } }
     exec (.probeSilenceTimeout .silver) s = .next (s.after s.books (cutDischarge s.books .plain
       (raiseOrReport s.books { ftype := .probeFailure, subject := .probe .silver } lostSilver))) ∧
     exec (.probeSilenceTimeout .ph) s = .next (s.after s.books (cutDischarge s.books .plain
       (raiseOrReport s.books { ftype := .probeFailure, subject := .probe .ph } lostPh))) ∧
     (∀ r, r = none ∨ (∃ x, r = some x ∧ 30000 < x) →
       exec (.outfallSilverReading r) s = .next (s.after s.books (cutDischarge s.books .plain
         (raiseOrReport s.books { ftype := .probeFailure, subject := .probe .silver }
           { lostSilver with gate := { lostSilver.gate with silverQuiet := 0 } })))) ∧
     (∀ r, r = none ∨ (∃ x, r = some x ∧ 140 < x) →
       exec (.outfallPhReading r) s = .next (s.after s.books (cutDischarge s.books .plain
         (raiseOrReport s.books { ftype := .probeFailure, subject := .probe .ph }
           { lostPh with gate := { lostPh.gate with phQuiet := 0 } })))))) ∧
  (∀ s : State, s.live →
    (s.part.gate.silverTimer = none → exec .excursionExpiry s = .next s.idled) ∧
    (s.part.gate.phTimer = none → exec .phPersistenceExpiry s = .next s.idled) ∧
    (∀ m lot, s.part.gate.silverTimer.isSome = true → dischargeMove s.part = some m → m.lot = some lot →
      exec .excursionExpiry s = .next (s.after s.books (raiseOrReport s.books
        { ftype := .outfallExcursion, subject := .discharge m.number lot, interrupted := some m }
        { s.begun with gate := { s.part.gate with silverTimer := none } }))) ∧
    (∀ m lot, s.part.gate.phTimer.isSome = true → dischargeMove s.part = some m → m.lot = some lot →
      exec .phPersistenceExpiry s = .next (s.after s.books (raiseOrReport s.books
        { ftype := .outfallPh, subject := .discharge m.number lot, interrupted := some m }
        { s.begun with gate := { s.part.gate with phTimer := none } }))))

/-! ## Interlock patterns (chapter 9) -/

/-- The terms and the modes of a pattern. A level term reads the recorded state after the change, an edge term is met
only by the change of its own input, IGNORE never. AND is met when every active term is, of which there is one at least;
ANY and FIRST when some active term is. At a change AND and ANY write the changed input, FIRST the lowest input whose
term is met; with no change all three write the lowest. -/
def Obligations.PatternTermsAndModes : Prop :=
  (∀ (inputs : Vector Bool 24) (i : InputId),
    (∀ change, (termMet inputs change i .ignore = false) ∧
      (termMet inputs change i .low = true ↔ inputs.get i = false) ∧
      (termMet inputs change i .high = true ↔ inputs.get i = true)) ∧
    (∀ j high,
      (termMet inputs (some (j, high)) i .anyEdge = true ↔ j = i) ∧
      (termMet inputs (some (j, high)) i .fall = true ↔ j = i ∧ high = false) ∧
      (termMet inputs (some (j, high)) i .rise = true ↔ j = i ∧ high = true)) ∧
    termMet inputs none i .anyEdge = false ∧ termMet inputs none i .fall = false ∧
    termMet inputs none i .rise = false) ∧
  (∀ (inputs : Vector Bool 24) (change : Option (InputId × Bool)) (r : PatternRec),
    let active (i : InputId) := r.terms.get i ≠ .ignore
    let met (i : InputId) := termMet inputs change i (r.terms.get i) = true
    (r.mode = .andMode → (patternMet inputs change r = true ↔ (∃ i, active i) ∧ ∀ i, active i → met i)) ∧
    (r.mode = .anyMode ∨ r.mode = .firstMode → (patternMet inputs change r = true ↔ ∃ i, active i ∧ met i)) ∧
    (∀ j high, change = some (j, high) → r.mode ≠ .firstMode → matchedInput inputs change r = some j) ∧
    (patternMet inputs change r = true → change = none ∨ r.mode = .firstMode →
      ∃ i, matchedInput inputs change r = some i ∧ met i ∧ ∀ k, met k → i ≤ k))

/-- SET PATTERN, PATTERN ON, PATTERN OFF, ALARM TAKE and ALARM CLEAR with their checks and replies; an INPUT CHANGE is
recorded always and evaluates the patterns in service, from P1 to P6 (log 70; one that is no change is idle, log 32);
and an evaluation leaves an unmet or disabled pattern as it is, sets overrun on a PENDING or TAKEN one, and takes an
ARMED one to PENDING with its notice and its fault, or the PRESENT report of its frame. -/
def Obligations.PatternRequestsAndChanges : Prop :=
  (∀ (n : Byte) (k : Nat) (a : PatternId) (s : State), s.serves → patternOf k = some a →
    let r := patternRec s.part a
    let put (f : PatternRec → PatternRec) := updPattern a f s.begun
    (∀ i : PatternItems,
      let twoEdges := ∃ x y, x ≠ y ∧ isEdge (i.terms.get x) = true ∧ isEdge (i.terms.get y) = true
      (i.mode = .andMode ∧ twoEdges → exec (.setPattern n k i) s = .next (s.told n 0x2B { status := .badValue })) ∧
      (¬ (i.mode = .andMode ∧ twoEdges) → r.enabled = true →
        exec (.setPattern n k i) s = .next (s.told n 0x2B { status := .wrongState })) ∧
      (¬ (i.mode = .andMode ∧ twoEdges) → r.enabled = false →
        exec (.setPattern n k i) s = .next (s.answered n 0x2B { status := .ok }
          (put (fun x => { x with terms := i.terms, mode := i.mode, latch := i.latch }))))) ∧
    (r.enabled = true → exec (.patternOn n k) s = .next (s.told n 0x2C { status := .ok })) ∧
    (r.enabled = false → (∀ i, r.terms.get i = .ignore) →
      exec (.patternOn n k) s = .next (s.told n 0x2C { status := .wrongState })) ∧
    (r.enabled = false → (∃ i, r.terms.get i ≠ .ignore) →
      exec (.patternOn n k) s = .next (s.answered n 0x2C { status := .ok }
        (evaluatePattern s.books none a (put (fun x => { x with enabled := true }))))) ∧
    (r.state ≠ .armed → exec (.patternOff n k) s = .next (s.told n 0x2D { status := .wrongState })) ∧
    (r.state = .armed → r.enabled = true → exec (.patternOff n k) s =
      .next (s.answered n 0x2D { status := .ok } (put (fun x => { x with enabled := false })))) ∧
    (r.state = .armed → r.enabled = false → exec (.patternOff n k) s = .next (s.told n 0x2D { status := .ok })) ∧
    (r.state = .pending → exec (.alarmTake n k) s =
      .next (s.answered n 0x2E { status := .ok } (put (fun x => { x with state := .taken })))) ∧
    (r.state ≠ .pending → exec (.alarmTake n k) s = .next (s.told n 0x2E { status := .wrongState })) ∧
    (r.state = .taken →
      let p := evaluatePattern s.books none a (reportOn (.interlock a) (.pattern a) .cleared (put (fun x => { x with
        state := .armed, overrun := false, matched := none, matchTime := none, snapshot := none })))
      exec (.alarmClear n k) s =
        .next (s.answered n 0x2F { status := .ok, items := .patternState (patternRec p a).state } p)) ∧
    (r.state ≠ .taken → exec (.alarmClear n k) s = .next (s.told n 0x2F { status := .wrongState }))) ∧
  (∀ (n : Byte) (k : Nat) (s : State), s.serves → ¬ (1 ≤ k ∧ k ≤ 6) →
    (∀ i, exec (.setPattern n k i) s = .next (s.told n 0x2B { status := .badValue })) ∧
    exec (.patternOn n k) s = .next (s.told n 0x2C { status := .badValue }) ∧
    exec (.patternOff n k) s = .next (s.told n 0x2D { status := .badValue }) ∧
    exec (.alarmTake n k) s = .next (s.told n 0x2E { status := .badValue }) ∧
    exec (.alarmClear n k) s = .next (s.told n 0x2F { status := .badValue }) ∧
    exec (.readPattern n k) s = .next (s.told n 0x30 { status := .badValue })) ∧
  (∀ (i : InputId) (high : Bool) (s : State),
    let recorded := { s.begun with pat := { s.part.pat with inputs := s.part.pat.inputs.set i.1 high i.2 } }
    (s.part.pat.inputs.get i = high → exec (.inputChange i high) s = .next s.idled) ∧
    (s.part.pat.inputs.get i ≠ high → ¬ s.working →
      exec (.inputChange i high) s = .next (s.after s.books recorded)) ∧
    (s.part.pat.inputs.get i ≠ high → s.working →
      exec (.inputChange i high) s = .next (s.after s.books (allPatterns.foldl
        (fun q k => evaluatePattern s.books (some (i, high)) k q) recorded)))) ∧
  (∀ (b : Books) (change : Option (InputId × Bool)) (k : PatternId) (p : Part),
    let r := patternRec p k
    (r.enabled = false ∨ patternMet p.pat.inputs change r = false → evaluatePattern b change k p = p) ∧
    (r.enabled = true → patternMet p.pat.inputs change r = true →
      (r.state ≠ .armed → evaluatePattern b change k p = updPattern k (fun x => { x with overrun := true }) p) ∧
      (r.state = .armed →
        let i := matchedInput p.pat.inputs change r
        let snap := if r.latch then some p.pat.inputs else none
        let matched := notify (.patternMatch k i p.gate.clock snap) (updPattern k (fun x => { x with
          state := .pending, matched := i, matchTime := some p.gate.clock, snapshot := snap }) p)
        (hasFrame (.interlock k) (.pattern k) p = true →
          evaluatePattern b change k p = reportOn (.interlock k) (.pattern k) .present matched) ∧
        (hasFrame (.interlock k) (.pattern k) p = false →
          evaluatePattern b change k p = raise b { ftype := .interlock k, subject := .pattern k } matched))))

/-! ## Faults and LOCKDOWN (chapter 10) -/

/-- An action is in force while a frame on the stack carries it, or one whose pop has not come to its announcement
(log 60). A frame takes its type's loaded response in OPERATING and LOCKDOWN, and the default response in
COMMISSIONING and for a response not loaded (log 25). A raise is pushed with fewer than six frames on the stack and
updates the last-fault record; with six it is recorded as not stacked; LOCKDOWN is entered from OPERATING by the
LOCKDOWN action of a push or by a full stack. The actions of a push act in the order of R171: SHUT OUTFALL cuts the
DISCHARGE, STOP MOVEMENT cuts the interrupted movement that is still in the table and is no SLUG being booked, each
bound to the frame where its subject is that discharge; then the new set is announced, and the blocks act on it in the
order of log 71; LOCKDOWN comes last. The owners that the frame holds and whose work does not run go to WAITING HELD:
a CHARGING or DRAINING cell, the spill, the fill, the return engine, which then shows no source (log 72) and, held, no
ports (log 75); a held cell in another state keeps its step (the model's choice, log 85). A condition report changes
the frames that it names and no other. -/
def Obligations.FaultPushes : Prop :=
  ((∀ p : Part,
    ((actionsInForce p).shutOutfall = true ↔ p.flt.leaving.shutOutfall = true ∨
      ∃ f ∈ p.flt.stack, f.actions.shutOutfall = true) ∧
    ((actionsInForce p).stopIntake = true ↔ p.flt.leaving.stopIntake = true ∨
      ∃ f ∈ p.flt.stack, f.actions.stopIntake = true) ∧
    ((actionsInForce p).quarantineIntake = true ↔ p.flt.leaving.quarantineIntake = true ∨
      ∃ f ∈ p.flt.stack, f.actions.quarantineIntake = true) ∧
    ((actionsInForce p).stopCells = true ↔ p.flt.leaving.stopCells = true ∨
      ∃ f ∈ p.flt.stack, f.actions.stopCells = true) ∧
    ((actionsInForce p).stopMovement = true ↔ p.flt.leaving.stopMovement = true ∨
      ∃ f ∈ p.flt.stack, f.actions.stopMovement = true) ∧
    ((actionsInForce p).stopRegulation = true ↔ p.flt.leaving.stopRegulation = true ∨
      ∃ f ∈ p.flt.stack, f.actions.stopRegulation = true) ∧
    ((actionsInForce p).lockdown = true ↔ p.flt.leaving.lockdown = true ∨
      ∃ f ∈ p.flt.stack, f.actions.lockdown = true)) ∧
  (∀ (r : Raise) (p : Part),
    let f := newFrame r p
    let e := p.flt.table.get r.ftype.row
    let atPush := r.ftype = .flowStall ∨ r.ftype = .slugTimeout
    f.ftype = r.ftype ∧ f.subject = r.subject ∧ f.interrupted = r.interrupted ∧ f.time = p.gate.clock ∧
    f.lot = none ∧
    (p.ctl.mode ≠ .commissioning → e.loaded = true →
      f.actions = e.actions ∧ f.policy = e.policy ∧ f.hold = if e.policy = .auto then some e.hold else none) ∧
    (p.ctl.mode = .commissioning ∨ e.loaded = false →
      f.actions = ⟨true, true, true, true, true, true, false⟩ ∧ f.policy = .manual ∧ f.hold = none) ∧
    (atPush → f.condition = .cleared ∧ f.clearedTime = some p.gate.clock ∧ f.holdLeft = f.hold) ∧
    (¬ atPush → f.condition = .present ∧ f.clearedTime = none ∧ f.holdLeft = none))) ∧
  ((∀ (b : Books) (r : Raise) (p : Part),
    let f := newFrame r p
    let depth := p.flt.stack.length + 1
    (p.ctl.mode.inService = false → raise b r p = p) ∧
    (p.ctl.mode.inService = true → depth ≤ 6 →
      let e : LastFault := ⟨r.ftype, r.subject, p.gate.clock, some depth⟩
      raise b r p = applyActions b f depth r.spare (actionsInForce p)
        (notify (.fault depth r.ftype r.subject f.actions f.policy f.time)
          { p with flt := { p.flt with stack := p.flt.stack ++ [f], last := some e } }) ∧
      (raise b r p).flt.stack.map Frame.fixed = (p.flt.stack ++ [f]).map Frame.fixed ∧
      (raise b r p).flt.last = some e ∧
      (raise b r p).ctl.mode =
        (if p.ctl.mode = .operating ∧ f.actions.lockdown = true then .lockdown else p.ctl.mode)) ∧
    (p.ctl.mode.inService = true → 6 < depth →
      let e : LastFault := ⟨r.ftype, r.subject, p.gate.clock, none⟩
      let told := notify (.faultNotStacked r.ftype r.subject p.gate.clock) { p with flt := { p.flt with last := some e } }
      (p.ctl.mode ≠ .operating → raise b r p = told) ∧
      (p.ctl.mode = .operating → raise b r p = enterLockdown b .fullStack r.spare told ∧
        (raise b r p).ctl.mode = .lockdown ∧ (raise b r p).flt.last = some e ∧
        (raise b r p).flt.stack.map Frame.fixed = p.flt.stack.map Frame.fixed))) ∧
  (∀ (t : FaultType) (x : Subject) (c : Condition) (p : Part),
    let reported (f : Frame) : Frame :=
      if f.ftype = t ∧ f.subject = x ∧ f.condition ≠ c then
        (match c with
          | .present => { f with condition := .present, clearedTime := none, holdLeft := none }
          | .cleared => { f with condition := .cleared, clearedTime := some p.gate.clock, holdLeft := f.hold })
      else f
    reportOn t x c p = { p with flt := { p.flt with stack := p.flt.stack.map reported } }) ∧
  (∀ (b : Books) (f : Frame) (depth : Nat) (spare : Option Nat) (old : ActionSet) (p : Part),
    let bound (m : Movement) : Option Nat := match f.subject with
      | .discharge mv _ => if mv = m.number then some depth else none
      | _ => none
    let cut := applyStopMovement b f depth spare (applyShutOutfall b f depth p)
    (f.actions.shutOutfall = false ∨ dischargeMove p = none → applyShutOutfall b f depth p = p) ∧
    (∀ m, f.actions.shutOutfall = true → dischargeMove p = some m →
      applyShutOutfall b f depth p = cutMovement b m.number (.frame (bound m)) p) ∧
    (f.actions.stopMovement = false ∨ f.interrupted = none → applyStopMovement b f depth spare p = p) ∧
    (∀ m, f.actions.stopMovement = true → f.interrupted = some m →
      (some m.number = spare ∨ findMove m.number p = none → applyStopMovement b f depth spare p = p) ∧
      (some m.number ≠ spare →
        applyStopMovement b f depth spare p = cutMovement b m.number (.frame (bound m)) p)) ∧
    (f.actions.lockdown = false → applyActions b f depth spare old p = announcePush b f old cut) ∧
    (f.actions.lockdown = true → applyActions b f depth spare old p =
      enterLockdown b (.action depth f.ftype) spare (announcePush b f old cut)) ∧
    (let new := actionsInForce p
     let shut := if new.shutOutfall = true ∧ old.shutOutfall = false then recomputeGate .shutOutfall p else p
     let held := holdOwners f (settleCells b shut)
     let needs := if new.stopRegulation = true ∧ old.stopRegulation = false then reexamineNeeds b held else held
     (new ≠ old ∨ (∃ c, f.holdsCell c = true) → announcePush b f old p = examineArbiter b needs) ∧
     (new = old → (∀ c, f.holdsCell c = false) → announcePush b f old p = needs)))) ∧
  (∀ (f : Frame) (p : Part),
    let tells (q : Part) (c : CellId) := if f.holdsCell c = false ∨ (cellRec q c).step.isRunning = true then q else
      let waits := updCell c (fun x => { x with step := .waiting .held }) q
      match (cellRec q c).state with
      | .charging => waits
      | .draining => enterWaiting (.drain c) none waits
      | _ => q
    let cells := [0, 1, 2, 3].foldl tells p
    let spilled := if f.holdsKind .spill = true ∧ cells.reg.spill.isRunning = false
      then setSpill (.waiting .held) none cells else cells
    let filled := if f.holdsKind .fill = true ∧ spilled.reg.fill.isRunning = false
      then setFill (.waiting .held) none spilled else spilled
    holdOwners f p = if f.holdsKind .ret = true ∧ filled.reg.ret.isRunning = false
      then setReturn (.waiting .held) none none filled else filled)

/-- RESUME and ABANDON check the depth, the frame, the top and, for RESUME, the CLEARED condition, and pop the top frame
with its type and subject in the reply. A pop takes the frame away and leaves those below it: its owners take their
steps while its actions are still in force, which the model's own field leaving holds (log 60), then the actions left
are announced, FAULT POPPED is sent, and the gate, the needs, the arbiter and the DRAINING cells re-examine. Then every
AUTO frame that comes to the top CLEARED with its hold run out pops too, one after another, until none stands on top;
MANUAL frames below never pop by themselves. The hold of an AUTO frame running out below the top is only recorded, as 0
left (log 80); on the top,
it is a pop by AUTO. The owners' steps: the bound lot goes to CLEARED with reason RESUMED, or at an ABANDON to REJECTED; a
cell that no frame holds any more takes up its step, at an ABANDON after its abandon step or the cut of its CHARGE; the
needs and the gate that the frame held re-examine. A cell is held by a CELL FAULT frame that names it, any owner by STOP
MOVEMENT on its movement. The order of the owners, and of the blocks that re-examine, is the model's (log 71), and so is
the reason HELD that a CHARGING cell keeps where the arbiter does not take it up (log 68). -/
def Obligations.FaultPops : Prop :=
  (∀ (n : Byte) (depth : Nat) (s : State), s.serves →
    (¬ (1 ≤ depth ∧ depth ≤ 6) →
      exec (.resume n depth) s = .next (s.told n 0x33 { status := .badValue }) ∧
      exec (.abandon n depth) s = .next (s.told n 0x34 { status := .badValue })) ∧
    (1 ≤ depth → depth ≤ 6 → s.part.flt.stack.length < depth →
      exec (.resume n depth) s = .next (s.told n 0x33 { status := .noSuch }) ∧
      exec (.abandon n depth) s = .next (s.told n 0x34 { status := .noSuch })) ∧
    (1 ≤ depth → depth ≤ 6 → depth < s.part.flt.stack.length →
      exec (.resume n depth) s = .next (s.told n 0x33 { status := .notTop }) ∧
      exec (.abandon n depth) s = .next (s.told n 0x34 { status := .notTop })) ∧
    (∀ below f, s.part.flt.stack = below ++ [f] → depth = below.length + 1 → depth ≤ 6 →
      let ok : Reply := { status := .ok, items := .popped f.ftype f.subject }
      (f.condition = .present → exec (.resume n depth) s = .next (s.told n 0x33 { status := .wrongState })) ∧
      (f.condition = .cleared →
        exec (.resume n depth) s = .next (s.answered n 0x33 ok (popFrame s.books .resume s.begun))) ∧
      exec (.abandon n depth) s = .next (s.answered n 0x34 ok (popFrame s.books .abandon s.begun)))) ∧
  (∀ (b : Books) (way : PopWay) (p : Part) (below : List Frame) (f : Frame), p.flt.stack = below ++ [f] →
    let owners := popOwners b way f { p with flt := { p.flt with stack := below, leaving := f.actions } }
    let popped := popReexamine b (notify (.faultPopped (below.length + 1) f.ftype f.subject way)
      (announcePop b f (actionsInForce p) { owners with flt := { owners.flt with leaving := p.flt.leaving } }))
    popped.flt.stack.map Frame.fixed = below.map Frame.fixed ∧
    (popFrame b way p).ctl = p.ctl ∧ (popFrame b way p).flt.last = p.flt.last ∧
    (topPops popped = false → popFrame b way p = popped) ∧ popFrame b way p = autoPops b 6 popped ∧
    ((∀ x, below.getLast? = some x → x.policy = .manual) → popFrame b way p = popped)) ∧
  (∀ (b : Books) (way : PopWay) (p : Part),
    (topPops p = true ↔ ∃ f, p.flt.stack.getLast? = some f ∧ f.policy = .auto ∧ f.condition = .cleared ∧
      f.holdLeft = some 0) ∧
    autoPops b 0 p = p ∧
    (∀ k, autoPops b (k + 1) p = if topPops p = true then autoPops b k (popOnce b .auto p) else p) ∧
    (p.flt.stack.length ≤ 6 → topPops (popFrame b way p) = false)) ∧
  (∀ (b : Books) (way : PopWay) (f : Frame) (p : Part),
    let ends (q : Part) := match way with
      | .abandon => (match f.lot with
        | some n => rejectLot n (some .abandoned) .abandoned q
        | none => q)
      | _ => (match f.lot with
        | some n => clearLot n .resumed q
        | none => q)
    let takes (c : CellId) (q : Part) := if cellHeld q c = true then q else seekDrain b c (settleCell b c q)
    let cell (q : Part) (c : CellId) := if f.holdsCell c = false then q else match way with
      | .abandon => takes c (match (cellRec q c).state, cellMove q c with
        | .charging, some m => cutMovement b m.number .abandon q
        | _, _ => abandonStep b c q)
      | _ => takes c q
    let spilled (q : Part) := if f.holdsKind .spill = true ∧ q.reg.spill.isWaiting = true then spillCheck b q else q
    let filled (q : Part) := if f.holdsKind .fill = true ∧ q.reg.fill.isWaiting = true then fillCheck b q else q
    let returned (q : Part) := if f.holdsKind .ret = true then examineReturn b q else q
    let owners := returned (filled (spilled ([0, 1, 2, 3].foldl cell (ends p))))
    popOwners b way f p = if f.holdsKind .discharge = true then selectLot b owners else owners) ∧
  (∀ (b : Books) (f : Frame) (old : ActionSet) (p : Part),
    let new := actionsInForce p
    let opened := if old.shutOutfall = true ∧ new.shutOutfall = false then recomputeGate .shutOutfall p else p
    let settled := settleCells b opened
    let needs := if old.stopRegulation = true ∧ new.stopRegulation = false
      then examineReturn b (reuseEvaluation b settled) else settled
    (new ≠ old ∨ (∃ c, f.holdsCell c = true) → announcePop b f old p = examineArbiter b needs) ∧
    (new = old → (∀ c, f.holdsCell c = false) → announcePop b f old p = needs) ∧
    popReexamine b p = examineArbiter b (seekDrains b (reexamineNeeds b (selectLot b p)))) ∧
  (∀ (f : Frame) (c : CellId) (k : MoveKind),
    (f.holdsCell c = true ↔ (f.ftype = .cellFault ∧ f.subject = .cell c) ∨ (f.actions.stopMovement = true ∧
      ∃ m, f.interrupted = some m ∧ (m.dest = .cellInlet c ∨ m.source = .cellOutlet c))) ∧
    (f.holdsKind k = true ↔ f.actions.stopMovement = true ∧ ∃ m, f.interrupted = some m ∧ m.kind = k)) ∧
  (∀ (depth : Nat) (s : State), s.live →
    let holds (f : Frame) := f.policy = .auto ∧ f.condition = .cleared ∧ f.holdLeft.isSome = true
    (¬ s.inService ∨ (∀ f, frameAt depth s.part = some f → ¬ holds f) →
      exec (.autoHoldExpiry depth) s = .next s.idled) ∧
    (∀ below f above, s.inService → s.part.flt.stack = below ++ f :: above → depth = below.length + 1 → holds f →
      let ran := { s.begun with flt := { s.part.flt with stack := below ++ { f with holdLeft := some 0 } :: above } }
      (above ≠ [] → exec (.autoHoldExpiry depth) s = .next (s.after s.books ran)) ∧
      (above = [] → ∃ p, exec (.autoHoldExpiry depth) s = .next (s.after s.books p) ∧
        p = popFrame s.books .auto ran ∧ p.ctl = s.begun.ctl ∧
        ∃ k, k ≤ below.length ∧ p.flt.stack.map Frame.fixed = (below.take k).map Frame.fixed)))

/-- LOCKDOWN enters from OPERATING with cause HOST, is answered OK in LOCKDOWN and refused in any other mode; it pushes
no frame. RELEASE returns to OPERATING with an empty stack, and is refused with the depth of the top frame otherwise. At
the entry the blocks act in the order gate, cells, drains, arbiter, CHARGING cells that wait taking reason MODE; at a
RELEASE in the order gate, cells, drains, arbiter, needs: the model's orders (logs 49 and 77). -/
def Obligations.LockdownAndRelease : Prop :=
  (∀ (b : Books) (p : Part),
    blocksLockdown b p = examineArbiter b (seekDrains b (chargesWaitMode (settleCells b (recomputeGate .mode p)))) ∧
    blocksOperating b p = reexamineNeeds b (examineArbiter b (seekDrains b (settleCells b
      (selectLot b (recomputeGate .mode p))))) ∧
    chargesWaitMode p = [0, 1, 2, 3].foldl (fun q c =>
      if (cellRec q c).state = .charging ∧ (cellRec q c).step.isWaiting = true ∧ cellHeld q c = false
      then updCell c (fun x => { x with step := .waiting .mode }) q else q) p ∧
    settleCells b p = [0, 1, 2, 3].foldl (fun q c => settleCell b c q) p ∧
    seekDrains b p = [0, 1, 2, 3].foldl (fun q c => seekDrain b c q) p ∧
    reexamineNeeds b p =
      (let spilled := if p.reg.spill.isWaiting = true then spillCheck b p else p
       examineReturn b (if spilled.reg.fill.isWaiting = true then fillCheck b spilled else spilled))) ∧
  ∀ (n : Byte) (s : State), s.hasPlace →
    (s.part.ctl.mode = .operating → ∃ p,
      exec (.lockdown n) s = .next (s.answered n 0x35 { status := .ok } p) ∧
      p = blocksLockdown s.books (notify (.lockdown .host) (generalCut s.books .general none
        { s.begun with ctl := { s.part.ctl with mode := .lockdown } })) ∧
      p.ctl = { s.part.ctl with mode := .lockdown } ∧ p.flt.last = s.part.flt.last ∧
      p.flt.stack.map Frame.fixed = s.part.flt.stack.map Frame.fixed) ∧
    (s.part.ctl.mode = .lockdown → exec (.lockdown n) s = .next (s.told n 0x35 { status := .ok })) ∧
    (s.part.ctl.mode ≠ .operating → s.part.ctl.mode ≠ .lockdown →
      exec (.lockdown n) s = .next (s.told n 0x35 { status := .wrongMode })) ∧
    (s.part.ctl.mode = .lockdown → s.part.flt.stack = [] → ∃ p,
      exec (.release n) s = .next (s.answered n 0x36 { status := .ok } p) ∧
      p = blocksOperating s.books (notify .released { s.begun with ctl := { s.part.ctl with mode := .operating } }) ∧
      p.ctl = { s.part.ctl with mode := .operating } ∧ p.flt = s.part.flt) ∧
    (s.part.ctl.mode = .lockdown → s.part.flt.stack ≠ [] → exec (.release n) s =
      .next (s.told n 0x36 { status := .wrongState, items := .topDepth s.part.flt.stack.length })) ∧
    (s.part.ctl.mode ≠ .lockdown → exec (.release n) s = .next (s.told n 0x36 { status := .wrongMode }))
end

