-- ==== Sys2Proof/Laws/State.lean ====
section
/-! SUPPORT. One lemma per block of the part and per named update of Machine/Ops.lean: an update leaves every other
block as it was; and what reading an entry of a table gives after a write. -/

namespace Sys2Proof.Machine

/-! ## Tables -/

/-- Reading an entry after an update: the image at the place, the old entry elsewhere. -/
@[simp] theorem get_updAt {α : Type} {n : Nat} (xs : Vector α n) (i j : Fin n) (f : α → α) :
    (updAt xs i f).get j = if j = i then f (xs.get i) else xs.get j := by
  show (xs.set i.1 (f (xs.get i)) i.2)[j.1] = _
  by_cases h : j = i
  · subst h; simp
  · rw [Vector.getElem_set_ne i.2 j.2 (fun e => h (Fin.ext e.symm)), if_neg h]; rfl

/-- An update that keeps what `g` reads keeps it in the whole table. -/
theorem map_updAt {α β : Type} {n : Nat} (xs : Vector α n) (i : Fin n) (f : α → α) (g : α → β)
    (h : ∀ x, g (f x) = g x) : (updAt xs i f).map g = xs.map g := by
  ext j hj
  rw [Vector.getElem_map, Vector.getElem_map]
  by_cases hij : i.1 = j
  · subst hij; simp only [updAt, Vector.getElem_set_self]; exact h _
  · simp [updAt, Vector.getElem_set_ne, hij]

/-! ## Reading one record after an update of the same kind -/

@[simp] theorem vesselRec_updVessel (v w : VesselId) (f : VesselRec → VesselRec) (p : Part) :
    vesselRec (updVessel v f p) w = if w = v then f (vesselRec p v) else vesselRec p w := get_updAt _ _ _ _

@[simp] theorem cellRec_updCell (c d : CellId) (f : CellRec → CellRec) (p : Part) :
    cellRec (updCell c f p) d = if d = c then f (cellRec p c) else cellRec p d := get_updAt _ _ _ _

@[simp] theorem unitRec_updUnit (u w : UnitId) (f : UnitRec → UnitRec) (p : Part) :
    unitRec (updUnit u f p) w = if w = u then f (unitRec p u) else unitRec p w := get_updAt _ _ _ _

@[simp] theorem patternRec_updPattern (k j : PatternId) (f : PatternRec → PatternRec) (p : Part) :
    patternRec (updPattern k f p) j = if j = k then f (patternRec p k) else patternRec p j := get_updAt _ _ _ _

/-! ## Every other block is untouched -/

@[simp] theorem updVessel_mov (v : VesselId) (f : VesselRec → VesselRec) (p : Part) :
    (updVessel v f p).mov = p.mov := rfl
@[simp] theorem updVessel_lot (v : VesselId) (f : VesselRec → VesselRec) (p : Part) :
    (updVessel v f p).lot = p.lot := rfl
@[simp] theorem updVessel_src (v : VesselId) (f : VesselRec → VesselRec) (p : Part) :
    (updVessel v f p).src = p.src := rfl
@[simp] theorem updVessel_fld (v : VesselId) (f : VesselRec → VesselRec) (p : Part) :
    (updVessel v f p).fld = p.fld := rfl
@[simp] theorem updVessel_reg (v : VesselId) (f : VesselRec → VesselRec) (p : Part) :
    (updVessel v f p).reg = p.reg := rfl
@[simp] theorem updVessel_cel (v : VesselId) (f : VesselRec → VesselRec) (p : Part) :
    (updVessel v f p).cel = p.cel := rfl
@[simp] theorem updVessel_gate (v : VesselId) (f : VesselRec → VesselRec) (p : Part) :
    (updVessel v f p).gate = p.gate := rfl
@[simp] theorem updVessel_pat (v : VesselId) (f : VesselRec → VesselRec) (p : Part) :
    (updVessel v f p).pat = p.pat := rfl
@[simp] theorem updVessel_flt (v : VesselId) (f : VesselRec → VesselRec) (p : Part) :
    (updVessel v f p).flt = p.flt := rfl
@[simp] theorem updVessel_ctl (v : VesselId) (f : VesselRec → VesselRec) (p : Part) :
    (updVessel v f p).ctl = p.ctl := rfl
@[simp] theorem updVessel_link (v : VesselId) (f : VesselRec → VesselRec) (p : Part) :
    (updVessel v f p).link = p.link := rfl

@[simp] theorem updCell_vessels (c : CellId) (f : CellRec → CellRec) (p : Part) :
    (updCell c f p).vessels = p.vessels := rfl
@[simp] theorem updCell_mov (c : CellId) (f : CellRec → CellRec) (p : Part) :
    (updCell c f p).mov = p.mov := rfl
@[simp] theorem updCell_lot (c : CellId) (f : CellRec → CellRec) (p : Part) :
    (updCell c f p).lot = p.lot := rfl
@[simp] theorem updCell_src (c : CellId) (f : CellRec → CellRec) (p : Part) :
    (updCell c f p).src = p.src := rfl
@[simp] theorem updCell_fld (c : CellId) (f : CellRec → CellRec) (p : Part) :
    (updCell c f p).fld = p.fld := rfl
@[simp] theorem updCell_reg (c : CellId) (f : CellRec → CellRec) (p : Part) :
    (updCell c f p).reg = p.reg := rfl
@[simp] theorem updCell_gate (c : CellId) (f : CellRec → CellRec) (p : Part) :
    (updCell c f p).gate = p.gate := rfl
@[simp] theorem updCell_pat (c : CellId) (f : CellRec → CellRec) (p : Part) :
    (updCell c f p).pat = p.pat := rfl
@[simp] theorem updCell_flt (c : CellId) (f : CellRec → CellRec) (p : Part) :
    (updCell c f p).flt = p.flt := rfl
@[simp] theorem updCell_ctl (c : CellId) (f : CellRec → CellRec) (p : Part) :
    (updCell c f p).ctl = p.ctl := rfl
@[simp] theorem updCell_link (c : CellId) (f : CellRec → CellRec) (p : Part) :
    (updCell c f p).link = p.link := rfl

@[simp] theorem updUnit_vessels (u : UnitId) (f : UnitRec → UnitRec) (p : Part) :
    (updUnit u f p).vessels = p.vessels := rfl
@[simp] theorem updUnit_mov (u : UnitId) (f : UnitRec → UnitRec) (p : Part) :
    (updUnit u f p).mov = p.mov := rfl
@[simp] theorem updUnit_lot (u : UnitId) (f : UnitRec → UnitRec) (p : Part) :
    (updUnit u f p).lot = p.lot := rfl
@[simp] theorem updUnit_src (u : UnitId) (f : UnitRec → UnitRec) (p : Part) :
    (updUnit u f p).src = p.src := rfl
@[simp] theorem updUnit_reg (u : UnitId) (f : UnitRec → UnitRec) (p : Part) :
    (updUnit u f p).reg = p.reg := rfl
@[simp] theorem updUnit_cel (u : UnitId) (f : UnitRec → UnitRec) (p : Part) :
    (updUnit u f p).cel = p.cel := rfl
@[simp] theorem updUnit_gate (u : UnitId) (f : UnitRec → UnitRec) (p : Part) :
    (updUnit u f p).gate = p.gate := rfl
@[simp] theorem updUnit_pat (u : UnitId) (f : UnitRec → UnitRec) (p : Part) :
    (updUnit u f p).pat = p.pat := rfl
@[simp] theorem updUnit_flt (u : UnitId) (f : UnitRec → UnitRec) (p : Part) :
    (updUnit u f p).flt = p.flt := rfl
@[simp] theorem updUnit_ctl (u : UnitId) (f : UnitRec → UnitRec) (p : Part) :
    (updUnit u f p).ctl = p.ctl := rfl
@[simp] theorem updUnit_link (u : UnitId) (f : UnitRec → UnitRec) (p : Part) :
    (updUnit u f p).link = p.link := rfl

@[simp] theorem updPattern_vessels (k : PatternId) (f : PatternRec → PatternRec) (p : Part) :
    (updPattern k f p).vessels = p.vessels := rfl
@[simp] theorem updPattern_mov (k : PatternId) (f : PatternRec → PatternRec) (p : Part) :
    (updPattern k f p).mov = p.mov := rfl
@[simp] theorem updPattern_lot (k : PatternId) (f : PatternRec → PatternRec) (p : Part) :
    (updPattern k f p).lot = p.lot := rfl
@[simp] theorem updPattern_src (k : PatternId) (f : PatternRec → PatternRec) (p : Part) :
    (updPattern k f p).src = p.src := rfl
@[simp] theorem updPattern_fld (k : PatternId) (f : PatternRec → PatternRec) (p : Part) :
    (updPattern k f p).fld = p.fld := rfl
@[simp] theorem updPattern_reg (k : PatternId) (f : PatternRec → PatternRec) (p : Part) :
    (updPattern k f p).reg = p.reg := rfl
@[simp] theorem updPattern_cel (k : PatternId) (f : PatternRec → PatternRec) (p : Part) :
    (updPattern k f p).cel = p.cel := rfl
@[simp] theorem updPattern_gate (k : PatternId) (f : PatternRec → PatternRec) (p : Part) :
    (updPattern k f p).gate = p.gate := rfl
@[simp] theorem updPattern_flt (k : PatternId) (f : PatternRec → PatternRec) (p : Part) :
    (updPattern k f p).flt = p.flt := rfl
@[simp] theorem updPattern_ctl (k : PatternId) (f : PatternRec → PatternRec) (p : Part) :
    (updPattern k f p).ctl = p.ctl := rfl
@[simp] theorem updPattern_link (k : PatternId) (f : PatternRec → PatternRec) (p : Part) :
    (updPattern k f p).link = p.link := rfl

@[simp] theorem updMove_vessels (n : Nat) (f : Movement → Movement) (p : Part) :
    (updMove n f p).vessels = p.vessels := rfl
@[simp] theorem updMove_lot (n : Nat) (f : Movement → Movement) (p : Part) :
    (updMove n f p).lot = p.lot := rfl
@[simp] theorem updMove_src (n : Nat) (f : Movement → Movement) (p : Part) :
    (updMove n f p).src = p.src := rfl
@[simp] theorem updMove_fld (n : Nat) (f : Movement → Movement) (p : Part) :
    (updMove n f p).fld = p.fld := rfl
@[simp] theorem updMove_reg (n : Nat) (f : Movement → Movement) (p : Part) :
    (updMove n f p).reg = p.reg := rfl
@[simp] theorem updMove_cel (n : Nat) (f : Movement → Movement) (p : Part) :
    (updMove n f p).cel = p.cel := rfl
@[simp] theorem updMove_gate (n : Nat) (f : Movement → Movement) (p : Part) :
    (updMove n f p).gate = p.gate := rfl
@[simp] theorem updMove_pat (n : Nat) (f : Movement → Movement) (p : Part) :
    (updMove n f p).pat = p.pat := rfl
@[simp] theorem updMove_flt (n : Nat) (f : Movement → Movement) (p : Part) :
    (updMove n f p).flt = p.flt := rfl
@[simp] theorem updMove_ctl (n : Nat) (f : Movement → Movement) (p : Part) :
    (updMove n f p).ctl = p.ctl := rfl
@[simp] theorem updMove_link (n : Nat) (f : Movement → Movement) (p : Part) :
    (updMove n f p).link = p.link := rfl

@[simp] theorem removeMove_vessels (n : Nat) (p : Part) :
    (removeMove n p).vessels = p.vessels := rfl
@[simp] theorem removeMove_lot (n : Nat) (p : Part) :
    (removeMove n p).lot = p.lot := rfl
@[simp] theorem removeMove_src (n : Nat) (p : Part) :
    (removeMove n p).src = p.src := rfl
@[simp] theorem removeMove_fld (n : Nat) (p : Part) :
    (removeMove n p).fld = p.fld := rfl
@[simp] theorem removeMove_reg (n : Nat) (p : Part) :
    (removeMove n p).reg = p.reg := rfl
@[simp] theorem removeMove_cel (n : Nat) (p : Part) :
    (removeMove n p).cel = p.cel := rfl
@[simp] theorem removeMove_gate (n : Nat) (p : Part) :
    (removeMove n p).gate = p.gate := rfl
@[simp] theorem removeMove_pat (n : Nat) (p : Part) :
    (removeMove n p).pat = p.pat := rfl
@[simp] theorem removeMove_flt (n : Nat) (p : Part) :
    (removeMove n p).flt = p.flt := rfl
@[simp] theorem removeMove_ctl (n : Nat) (p : Part) :
    (removeMove n p).ctl = p.ctl := rfl
@[simp] theorem removeMove_link (n : Nat) (p : Part) :
    (removeMove n p).link = p.link := rfl

@[simp] theorem enterWaiting_vessels (o : WaitOwner) (w : Option (Port × Port)) (p : Part) :
    (enterWaiting o w p).vessels = p.vessels := rfl
@[simp] theorem enterWaiting_lot (o : WaitOwner) (w : Option (Port × Port)) (p : Part) :
    (enterWaiting o w p).lot = p.lot := rfl
@[simp] theorem enterWaiting_src (o : WaitOwner) (w : Option (Port × Port)) (p : Part) :
    (enterWaiting o w p).src = p.src := rfl
@[simp] theorem enterWaiting_fld (o : WaitOwner) (w : Option (Port × Port)) (p : Part) :
    (enterWaiting o w p).fld = p.fld := rfl
@[simp] theorem enterWaiting_reg (o : WaitOwner) (w : Option (Port × Port)) (p : Part) :
    (enterWaiting o w p).reg = p.reg := rfl
@[simp] theorem enterWaiting_cel (o : WaitOwner) (w : Option (Port × Port)) (p : Part) :
    (enterWaiting o w p).cel = p.cel := rfl
@[simp] theorem enterWaiting_gate (o : WaitOwner) (w : Option (Port × Port)) (p : Part) :
    (enterWaiting o w p).gate = p.gate := rfl
@[simp] theorem enterWaiting_pat (o : WaitOwner) (w : Option (Port × Port)) (p : Part) :
    (enterWaiting o w p).pat = p.pat := rfl
@[simp] theorem enterWaiting_flt (o : WaitOwner) (w : Option (Port × Port)) (p : Part) :
    (enterWaiting o w p).flt = p.flt := rfl
@[simp] theorem enterWaiting_ctl (o : WaitOwner) (w : Option (Port × Port)) (p : Part) :
    (enterWaiting o w p).ctl = p.ctl := rfl
@[simp] theorem enterWaiting_link (o : WaitOwner) (w : Option (Port × Port)) (p : Part) :
    (enterWaiting o w p).link = p.link := rfl

@[simp] theorem leaveWaiting_vessels (o : WaitOwner) (p : Part) :
    (leaveWaiting o p).vessels = p.vessels := rfl
@[simp] theorem leaveWaiting_lot (o : WaitOwner) (p : Part) :
    (leaveWaiting o p).lot = p.lot := rfl
@[simp] theorem leaveWaiting_src (o : WaitOwner) (p : Part) :
    (leaveWaiting o p).src = p.src := rfl
@[simp] theorem leaveWaiting_fld (o : WaitOwner) (p : Part) :
    (leaveWaiting o p).fld = p.fld := rfl
@[simp] theorem leaveWaiting_reg (o : WaitOwner) (p : Part) :
    (leaveWaiting o p).reg = p.reg := rfl
@[simp] theorem leaveWaiting_cel (o : WaitOwner) (p : Part) :
    (leaveWaiting o p).cel = p.cel := rfl
@[simp] theorem leaveWaiting_gate (o : WaitOwner) (p : Part) :
    (leaveWaiting o p).gate = p.gate := rfl
@[simp] theorem leaveWaiting_pat (o : WaitOwner) (p : Part) :
    (leaveWaiting o p).pat = p.pat := rfl
@[simp] theorem leaveWaiting_flt (o : WaitOwner) (p : Part) :
    (leaveWaiting o p).flt = p.flt := rfl
@[simp] theorem leaveWaiting_ctl (o : WaitOwner) (p : Part) :
    (leaveWaiting o p).ctl = p.ctl := rfl
@[simp] theorem leaveWaiting_link (o : WaitOwner) (p : Part) :
    (leaveWaiting o p).link = p.link := rfl

@[simp] theorem updLot_vessels (n : Nat) (f : Lot → Lot) (p : Part) :
    (updLot n f p).vessels = p.vessels := rfl
@[simp] theorem updLot_mov (n : Nat) (f : Lot → Lot) (p : Part) :
    (updLot n f p).mov = p.mov := rfl
@[simp] theorem updLot_src (n : Nat) (f : Lot → Lot) (p : Part) :
    (updLot n f p).src = p.src := rfl
@[simp] theorem updLot_fld (n : Nat) (f : Lot → Lot) (p : Part) :
    (updLot n f p).fld = p.fld := rfl
@[simp] theorem updLot_reg (n : Nat) (f : Lot → Lot) (p : Part) :
    (updLot n f p).reg = p.reg := rfl
@[simp] theorem updLot_cel (n : Nat) (f : Lot → Lot) (p : Part) :
    (updLot n f p).cel = p.cel := rfl
@[simp] theorem updLot_gate (n : Nat) (f : Lot → Lot) (p : Part) :
    (updLot n f p).gate = p.gate := rfl
@[simp] theorem updLot_pat (n : Nat) (f : Lot → Lot) (p : Part) :
    (updLot n f p).pat = p.pat := rfl
@[simp] theorem updLot_flt (n : Nat) (f : Lot → Lot) (p : Part) :
    (updLot n f p).flt = p.flt := rfl
@[simp] theorem updLot_ctl (n : Nat) (f : Lot → Lot) (p : Part) :
    (updLot n f p).ctl = p.ctl := rfl
@[simp] theorem updLot_link (n : Nat) (f : Lot → Lot) (p : Part) :
    (updLot n f p).link = p.link := rfl

@[simp] theorem report_vessels (sel : Frame → Bool) (c : Condition) (p : Part) :
    (report sel c p).vessels = p.vessels := rfl
@[simp] theorem report_mov (sel : Frame → Bool) (c : Condition) (p : Part) :
    (report sel c p).mov = p.mov := rfl
@[simp] theorem report_lot (sel : Frame → Bool) (c : Condition) (p : Part) :
    (report sel c p).lot = p.lot := rfl
@[simp] theorem report_src (sel : Frame → Bool) (c : Condition) (p : Part) :
    (report sel c p).src = p.src := rfl
@[simp] theorem report_fld (sel : Frame → Bool) (c : Condition) (p : Part) :
    (report sel c p).fld = p.fld := rfl
@[simp] theorem report_reg (sel : Frame → Bool) (c : Condition) (p : Part) :
    (report sel c p).reg = p.reg := rfl
@[simp] theorem report_cel (sel : Frame → Bool) (c : Condition) (p : Part) :
    (report sel c p).cel = p.cel := rfl
@[simp] theorem report_gate (sel : Frame → Bool) (c : Condition) (p : Part) :
    (report sel c p).gate = p.gate := rfl
@[simp] theorem report_pat (sel : Frame → Bool) (c : Condition) (p : Part) :
    (report sel c p).pat = p.pat := rfl
@[simp] theorem report_ctl (sel : Frame → Bool) (c : Condition) (p : Part) :
    (report sel c p).ctl = p.ctl := rfl
@[simp] theorem report_link (sel : Frame → Bool) (c : Condition) (p : Part) :
    (report sel c p).link = p.link := rfl

/-! ## A notice touches the link alone -/

@[simp] theorem notify_vessels (n : NoticeBody) (p : Part) : (notify n p).vessels = p.vessels := by
  unfold notify; split <;> rfl
@[simp] theorem notify_mov (n : NoticeBody) (p : Part) : (notify n p).mov = p.mov := by
  unfold notify; split <;> rfl
@[simp] theorem notify_lot (n : NoticeBody) (p : Part) : (notify n p).lot = p.lot := by
  unfold notify; split <;> rfl
@[simp] theorem notify_src (n : NoticeBody) (p : Part) : (notify n p).src = p.src := by
  unfold notify; split <;> rfl
@[simp] theorem notify_fld (n : NoticeBody) (p : Part) : (notify n p).fld = p.fld := by
  unfold notify; split <;> rfl
@[simp] theorem notify_reg (n : NoticeBody) (p : Part) : (notify n p).reg = p.reg := by
  unfold notify; split <;> rfl
@[simp] theorem notify_cel (n : NoticeBody) (p : Part) : (notify n p).cel = p.cel := by
  unfold notify; split <;> rfl
@[simp] theorem notify_gate (n : NoticeBody) (p : Part) : (notify n p).gate = p.gate := by
  unfold notify; split <;> rfl
@[simp] theorem notify_pat (n : NoticeBody) (p : Part) : (notify n p).pat = p.pat := by
  unfold notify; split <;> rfl
@[simp] theorem notify_flt (n : NoticeBody) (p : Part) : (notify n p).flt = p.flt := by
  unfold notify; split <;> rfl
@[simp] theorem notify_ctl (n : NoticeBody) (p : Part) : (notify n p).ctl = p.ctl := by
  unfold notify; split <;> rfl
@[simp] theorem notify_buffer (n : NoticeBody) (p : Part) : (notify n p).link.buffer = p.link.buffer := by
  unfold notify; split <;> rfl
@[simp] theorem notify_tx (n : NoticeBody) (p : Part) : (notify n p).link.tx = p.link.tx := by
  unfold notify; split <;> rfl
@[simp] theorem notify_rx (n : NoticeBody) (p : Part) : (notify n p).link.rx = p.link.rx := by
  unfold notify; split <;> rfl
@[simp] theorem notify_sent (n : NoticeBody) (p : Part) : (notify n p).link.sent = p.link.sent := by
  unfold notify; split <;> rfl

@[simp] theorem notify_restarting (n : NoticeBody) (p : Part) :
    (notify n p).link.restarting = p.link.restarting := by unfold notify; split <;> rfl
@[simp] theorem notify_behind (n : NoticeBody) (p : Part) : (notify n p).link.behind = p.link.behind := by
  unfold notify; split <;> rfl

/-! ## The actions of a frame being popped touch the Fault Unit alone -/

@[simp] theorem setEnding_vessels (x : Option Movement) (p : Part) : (setEnding x p).vessels = p.vessels := rfl
@[simp] theorem setEnding_lot (x : Option Movement) (p : Part) : (setEnding x p).lot = p.lot := rfl
@[simp] theorem setEnding_src (x : Option Movement) (p : Part) : (setEnding x p).src = p.src := rfl
@[simp] theorem setEnding_fld (x : Option Movement) (p : Part) : (setEnding x p).fld = p.fld := rfl
@[simp] theorem setEnding_reg (x : Option Movement) (p : Part) : (setEnding x p).reg = p.reg := rfl
@[simp] theorem setEnding_cel (x : Option Movement) (p : Part) : (setEnding x p).cel = p.cel := rfl
@[simp] theorem setEnding_gate (x : Option Movement) (p : Part) : (setEnding x p).gate = p.gate := rfl
@[simp] theorem setEnding_pat (x : Option Movement) (p : Part) : (setEnding x p).pat = p.pat := rfl
@[simp] theorem setEnding_flt (x : Option Movement) (p : Part) : (setEnding x p).flt = p.flt := rfl
@[simp] theorem setEnding_ctl (x : Option Movement) (p : Part) : (setEnding x p).ctl = p.ctl := rfl
@[simp] theorem setEnding_link (x : Option Movement) (p : Part) : (setEnding x p).link = p.link := rfl
@[simp] theorem setEnding_entries (x : Option Movement) (p : Part) :
    (setEnding x p).mov.entries = p.mov.entries := rfl
@[simp] theorem setEnding_ending (x : Option Movement) (p : Part) : (setEnding x p).mov.ending = x := rfl
@[simp] theorem removeMove_ending (n : Nat) (p : Part) : (removeMove n p).mov.ending = p.mov.ending := rfl
@[simp] theorem unended_none (p : Part) (h : p.mov.ending = none) : unended p = p.mov.entries := by
  simp [unended, h]

@[simp] theorem setLeaving_vessels (x : ActionSet) (p : Part) : (setLeaving x p).vessels = p.vessels := rfl
@[simp] theorem setLeaving_mov (x : ActionSet) (p : Part) : (setLeaving x p).mov = p.mov := rfl
@[simp] theorem setLeaving_lot (x : ActionSet) (p : Part) : (setLeaving x p).lot = p.lot := rfl
@[simp] theorem setLeaving_src (x : ActionSet) (p : Part) : (setLeaving x p).src = p.src := rfl
@[simp] theorem setLeaving_fld (x : ActionSet) (p : Part) : (setLeaving x p).fld = p.fld := rfl
@[simp] theorem setLeaving_reg (x : ActionSet) (p : Part) : (setLeaving x p).reg = p.reg := rfl
@[simp] theorem setLeaving_cel (x : ActionSet) (p : Part) : (setLeaving x p).cel = p.cel := rfl
@[simp] theorem setLeaving_gate (x : ActionSet) (p : Part) : (setLeaving x p).gate = p.gate := rfl
@[simp] theorem setLeaving_pat (x : ActionSet) (p : Part) : (setLeaving x p).pat = p.pat := rfl
@[simp] theorem setLeaving_ctl (x : ActionSet) (p : Part) : (setLeaving x p).ctl = p.ctl := rfl
@[simp] theorem setLeaving_link (x : ActionSet) (p : Part) : (setLeaving x p).link = p.link := rfl
@[simp] theorem setLeaving_stack (x : ActionSet) (p : Part) : (setLeaving x p).flt.stack = p.flt.stack := rfl
@[simp] theorem setLeaving_leaving (x : ActionSet) (p : Part) : (setLeaving x p).flt.leaving = x := rfl

/-! ## Finding an entry after an update of the same number -/

/-- `find?` by a key after a map that keeps the key. -/
theorem find?_map_key {α : Type} (key : α → Nat) (f : α → α) (n : Nat) (l : List α)
    (h : ∀ x, key (f x) = key x) :
    (l.map (fun x => if key x = n then f x else x)).find? (fun x => decide (key x = n)) =
      (l.find? (fun x => decide (key x = n))).map f := by
  induction l with
  | nil => rfl
  | cons x xs ih =>
    by_cases hx : key x = n
    · simp [hx, h]
    · simp [hx, ih]

/-- The lot of a number after an update of that lot. -/
theorem findLot_updLot (n : Nat) (f : Lot → Lot) (p : Part) (h : ∀ l, (f l).number = l.number) :
    findLot n (updLot n f p) = (findLot n p).map f :=
  find?_map_key Lot.number f n p.lot.lots h

/-- The movement of a number after an update of that movement. -/
theorem findMove_updMove (n : Nat) (f : Movement → Movement) (p : Part) (h : ∀ m, (f m).number = m.number) :
    findMove n (updMove n f p) = (findMove n p).map f :=
  find?_map_key Movement.number f n p.mov.entries h

/-- A movement that was removed is not found. -/
@[simp] theorem findMove_removeMove (n : Nat) (p : Part) : findMove n (removeMove n p) = none := by
  simp [findMove, removeMove, List.find?_eq_none]

end Sys2Proof.Machine
end

