-- ==== Sys2Proof/Laws/Books.lean ====
section
/-! SUPPORT. Bookings: what a transfer takes, how the sums of R17 move with one figure, that one booking keeps the
laws of R16, and that every function on the books and the part books by `Books.book` and in no other way. -/

namespace Sys2Proof.Machine

/-! ## What leaves a holder (R7) -/

/-- No more litres leave than were asked for, nor than are there. -/
theorem take_litres_le (want : Nat) (h : Holding) : (h.take want).litres ≤ h.volume := Nat.min_le_right _ _

theorem take_mg_le (want : Nat) (h : Holding) : (h.take want).mg ≤ h.mass := by
  simp only [Holding.take]
  split
  · exact Nat.zero_le _
  · split
    · exact Nat.le_refl _
    · next hv _ =>
      apply Nat.div_le_of_le_mul
      rw [Nat.mul_comm h.volume]
      exact Nat.mul_le_mul_left _ (Nat.min_le_right _ _)

/-- What leaves and what is left make up what was there. -/
theorem take_volume (want : Nat) (h : Holding) : (h.take want).litres + (h.take want).left.volume = h.volume :=
  Nat.add_sub_cancel' (take_litres_le want h)

theorem take_mass (want : Nat) (h : Holding) : (h.take want).mg + (h.take want).left.mass = h.mass :=
  Nat.add_sub_cancel' (take_mg_le want h)

/-! ## Sums over a table -/

theorem sum_list_set {α : Type} (g : α → Nat) (l : List α) (i : Nat) (hi : i < l.length) (x : α) :
    ((l.set i x).map g).sum + g l[i] = (l.map g).sum + g x := by
  induction l generalizing i with
  | nil => simp at hi
  | cons y ys ih =>
    cases i with
    | zero => simp; omega
    | succ j =>
      have := ih j (by simpa using hi)
      simp only [List.set_cons_succ, List.map_cons, List.sum_cons, List.getElem_cons_succ]
      omega

theorem sum_set {n : Nat} {α : Type} (g : α → Nat) (xs : Vector α n) (i : Fin n) (x : α) :
    ((updAt xs i (fun _ => x)).toList.map g).sum + g (xs.get i) = (xs.toList.map g).sum + g x := by
  obtain ⟨⟨l⟩, hl⟩ := xs
  subst hl
  exact sum_list_set g l i.1 i.2 x

/-- The booked volume over holders after one vessel's figures are replaced. -/
theorem holderVolume_setVessel (v : VesselId) (h : Holding) (b : Books) :
    (b.setVessel v h).holderVolume + (b.vessel v).volume = b.holderVolume + h.volume := by
  have := sum_set Holding.volume b.vessels v h
  simp only [Books.holderVolume, Books.setVessel, Books.vessel] at *
  omega

theorem holderVolume_setLiquor (c : CellId) (h : Holding) (b : Books) :
    (b.setLiquor c h).holderVolume + (b.liquor c).volume = b.holderVolume + h.volume := by
  have := sum_set Holding.volume b.liquors c h
  simp only [Books.holderVolume, Books.setLiquor, Books.liquor] at *
  omega

/-- The booked mass over holders after one vessel's figures are replaced. -/
theorem holderMass_setVessel (v : VesselId) (h : Holding) (b : Books) :
    (b.setVessel v h).holderMass + (b.vessel v).mass = b.holderMass + h.mass := by
  have := sum_set Holding.mass b.vessels v h
  simp only [Books.holderMass, Books.vesselMass, Books.liquorMass, Books.cathodeMass, Books.setVessel,
    Books.vessel] at *
  omega

theorem holderMass_setLiquor (c : CellId) (h : Holding) (b : Books) :
    (b.setLiquor c h).holderMass + (b.liquor c).mass = b.holderMass + h.mass := by
  have := sum_set Holding.mass b.liquors c h
  simp only [Books.holderMass, Books.vesselMass, Books.liquorMass, Books.cathodeMass, Books.setLiquor,
    Books.liquor] at *
  omega

theorem holderMass_setCathode (c : CellId) (m : Nat) (b : Books) :
    (b.setCathode c m).holderMass + b.cathode c = b.holderMass + m := by
  have := sum_set id b.cathodes c m
  simp only [Books.holderMass, Books.vesselMass, Books.liquorMass, Books.cathodeMass, Books.setCathode,
    Books.cathode, List.map_id, id] at *
  omega

/-! ## One record after a write of another -/

@[simp] theorem liquor_setVessel (v : VesselId) (h : Holding) (b : Books) (c : CellId) :
    (b.setVessel v h).liquor c = b.liquor c := rfl
@[simp] theorem cathode_setLiquor (c d : CellId) (h : Holding) (b : Books) :
    (b.setLiquor c h).cathode d = b.cathode d := rfl
@[simp] theorem vessel_setLiquor (c : CellId) (h : Holding) (b : Books) (v : VesselId) :
    (b.setLiquor c h).vessel v = b.vessel v := rfl
@[simp] theorem acc_setVessel (v : VesselId) (h : Holding) (b : Books) : (b.setVessel v h).acc = b.acc := rfl
@[simp] theorem acc_setLiquor (c : CellId) (h : Holding) (b : Books) : (b.setLiquor c h).acc = b.acc := rfl
@[simp] theorem acc_setCathode (c : CellId) (m : Nat) (b : Books) : (b.setCathode c m).acc = b.acc := rfl
@[simp] theorem holderVolume_setCathode (c : CellId) (m : Nat) (b : Books) :
    (b.setCathode c m).holderVolume = b.holderVolume := rfl
@[simp] theorem holderVolume_acc (b : Books) (a : Accounts) :
    Books.holderVolume { b with acc := a } = b.holderVolume := rfl
@[simp] theorem holderMass_acc (b : Books) (a : Accounts) :
    Books.holderMass { b with acc := a } = b.holderMass := rfl

/-- The laws of R16 read the sums and the accounts alone. -/
theorem balanced_def (b : Books) : b.balanced ↔
    ((b.acc.admittedVolume : Int) + b.acc.makeupVolume + b.acc.volumeCorrections =
      (b.holderVolume : Int) + b.acc.dischargedVolume + b.acc.reusedVolume + b.acc.sampledVolume) ∧
    ((b.acc.admittedMass : Int) + b.acc.massCorrections =
      (b.holderMass : Int) + b.acc.dischargedMass + b.acc.reusedMass + b.acc.sampledMass +
        b.acc.harvestedMass) := Iff.rfl

/-- One booking keeps the laws of R16. -/
theorem book_balanced (k : Booking) (b : Books) (h : b.balanced) : (b.book k).balanced := by
  rw [balanced_def] at h ⊢
  cases k with
  | admission d v m =>
    have h1 := holderVolume_setVessel d ((b.vessel d).add v m) b
    have h2 := holderMass_setVessel d ((b.vessel d).add v m) b
    simp only [Books.book, Holding.add, holderVolume_acc, holderMass_acc] at *
    omega
  | makeup d v =>
    have h1 := holderVolume_setVessel d ((b.vessel d).add v 0) b
    have h2 := holderMass_setVessel d ((b.vessel d).add v 0) b
    simp only [Books.book, Holding.add, holderVolume_acc, holderMass_acc] at *
    omega
  | vesselToVessel s d want =>
    have t1 := take_volume want (b.vessel s)
    have t2 := take_mass want (b.vessel s)
    generalize hq : b.setVessel s ((b.vessel s).take want).left = q at *
    have h1 := holderVolume_setVessel s ((b.vessel s).take want).left b
    have h2 := holderMass_setVessel s ((b.vessel s).take want).left b
    have h3 := holderVolume_setVessel d
      ((q.vessel d).add ((b.vessel s).take want).litres ((b.vessel s).take want).mg) q
    have h4 := holderMass_setVessel d
      ((q.vessel d).add ((b.vessel s).take want).litres ((b.vessel s).take want).mg) q
    have hacc : q.acc = b.acc := by rw [← hq]; rfl
    simp only [Books.book, hq, Holding.add, acc_setVessel, hacc] at *
    omega
  | vesselToCell s c want =>
    have t1 := take_volume want (b.vessel s)
    have t2 := take_mass want (b.vessel s)
    have h1 := holderVolume_setVessel s ((b.vessel s).take want).left b
    have h2 := holderMass_setVessel s ((b.vessel s).take want).left b
    have h3 := holderVolume_setLiquor c
      ((b.liquor c).add ((b.vessel s).take want).litres ((b.vessel s).take want).mg)
      (b.setVessel s ((b.vessel s).take want).left)
    have h4 := holderMass_setLiquor c
      ((b.liquor c).add ((b.vessel s).take want).litres ((b.vessel s).take want).mg)
      (b.setVessel s ((b.vessel s).take want).left)
    simp only [Books.book, Holding.add, acc_setVessel, acc_setLiquor, liquor_setVessel] at *
    omega
  | cellToVessel c d want =>
    have t1 := take_volume want (b.liquor c)
    have t2 := take_mass want (b.liquor c)
    have h1 := holderVolume_setLiquor c ((b.liquor c).take want).left b
    have h2 := holderMass_setLiquor c ((b.liquor c).take want).left b
    have h3 := holderVolume_setVessel d
      ((b.vessel d).add ((b.liquor c).take want).litres ((b.liquor c).take want).mg)
      (b.setLiquor c ((b.liquor c).take want).left)
    have h4 := holderMass_setVessel d
      ((b.vessel d).add ((b.liquor c).take want).litres ((b.liquor c).take want).mg)
      (b.setLiquor c ((b.liquor c).take want).left)
    simp only [Books.book, Holding.add, acc_setVessel, acc_setLiquor, vessel_setLiquor] at *
    omega
  | discharge s want | draw s want | sample s want =>
    have t1 := take_volume want (b.vessel s)
    have t2 := take_mass want (b.vessel s)
    have h1 := holderVolume_setVessel s ((b.vessel s).take want).left b
    have h2 := holderMass_setVessel s ((b.vessel s).take want).left b
    simp only [Books.book, holderVolume_acc, holderMass_acc] at *
    omega
  | plating c conc =>
    have hle : (b.liquor c).mass - conc * (b.liquor c).volume ≤ (b.liquor c).mass := Nat.sub_le _ _
    generalize hd : (b.liquor c).mass - conc * (b.liquor c).volume = d at *
    have h1 := holderVolume_setLiquor c { b.liquor c with mass := (b.liquor c).mass - d } b
    have h2 := holderMass_setLiquor c { b.liquor c with mass := (b.liquor c).mass - d } b
    have h3 := holderMass_setCathode c (b.cathode c + d)
      (b.setLiquor c { b.liquor c with mass := (b.liquor c).mass - d })
    simp only [Books.book, hd, acc_setCathode, acc_setLiquor, cathode_setLiquor, holderVolume_setCathode] at *
    omega
  | harvest c w =>
    have h1 := holderMass_setCathode c 0 b
    simp only [Books.book, holderVolume_acc, holderMass_acc, holderVolume_setCathode] at *
    omega
  | massCorrection v conc =>
    have h1 := holderVolume_setVessel v { b.vessel v with mass := conc * (b.vessel v).volume } b
    have h2 := holderMass_setVessel v { b.vessel v with mass := conc * (b.vessel v).volume } b
    simp only [Books.book, holderVolume_acc, holderMass_acc] at *
    omega
  | adoption v level =>
    have h1 := holderVolume_setVessel v ⟨level, if level = 0 then 0 else (b.vessel v).mass⟩ b
    have h2 := holderMass_setVessel v ⟨level, if level = 0 then 0 else (b.vessel v).mass⟩ b
    simp only [Books.book, holderVolume_acc, holderMass_acc] at *
    omega

/-! ## Every function books by `Books.book` alone -/

/-- An admission of 0 L carries no mass (R93, R96); every other booking takes its mass from what is booked. -/
def Booking.sound (k : Booking) : Prop :=
  match k with
  | .admission _ v m => v = 0 → m = 0
  | _ => True

/-- Taking from a holder that has no mass at volume 0 leaves one that has none either. -/
theorem take_left_clean (want : Nat) (h : Holding) (hc : h.volume = 0 → h.mass = 0) :
    (h.take want).left.volume = 0 → (h.take want).left.mass = 0 := by
  have hm := Nat.min_le_right want h.volume
  simp only [Holding.take]
  intro hv
  have hv' : min want h.volume = h.volume := by omega
  by_cases h0 : h.volume = 0
  · simp [h0, hc h0]
  · simp [h0, hv']

/-- What leaves a holder carries no mass when it carries no volume. -/
theorem take_clean (want : Nat) (h : Holding) : (h.take want).litres = 0 → (h.take want).mg = 0 := by
  simp only [Holding.take]
  intro hv
  by_cases h0 : h.volume = 0
  · simp [h0]
  · rw [hv]; simp [h0, Ne.symm h0]

theorem clean_setVessel (v : VesselId) (h : Holding) (b : Books) (hb : b.emptyHoldersClean)
    (hh : h.volume = 0 → h.mass = 0) : (b.setVessel v h).emptyHoldersClean := by
  refine ⟨fun w => ?_, hb.2⟩
  simp only [Books.setVessel, Books.vessel, get_updAt]
  split
  · exact hh
  · exact hb.1 w

theorem clean_setLiquor (c : CellId) (h : Holding) (b : Books) (hb : b.emptyHoldersClean)
    (hh : h.volume = 0 → h.mass = 0) : (b.setLiquor c h).emptyHoldersClean := by
  refine ⟨hb.1, fun d => ?_⟩
  simp only [Books.setLiquor, Books.liquor, get_updAt]
  split
  · exact hh
  · exact hb.2 d

theorem clean_add (v m : Nat) (h : Holding) (hh : h.volume = 0 → h.mass = 0) (hv : v = 0 → m = 0) :
    (h.add v m).volume = 0 → (h.add v m).mass = 0 := by
  simp only [Holding.add]
  intro h0
  have h1 := hh (by omega)
  have h2 := hv (by omega)
  omega

/-- One sound booking keeps every empty holder clean (R6). -/
theorem book_clean (k : Booking) (b : Books) (hk : k.sound) (h : b.emptyHoldersClean) :
    (b.book k).emptyHoldersClean := by
  cases k with
  | admission d v m => exact clean_setVessel d _ b h (clean_add v m _ (h.1 d) hk)
  | makeup d v => exact clean_setVessel d _ b h (clean_add v 0 _ (h.1 d) (fun _ => rfl))
  | vesselToVessel s d want =>
    have h1 := clean_setVessel s _ b h (take_left_clean want _ (h.1 s))
    exact clean_setVessel d _ _ h1 (clean_add _ _ _ (h1.1 d) (take_clean want _))
  | vesselToCell s c want =>
    exact clean_setLiquor c _ _ (clean_setVessel s _ b h (take_left_clean want _ (h.1 s)))
      (clean_add _ _ _ (h.2 c) (take_clean want _))
  | cellToVessel c d want =>
    exact clean_setVessel d _ _ (clean_setLiquor c _ b h (take_left_clean want _ (h.2 c)))
      (clean_add _ _ _ (h.1 d) (take_clean want _))
  | discharge s want | draw s want | sample s want =>
    exact clean_setVessel s _ b h (take_left_clean want _ (h.1 s))
  | plating c conc =>
    refine clean_setLiquor c _ b h (fun h0 => ?_)
    have := h.2 c h0
    simp [this]
  | harvest c w => exact h
  | massCorrection v conc =>
    refine clean_setVessel v _ b h (fun h0 => ?_)
    replace h0 : (b.vessel v).volume = 0 := h0
    show conc * (b.vessel v).volume = 0
    rw [h0, Nat.mul_zero]
  | adoption v level => exact clean_setVessel v _ b h (fun h0 => if_pos h0)

/-- Books reached by sound bookings. -/
inductive Booked : Books → Books → Prop
  | refl (b : Books) : Booked b b
  | book {b c : Books} (h : Booked b c) (k : Booking) (hk : k.sound) : Booked b (c.book k)

theorem Booked.trans {b c d : Books} (h : Booked b c) (k : Booked c d) : Booked b d := by
  induction k with
  | refl => exact h
  | book _ k hk ih => exact .book ih k hk

theorem Booked.one (k : Booking) (b : Books) (hk : k.sound) : Booked b (b.book k) := .book (.refl b) k hk

/-- Bookings keep what one booking keeps. -/
theorem Booked.keeps {P : Books → Prop} (hP : ∀ k b, k.sound → P b → P (b.book k)) {b c : Books} (h : Booked b c)
    (hb : P b) : P c := by
  induction h with
  | refl => exact hb
  | book _ k hk ih => exact hP k _ hk ih

theorem Booked.balanced {b c : Books} (h : Booked b c) (hb : b.balanced) : c.balanced :=
  h.keeps (P := Books.balanced) (fun k b _ => book_balanced k b) hb

@[simp] theorem books_bookAndTell (k : Booking) (mv spare : Option Nat) (told : Books → Part → Part) (q : Plant) :
    (bookAndTell k mv spare told q).books = q.books.book k := rfl

@[simp] theorem books_admitSlug (m : Movement) (s : SlugParticulars) (v : VesselId) (litres mg : Nat) (q : Plant) :
    (admitSlug m s v litres mg q).books = q.books.book (.admission v litres mg) := rfl

/-- The litres that a booking by level difference admits (R96). -/
def levelLitres (s : SlugParticulars) (v : VesselId) (p : Part) : Nat :=
  levelDifference (vesselRec p v).lastLevel s.levelAtGo

@[simp] theorem books_bookByLevel (m : Movement) (s : SlugParticulars) (v : VesselId) (q : Plant) :
    (bookByLevel m s v q).books =
      q.books.book (.admission v (levelLitres s v q.part) (levelLitres s v q.part * s.conc)) := rfl

@[simp] theorem books_slugTimesOut (m : Movement) (s : SlugParticulars) (v : VesselId) (q : Plant) :
    (slugTimesOut m s v q).books = (bookByLevel m s v q).books := rfl

@[simp] theorem books_bookDone (m : Movement) (s : SlugParticulars) (v : VesselId) (litres : Nat)
    (mass : Option Nat) (q : Plant) :
    (bookDone m s v litres mass q).books = q.books.book (.admission v litres (doneMass litres mass s.conc)) := rfl

@[simp] theorem books_bookedQuantum (m : Movement) (k : Booking) (q : Plant) :
    (bookedQuantum m k q).books = q.books.book k := by
  dsimp only [bookedQuantum]
  split <;> rfl

/-- A quantum is never an admission. -/
theorem quantumBooking_sound {m : Movement} {r : Option VesselId} {w : Nat} {k : Booking}
    (h : quantumBooking m r w = some k) : k.sound := by
  unfold quantumBooking at h
  split at h <;> cases h <;> trivial

theorem levelLitres_sound (s : SlugParticulars) (v : VesselId) (p : Part) :
    (Booking.admission v (levelLitres s v p) (levelLitres s v p * s.conc)).sound := by
  intro h
  rw [h, Nat.zero_mul]

theorem doneMass_sound (v : VesselId) (litres : Nat) (mass : Option Nat) (conc : Nat) :
    (Booking.admission v litres (doneMass litres mass conc)).sound := by
  intro h
  rw [doneMass, if_pos h]

theorem booked_meterQuantum (meter : Meter) (q : Plant) : Booked q.books (meterQuantum meter q).books := by
  unfold meterQuantum
  repeat' split
  all_goals
    first
    | with_reducible exact .refl _
    | (simp only [books_bookedQuantum]; exact .one _ _ (quantumBooking_sound (by assumption)))

theorem booked_drawQuantum (q : Plant) : Booked q.books (drawQuantum q).books := by
  unfold drawQuantum
  repeat' split
  all_goals first | with_reducible exact .refl _ | (simp only [books_bookAndTell]; exact .one _ _ trivial)

theorem booked_slugTimesOut (m : Movement) (s : SlugParticulars) (v : VesselId) (q : Plant) :
    Booked q.books (slugTimesOut m s v q).books := by
  simp only [books_slugTimesOut, books_bookByLevel]
  exact .one _ _ (levelLitres_sound s v q.part)

theorem booked_transferTimeout (n : Nat) (q : Plant) : Booked q.books (transferTimeout n q).books := by
  unfold transferTimeout
  repeat' split
  all_goals first | with_reducible exact .refl _ | exact booked_slugTimesOut _ _ _ _

theorem booked_takeDone (u : UnitId) (tag : RawTag) (litres : Nat) (mass : Option Nat) (q : Plant) :
    Booked q.books (takeDone u tag litres mass q).books := by
  unfold takeDone
  repeat' split
  · exact .refl _
  · simp only [books_bookDone]; exact .one _ _ (doneMass_sound _ _ _ _)
  · exact .refl _
  · exact .refl _

theorem booked_doneAnswer (t : Turn) (tag : RawTag) (litres : Nat) (mass : Option Nat) (q : Plant) :
    Booked q.books (doneAnswer t tag litres mass q).books :=
  booked_takeDone t.unit tag litres mass
    { q with part := endTurn (deliver t.unit t.sent (doneForSlug q.part t.unit tag) (answered t.unit q.part)) }

theorem booked_fieldAnswer (x : FieldAnswer) (q : Plant) : Booked q.books (fieldAnswer x q).books := by
  unfold fieldAnswer
  repeat' split
  all_goals first | with_reducible exact .refl _ | exact booked_doneAnswer _ _ _ _ _

theorem booked_answerOfBytes (bytes : List Byte) (q : Plant) : Booked q.books (answerOfBytes bytes q).books := by
  unfold answerOfBytes
  repeat' split
  all_goals first | with_reducible exact .refl _ | exact booked_fieldAnswer _ _

theorem booked_sampleEnds (n : Nat) (q : Plant) : Booked q.books (sampleEnds n q).books := by
  unfold sampleEnds
  split
  · exact .refl _
  · (simp only [books_bookAndTell]; exact .one _ _ trivial)

theorem booked_probeReading (c : CellId) (r : Option Nat) (q : Plant) :
    Booked q.books (probeReading c r q).books := by
  dsimp only [probeReading, validProbe]
  repeat' split
  all_goals first | with_reducible exact .refl _ | (simp only [books_bookAndTell]; exact .one _ _ trivial)

theorem booked_restartCut (n : Nat) (q : Plant) : Booked q.books (restartCut n q).books := by
  dsimp only [restartCut, restartSlug]
  repeat' split
  all_goals first | with_reducible exact .refl _ | (simp only [books_bookByLevel]; exact .one _ _ (levelLitres_sound _ _ _))

/-- A fold of booking functions books. -/
theorem booked_foldl {α : Type} (f : Plant → α → Plant) (k : ∀ q x, Booked q.books (f q x).books) (l : List α)
    (q : Plant) : Booked q.books (l.foldl f q).books := by
  induction l generalizing q with
  | nil => exact .refl _
  | cons x xs ih => exact (k q x).trans (ih _)

theorem booked_restartCuts (q : Plant) : Booked q.books (restartCuts q).books :=
  booked_foldl (fun x n => restartCut n x) (fun x n => booked_restartCut n x) _ q

theorem booked_warmRestart (q : Plant) : Booked q.books (warmRestart q).books :=
  booked_restartCuts { q with part := restartBegins q.part }

theorem booked_restartPlant (q : Plant) : Booked q.books (restartPlant q).books := by
  unfold restartPlant
  split
  · exact .refl _
  · exact .refl _
  all_goals exact booked_warmRestart q

theorem booked_request (n kind : Byte) (take : Plant → Plant × Reply) (q : Plant)
    (h : Booked q.books (take q).1.books) : Booked q.books (request n kind take q).books := by
  unfold request
  repeat' split
  · exact .refl _
  · exact .refl _
  · exact h

theorem booked_takeRestart (q : Plant) : Booked q.books (takeRestart q).1.books := by
  unfold takeRestart
  split <;> exact .refl _

theorem booked_transmitEnds (q : Plant) : Booked q.books (transmitEnds q).books := by
  dsimp only [transmitEnds]
  split
  · exact booked_restartPlant { q with part := endRestarting (frameEnds q.part) }
  · exact .refl _

theorem booked_inService (take : Plant → Plant × Reply) (q : Plant) (h : Booked q.books (take q).1.books) :
    Booked q.books (inService take q).1.books := by
  unfold inService
  split
  · exact h
  · exact .refl _

theorem booked_named {α : Type} (thing : Option α) (take : α → Plant → Plant × Reply) (q : Plant)
    (h : ∀ x, Booked q.books (take x q).1.books) : Booked q.books (named thing take q).1.books := by
  unfold named
  split
  · exact .refl _
  · exact h _

theorem booked_takeAdoptLevel (v : Nat) (q : Plant) : Booked q.books (takeAdoptLevel v q).1.books := by
  unfold takeAdoptLevel
  split
  · refine booked_named _ _ _ fun v => ?_
    dsimp only [adoptLevelOf, okay, adoptLevel]
    repeat' split
    all_goals first | exact .refl q.books | (simp only [books_bookAndTell]; exact .one _ _ trivial)
  · exact .refl _

theorem booked_takeVerdict (i : VerdictItems) (q : Plant) : Booked q.books (takeVerdict i q).1.books := by
  refine booked_inService _ _ ?_
  dsimp only [applyVerdict]
  repeat' split
  all_goals first | exact .refl q.books | (simp only [books_bookAndTell]; exact .one _ _ trivial)

theorem booked_takeHarvestDone (c w : Nat) (q : Plant) : Booked q.books (takeHarvestDone c w q).1.books := by
  refine booked_inService _ _ (booked_named _ _ _ fun c => ?_)
  dsimp only [harvestDoneOf]
  repeat' split
  all_goals first | exact .refl q.books | (simp only [books_bookAndTell]; exact .one _ _ trivial)

end Sys2Proof.Machine
end

