-- ==== Sys2Proof/Laws/Settles.lean ====
section
/-! SUPPORT. Everything the consequences of an event can do, said once: `Calm` lists the single changes, `Settles`
is any number of them, and one lemma for each function of the cascades says that it settles. What no single change
touches, no cascade touches: `Settles.standing`, `Settles.ctl` and the bounds follow by one induction each. -/

namespace Sys2Proof.Machine

/-- A single change by which consequences other than raises, pops and mode changes act. -/
inductive Calm : Part → Part → Prop
  | notice (n : NoticeBody) (p : Part) : Calm p (notify n p)
  | vessel (v : VesselId) (f : VesselRec → VesselRec) (p : Part)
      (h : ∀ r, (f r).standing = r.standing) : Calm p (updVessel v f p)
  | waiting (w : List WaitPlace) (p : Part) : Calm p { p with mov := { p.mov with waiting := w } }
  | start (a : StartAsk) (p : Part) (hs : a.kind = .slug → a.source.isSump = true)
      (hm : p.ctl.mode.running = true) (hl : p.mov.entries.length < 12)
      (ha : ∀ m ∈ p.mov.entries, ∀ port ∈ [m.source, m.dest], port ≠ .mains → a.source ≠ port ∧ a.dest ≠ port) :
      Calm p (addEntry a p).1
  | move (n : Nat) (f : Movement → Movement) (p : Part)
      (h : ∀ m, (f m).number = m.number ∧ (f m).kind = m.kind ∧ (f m).source = m.source ∧ (f m).dest = m.dest) :
      Calm p (updMove n f p)
  | unmove (n : Nat) (p : Part) : Calm p (removeMove n p)
  | lot (n : Nat) (f : Lot → Lot) (p : Part) (h : ∀ l, (f l).number = l.number ∧ (f l).vessel = l.vessel) :
      Calm p (updLot n f p)
  | newLot (v : VesselId) (s : LotState) (f : Lot → Lot) (p : Part)
      (h : ∀ l, (f l).number = l.number ∧ (f l).vessel = l.vessel) : Calm p (addLot v s f p).1
  | lotCounters (c r : Nat) (p : Part) :
      Calm p { p with lot := { p.lot with nextClearance := c, nextRejection := r } }
  | unlot (n : Nat) (c : ClosedLot) (p : Part) :
      Calm p { p with lot := { p.lot with
        lots := p.lot.lots.filter (fun x => decide (x.number ≠ n)), closed := addClosed c p.lot.closed } }
  | unit (u : UnitId) (f : UnitRec → UnitRec) (p : Part)
      (h : ∀ r, (f r).standing = r.standing) : Calm p (updUnit u f p)
  | needs (x y z : Need) (src : Option ReturnSource) (o : Bool) (p : Part) :
      Calm p { p with reg := { p.reg with
        spill := x, fill := y, ret := z, returnSource := src, supplyOpen := o } }
  | cell (c : CellId) (f : CellRec → CellRec) (p : Part) (h : ∀ r, (f r).standing = r.standing) :
      Calm p (updCell c f p)
  | arbiter (o : Option ArbOutcome) (c : Option CellId) (p : Part) :
      Calm p { p with cel := { p.cel with outcome := o, chosen := c } }
  | gate (s : GateState) (q : List (Nat × Nat)) (o : Option SelOutcome) (x y : Option Nat) (p : Part) :
      Calm p { p with gate := { p.gate with
        state := s, queue := q, outcome := o, silverTimer := x, phTimer := y } }
  | frames (l : List Frame) (p : Part) (h : l.map Frame.fixed = p.flt.stack.map Frame.fixed) :
      Calm p { p with flt := { p.flt with stack := l } }

/-- Any number of calm changes. -/
inductive Settles : Part → Part → Prop
  | refl (p : Part) : Settles p p
  | step {p q r : Part} (h : Settles p q) (k : Calm q r) : Settles p r

theorem Settles.trans {p q r : Part} (h : Settles p q) (k : Settles q r) : Settles p r := by
  induction k with
  | refl => exact h
  | step _ c ih => exact .step ih c

/-- What every calm change keeps, a cascade keeps. -/
theorem Settles.keeps {P : Part → Prop} (hP : ∀ p q, Calm p q → P p → P q) {p q : Part} (h : Settles p q)
    (hp : P p) : P q := by
  induction h with
  | refl => exact hp
  | step _ k ih => exact hP _ _ k ih

/-- What every calm change leaves equal, a cascade leaves equal. -/
theorem Settles.same {α : Type} (g : Part → α) (hg : ∀ p q, Calm p q → g q = g p) {p q : Part}
    (h : Settles p q) : g q = g p := by
  induction h with
  | refl => rfl
  | step _ k ih => exact (hg _ _ k).trans ih

/-! ## What a cascade keeps -/

/-- No calm change touches Mode Control. -/
theorem Calm.ctl {p q : Part} (h : Calm p q) : q.ctl = p.ctl := by
  cases h <;> first | rfl | exact notify_ctl _ _

/-- No calm change touches the last-fault record. -/
theorem Calm.last {p q : Part} (h : Calm p q) : q.flt.last = p.flt.last := by
  cases h <;> first | rfl | simp

/-- No calm change touches the actions of a frame being popped. -/
theorem Calm.leaving {p q : Part} (h : Calm p q) : q.flt.leaving = p.flt.leaving := by
  cases h <;> first | rfl | simp

/-- A calm change neither adds nor removes a frame, and keeps what a frame is. -/
theorem Calm.stack {p q : Part} (h : Calm p q) : q.flt.stack.map Frame.fixed = p.flt.stack.map Frame.fixed := by
  cases h <;> first | rfl | assumption | simp

theorem standing_notify (n : NoticeBody) (p : Part) : (notify n p).standing = p.standing := by
  unfold notify; split <;> rfl

/-- A calm change keeps `standing`. -/
theorem Calm.standing {p q : Part} (h : Calm p q) : q.standing = p.standing := by
  cases h with
  | notice n => exact standing_notify n p
  | vessel v f _ h => simp only [Part.standing, updVessel, map_updAt _ _ _ _ h]
  | unit u f _ h => simp only [Part.standing, updUnit, map_updAt _ _ _ _ h]
  | cell c f _ h => simp only [Part.standing, updCell, map_updAt _ _ _ _ h]
  | _ => rfl

/-- A calm change starts no SLUG but from a sump unit. -/
theorem Calm.slugsFromSumps {p q : Part} (h : Calm p q) (hp : p.mov.slugsFromSumps) : q.mov.slugsFromSumps := by
  cases h with
  | notice n => rw [MovementUnit.slugsFromSumps, notify_mov]; exact hp
  | start a _ hs =>
    intro x hx hk
    rcases List.mem_append.mp hx with h | h
    · exact hp x h hk
    · obtain rfl := List.mem_singleton.mp h; exact hs hk
  | move n f _ hf =>
    intro x hx hk
    obtain ⟨y, hy, rfl⟩ := List.mem_map.mp hx
    have hk' : y.kind = .slug := by
      split at hk
      · exact (hf y).2.1.symm.trans hk
      · exact hk
    have hs := hp y hy hk'
    split
    · exact (congrArg Port.isSump (hf y).2.2.1).trans hs
    · exact hs
  | unmove n => exact fun x hx => hp x (List.mem_filter.mp hx).1
  | _ => exact hp

/-- A calm change takes no port twice. -/
theorem Calm.portsApart {p q : Part} (h : Calm p q) (hp : p.mov.portsApart) : q.mov.portsApart := by
  cases h with
  | notice n => rw [MovementUnit.portsApart, notify_mov]; exact hp
  | start a _ _ _ _ ha =>
    refine List.pairwise_append.mpr ⟨hp, List.pairwise_singleton _ _, fun m hm x hx => ?_⟩
    obtain rfl := List.mem_singleton.mp hx
    exact ha m hm
  | move n f _ hf =>
    have key : ∀ m : Movement, (if m.number = n then f m else m).source = m.source ∧
        (if m.number = n then f m else m).dest = m.dest := fun m => by
      split
      · exact (hf m).2.2
      · exact ⟨rfl, rfl⟩
    refine List.pairwise_map.mpr (hp.imp fun {x y} h => ?_)
    unfold Movement.apart
    rw [(key x).1, (key x).2, (key y).1, (key y).2]
    exact h
  | unmove n => exact hp.filter _
  | _ => exact hp

theorem Settles.ctl {p q : Part} (h : Settles p q) : q.ctl = p.ctl := h.same _ (fun _ _ => Calm.ctl)
theorem Settles.last {p q : Part} (h : Settles p q) : q.flt.last = p.flt.last :=
  h.same (fun x => x.flt.last) (fun _ _ => Calm.last)
theorem Settles.leaving {p q : Part} (h : Settles p q) : q.flt.leaving = p.flt.leaving :=
  h.same (fun x => x.flt.leaving) (fun _ _ => Calm.leaving)
theorem Settles.stack {p q : Part} (h : Settles p q) :
    q.flt.stack.map Frame.fixed = p.flt.stack.map Frame.fixed :=
  h.same (fun x => x.flt.stack.map Frame.fixed) (fun _ _ => Calm.stack)
theorem Settles.standing {p q : Part} (h : Settles p q) : q.standing = p.standing :=
  h.same _ (fun _ _ => Calm.standing)

end Sys2Proof.Machine
end

