-- ==== Sys2Proof/Laws/Cascades.lean ====
section
/-! SUPPORT. Every function of the cascades up to the end of a movement settles (Laws/Settles.lean): one lemma for each,
citing those of the functions it calls. -/

namespace Sys2Proof.Machine

variable {a p : Part}

/-! ## Single changes -/

theorem settles_notify (n : NoticeBody) (h : Settles a p) : Settles a (notify n p) := .step h (.notice n p)

theorem settles_updVessel (v : VesselId) (f : VesselRec → VesselRec) (k : ∀ r, (f r).standing = r.standing)
    (h : Settles a p) : Settles a (updVessel v f p) := .step h (.vessel v f p k)

theorem settles_updCell (c : CellId) (f : CellRec → CellRec) (k : ∀ r, (f r).standing = r.standing)
    (h : Settles a p) : Settles a (updCell c f p) := .step h (.cell c f p k)

theorem settles_updUnit (u : UnitId) (f : UnitRec → UnitRec) (k : ∀ r, (f r).standing = r.standing)
    (h : Settles a p) : Settles a (updUnit u f p) := .step h (.unit u f p k)

theorem settles_updMove (n : Nat) (f : Movement → Movement)
    (k : ∀ m, (f m).number = m.number ∧ (f m).kind = m.kind ∧ (f m).source = m.source ∧ (f m).dest = m.dest)
    (h : Settles a p) : Settles a (updMove n f p) := .step h (.move n f p k)

theorem settles_removeMove (n : Nat) (h : Settles a p) : Settles a (removeMove n p) := .step h (.unmove n p)

theorem settles_updLot (n : Nat) (f : Lot → Lot) (k : ∀ l, (f l).number = l.number ∧ (f l).vessel = l.vessel)
    (h : Settles a p) : Settles a (updLot n f p) := .step h (.lot n f p k)

theorem settles_addLot (v : VesselId) (s : LotState) (f : Lot → Lot)
    (k : ∀ l, (f l).number = l.number ∧ (f l).vessel = l.vessel) (h : Settles a p) :
    Settles a (addLot v s f p).1 := .step h (.newLot v s f p k)

theorem settles_enterWaiting (o : WaitOwner) (w : Option (Port × Port)) (h : Settles a p) :
    Settles a (enterWaiting o w p) := .step h (.waiting _ p)

theorem settles_leaveWaiting (o : WaitOwner) (h : Settles a p) : Settles a (leaveWaiting o p) :=
  .step h (.waiting _ p)

theorem settles_needs (x y z : Need) (src : Option ReturnSource) (o : Bool) (h : Settles a p) :
    Settles a { p with reg := { p.reg with
      spill := x, fill := y, ret := z, returnSource := src, supplyOpen := o } } := .step h (.needs x y z src o p)

theorem settles_lotCounters (c r : Nat) (h : Settles a p) :
    Settles a { p with lot := { p.lot with nextClearance := c, nextRejection := r } } :=
  .step h (.lotCounters c r p)

theorem settles_gate (s : GateState) (q : List (Nat × Nat)) (o : Option SelOutcome) (x y : Option Nat)
    (h : Settles a p) : Settles a { p with gate := { p.gate with
      state := s, queue := q, outcome := o, silverTimer := x, phTimer := y } } := .step h (.gate s q o x y p)

theorem settles_frames (l : List Frame) (k : l.map Frame.fixed = p.flt.stack.map Frame.fixed)
    (h : Settles a p) : Settles a { p with flt := { p.flt with stack := l } } := .step h (.frames l p k)

/-- A report keeps what a frame is. -/
@[simp] theorem fixed_setCondition (c : Condition) (t : Stamp) (f : Frame) :
    (f.setCondition c t).fixed = f.fixed := by
  unfold Frame.setCondition
  split <;> rfl

theorem settles_report (sel : Frame → Bool) (c : Condition) (h : Settles a p) : Settles a (report sel c p) := by
  refine settles_frames _ ?_ h
  rw [List.map_map]
  refine List.map_congr_left fun f _ => ?_
  simp only [Function.comp_apply]
  split <;> simp

theorem settles_reportOn (t : FaultType) (s : Subject) (c : Condition) (h : Settles a p) :
    Settles a (reportOn t s c p) := settles_report _ c h

theorem settles_reportType (t : FaultType) (c : Condition) (h : Settles a p) : Settles a (reportType t c p) :=
  settles_report _ c h

/-- A fold of settling functions settles. -/
theorem settles_foldl {α : Type} (f : Part → α → Part) (k : ∀ q x, Settles a q → Settles a (f q x)) (l : List α)
    (h : Settles a p) : Settles a (l.foldl f p) := by
  induction l generalizing p with
  | nil => exact h
  | cons x xs ih => exact ih (k _ _ h)

/-! ## Starts -/

theorem settles_placeAfter (s : StartAsk) (r : Option WaitReason) (h : Settles a p) :
    Settles a (placeAfter s r p) := by
  unfold placeAfter
  split <;> first | assumption | exact settles_leaveWaiting _ h | exact settles_enterWaiting _ _ h

@[simp] theorem placeAfter_ctl (s : StartAsk) (r : Option WaitReason) (p : Part) :
    (placeAfter s r p).ctl = p.ctl := by
  unfold placeAfter; split <;> rfl

@[simp] theorem placeAfter_entries (s : StartAsk) (r : Option WaitReason) (p : Part) :
    (placeAfter s r p).mov.entries = p.mov.entries := by
  unfold placeAfter; split <;> rfl

/-- A port that a movement of the table takes is occupied. -/
theorem portBusy_of_mem {port : Port} {m : Movement} (hm : m ∈ p.mov.entries) (hp : m.source = port ∨ m.dest = port)
    (hn : port ≠ .mains) : portBusy p port = true := by
  simp only [portBusy, unended, List.any_append, Bool.and_eq_true, decide_eq_true_eq, Bool.or_eq_true, List.any_eq_true]
  exact ⟨hn, .inl ⟨m, hm, hp⟩⟩

/-- A start that no check refuses finds a mode in which movements start, a free place, and both its ports free. -/
theorem startRefusal_none {b : Books} {s : StartAsk} (h : startRefusal b s p = none) :
    p.ctl.mode.running = true ∧ p.mov.entries.length < 12 ∧
      ∀ m ∈ p.mov.entries, ∀ port ∈ [m.source, m.dest], port ≠ .mains → s.source ≠ port ∧ s.dest ≠ port := by
  unfold startRefusal at h
  split at h; · cases h
  split at h; · cases h
  split at h; · cases h
  split at h; · cases h
  split at h; · cases h
  next hm hs _ hd hl =>
  refine ⟨by simpa using hm, by omega, fun m hx port hp hn => ?_⟩
  have hp' : m.source = port ∨ m.dest = port := by
    simp only [List.mem_cons, List.not_mem_nil, or_false] at hp
    exact hp.imp Eq.symm Eq.symm
  exact ⟨fun e => hs (e ▸ portBusy_of_mem hx hp' hn), fun e => hd (e ▸ portBusy_of_mem hx hp' hn)⟩

theorem settles_askStart (b : Books) (s : StartAsk) (sump : s.kind = .slug → s.source.isSump = true)
    (h : Settles a p) : Settles a (askStart b s p).1 := by
  unfold askStart
  split
  · exact settles_placeAfter s _ h
  · next hr =>
    have hs := startRefusal_none hr
    exact .step (settles_placeAfter s none h) (.start s _ sump (by simpa using hs.1) (by simpa using hs.2.1)
      (by simpa only [placeAfter_entries] using hs.2.2))

/-! ## Lots (chapter 3) -/

theorem settles_lotNotice (n : Nat) (s : LotState) (r : LotReason) (h : Settles a p) :
    Settles a (lotNotice n s r p) := by
  dsimp only [lotNotice]
  repeat'
    first
    | with_reducible assumption | with_reducible apply settles_notify

theorem settles_leaveQueue (n : Nat) (h : Settles a p) : Settles a (leaveQueue n p) := settles_gate _ _ _ _ _ h

theorem settles_joinQueue (n : Nat) (h : Settles a p) : Settles a (joinQueue n p) := by
  unfold joinQueue
  split
  · exact h
  · split
    · exact settles_gate _ _ _ _ _ (settles_leaveQueue n h)
    · exact h

theorem settles_askFilling (want : Nat) (h : Settles a p) : Settles a (askFilling want p).1 := by
  dsimp only [askFilling]
  repeat' split
  all_goals
    try dsimp only
    repeat'
      first
      | with_reducible assumption | with_reducible apply settles_lotNotice
      | with_reducible apply settles_addLot | exact fun _ => ⟨rfl, rfl⟩

theorem settles_enterSampling (n : Nat) (r : LotReason) (h : Settles a p) :
    Settles a (enterSampling n r p) := by
  dsimp only [enterSampling]
  repeat'
    first
    | with_reducible assumption | with_reducible apply settles_lotNotice
    | with_reducible apply settles_updLot | exact fun _ => ⟨rfl, rfl⟩

theorem settles_settleOrSample (n : Nat) (h : Settles a p) : Settles a (settleOrSample n p) := by
  dsimp only [settleOrSample]
  repeat' split
  all_goals
    try dsimp only
    repeat'
      first
      | with_reducible assumption | with_reducible apply settles_enterSampling

theorem settles_sealLot (b : Books) (l : Lot) (r : SealReason) (h : Settles a p) :
    Settles a (sealLot b l r p) := by
  dsimp only [sealLot]
  repeat'
    first
    | with_reducible assumption | with_reducible apply settles_settleOrSample
    | with_reducible apply settles_lotNotice | with_reducible apply settles_updLot
    | exact fun _ => ⟨rfl, rfl⟩

theorem settles_unbindFrames (n : Nat) (h : Settles a p) : Settles a (unbindFrames n p) := by
  refine settles_frames _ ?_ h
  rw [List.map_map]
  refine List.map_congr_left fun f _ => ?_
  simp only [Function.comp_apply]
  split <;> rfl

theorem settles_closeLot (l : Lot) (k : EndKind) (h : Settles a p) : Settles a (closeLot l k p) :=
  settles_notify _ (settles_unbindFrames _ (settles_leaveQueue _ (.step h (.unlot l.number _ p))))

theorem settles_dueToSeal (b : Books) (l : Lot) (r : SealReason) (h : Settles a p) :
    Settles a (dueToSeal b l r p) := by
  dsimp only [dueToSeal]
  repeat' split
  all_goals
    try dsimp only
    repeat'
      first
      | with_reducible assumption | with_reducible apply settles_closeLot
      | with_reducible apply settles_sealLot | with_reducible apply settles_updLot
      | exact fun _ => ⟨rfl, rfl⟩

theorem settles_sealCheck (b : Books) (n : Nat) (h : Settles a p) : Settles a (sealCheck b n p) := by
  dsimp only [sealCheck]
  repeat' split
  all_goals
    try dsimp only
    repeat'
      first
      | with_reducible assumption | with_reducible apply settles_dueToSeal

theorem settles_inflowEnds (b : Books) (lot : Option Nat) (h : Settles a p) :
    Settles a (inflowEnds b lot p) := by
  dsimp only [inflowEnds]
  repeat' split
  all_goals
    try dsimp only
    repeat'
      first
      | with_reducible assumption | with_reducible apply settles_sealLot
      | with_reducible apply settles_lotNotice | with_reducible apply settles_updLot
      | exact fun _ => ⟨rfl, rfl⟩

theorem settles_clearLot (n : Nat) (r : LotReason) (h : Settles a p) : Settles a (clearLot n r p) := by
  dsimp only [clearLot]
  split
  · exact h
  · refine settles_joinQueue _ (settles_notify _ ?_)
    split
    · exact settles_updLot _ _ (fun _ => ⟨rfl, rfl⟩) h
    · exact settles_lotCounters _ _ (settles_updLot _ _ (fun _ => ⟨rfl, rfl⟩) h)

theorem settles_rejectLot (n : Nat) (why : Option RejectReason) (r : LotReason) (h : Settles a p) : Settles a (rejectLot n why r p) := by
  dsimp only [rejectLot]
  split
  · exact h
  · refine settles_leaveQueue _ (settles_notify _ ?_)
    split
    · exact settles_updLot _ _ (fun _ => ⟨rfl, rfl⟩) h
    · exact settles_lotCounters _ _ (settles_updLot _ _ (fun _ => ⟨rfl, rfl⟩) h)

theorem settles_suspendLot (n depth : Nat) (h : Settles a p) : Settles a (suspendLot n depth p) := by
  refine settles_notify _ (settles_frames _ ?_ (settles_updLot _ _ (fun _ => ⟨rfl, rfl⟩) h))
  apply List.ext_getElem <;> simp [List.getElem_modify]
  intro i _
  split <;> (intros; rfl)

theorem settles_dischargeStarts (n : Nat) (h : Settles a p) : Settles a (dischargeStarts n p) := by
  dsimp only [dischargeStarts]
  repeat'
    first
    | with_reducible assumption | with_reducible apply settles_leaveQueue
    | with_reducible apply settles_lotNotice | with_reducible apply settles_updLot
    | exact fun _ => ⟨rfl, rfl⟩

theorem settles_returnStarts (n : Nat) (h : Settles a p) : Settles a (returnStarts n p) := by
  dsimp only [returnStarts]
  repeat'
    first
    | with_reducible assumption | with_reducible apply settles_lotNotice
    | with_reducible apply settles_updLot | exact fun _ => ⟨rfl, rfl⟩

/-! ## The gate (chapter 8) -/

theorem settles_recomputeGate (r : GateReason) (h : Settles a p) : Settles a (recomputeGate r p) := by
  dsimp only [recomputeGate]
  split
  · exact h
  · exact settles_notify _ (settles_gate _ _ _ _ _ h)

theorem settles_selectionOutcome (o : SelOutcome) (h : Settles a p) : Settles a (selectionOutcome o p) :=
  settles_gate _ _ _ _ _ h

theorem settles_startDischarge (b : Books) (l : Lot) (h : Settles a p) : Settles a (startDischarge b l p) := by
  dsimp only [startDischarge]
  repeat' split
  all_goals
    try dsimp only
    repeat'
      first
      | with_reducible assumption | with_reducible apply settles_selectionOutcome
      | with_reducible apply settles_recomputeGate | with_reducible apply settles_dischargeStarts
      | with_reducible apply settles_askStart | exact fun e => by cases e

theorem settles_selectLot (b : Books) (h : Settles a p) : Settles a (selectLot b p) := by
  dsimp only [selectLot]
  repeat' split
  all_goals
    try dsimp only
    repeat'
      first
      | with_reducible assumption | with_reducible apply settles_startDischarge
      | with_reducible apply settles_selectionOutcome | with_reducible apply settles_leaveWaiting

theorem settles_stopPersistence (h : Settles a p) : Settles a (stopPersistence p) := settles_gate _ _ _ _ _ h

/-! ## Needs (chapter 6) -/

theorem settles_settlePlace (o : WaitOwner) (n : Need) (ports : Option (Port × Port)) (h : Settles a p) :
    Settles a (settlePlace o n ports p) := by
  dsimp only [settlePlace]
  repeat' split
  all_goals
    try dsimp only
    repeat'
      first
      | with_reducible assumption | with_reducible apply settles_leaveWaiting
      | with_reducible apply settles_enterWaiting

theorem settles_setSpill (n : Need) (w : Option (Port × Port)) (h : Settles a p) : Settles a (setSpill n w p) :=
  settles_settlePlace _ _ _ (settles_needs _ _ _ _ _ h)

theorem settles_setFill (n : Need) (w : Option (Port × Port)) (h : Settles a p) : Settles a (setFill n w p) :=
  settles_settlePlace _ _ _ (settles_needs _ _ _ _ _ h)

theorem settles_setReturn (n : Need) (src : Option ReturnSource) (w : Option (Port × Port)) (h : Settles a p) :
    Settles a (setReturn n src w p) := by
  have k := settles_needs p.reg.spill p.reg.fill n src p.reg.supplyOpen h
  unfold setReturn
  split
  · exact settles_leaveWaiting _ k
  · exact settles_enterWaiting _ _ k
  · exact settles_enterWaiting _ _ k

theorem settles_startSpill (b : Books) (reuse : VesselId) (target : VesselId) (lot : Nat) (e : Nat) (h : Settles a p) :
    Settles a (startSpill b reuse target lot e p) := by
  dsimp only [startSpill]
  repeat' split
  all_goals
    try dsimp only
    repeat'
      first
      | with_reducible assumption | with_reducible apply settles_setSpill
      | with_reducible apply settles_askStart | exact fun e => by cases e

theorem settles_spillCheck (b : Books) (h : Settles a p) : Settles a (spillCheck b p) := by
  dsimp only [spillCheck]
  repeat' split
  all_goals
    try dsimp only
    repeat'
      first
      | with_reducible assumption | with_reducible apply settles_startSpill
      | with_reducible apply settles_setSpill | with_reducible apply settles_askFilling

theorem settles_fillCheck (b : Books) (h : Settles a p) : Settles a (fillCheck b p) := by
  dsimp only [fillCheck]
  repeat' split
  all_goals
    try dsimp only
    repeat'
      first
      | with_reducible assumption | with_reducible apply settles_setFill
      | with_reducible apply settles_askStart | exact fun e => by cases e

theorem settles_reexamineSpill (b : Books) (h : Settles a p) : Settles a (reexamineSpill b p) := by
  dsimp only [reexamineSpill]
  repeat' split
  all_goals
    try dsimp only
    repeat'
      first
      | with_reducible assumption | with_reducible apply settles_spillCheck

theorem settles_reexamineFill (b : Books) (h : Settles a p) : Settles a (reexamineFill b p) := by
  dsimp only [reexamineFill]
  repeat' split
  all_goals
    try dsimp only
    repeat'
      first
      | with_reducible assumption | with_reducible apply settles_fillCheck

theorem settles_startReturn (b : Books) (feed : VesselId) (v : VesselId) (src : ReturnSource) (lot : Option Nat) (h : Settles a p) :
    Settles a (startReturn b feed v src lot p) := by
  dsimp only [startReturn]
  repeat' split
  all_goals
    try dsimp only
    repeat'
      first
      | with_reducible assumption | with_reducible apply settles_setReturn
      | with_reducible apply settles_returnStarts | with_reducible apply settles_askStart
      | exact fun e => by cases e

theorem settles_examineReturn (b : Books) (h : Settles a p) : Settles a (examineReturn b p) := by
  dsimp only [examineReturn]
  repeat' split
  all_goals
    try dsimp only
    repeat'
      first
      | with_reducible assumption | with_reducible apply settles_startReturn
      | with_reducible apply settles_setReturn

theorem settles_reexamineNeeds (b : Books) (h : Settles a p) : Settles a (reexamineNeeds b p) := by
  dsimp only [reexamineNeeds]
  repeat'
    first
    | with_reducible assumption | with_reducible apply settles_examineReturn
    | with_reducible apply settles_reexamineFill | with_reducible apply settles_reexamineSpill

theorem settles_supplyCheck (b : Books) (h : Settles a p) : Settles a (supplyCheck b p) := by
  dsimp only [supplyCheck]
  repeat' split
  · exact settles_needs _ _ _ _ _ h
  · exact settles_notify _ (settles_needs _ _ _ _ _ h)
  · exact settles_notify _ (settles_needs _ _ _ _ _ h)
  · exact h

theorem settles_blockCheck (b : Books) (v : VesselId) (h : Settles a p) : Settles a (blockCheck b v p) := by
  dsimp only [blockCheck]
  repeat' split
  all_goals
    try dsimp only
    repeat'
      first
      | with_reducible assumption | with_reducible apply settles_updVessel
      | with_reducible apply settles_notify | exact fun _ => rfl

/-! ## Cells (chapter 7) -/

theorem settles_setCellState (c : CellId) (s : CellState) (r : CellReason) (h : Settles a p) :
    Settles a (setCellState c s r p) := by
  dsimp only [setCellState]
  repeat'
    first
    | with_reducible assumption | with_reducible apply settles_updCell
    | with_reducible apply settles_notify | exact fun _ => rfl

theorem settles_setStep (c : CellId) (n : Need) (h : Settles a p) : Settles a (setStep c n p) := by
  dsimp only [setStep]
  repeat'
    first
    | with_reducible assumption | with_reducible apply settles_updCell | exact fun _ => rfl

theorem settles_drainWaits (c : CellId) (r : WaitReason) (ports : Option (Port × Port)) (h : Settles a p) :
    Settles a (drainWaits c r ports p) := by
  dsimp only [drainWaits]
  repeat'
    first
    | with_reducible assumption | with_reducible apply settles_setStep
    | with_reducible apply settles_enterWaiting

theorem settles_finishDrain (c : CellId) (h : Settles a p) : Settles a (finishDrain c p) := by
  dsimp only [finishDrain]
  repeat' split
  all_goals
    try dsimp only
    repeat'
      first
      | with_reducible assumption | with_reducible apply settles_setCellState
      | with_reducible apply settles_leaveWaiting | with_reducible apply settles_updCell
      | exact fun _ => rfl

theorem settles_startDrain (b : Books) (c : CellId) (v : VesselId) (lot : Option Nat) (h : Settles a p) :
    Settles a (startDrain b c v lot p) := by
  dsimp only [startDrain]
  repeat' split
  all_goals
    try dsimp only
    repeat'
      first
      | with_reducible assumption | with_reducible apply settles_drainWaits
      | with_reducible apply settles_setStep | with_reducible apply settles_askStart
      | exact fun e => by cases e

theorem settles_drainToQuarantine (b : Books) (c : CellId) (h : Settles a p) :
    Settles a (drainToQuarantine b c p) := by
  dsimp only [drainToQuarantine]
  repeat' split
  all_goals
    try dsimp only
    repeat'
      first
      | with_reducible assumption | with_reducible apply settles_startDrain
      | with_reducible apply settles_drainWaits

theorem settles_walkDrain (b : Books) (c : CellId) (h : Settles a p) : Settles a (walkDrain b c p) := by
  dsimp only [walkDrain]
  repeat' split
  all_goals
    try dsimp only
    repeat'
      first
      | with_reducible assumption | with_reducible apply settles_drainToQuarantine
      | with_reducible apply settles_startDrain | with_reducible apply settles_askFilling

theorem settles_drainInMode (c : CellId) (h : Settles a p) : Settles a (drainInMode c p) := by
  dsimp only [drainInMode]
  split
  · exact h
  · exact settles_setStep c _ h

theorem settles_seekDrain (b : Books) (c : CellId) (h : Settles a p) : Settles a (seekDrain b c p) := by
  dsimp only [seekDrain]
  repeat' split
  all_goals
    try dsimp only
    repeat'
      first
      | with_reducible assumption | with_reducible apply settles_walkDrain
      | with_reducible apply settles_drainInMode | with_reducible apply settles_drainWaits

theorem settles_seekDrains (b : Books) (h : Settles a p) : Settles a (seekDrains b p) :=
  settles_foldl _ (fun _ c k => settles_seekDrain b c k) _ h

theorem settles_enterDraining (c : CellId) (r : CellReason) (h : Settles a p) :
    Settles a (enterDraining c r p) := by
  dsimp only [enterDraining]
  repeat'
    first
    | with_reducible assumption | with_reducible apply settles_setCellState
    | with_reducible apply settles_updCell | exact fun _ => rfl

theorem settles_beginDrain (b : Books) (c : CellId) (h : Settles a p) : Settles a (beginDrain b c p) := by
  dsimp only [beginDrain]
  repeat' split
  all_goals
    try dsimp only
    repeat'
      first
      | with_reducible assumption | with_reducible apply settles_seekDrain
      | with_reducible apply settles_finishDrain

theorem settles_platingChecks (b : Books) (c : CellId) (conc : Option Nat) (h : Settles a p) :
    Settles a (platingChecks b c conc p) := by
  dsimp only [platingChecks]
  repeat' split
  all_goals
    try dsimp only
    repeat'
      first
      | with_reducible assumption | with_reducible apply settles_beginDrain
      | with_reducible apply settles_enterDraining | with_reducible apply settles_updCell
      | with_reducible apply settles_notify | exact fun _ => rfl

theorem settles_settleCell (b : Books) (c : CellId) (h : Settles a p) : Settles a (settleCell b c p) := by
  dsimp only [settleCell]
  repeat' split
  all_goals
    try dsimp only
    repeat'
      first
      | with_reducible assumption | with_reducible apply settles_platingChecks
      | with_reducible apply settles_updCell | exact fun _ => rfl

theorem settles_settleCells (b : Books) (h : Settles a p) : Settles a (settleCells b p) :=
  settles_foldl _ (fun _ c k => settles_settleCell b c k) _ h

theorem settles_arbiterOutcome (o : ArbOutcome) (c : Option CellId) (h : Settles a p) :
    Settles a (arbiterOutcome o c p) := .step h (.arbiter _ _ p)

theorem settles_grantCharge (b : Books) (feed : VesselId) (c : CellId) (h : Settles a p) :
    Settles a (grantCharge b feed c p) := by
  dsimp only [grantCharge]
  repeat' split
  all_goals
    try dsimp only
    repeat'
      first
      | with_reducible assumption | with_reducible apply settles_arbiterOutcome
      | with_reducible apply settles_setStep | with_reducible apply settles_setCellState
      | with_reducible apply settles_askStart | exact fun e => by cases e

theorem settles_floorRefuses (c : CellId) (h : Settles a p) : Settles a (floorRefuses c p) := by
  dsimp only [floorRefuses]
  repeat' split
  all_goals
    try dsimp only
    repeat'
      first
      | with_reducible assumption | with_reducible apply settles_arbiterOutcome
      | with_reducible apply settles_setStep | with_reducible apply settles_leaveWaiting

theorem settles_examineArbiter (b : Books) (h : Settles a p) : Settles a (examineArbiter b p) := by
  dsimp only [examineArbiter]
  repeat' split
  all_goals
    try dsimp only
    repeat'
      first
      | with_reducible assumption | with_reducible apply settles_floorRefuses
      | with_reducible apply settles_grantCharge | with_reducible apply settles_arbiterOutcome

theorem settles_arbiterIfStepped (b : Books) (old : Part) (h : Settles a p) :
    Settles a (arbiterIfStepped b old p) := by
  dsimp only [arbiterIfStepped]
  split
  · exact h
  · exact settles_examineArbiter b h

theorem settles_abandonStep (b : Books) (c : CellId) (h : Settles a p) : Settles a (abandonStep b c p) := by
  dsimp only [abandonStep]
  repeat' split
  all_goals
    try dsimp only
    repeat'
      first
      | with_reducible assumption | with_reducible apply settles_enterDraining
      | with_reducible apply settles_seekDrain | with_reducible apply settles_setStep
      | with_reducible apply settles_setCellState | with_reducible apply settles_leaveWaiting
      | with_reducible apply settles_updCell | exact fun _ => rfl

theorem settles_chargesWaitMode (h : Settles a p) : Settles a (chargesWaitMode p) := by
  refine settles_foldl _ (fun q c k => ?_) _ h
  dsimp only
  split
  · exact settles_setStep _ _ k
  · exact k

/-! ## Ends and cuts (chapter 2) -/

theorem settles_slugEnds (b : Books) (m : Movement) (h : Settles a p) : Settles a (slugEnds b m p) := by
  dsimp only [slugEnds]
  repeat' split
  all_goals
    try dsimp only
    repeat'
      first
      | with_reducible assumption | with_reducible apply settles_inflowEnds
      | with_reducible apply settles_updUnit | exact fun _ => rfl

theorem settles_spillEnds (b : Books) (m : Movement) (h : Settles a p) : Settles a (spillEnds b m p) := by
  dsimp only [spillEnds]
  repeat'
    first
    | with_reducible assumption | with_reducible apply settles_spillCheck
    | with_reducible apply settles_setSpill | with_reducible apply settles_inflowEnds

theorem settles_fillEnds (b : Books) (h : Settles a p) : Settles a (fillEnds b p) := by
  dsimp only [fillEnds]
  repeat'
    first
    | with_reducible assumption | with_reducible apply settles_fillCheck
    | with_reducible apply settles_setFill

theorem settles_returnedLot (lot : Option Nat) (e : Ending) (h : Settles a p) :
    Settles a (returnedLot lot e p) := by
  dsimp only [returnedLot]
  repeat' split
  all_goals
    try dsimp only
    repeat'
      first
      | with_reducible assumption | with_reducible apply settles_rejectLot

theorem settles_returnEnds (b : Books) (m : Movement) (e : Ending) (h : Settles a p) :
    Settles a (returnEnds b m e p) := by
  dsimp only [returnEnds]
  repeat'
    first
    | with_reducible assumption | with_reducible apply settles_returnedLot
    | with_reducible apply settles_examineReturn | with_reducible apply settles_setReturn

theorem settles_chargeCompletes (b : Books) (c : CellId) (h : Settles a p) :
    Settles a (chargeCompletes b c p) := by
  dsimp only [chargeCompletes]
  repeat'
    first
    | with_reducible assumption | with_reducible apply settles_settleCell
    | with_reducible apply settles_setCellState | with_reducible apply settles_updCell
    | exact fun _ => rfl

theorem settles_chargeEnds (b : Books) (c : CellId) (e : Ending) (h : Settles a p) :
    Settles a (chargeEnds b c e p) := by
  dsimp only [chargeEnds]
  repeat' split
  all_goals
    try dsimp only
    repeat'
      first
      | with_reducible assumption | with_reducible apply settles_chargeCompletes
      | with_reducible apply settles_abandonStep | with_reducible apply settles_setStep

theorem settles_drainEnds (b : Books) (m : Movement) (c : CellId) (e : Ending) (h : Settles a p) :
    Settles a (drainEnds b m c e p) := by
  dsimp only [drainEnds]
  repeat' split
  all_goals
    try dsimp only
    repeat'
      first
      | with_reducible assumption | with_reducible apply settles_finishDrain
      | with_reducible apply settles_drainWaits | with_reducible apply settles_inflowEnds

theorem settles_dischargedLot (n : Nat) (e : Ending) (h : Settles a p) : Settles a (dischargedLot n e p) := by
  dsimp only [dischargedLot]
  repeat' split
  all_goals
    try dsimp only
    repeat'
      first
      | with_reducible assumption | with_reducible apply settles_suspendLot
      | with_reducible apply settles_rejectLot | with_reducible apply settles_clearLot

theorem settles_dischargeEnds (m : Movement) (e : Ending) (h : Settles a p) :
    Settles a (dischargeEnds m e p) := by
  dsimp only [dischargeEnds]
  repeat' split
  all_goals
    try dsimp only
    repeat'
      first
      | with_reducible assumption | with_reducible apply settles_dischargedLot
      | with_reducible apply settles_stopPersistence | with_reducible apply settles_recomputeGate

theorem settles_ownerTold (b : Books) (m : Movement) (e : Ending) (h : Settles a p) :
    Settles a (ownerTold b m e p) := by
  dsimp only [ownerTold]
  repeat' split
  all_goals
    try dsimp only
    repeat'
      first
      | with_reducible assumption | with_reducible apply settles_dischargeEnds
      | with_reducible apply settles_drainEnds | with_reducible apply settles_chargeEnds
      | with_reducible apply settles_returnEnds | with_reducible apply settles_fillEnds
      | with_reducible apply settles_spillEnds | with_reducible apply settles_slugEnds

theorem settles_reexamine (b : Books) (x : Examiner) (h : Settles a p) : Settles a (reexamine b x p) := by
  dsimp only [reexamine]
  repeat' split
  all_goals
    try dsimp only
    repeat'
      first
      | with_reducible assumption | with_reducible apply settles_examineArbiter
      | with_reducible apply settles_seekDrain | with_reducible apply settles_examineReturn
      | with_reducible apply settles_reexamineFill | with_reducible apply settles_reexamineSpill
      | with_reducible apply settles_selectLot

theorem settles_reexamineAll (b : Books) (h : Settles a p) : Settles a (reexamineAll b p) :=
  settles_foldl _ (fun _ x k => settles_reexamine b x k) _ h

theorem settles_movementEnded (b : Books) (m : Movement) (e : Ending) (h : Settles a p) :
    Settles a (movementEnded b m e p) := settles_reexamineAll b (settles_ownerTold b m e h)

theorem settles_endMovement (b : Books) (m : Movement) (e : Ending) (h : Settles a p) :
    Settles a (endMovement b m e p) := settles_movementEnded b m e (settles_removeMove m.number h)

theorem settles_setStop (u : UnitId) (mv : Nat) (h : Settles a p) : Settles a (setStop u mv p) := by
  dsimp only [setStop]
  repeat'
    first
    | with_reducible assumption | with_reducible apply settles_updUnit | exact fun _ => rfl

theorem settles_stopSlug (m : Movement) (h : Settles a p) : Settles a (stopSlug m p) := by
  dsimp only [stopSlug]
  repeat' split
  all_goals
    try dsimp only
    repeat'
      first
      | with_reducible assumption | with_reducible apply settles_setStop

theorem settles_cutSlug (b : Books) (m : Movement) (why : CutWhy) (h : Settles a p) :
    Settles a (cutSlug b m why p) := by
  dsimp only [cutSlug]
  repeat' split
  all_goals
    try dsimp only
    repeat'
      first
      | with_reducible assumption | with_reducible apply settles_stopSlug
      | with_reducible apply settles_endMovement | with_reducible apply settles_updMove
      | exact fun _ => ⟨rfl, rfl, rfl, rfl⟩

theorem settles_cutMovement (b : Books) (n : Nat) (why : CutWhy) (h : Settles a p) :
    Settles a (cutMovement b n why p) := by
  dsimp only [cutMovement]
  repeat' split
  all_goals
    try dsimp only
    repeat'
      first
      | with_reducible assumption | with_reducible apply settles_cutSlug
      | with_reducible apply settles_endMovement

theorem settles_cutDischarge (b : Books) (why : CutWhy) (h : Settles a p) :
    Settles a (cutDischarge b why p) := by
  dsimp only [cutDischarge]
  repeat' split
  all_goals
    try dsimp only
    repeat'
      first
      | with_reducible assumption | with_reducible apply settles_cutMovement

theorem settles_generalCut (b : Books) (why : CutWhy) (spare : Option Nat) (h : Settles a p) :
    Settles a (generalCut b why spare p) :=
  settles_foldl _ (fun _ n k => settles_cutMovement b n why k) _ h

theorem settles_cutNeed (b : Books) (n : Need) (h : Settles a p) : Settles a (cutNeed b n p) := by
  dsimp only [cutNeed]
  repeat' split
  all_goals
    try dsimp only
    repeat'
      first
      | with_reducible assumption | with_reducible apply settles_cutMovement

theorem settles_spillEvaluation (b : Books) (v : VesselId) (h : Settles a p) :
    Settles a (spillEvaluation b v p) := by
  dsimp only [spillEvaluation]
  repeat' split
  all_goals
    try dsimp only
    repeat'
      first
      | with_reducible assumption | with_reducible apply settles_cutNeed
      | with_reducible apply settles_spillCheck

theorem settles_fillEvaluation (b : Books) (v : VesselId) (h : Settles a p) :
    Settles a (fillEvaluation b v p) := by
  dsimp only [fillEvaluation]
  repeat' split
  all_goals
    try dsimp only
    repeat'
      first
      | with_reducible assumption | with_reducible apply settles_cutNeed
      | with_reducible apply settles_fillCheck

theorem settles_reuseEvaluation (b : Books) (h : Settles a p) : Settles a (reuseEvaluation b p) := by
  dsimp only [reuseEvaluation]
  repeat' split
  all_goals
    try dsimp only
    repeat'
      first
      | with_reducible assumption | with_reducible apply settles_fillEvaluation
      | with_reducible apply settles_spillEvaluation | with_reducible apply settles_blockCheck
      | with_reducible apply settles_supplyCheck | with_reducible apply settles_fillCheck
      | with_reducible apply settles_spillCheck

end Sys2Proof.Machine
end

