-- ==== Sys2Proof/Laws/Link.lean ====
section
/-! SUPPORT. The frame of every command: what the transmitter's examination changes, what `command` and
`request` answer, and what the receiver hunts past. -/

namespace Sys2Proof.Machine

/-! ## The transmitter (R196) -/

/-- The examination changes the link alone. -/
theorem pump_link (p : Part) : pump p = { p with link := (pump p).link } := by
  unfold pump beginFrame
  repeat' split
  all_goals rfl

@[simp] theorem pump_vessels (p : Part) : (pump p).vessels = p.vessels := by rw [pump_link]
@[simp] theorem pump_mov (p : Part) : (pump p).mov = p.mov := by rw [pump_link]
@[simp] theorem pump_lot (p : Part) : (pump p).lot = p.lot := by rw [pump_link]
@[simp] theorem pump_src (p : Part) : (pump p).src = p.src := by rw [pump_link]
@[simp] theorem pump_fld (p : Part) : (pump p).fld = p.fld := by rw [pump_link]
@[simp] theorem pump_reg (p : Part) : (pump p).reg = p.reg := by rw [pump_link]
@[simp] theorem pump_cel (p : Part) : (pump p).cel = p.cel := by rw [pump_link]
@[simp] theorem pump_gate (p : Part) : (pump p).gate = p.gate := by rw [pump_link]
@[simp] theorem pump_pat (p : Part) : (pump p).pat = p.pat := by rw [pump_link]
@[simp] theorem pump_flt (p : Part) : (pump p).flt = p.flt := by rw [pump_link]
@[simp] theorem pump_ctl (p : Part) : (pump p).ctl = p.ctl := by rw [pump_link]

/-- A frame that begins keeps its place in the buffer until it ends. -/
@[simp] theorem pump_buffer (p : Part) : (pump p).link.buffer = p.link.buffer := by
  unfold pump beginFrame
  repeat' split
  all_goals rfl

/-- The queue loses at most its oldest notice. -/
theorem pump_queue (p : Part) : (pump p).link.queue = p.link.queue ∨ (pump p).link.queue = p.link.queue.tail := by
  unfold pump beginFrame
  repeat' split
  all_goals first | exact .inl rfl | (right; simp [*])

/-- The transmitter of a part that is held, or already sends, or has nothing to send, begins nothing. -/
theorem pump_idle (p : Part) (h : p.ctl.resetHeld = true ∨ p.link.tx.isSome = true ∨
    (p.link.buffer = [] ∧ p.link.queue = [])) : pump p = p := by
  unfold pump
  split
  · rfl
  · next hr => split <;> simp_all

/-! ## Commands -/

/-- A reply and the examination that follows a command leave the gate as the command left it. -/
@[simp] theorem reply_gate (n kind : Byte) (r : Reply) (p : Part) : (p.reply n kind r).gate = p.gate := rfl
@[simp] theorem after_gate (s : State) (b : Books) (p : Part) : (s.after b p).part.gate = p.gate := pump_gate p

@[simp] theorem begun_ctl (s : State) : s.begun.ctl = s.part.ctl := rfl
@[simp] theorem begun_buffer (s : State) : s.begun.link.buffer = s.part.link.buffer := rfl

/-- A line command always acts. -/
theorem lineCommand_next (f : Plant → Plant) (s : State) :
    lineCommand f s = .next (s.after (f ⟨s.books, s.begun⟩).books (f ⟨s.books, s.begun⟩).part) := rfl

/-- Any other command acts while the RESET line is not held. -/
theorem command_live (f : Plant → Plant) (s : State) (h : s.live) :
    command f s = .next (s.after (f ⟨s.books, s.begun⟩).books (f ⟨s.books, s.begun⟩).part) := by
  have hc : s.begun.ctl.resetHeld = false := h
  simp only [command, lineCommand_next, hc, Bool.false_eq_true, if_false]

/-- While it is held nothing is taken. -/
theorem command_held (f : Plant → Plant) (s : State) (h : s.part.ctl.resetHeld = true) :
    command f s = .next s.idled := by
  have hc : s.begun.ctl.resetHeld = true := h
  simp only [command, lineCommand_next, hc, if_true]
  rfl

theorem partCommand_live (f : Books → Part → Part) (s : State) (h : s.live) :
    partCommand f s = .next (s.after s.books (f s.books s.begun)) := command_live _ s h

/-- A request that finds a place leaves what its owner left, with the reply in the place. -/
theorem request_place (n kind : Byte) (take : Plant → Plant × Reply) (s : State) (h : s.hasPlace) :
    command (request n kind take) s =
      .next (s.after (take ⟨s.books, s.begun⟩).1.books
        ((take ⟨s.books, s.begun⟩).1.part.reply n kind (take ⟨s.books, s.begun⟩).2)) := by
  have hl : ¬ 4 ≤ s.begun.link.placesHeld := Nat.not_le.mpr h.2.2
  have hr : s.begun.link.restarting = false := h.2.1
  rw [command_live _ _ h.1]
  simp only [request, hl, hr, if_false, Bool.false_eq_true]
  rfl

/-- A request whose owner left the books `b` and the part `p` and gave the reply `r`. -/
theorem request_after {n kind : Byte} {take : Plant → Plant × Reply} {s : State} {b : Books} {p : Part} {r : Reply}
    (h : s.hasPlace) (e : take ⟨s.books, s.begun⟩ = (⟨b, p⟩, r)) :
    command (request n kind take) s = .next (s.after b (p.reply n kind r)) := by
  rw [request_place _ _ _ _ h, e]

/-- A request whose owner booked nothing. -/
theorem request_answered {n kind : Byte} {take : Plant → Plant × Reply} {s : State} {p : Part} {r : Reply}
    (h : s.hasPlace) (e : take ⟨s.books, s.begun⟩ = (⟨s.books, p⟩, r)) :
    command (request n kind take) s = .next (s.answered n kind r p) := request_after h e

/-- A request whose owner changed nothing. -/
theorem request_told {n kind : Byte} {take : Plant → Plant × Reply} {s : State} {r : Reply}
    (h : s.hasPlace) (e : take ⟨s.books, s.begun⟩ = (⟨s.books, s.begun⟩, r)) :
    command (request n kind take) s = .next (s.told n kind r) := request_after h e

/-- A request that finds no place is discarded (R194). -/
theorem request_full (n kind : Byte) (take : Plant → Plant × Reply) (s : State) (h : s.live)
    (hf : 4 ≤ s.part.link.placesHeld) : command (request n kind take) s = .next s.idled := by
  have hl : 4 ≤ s.begun.link.placesHeld := hf
  rw [command_live _ _ h]
  simp only [request, hl, if_true]
  rfl

/-- A request that finds a place behind a RESTART waits there and is not taken (R194, log 3). -/
theorem request_behind (n kind : Byte) (take : Plant → Plant × Reply) (s : State) (h : s.live)
    (hr : s.part.link.restarting = true) (hf : s.part.link.placesHeld < 4) :
    command (request n kind take) s = .next (s.after s.books (waitBehind s.begun)) := by
  have hl : ¬ 4 ≤ s.begun.link.placesHeld := Nat.not_le.mpr hf
  have hb : s.begun.link.restarting = true := hr
  rw [command_live _ _ h]
  simp only [request, hl, hb, if_false, if_true]

/-- In service a request taken there is handed to its owner. -/
theorem inService_in (take : Plant → Plant × Reply) (q : Plant) (h : q.part.ctl.mode.inService = true) :
    inService take q = take q := by simp only [inService, h, if_true]

/-- Elsewhere it is refused with WRONG MODE. -/
theorem inService_out (take : Plant → Plant × Reply) (q : Plant) (h : q.part.ctl.mode.inService = false) :
    inService take q = refuse .wrongMode q := by simp only [inService, h, Bool.false_eq_true, if_false]

/-! ## The receiver (R193) -/

/-- While hunting, bytes that are no SYNC are passed over. -/
theorem scan_passes (bytes more : List Byte) (h : ∀ b ∈ bytes, b ≠ 0xC3#8) :
    scan (bytes ++ more).length (bytes ++ more) = scan more.length more := by
  induction bytes with
  | nil => rfl
  | cons b bs ih =>
    have hb : b ≠ 0xC3#8 := h b (by simp)
    simp only [List.cons_append, List.length_cons, scan, hb, ne_eq, not_false_eq_true, if_true]
    exact ih (fun x hx => h x (by simp [hx]))

/-- After a discard the hunt goes on from the byte after the discarded SYNC. -/
theorem scan_discards (rest : List Byte) (h : examine rest = .discarded) :
    scan (0xC3#8 :: rest).length (0xC3#8 :: rest) = scan rest.length rest := by
  simp [scan, h]

/-- A complete frame whose CHECK does not match is discarded, whatever follows it. -/
theorem checkFrame_mismatch (h l c d : Byte) (inner more : List Byte)
    (hc : c.toNat * 256 + d.toNat ≠ (crc16 (h :: l :: inner)).toNat) :
    checkFrame h l inner.length (inner ++ c :: d :: more) = .discarded := by
  have take_inner : (inner ++ c :: d :: more).take inner.length = inner := by simp
  have drop_inner : (inner ++ c :: d :: more).drop inner.length = c :: d :: more := by simp
  have check_sent : (takeNum 2 0 (c :: d :: more)).1 = c.toNat * 256 + d.toNat := by simp [takeNum]
  simp only [checkFrame, take_inner, drop_inner, check_sent]
  obtain _ | ⟨kind, _ | ⟨number, body⟩⟩ := inner
  · rfl
  · rfl
  · exact if_neg hc

end Sys2Proof.Machine
end

