-- ==== Sys2Proof/Laws/Lots.lean ====
section
/-! SUPPORT. What clearing a lot does at the gate, by its held flag (R49, R54), and that a verdict's mass correction, which
leaves every volume as it was (R48), is followed by nothing where the lot's vessel is an ordinary HOLD vessel. -/

namespace Sys2Proof.Machine

variable {n : Nat} {l : Lot} {p : Part}

/-! ## Clearing at the gate (R49, R54, R142) -/

/-- A lot placed by its clearance number is in the queue. -/
theorem mem_insertByClearance (x : Nat × Nat) (q : List (Nat × Nat)) : x ∈ insertByClearance x q := by
  induction q with
  | nil => simp [insertByClearance]
  | cons y ys ih =>
    unfold insertByClearance
    split
    · simp
    · exact List.mem_cons_of_mem _ ih

/-- A held lot does not join. -/
theorem joinQueue_held (hl : findLot n p = some l) (held : l.held = true) : joinQueue n p = p := by
  simp [joinQueue, hl, held]

/-- A CLEARED lot that is not held joins with its clearance number; nothing else of the gate changes. -/
theorem joinQueue_free (hl : findLot n p = some l) (hs : l.state = .cleared) (held : l.held = false) :
    (joinQueue n p).gate = { p.gate with
      queue := insertByClearance (n, l.clearanceNo.getD 0) (leaveQueue n p).gate.queue } := by
  simp [joinQueue, hl, hs, held, leaveQueue]

theorem notify_link (x : NoticeBody) (p : Part) : notify x p = { p with link := (notify x p).link } := by
  unfold notify
  split <;> rfl

@[simp] theorem findLot_notify (x : NoticeBody) (p : Part) : findLot n (notify x p) = findLot n p := by
  rw [notify_link]; rfl

/-- Clearing changes the lots and sends a notice, and then the lot, CLEARED and held as it was, is offered to the queue. -/
theorem clearLot_joins (hl : findLot n p = some l) (r : LotReason) :
    ∃ q x, clearLot n r p = joinQueue n q ∧ q = { p with lot := q.lot, link := q.link } ∧ findLot n q = some x ∧
      x.state = .cleared ∧ x.held = l.held ∧ x.clearanceNo = some (l.clearanceNo.getD p.lot.nextClearance) := by
  have found (f : Lot → Lot) (hf : ∀ x, (f x).number = x.number) : findLot n (updLot n f p) = some (f l) := by
    rw [findLot_updLot n f p hf, hl]; rfl
  unfold clearLot
  simp only [hl]
  split
  · next k hc =>
    refine ⟨_, _, rfl, ?_, (findLot_notify _ _).trans (found _ fun _ => rfl), rfl, rfl, by simp [hc]⟩
    unfold lotNotice notify
    split <;> rfl
  · next hc =>
    refine ⟨_, _, rfl, ?_, (findLot_notify _ _).trans (found _ fun _ => rfl), rfl, rfl, by simp [hc]⟩
    unfold lotNotice notify
    split <;> rfl

/-- A lot cleared while held leaves everything but the lots and the notices as it was, the gate too (R54). -/
theorem clearLot_held (hl : findLot n p = some l) (held : l.held = true) (r : LotReason) :
    ∃ lot link, clearLot n r p = { p with lot := lot, link := link } := by
  obtain ⟨q, x, e, hq, hx, -, hh, -⟩ := clearLot_joins hl r
  exact ⟨_, _, (e.trans (joinQueue_held hx (hh.trans held))).trans hq⟩

/-- A lot cleared with held clear joins the queue with its clearance number; nothing else of the gate changes (R49). -/
theorem clearLot_free (hl : findLot n p = some l) (held : l.held = false) (r : LotReason) :
    (clearLot n r p).gate = { p.gate with queue := (clearLot n r p).gate.queue } ∧
      (n, l.clearanceNo.getD p.lot.nextClearance) ∈ (clearLot n r p).gate.queue := by
  obtain ⟨q, x, e, hq, hx, hs, hh, hk⟩ := clearLot_joins hl r
  have hg := joinQueue_free hx hs (hh.trans held)
  have hp : q.gate = p.gate := by rw [hq]
  rw [e, hg, hk, hp]
  exact ⟨rfl, mem_insertByClearance _ _⟩

/-! ## A booking that changes no volume (R48) -/

/-- A mass correction leaves every volume as it was. -/
theorem volume_massCorrection (b : Books) (v w : VesselId) (conc : Nat) :
    ((b.book (.massCorrection v conc)).vessel w).volume = (b.vessel w).volume := by
  simp only [Books.book, Books.vessel, Books.setVessel, get_updAt]
  split
  · next h => rw [h]
  · rfl

/-- So it empties no movement's source. -/
theorem sourceVolume_massCorrection (b : Books) (v : VesselId) (conc : Nat) (port : Port) :
    sourceVolume (b.book (.massCorrection v conc)) port = sourceVolume b port := by
  cases port <;> simp only [sourceVolume, volume_massCorrection] <;> rfl

/-- The vessel of a role has it. -/
theorem roleVessel_role {r : Role} {v : VesselId} (h : roleVessel r p = some v) : (vesselRec p v).role = r := by
  simpa using List.find?_some h

/-- A change of vessels that are neither REUSE nor FEED is told to nobody (R8). -/
theorem marksTold_spared (b : Books) {changed : List VesselId}
    (h : ∀ w ∈ changed, (vesselRec p w).role ≠ .reuse ∧ (vesselRec p w).role ≠ .feed) : marksTold b changed p = p := by
  have spared {r : Role} (hr : r = .reuse ∨ r = .feed) {w : VesselId} (hw : roleVessel r p = some w) :
      changed.contains w = false := by
    have : w ∉ changed := fun hm => by
      have := h w hm
      rw [roleVessel_role hw] at this
      rcases hr with rfl | rfl <;> simp at this
    simpa using this
  unfold marksTold
  cases hw : roleVessel .reuse p <;> cases hx : roleVessel .feed p
  · simp only [hx]
  · simp only [hx, spared (.inr rfl) hx, Bool.false_eq_true, if_false]
  · simp only [spared (.inl rfl) hw, Bool.false_eq_true, if_false, hx]
  · simp only [spared (.inl rfl) hw, Bool.false_eq_true, if_false, hx, spared (.inr rfl) hx]

/-- What a mass correction of a HOLD vessel with water brings after it: nothing, where no frame watches the vessel's overflow
and no movement draws on an empty source. -/
theorem afterBooking_massCorrection (b : Books) (v : VesselId) (conc : Nat) (hr : (vesselRec p v).role = .hold)
    (hv : 0 < (b.vessel v).volume) (hm : ∀ m ∈ p.mov.entries, sourceVolume b m.source ≠ some 0)
    (hf : hasFrame .vesselOverflow (.vessel v) p = false) :
    afterBooking b (b.book (.massCorrection v conc)) [v] none none p = p := by
  have hc : closeEmptied (b.book (.massCorrection v conc)) v p = p := by
    unfold closeEmptied
    split
    · rfl
    · simp only [volume_massCorrection]
      rw [if_neg (by omega)]
  have ho : overflowRules b (b.book (.massCorrection v conc)) [v] none p = p := by
    simp only [overflowRules, List.foldl_cons, List.foldl_nil, overflowRule, volume_massCorrection, hf]
    split
    · rfl
    · rw [if_neg (by simp), if_neg (by omega)]
  have he : completeEmptied (b.book (.massCorrection v conc)) p = p := by
    have : p.mov.entries.filter (fun m =>
        decide (sourceVolume (b.book (.massCorrection v conc)) m.source = some 0)) = [] := by
      simpa [sourceVolume_massCorrection] using hm
    simp only [completeEmptied, this, List.foldl_nil]
  have ht : marksTold (b.book (.massCorrection v conc)) (changedVessels b (b.book (.massCorrection v conc)) [v]) p = p :=
    marksTold_spared _ fun w hw => by
      obtain rfl : w = v := by simpa using (List.mem_filter.mp hw).1
      simp [hr]
  simp only [afterBooking, List.foldl_cons, List.foldl_nil, hc, ho, he, completeMoved, Option.bind_none, ht]

end Sys2Proof.Machine
end

