-- ==== Sys2Proof/Laws/Reaches.lean ====
section
/-! SUPPORT. Consequences that raise faults, pop frames, match patterns or enter LOCKDOWN: `Change` lists the single
changes, `Reaches` is any number of them, and one lemma for each function says that it reaches its result so (or
settles, where it raises nothing). -/

namespace Sys2Proof.Machine

/-- A single change by which consequences act. -/
inductive Change : Part → Part → Prop
  | calm {p q : Part} (h : Calm p q) : Change p q
  | push (f : Frame) (p : Part) (hm : p.ctl.mode.inService = true) (hl : p.flt.stack.length < 6) :
      Change p { p with flt := { p.flt with stack := p.flt.stack ++ [f] } }
  | record (l : Option LastFault) (p : Part) : Change p { p with flt := { p.flt with last := l } }
  | pop (p : Part) : Change p { p with flt := { p.flt with stack := p.flt.stack.dropLast } }
  | lockdown (p : Part) (h : p.ctl.mode = .operating) : Change p { p with ctl := { p.ctl with mode := .lockdown } }
  | pattern (k : PatternId) (f : PatternRec → PatternRec) (p : Part) (h : ∀ r, (f r).arm = r.arm) :
      Change p (updPattern k f p)

/-- Any number of changes. -/
inductive Reaches : Part → Part → Prop
  | refl (p : Part) : Reaches p p
  | step {p q r : Part} (h : Reaches p q) (k : Change q r) : Reaches p r

theorem Reaches.trans {p q r : Part} (h : Reaches p q) (k : Reaches q r) : Reaches p r := by
  induction k with
  | refl => exact h
  | step _ c ih => exact .step ih c

theorem Settles.reaches {p q : Part} (h : Settles p q) : Reaches p q := by
  induction h with
  | refl => exact .refl p
  | step _ k ih => exact .step ih (.calm k)

/-- Calm consequences after others. -/
theorem Reaches.settle {a p q : Part} (h : Reaches a p) (k : Settles p q) : Reaches a q := h.trans k.reaches

/-- What every change keeps, a cascade keeps. -/
theorem Reaches.keeps {P : Part → Prop} (hP : ∀ p q, Change p q → P p → P q) {p q : Part} (h : Reaches p q)
    (hp : P p) : P q := by
  induction h with
  | refl => exact hp
  | step _ k ih => exact hP _ _ k ih

/-- What every change leaves equal, a cascade leaves equal. -/
theorem Reaches.same {α : Type} (g : Part → α) (hg : ∀ p q, Change p q → g q = g p) {p q : Part}
    (h : Reaches p q) : g q = g p := by
  induction h with
  | refl => rfl
  | step _ k ih => exact (hg _ _ k).trans ih

/-- Every change keeps `standing`. -/
theorem Change.standing {p q : Part} (h : Change p q) : q.standing = p.standing := by
  cases h with
  | calm h => exact h.standing
  | pattern k f _ h => simp only [Part.standing, updPattern, map_updAt _ _ _ _ h]
  | _ => rfl

theorem Reaches.standing {p q : Part} (h : Reaches p q) : q.standing = p.standing :=
  h.same _ (fun _ _ => Change.standing)

/-- Mode Control changes in one way alone: from OPERATING to LOCKDOWN. -/
theorem Reaches.ctl {p q : Part} (h : Reaches p q) :
    q.ctl = p.ctl ∨ (p.ctl.mode = .operating ∧ q.ctl = { p.ctl with mode := .lockdown }) := by
  induction h with
  | refl => exact .inl rfl
  | step _ k ih =>
    cases k with
    | calm h => rw [h.ctl]; exact ih
    | lockdown _ hq =>
      rcases ih with e | ⟨hp, e⟩
      · exact .inr ⟨by rw [← e]; exact hq, by rw [e]⟩
      · rw [e] at hq; cases hq
    | _ => exact ih

/-- Outside OPERATING Mode Control stays as it was. -/
theorem Reaches.ctl_eq {p q : Part} (h : Reaches p q) (hm : p.ctl.mode ≠ .operating) : q.ctl = p.ctl :=
  h.ctl.elim id (fun x => absurd x.1 hm)

variable {a p : Part}

theorem reaches_updPattern (k : PatternId) (f : PatternRec → PatternRec) (w : ∀ r, (f r).arm = r.arm)
    (h : Reaches a p) : Reaches a (updPattern k f p) := .step h (.pattern k f p w)

theorem reaches_recordFault (r : Raise) (d : Option Nat) (h : Reaches a p) : Reaches a (recordFault r d p) :=
  .step h (.record _ p)

/-- A fold of reaching functions reaches. -/
theorem reaches_foldl {α : Type} (f : Part → α → Part) (k : ∀ q x, Reaches a q → Reaches a (f q x)) (l : List α)
    (h : Reaches a p) : Reaches a (l.foldl f p) := by
  induction l generalizing p with
  | nil => exact h
  | cons x xs ih => exact ih (k _ _ h)

/-! ## Faults (chapter 10) -/

theorem settles_blocksLockdown (b : Books) (h : Settles a p) : Settles a (blocksLockdown b p) := by
  dsimp only [blocksLockdown]
  repeat'
    first
    | with_reducible assumption | with_reducible apply settles_chargesWaitMode
    | with_reducible apply settles_examineArbiter | with_reducible apply settles_settleCells
    | with_reducible apply settles_seekDrains | with_reducible apply settles_recomputeGate

theorem reaches_enterLockdown (b : Books) (cause : LockdownCause) (spare : Option Nat) (h : Reaches a p) :
    Reaches a (enterLockdown b cause spare p) := by
  unfold enterLockdown
  split
  · next hm =>
    exact (Reaches.step h (.lockdown p hm)).settle
      (settles_blocksLockdown b (settles_notify _ (settles_generalCut b _ _ (.refl _))))
  · exact h

theorem settles_applyShutOutfall (b : Books) (f : Frame) (depth : Nat) (h : Settles a p) :
    Settles a (applyShutOutfall b f depth p) := by
  dsimp only [applyShutOutfall]
  repeat' split
  all_goals
    try dsimp only
    repeat'
      first
      | with_reducible assumption | with_reducible apply settles_cutMovement

theorem settles_applyStopMovement (b : Books) (f : Frame) (depth : Nat) (spare : Option Nat) (h : Settles a p) :
    Settles a (applyStopMovement b f depth spare p) := by
  dsimp only [applyStopMovement]
  repeat' split
  all_goals
    try dsimp only
    repeat'
      first
      | with_reducible assumption | with_reducible apply settles_cutMovement

theorem settles_holdCell (f : Frame) (c : CellId) (h : Settles a p) : Settles a (holdCell f c p) := by
  dsimp only [holdCell]
  repeat' split
  all_goals
    try dsimp only
    repeat'
      first
      | with_reducible assumption | with_reducible apply settles_drainWaits
      | with_reducible apply settles_setStep

theorem settles_holdOwners (f : Frame) (h : Settles a p) : Settles a (holdOwners f p) := by
  have k := settles_foldl (fun q c => holdCell f c q) (fun _ c k => settles_holdCell f c k) allCells h
  dsimp only [holdOwners]
  repeat' split
  all_goals
    repeat'
      first
      | exact k | with_reducible apply settles_setReturn | with_reducible apply settles_setFill
      | with_reducible apply settles_setSpill

theorem settles_announcePush (b : Books) (f : Frame) (old : ActionSet) (h : Settles a p) :
    Settles a (announcePush b f old p) := by
  dsimp only [announcePush]
  repeat' split
  all_goals
    try dsimp only
    repeat'
      first
      | with_reducible assumption | with_reducible apply settles_holdOwners
      | with_reducible apply settles_examineArbiter | with_reducible apply settles_settleCells
      | with_reducible apply settles_reexamineNeeds | with_reducible apply settles_recomputeGate

theorem reaches_applyActions (b : Books) (f : Frame) (depth : Nat) (spare : Option Nat) (old : ActionSet)
    (h : Reaches a p) : Reaches a (applyActions b f depth spare old p) := by
  dsimp only [applyActions]
  repeat' split
  all_goals
    try dsimp only
    repeat'
      first
      | with_reducible assumption | with_reducible apply reaches_enterLockdown
      | with_reducible refine Reaches.settle ?_ (settles_announcePush _ _ _ (.refl _))
      | with_reducible refine Reaches.settle ?_ (settles_applyStopMovement _ _ _ _ (.refl _))
      | with_reducible refine Reaches.settle ?_ (settles_applyShutOutfall _ _ _ (.refl _))

theorem reaches_pushFrame (b : Books) (r : Raise) (hm : p.ctl.mode.inService = true)
    (hl : p.flt.stack.length < 6) (h : Reaches a p) : Reaches a (pushFrame b r p) :=
  reaches_applyActions _ _ _ _ _
    ((reaches_recordFault _ _ (.step h (.push _ p hm hl))).settle (settles_notify _ (.refl _)))

theorem reaches_notStacked (b : Books) (r : Raise) (h : Reaches a p) : Reaches a (notStacked b r p) := by
  dsimp only [notStacked]
  repeat'
    first
    | with_reducible assumption | with_reducible apply reaches_enterLockdown
    | with_reducible apply reaches_recordFault
    | with_reducible refine Reaches.settle ?_ (settles_notify _ (.refl _))

theorem reaches_raise (b : Books) (r : Raise) (h : Reaches a p) : Reaches a (raise b r p) := by
  unfold raise
  split
  · exact h
  · next hm =>
    split
    · next hl => exact reaches_pushFrame b r (by simpa using hm) hl h
    · exact reaches_notStacked b r h

/-- A calm change is the same change whatever movement is about to end. -/
theorem calm_setEnding {p q : Part} (x : Option Movement) (h : Calm p q) :
    Calm (setEnding x p) (setEnding x q) := by
  cases h with
  | notice n =>
    have e : setEnding x (notify n p) = notify n (setEnding x p) := by
      unfold notify; exact apply_ite (setEnding x) _ _ _
    rw [e]; exact .notice n _
  | vessel v f _ h => exact .vessel v f _ h
  | waiting w => exact .waiting w _
  | start s _ hs hm hl ha => exact .start s _ hs hm hl ha
  | move n f _ h => exact .move n f _ h
  | unmove n => exact .unmove n _
  | lot n f _ h => exact .lot n f _ h
  | newLot v s f _ h => exact .newLot v s f _ h
  | lotCounters c r => exact .lotCounters c r _
  | unlot n c => exact .unlot n c _
  | unit u f _ h => exact .unit u f _ h
  | needs y z w s o => exact .needs y z w s o _
  | cell c f _ h => exact .cell c f _ h
  | arbiter o c => exact .arbiter o c _
  | gate s w o y z => exact .gate s w o y z _
  | frames l _ h => exact .frames l _ h

/-- So is any change. -/
theorem change_setEnding {p q : Part} (x : Option Movement) (h : Change p q) :
    Change (setEnding x p) (setEnding x q) := by
  cases h with
  | calm h => exact .calm (calm_setEnding x h)
  | push f _ hm hl => exact .push f _ hm hl
  | record l => exact .record l _
  | pop => exact .pop _
  | lockdown _ h => exact .lockdown _ h
  | pattern k f _ h => exact .pattern k f _ h

/-- So is any number of changes. -/
theorem reaches_setEnding {p q : Part} (x : Option Movement) (h : Reaches p q) :
    Reaches (setEnding x p) (setEnding x q) := by
  induction h with
  | refl => exact .refl _
  | step _ k ih => exact .step ih (change_setEnding x k)

/-- A raise for a movement about to end does what a raise can do, and leaves none about to end but the one before. -/
theorem reaches_raiseBeforeEnd (b : Books) (r : Raise) (m : Movement) (h : Reaches a p) :
    Reaches a (raiseBeforeEnd b r m p) :=
  (h.settle (settles_removeMove m.number (.refl _))).trans
    (reaches_setEnding p.mov.ending (reaches_raise b { r with interrupted := some m }
      (.refl (setEnding (some m) (removeMove m.number p)))))

theorem reaches_raiseOrReport (b : Books) (r : Raise) (h : Reaches a p) : Reaches a (raiseOrReport b r p) := by
  dsimp only [raiseOrReport]
  repeat' split
  all_goals
    try dsimp only
    repeat'
      first
      | with_reducible assumption | with_reducible apply reaches_raise
      | with_reducible refine Reaches.settle ?_ (settles_reportOn _ _ _ (.refl _))

theorem settles_popLot (way : PopWay) (f : Frame) (h : Settles a p) : Settles a (popLot way f p) := by
  dsimp only [popLot]
  repeat' split
  all_goals
    try dsimp only
    repeat'
      first
      | with_reducible assumption | with_reducible apply settles_rejectLot
      | with_reducible apply settles_clearLot

theorem settles_takeUpStep (b : Books) (c : CellId) (h : Settles a p) : Settles a (takeUpStep b c p) := by
  dsimp only [takeUpStep]
  repeat' split
  all_goals
    try dsimp only
    repeat'
      first
      | with_reducible assumption | with_reducible apply settles_settleCell
      | with_reducible apply settles_seekDrain

theorem settles_abandonCell (b : Books) (c : CellId) (h : Settles a p) : Settles a (abandonCell b c p) := by
  dsimp only [abandonCell]
  repeat' split
  all_goals
    try dsimp only
    repeat'
      first
      | with_reducible assumption | with_reducible apply settles_cutMovement
      | with_reducible apply settles_abandonStep

theorem settles_popCell (b : Books) (way : PopWay) (f : Frame) (c : CellId) (h : Settles a p) :
    Settles a (popCell b way f c p) := by
  dsimp only [popCell]
  repeat' split
  all_goals
    try dsimp only
    repeat'
      first
      | with_reducible assumption | with_reducible apply settles_abandonCell
      | with_reducible apply settles_takeUpStep

theorem settles_popOwners (b : Books) (way : PopWay) (f : Frame) (h : Settles a p) :
    Settles a (popOwners b way f p) := by
  have k := settles_foldl (fun q c => popCell b way f c q) (fun _ c k => settles_popCell b way f c k) allCells
    (settles_popLot way f h)
  dsimp only [popOwners]
  repeat' split
  all_goals
    repeat'
      first
      | exact k | with_reducible apply settles_selectLot | with_reducible apply settles_examineReturn
      | with_reducible apply settles_reexamineFill | with_reducible apply settles_reexamineSpill

/-- A calm change is the same change whatever actions a frame being popped leaves in force. -/
theorem calm_setLeaving {p q : Part} (x : ActionSet) (h : Calm p q) : Calm (setLeaving x p) (setLeaving x q) := by
  cases h with
  | notice n =>
    have e : setLeaving x (notify n p) = notify n (setLeaving x p) := by
      unfold notify; exact apply_ite (setLeaving x) _ _ _
    rw [e]; exact .notice n _
  | vessel v f _ h => exact .vessel v f _ h
  | waiting w => exact .waiting w _
  | start s _ hs hm hl ha => exact .start s _ hs hm hl ha
  | move n f _ h => exact .move n f _ h
  | unmove n => exact .unmove n _
  | lot n f _ h => exact .lot n f _ h
  | newLot v s f _ h => exact .newLot v s f _ h
  | lotCounters c r => exact .lotCounters c r _
  | unlot n c => exact .unlot n c _
  | unit u f _ h => exact .unit u f _ h
  | needs y z w s o => exact .needs y z w s o _
  | cell c f _ h => exact .cell c f _ h
  | arbiter o c => exact .arbiter o c _
  | gate s w o y z => exact .gate s w o y z _
  | frames l _ h => exact .frames l _ h

/-- So is any number of calm changes. -/
theorem settles_setLeaving {p q : Part} (x : ActionSet) (h : Settles p q) :
    Settles (setLeaving x p) (setLeaving x q) := by
  induction h with
  | refl => exact .refl _
  | step _ k ih => exact .step ih (calm_setLeaving x k)

/-- The first two steps of a pop take the frame away and settle: its actions are in force through them alone. -/
theorem settles_popSteps (b : Books) (way : PopWay) (f : Frame) (p : Part) :
    Settles { p with flt := { p.flt with stack := p.flt.stack.dropLast } } (popSteps b way f p) :=
  settles_setLeaving p.flt.leaving (settles_popOwners b way f
    (.refl (setLeaving f.actions { p with flt := { p.flt with stack := p.flt.stack.dropLast } })))

theorem settles_announcePop (b : Books) (f : Frame) (old : ActionSet) (h : Settles a p) :
    Settles a (announcePop b f old p) := by
  dsimp only [announcePop]
  repeat' split
  all_goals
    try dsimp only
    repeat'
      first
      | with_reducible assumption | with_reducible apply settles_reuseEvaluation
      | with_reducible apply settles_settleCells | with_reducible apply settles_examineReturn
      | with_reducible apply settles_recomputeGate | with_reducible apply settles_examineArbiter

theorem settles_popReexamine (b : Books) (h : Settles a p) : Settles a (popReexamine b p) := by
  dsimp only [popReexamine]
  repeat'
    first
    | with_reducible assumption | with_reducible apply settles_examineArbiter
    | with_reducible apply settles_seekDrains | with_reducible apply settles_reexamineNeeds
    | with_reducible apply settles_selectLot

theorem reaches_popOnce (b : Books) (way : PopWay) (h : Reaches a p) : Reaches a (popOnce b way p) := by
  dsimp only [popOnce]
  split
  · exact h
  · exact (Reaches.step h (.pop p)).settle (settles_popReexamine b (settles_notify _
      (settles_announcePop b _ _ (settles_popSteps b way _ p))))

theorem reaches_autoPops (b : Books) (fuel : Nat) (h : Reaches a p) : Reaches a (autoPops b fuel p) := by
  induction fuel generalizing p with
  | zero => exact h
  | succ k ih =>
    unfold autoPops
    split
    · exact ih (reaches_popOnce b .auto h)
    · exact h

theorem reaches_popFrame (b : Books) (way : PopWay) (h : Reaches a p) : Reaches a (popFrame b way p) := by
  dsimp only [popFrame]
  repeat'
    first
    | with_reducible assumption | with_reducible apply reaches_autoPops
    | with_reducible apply reaches_popOnce

/-! ## What follows a booking -/

theorem reaches_overflowRule (b : Books) (v : VesselId) (old : Nat) (new : Nat) (spare : Option Nat)
    (h : Reaches a p) : Reaches a (overflowRule b v old new spare p) := by
  dsimp only [overflowRule]
  repeat' split
  all_goals
    try dsimp only
    repeat'
      first
      | with_reducible assumption | with_reducible apply reaches_raise
      | with_reducible refine Reaches.settle ?_ (settles_reportOn _ _ _ (.refl _))

theorem settles_completeEmptied (b : Books) (h : Settles a p) : Settles a (completeEmptied b p) := by
  refine settles_foldl _ (fun q m k => ?_) _ h
  split
  · exact settles_endMovement b _ _ k
  · exact k

theorem settles_completeMoved (b : Books) (n : Option Nat) (h : Settles a p) :
    Settles a (completeMoved b n p) := by
  dsimp only [completeMoved]
  repeat' split
  all_goals
    try dsimp only
    repeat'
      first
      | with_reducible assumption | with_reducible apply settles_endMovement

theorem reaches_overflowRules (old new : Books) (vs : List VesselId) (spare : Option Nat) (h : Reaches a p) :
    Reaches a (overflowRules old new vs spare p) :=
  reaches_foldl _ (fun _ v k => reaches_overflowRule new v _ _ spare k) _ h

theorem settles_marksTold (b : Books) (changed : List VesselId) (h : Settles a p) :
    Settles a (marksTold b changed p) := by
  dsimp only [marksTold]
  repeat' split
  all_goals
    try dsimp only
    repeat'
      first
      | with_reducible assumption | with_reducible apply settles_reuseEvaluation
      | with_reducible apply settles_examineArbiter | with_reducible apply settles_examineReturn

theorem settles_closeEmptied (b : Books) (v : VesselId) (h : Settles a p) : Settles a (closeEmptied b v p) := by
  dsimp only [closeEmptied]
  repeat' split
  all_goals
    try dsimp only
    repeat'
      first
      | with_reducible assumption | with_reducible apply settles_reexamineNeeds
      | with_reducible apply settles_closeLot

theorem reaches_afterBooking (old new : Books) (vs : List VesselId) (mv spare : Option Nat) (h : Reaches a p) :
    Reaches a (afterBooking old new vs mv spare p) :=
  (reaches_overflowRules old new vs spare
      (h.settle (settles_foldl _ (fun _ v k => settles_closeEmptied new v k) vs (.refl _)))).settle
    (settles_marksTold new _ (settles_completeMoved new mv (settles_completeEmptied new (.refl _))))

theorem settles_lotTold (b : Books) (m : Movement) (litres : Nat) (mg : Nat) (h : Settles a p) :
    Settles a (lotTold b m litres mg p) := by
  dsimp only [lotTold]
  repeat' split
  all_goals
    try dsimp only
    repeat'
      first
      | with_reducible assumption | with_reducible apply settles_sealCheck
      | with_reducible apply settles_updLot | exact fun _ => ⟨rfl, rfl⟩

theorem settles_pauseDischarge (b : Books) (h : Settles a p) : Settles a (pauseDischarge b p) := by
  dsimp only [pauseDischarge]
  repeat'
    first
    | with_reducible assumption | with_reducible apply settles_cutDischarge

theorem reaches_floorReachedAt (b : Books) (m : Movement) (h : Reaches a p) :
    Reaches a (floorReachedAt b m p) := by
  dsimp only [floorReachedAt]
  repeat' split
  all_goals
    try dsimp only
    repeat'
      first
      | with_reducible assumption | with_reducible apply reaches_raise
      | with_reducible refine Reaches.settle ?_ (settles_pauseDischarge _ (.refl _))
      | with_reducible refine Reaches.settle ?_ (settles_reportType _ _ (.refl _))

theorem reaches_afterIncrement (b : Books) (n : Nat) (h : Reaches a p) : Reaches a (afterIncrement b n p) := by
  dsimp only [afterIncrement]
  repeat' split
  all_goals
    try dsimp only
    repeat'
      first
      | with_reducible assumption | with_reducible apply reaches_floorReachedAt
      | with_reducible refine Reaches.settle ?_ (settles_pauseDischarge _ (.refl _))

/-! ## The Field Link (chapter 5) -/

theorem settles_slugTold (m : Movement) (s : SlugParticulars) (litres : Nat) (mg : Nat) (b : Books)
    (h : Settles a p) : Settles a (slugTold m s litres mg b p) := by
  dsimp only [slugTold]
  repeat' split
  all_goals
    try dsimp only
    repeat'
      first
      | with_reducible assumption | with_reducible apply settles_sealCheck
      | with_reducible apply settles_updLot | exact fun _ => ⟨rfl, rfl⟩

theorem settles_stopTimeout (n : Nat) (h : Settles a p) : Settles a (stopTimeout n p) := by
  dsimp only [stopTimeout]
  repeat'
    first
    | with_reducible assumption | with_reducible apply settles_updMove
    | exact fun _ => ⟨rfl, rfl, rfl, rfl⟩

theorem settles_deliverGo (u : UnitId) (n : Nat) (h : Settles a p) : Settles a (deliverGo u n p) := by
  dsimp only [deliverGo]
  repeat' split
  all_goals
    try dsimp only
    repeat'
      first
      | with_reducible assumption | with_reducible apply settles_updMove
      | with_reducible apply settles_updUnit | exact fun _ => rfl | exact fun _ => ⟨rfl, rfl, rfl, rfl⟩

theorem settles_deliverStop (u : UnitId) (mv : Nat) (h : Settles a p) : Settles a (deliverStop u mv p) := by
  dsimp only [deliverStop]
  repeat'
    first
    | with_reducible assumption | with_reducible apply settles_updUnit | exact fun _ => rfl

theorem settles_deliver (u : UnitId) (sent : FieldMessage) (takesGo : Bool) (h : Settles a p) :
    Settles a (deliver u sent takesGo p) := by
  dsimp only [deliver]
  repeat' split
  all_goals
    try dsimp only
    repeat'
      first
      | with_reducible assumption | with_reducible apply settles_deliverStop
      | with_reducible apply settles_deliverGo

theorem reaches_silentSlug (b : Books) (u : UnitId) (h : Reaches a p) : Reaches a (silentSlug b u p) := by
  dsimp only [silentSlug]
  repeat' split
  all_goals
    try dsimp only
    repeat'
      first
      | with_reducible assumption | with_reducible apply reaches_raise
      | with_reducible refine Reaches.settle ?_ (settles_stopSlug _ (.refl _))
      | with_reducible refine Reaches.settle ?_ (settles_endMovement _ _ _ (.refl _))

theorem settles_withdrawGrant (b : Books) (sent : FieldMessage) (h : Settles a p) :
    Settles a (withdrawGrant b sent p) := by
  dsimp only [withdrawGrant]
  repeat' split
  all_goals
    try dsimp only
    repeat'
      first
      | with_reducible assumption | with_reducible apply settles_cutMovement

theorem settles_candidateVessel (c : Candidate) (volume : Nat) (h : Settles a p) :
    Settles a (candidateVessel c volume p).1 := by
  dsimp only [candidateVessel]
  repeat' split
  all_goals
    try dsimp only
    repeat'
      first
      | with_reducible assumption | with_reducible apply settles_askFilling

theorem settles_startSlug (b : Books) (s : SlugParticulars) (v : VesselId) (lot : Option Nat) (volume : Nat)
    (h : Settles a p) : Settles a (startSlug b s v lot volume p).1 := by
  dsimp only [startSlug]
  repeat' split
  all_goals
    try dsimp only
    repeat'
      first
      | with_reducible assumption | with_reducible apply settles_askStart
      | with_reducible apply settles_updUnit | exact fun _ => rfl

theorem settles_tryCandidate (b : Books) (s : SlugParticulars) (bypass : Bool) (volume : Nat)
    (c : Candidate) (h : Settles a p) : Settles a (tryCandidate b s bypass volume c p).1 := by
  dsimp only [tryCandidate]
  repeat' split
  all_goals
    try dsimp only
    repeat'
      first
      | with_reducible assumption | with_reducible apply settles_startSlug
      | with_reducible apply settles_candidateVessel

theorem settles_walkCandidates (b : Books) (s : SlugParticulars) (bypass : Bool) (volume : Nat)
    (cs : List Candidate) (skips : List Skip) (h : Settles a p) :
    Settles a (walkCandidates b s bypass volume cs skips p).1 := by
  induction cs generalizing p skips with
  | nil => exact h
  | cons c rest ih =>
    have k := settles_tryCandidate b s bypass volume c h
    dsimp only [walkCandidates]
    split
    · exact k
    · exact k
    · exact ih _ k

theorem settles_routeContinue (b : Books) (s : SlugParticulars) (quarantineOnly : Bool) (bypass : Bool)
    (volume : Nat) (h : Settles a p) : Settles a (routeContinue b s quarantineOnly bypass volume p).1 := by
  dsimp only [routeContinue]
  repeat' split
  all_goals
    try dsimp only
    repeat'
      first
      | with_reducible assumption | with_reducible apply settles_walkCandidates

theorem settles_overDelivery (m : Movement) (s : SlugParticulars) (v : VesselId) (litres : Nat)
    (h : Settles a p) : Settles a (overDelivery m s v litres p) := by
  dsimp only [overDelivery]
  repeat' split
  all_goals
    try dsimp only
    repeat'
      first
      | with_reducible assumption | with_reducible apply settles_notify

theorem settles_clearOutboundFor (s : SlugParticulars) (n : Nat) (h : Settles a p) :
    Settles a (clearOutboundFor s n p) := by
  dsimp only [clearOutboundFor]
  all_goals
    try dsimp only
    repeat'
      first
      | with_reducible assumption | with_reducible apply settles_updUnit | exact fun _ => rfl

theorem settles_readyDelivered (u : UnitId) (m : Movement) (h : Settles a p) :
    Settles a (readyDelivered u m p) := by
  dsimp only [readyDelivered]
  repeat' split
  all_goals
    try dsimp only
    repeat'
      first
      | with_reducible assumption | with_reducible apply settles_deliverGo

theorem settles_setGo (m : Movement) (h : Settles a p) : Settles a (setGo m p) := by
  dsimp only [setGo]
  repeat' split
  all_goals
    try dsimp only
    repeat'
      first
      | with_reducible assumption | with_reducible apply settles_updUnit | exact fun _ => rfl

theorem settles_travelElapsed (n : Nat) (h : Settles a p) : Settles a (travelElapsed n p) := by
  dsimp only [travelElapsed]
  repeat' split
  all_goals
    try dsimp only
    repeat'
      first
      | with_reducible assumption | with_reducible apply settles_setGo
      | with_reducible apply settles_updMove | exact fun _ => ⟨rfl, rfl, rfl, rfl⟩

theorem reaches_stallMove (b : Books) (m : Movement) (h : Reaches a p) : Reaches a (stallMove b m p) :=
  (reaches_raiseBeforeEnd b _ m h).settle (settles_movementEnded b m _ (.refl _))

theorem reaches_stallTimeout (b : Books) (n : Nat) (h : Reaches a p) : Reaches a (stallTimeout b n p) := by
  dsimp only [stallTimeout]
  repeat' split
  all_goals
    try dsimp only
    repeat'
      first
      | with_reducible assumption | with_reducible apply reaches_stallMove

theorem reaches_stallQuiet (b : Books) (h : Reaches a p) : Reaches a (stallQuiet b p) :=
  reaches_foldl _ (fun _ m k => reaches_stallTimeout b m.number k) _ h

/-! ## Patterns (chapter 9) -/

theorem reaches_matchArmed (b : Books) (k : PatternId) (i : Option InputId) (h : Reaches a p) :
    Reaches a (matchArmed b k i p) := by
  dsimp only [matchArmed]
  repeat' split
  all_goals
    try dsimp only
    repeat'
      first
      | with_reducible assumption | with_reducible apply reaches_raiseOrReport
      | with_reducible apply reaches_updPattern
      | with_reducible refine Reaches.settle ?_ (settles_notify _ (.refl _)) | exact fun _ => rfl

theorem reaches_takeMatch (b : Books) (k : PatternId) (i : Option InputId) (h : Reaches a p) :
    Reaches a (takeMatch b k i p) := by
  dsimp only [takeMatch]
  repeat' split
  all_goals
    try dsimp only
    repeat'
      first
      | with_reducible assumption | with_reducible apply reaches_matchArmed
      | with_reducible apply reaches_updPattern | exact fun _ => rfl

theorem reaches_evaluatePattern (b : Books) (change : Option (InputId × Bool)) (k : PatternId)
    (h : Reaches a p) : Reaches a (evaluatePattern b change k p) := by
  dsimp only [evaluatePattern]
  repeat' split
  all_goals
    try dsimp only
    repeat'
      first
      | with_reducible assumption | with_reducible apply reaches_takeMatch

theorem reaches_evaluateAll (b : Books) (change : Option (InputId × Bool)) (h : Reaches a p) :
    Reaches a (evaluateAll b change p) :=
  reaches_foldl _ (fun _ k w => reaches_evaluatePattern b change k w) _ h

/-! ## Vessels (chapter 1) -/

theorem settles_openAdopted (v : VesselId) (level : Nat) (h : Settles a p) :
    Settles a (openAdopted v level p) := by
  dsimp only [openAdopted]
  repeat' split
  all_goals
    try dsimp only
    repeat'
      first
      | with_reducible assumption | with_reducible apply settles_settleOrSample
      | with_reducible apply settles_lotNotice | with_reducible apply settles_addLot
      | exact fun _ => ⟨rfl, rfl⟩

theorem reaches_crossCheck (b : Books) (v : VesselId) (reading : Nat) (h : Reaches a p) :
    Reaches a (crossCheck b v reading p) := by
  dsimp only [crossCheck]
  repeat' split
  all_goals
    try dsimp only
    repeat'
      first
      | with_reducible assumption | with_reducible apply reaches_raise
      | with_reducible refine Reaches.settle ?_ (settles_reportOn _ _ _ (.refl _))

/-! ## Lot timers and requests (chapter 3) -/

theorem settles_fillAgeExpires (b : Books) (n : Nat) (h : Settles a p) : Settles a (fillAgeExpires b n p) := by
  dsimp only [fillAgeExpires]
  repeat' split
  all_goals
    try dsimp only
    repeat'
      first
      | with_reducible assumption | with_reducible apply settles_dueToSeal

theorem settles_settleExpires (n : Nat) (h : Settles a p) : Settles a (settleExpires n p) := by
  dsimp only [settleExpires]
  repeat' split
  all_goals
    try dsimp only
    repeat'
      first
      | with_reducible assumption | with_reducible apply settles_enterSampling

theorem settles_awaitVerdict (n : Nat) (h : Settles a p) : Settles a (awaitVerdict n p) := by
  dsimp only [awaitVerdict]
  repeat'
    first
    | with_reducible assumption | with_reducible apply settles_lotNotice
    | with_reducible apply settles_updLot | exact fun _ => ⟨rfl, rfl⟩

theorem settles_sampleTold (l : Lot) (b : Books) (h : Settles a p) : Settles a (sampleTold l b p) := by
  dsimp only [sampleTold]
  repeat' split
  all_goals
    try dsimp only
    repeat'
      first
      | with_reducible assumption | with_reducible apply settles_awaitVerdict
      | with_reducible apply settles_updLot | with_reducible apply settles_notify
      | exact fun _ => ⟨rfl, rfl⟩

theorem settles_verdictExpires (b : Books) (n : Nat) (h : Settles a p) : Settles a (verdictExpires b n p) := by
  dsimp only [verdictExpires]
  repeat' split
  all_goals
    try dsimp only
    repeat'
      first
      | with_reducible assumption | with_reducible apply settles_reexamineNeeds
      | with_reducible apply settles_rejectLot | with_reducible apply settles_enterSampling

theorem settles_unhold (b : Books) (l : Lot) (h : Settles a p) : Settles a (unhold b l p) := by
  dsimp only [unhold]
  repeat' split
  all_goals
    try dsimp only
    repeat'
      first
      | with_reducible assumption | with_reducible apply settles_reexamineNeeds
      | with_reducible apply settles_selectLot | with_reducible apply settles_joinQueue
      | with_reducible apply settles_updLot | exact fun _ => ⟨rfl, rfl⟩

theorem settles_verdictTaken (i : VerdictItems) (l : Lot) (b : Books) (h : Settles a p) :
    Settles a (verdictTaken i l b p) := by
  dsimp only [verdictTaken]
  repeat' split
  all_goals
    try dsimp only
    repeat'
      first
      | with_reducible assumption | with_reducible apply settles_reexamineNeeds
      | with_reducible apply settles_selectLot | with_reducible apply settles_rejectLot
      | with_reducible apply settles_clearLot | with_reducible apply settles_updLot
      | exact fun _ => ⟨rfl, rfl⟩

/-! ## Cells (chapter 7) -/

theorem settles_arbiterIfResized (b : Books) (c : CellId) (old : CellRec) (h : Settles a p) :
    Settles a (arbiterIfResized b c old p) := by
  dsimp only [arbiterIfResized]
  repeat' split
  all_goals
    try dsimp only
    repeat'
      first
      | with_reducible assumption | with_reducible apply settles_examineArbiter

theorem settles_arbiterIfMoved (b : Books) (c : CellId) (old : CellState) (h : Settles a p) :
    Settles a (arbiterIfMoved b c old p) := by
  dsimp only [arbiterIfMoved]
  repeat' split
  all_goals
    try dsimp only
    repeat'
      first
      | with_reducible assumption | with_reducible apply settles_examineArbiter

theorem settles_capacityCompared (b : Books) (i : CellItems) (c : CellId) (h : Settles a p) :
    Settles a (capacityCompared b i c p) := by
  dsimp only [capacityCompared]
  repeat' split
  all_goals
    try dsimp only
    repeat'
      first
      | with_reducible assumption | with_reducible apply settles_notify

theorem settles_harvestTold (c : CellId) (b : Books) (h : Settles a p) : Settles a (harvestTold c b p) := by
  dsimp only [harvestTold]
  repeat' split
  all_goals
    try dsimp only
    repeat'
      first
      | with_reducible assumption | with_reducible apply settles_examineArbiter
      | with_reducible apply settles_setCellState | with_reducible apply settles_updCell
      | exact fun _ => rfl

theorem settles_readingChecked (c : CellId) (conc : Nat) (b : Books) (h : Settles a p) :
    Settles a (readingChecked c conc b p) := by
  dsimp only [readingChecked]
  repeat' split
  all_goals
    try dsimp only
    repeat'
      first
      | with_reducible assumption | with_reducible apply settles_arbiterIfMoved
      | with_reducible apply settles_platingChecks

theorem settles_runLimitExpires (b : Books) (c : CellId) (h : Settles a p) :
    Settles a (runLimitExpires b c p) := by
  dsimp only [runLimitExpires]
  repeat' split
  all_goals
    try dsimp only
    repeat'
      first
      | with_reducible assumption | with_reducible apply settles_examineArbiter
      | with_reducible apply settles_beginDrain | with_reducible apply settles_enterDraining
      | with_reducible apply settles_notify

theorem reaches_cellFaultActive (b : Books) (c : CellId) (h : Reaches a p) :
    Reaches a (cellFaultActive b c p) := by
  dsimp only [cellFaultActive]
  repeat'
    first
    | with_reducible assumption | with_reducible apply reaches_raiseOrReport

theorem reaches_cellFaultsFound (b : Books) (h : Reaches a p) : Reaches a (cellFaultsFound b p) := by
  refine reaches_foldl _ (fun q c k => ?_) _ h
  split
  · exact reaches_cellFaultActive b c k
  · exact k

/-! ## Clock, windows and probes (chapter 8) -/

theorem settles_windowOpens (b : Books) (r : GateReason) (h : Settles a p) : Settles a (windowOpens b r p) := by
  dsimp only [windowOpens]
  repeat'
    first
    | with_reducible assumption | with_reducible apply settles_selectLot
    | with_reducible apply settles_recomputeGate

theorem settles_windowEnds (b : Books) (h : Settles a p) : Settles a (windowEnds b p) := by
  dsimp only [windowEnds]
  repeat'
    first
    | with_reducible assumption | with_reducible apply settles_cutDischarge
    | with_reducible apply settles_recomputeGate

theorem settles_compareWindows (b : Books) (was : Bool) (h : Settles a p) :
    Settles a (compareWindows b was p) := by
  dsimp only [compareWindows]
  repeat' split
  all_goals
    try dsimp only
    repeat'
      first
      | with_reducible assumption | with_reducible apply settles_windowEnds
      | with_reducible apply settles_windowOpens

theorem reaches_raiseDischarge (b : Books) (t : FaultType) (h : Reaches a p) :
    Reaches a (raiseDischarge b t p) := by
  dsimp only [raiseDischarge]
  repeat' split
  all_goals
    try dsimp only
    repeat'
      first
      | with_reducible assumption | with_reducible apply reaches_raiseOrReport

theorem reaches_immediate (b : Books) (t : FaultType) (bad : Bool) (timer : Option Nat) (h : Reaches a p) :
    Reaches a (immediate b t bad timer p) := by
  dsimp only [immediate]
  repeat' split
  all_goals
    try dsimp only
    repeat'
      first
      | with_reducible assumption | with_reducible apply reaches_raiseDischarge

theorem settles_selectIfNew (b : Books) (old : Option Nat) (h : Settles a p) :
    Settles a (selectIfNew b old p) := by
  dsimp only [selectIfNew]
  repeat' split
  all_goals
    try dsimp only
    repeat'
      first
      | with_reducible assumption | with_reducible apply settles_selectLot

/-! ## RELEASE and the AUTO hold (chapter 10) -/

theorem settles_blocksOperating (b : Books) (h : Settles a p) : Settles a (blocksOperating b p) := by
  dsimp only [blocksOperating]
  repeat'
    first
    | with_reducible assumption | with_reducible apply settles_examineArbiter
    | with_reducible apply settles_settleCells | with_reducible apply settles_seekDrains
    | with_reducible apply settles_reexamineNeeds | with_reducible apply settles_selectLot
    | with_reducible apply settles_recomputeGate

theorem reaches_autoHoldExpires (b : Books) (depth : Nat) (h : Reaches a p) :
    Reaches a (autoHoldExpires b depth p) := by
  have k : Reaches a { p with flt := { p.flt with
      stack := p.flt.stack.modify (depth - 1) (fun x => { x with holdLeft := some 0 }) } } := by
    refine h.settle (settles_frames _ ?_ (.refl _))
    apply List.ext_getElem <;> simp [List.getElem_modify]
    intro i _
    split <;> (intros; rfl)
  dsimp only [autoHoldExpires]
  split
  · exact h
  · split
    · split
      · exact reaches_popFrame b .auto k
      · exact k
    · exact h

/-! ## Mode Control (chapter 11) -/

theorem settles_blocksEnter (b : Books) (h : Settles a p) : Settles a (blocksEnter b p) := by
  dsimp only [blocksEnter]
  repeat'
    first
    | with_reducible assumption | with_reducible apply settles_reuseEvaluation
    | with_reducible apply settles_examineArbiter | with_reducible apply settles_settleCells
    | with_reducible apply settles_seekDrains | with_reducible apply settles_reexamineNeeds
    | with_reducible apply settles_selectLot | with_reducible apply settles_recomputeGate

theorem settles_restartLot (l : Lot) (h : Settles a p) : Settles a (restartLot l p) := by
  unfold restartLot
  split
  · exact settles_clearLot _ _ (settles_updLot _ _ (fun _ => ⟨rfl, rfl⟩) h)
  · exact h

theorem reaches_restartRaises (b : Books) (h : Reaches a p) : Reaches a (restartRaises b p) := by
  dsimp only [restartRaises]
  repeat'
    first
    | with_reducible assumption | with_reducible apply reaches_cellFaultsFound
    | with_reducible apply reaches_evaluateAll

end Sys2Proof.Machine
end

