-- ==== Sys2Proof/Tests/Slice0.lean ====
section
/-! SUPPORT. Tests: ill-formed commands, the byte codes, small steps, and for every statement with hypotheses a
concrete state and operands that meet them, clause by clause (`witness_<statement>`). -/

namespace Sys2Proof.Tests

-- One theorem at a time: a `decide` waits for every theorem before it.
set_option Elab.async false

open Sys2Proof.Machine

/-! ## Small plants -/

/-- A plant in a mode, with the part changed by `f`. -/
def plant (m : Mode) (f : Part → Part) (b : Books) : State :=
  ⟨b, f { Part.reset with ctl := { Part.reset.ctl with mode := m } }, []⟩

/-- A movement. -/
def move (n : Nat) (k : MoveKind) (from_ to_ : Port) (ph : Phase) : Movement where
  number := n
  kind := k
  source := from_
  dest := to_
  requested := 400
  movedLitres := 0
  movedMass := 0
  phase := ph
  started := none
  lastProgress := none
  lot := none
  travel := 8
  slug := none
  travelLeft := 8
  quiet := 0
  timeoutLeft := none

/-- The tag of line 1, WASH, 1, and its three bytes. -/
def tagA : Tag := ⟨0, .wash, 0⟩
def rawA : RawTag := ⟨1, 0, 1⟩

/-- A slug of unit 1 into V8. -/
def slugA (ph : Phase) : Movement :=
  { move 1 .slug (.sumpUnit 0) (.vesselInlet 7) ph with
    slug := some ⟨0, tagA, .green, 30, some 100⟩, timeoutLeft := some 900 }

/-- A return out of V3 into FEED. -/
def returnA (ph : Phase) : Movement := { move 2 .ret (.vesselOutlet 2) (.vesselInlet 0) ph with quiet := 121 }

/-- A discharge of lot 1 in V3. -/
def dischargeA : Movement := { move 3 .discharge (.vesselOutlet 2) .outfall .running with lot := some 1 }

/-- Lot 1 in V3 in a state. -/
def lotA (st : LotState) : Lot :=
  { number := 1, vessel := 2, state := st, opened := none, timer := some 60, sampleNumber := 1
    measuredConc := some 20, measuredPh := some 70 }

/-- A frame of a type and subject. -/
def frameA (t : FaultType) (x : Subject) (c : Condition) : Frame :=
  { ftype := t, time := none, subject := x, interrupted := none, actions := {}, policy := .auto, hold := some 60
    condition := c, clearedTime := none, holdLeft := some 60 }

/-- V1 FEED, V2 REUSE, V3 HOLD, V8 QUARANTINE, all adopted with open inlets. -/
def roles (p : Part) : Part :=
  let set (v : VesselId) (r : Role) (k : Nat) (q : Part) := updVessel v (fun x =>
    { x with role := r, capacity := some k, inlet := .opened, adopted := true, lastLevel := some 500 }) q
  set 7 .quarantine 12000 (set 2 .hold 10000 (set 1 .reuse 16000 (set 0 .feed 20000 p)))

/-- Clock, window, limits and probes as for a discharge; a unit enabled; every response loaded. -/
def equipped (p : Part) : Part :=
  let q := roles p
  { q with
    gate := { q.gate with
      clock := some 36000, w1 := ⟨480, 1020⟩, silver := some 20, ph := some 70
      limits := { massAllowance := some 900000, volumeAllowance := some 90000, concLimit := some 300
                  phBand := some (60, 90) } }
    fld := { q.fld with units := updAt q.fld.units 0 (fun r => { r with enabled := true }) }
    flt := { q.flt with table := q.flt.table.map (fun r => { r with loaded := true }) } }

def withMoves (l : List Movement) (p : Part) : Part := { p with mov := { p.mov with entries := l } }
def withLots (l : List Lot) (p : Part) : Part := { p with lot := { p.lot with lots := l, nextLot := 2 } }
def withFrames (l : List Frame) (p : Part) : Part := { p with flt := { p.flt with stack := l } }
def withTurn (t : FieldMessage) (p : Part) : Part := { p with fld := { p.fld with turn := some ⟨0, t⟩ } }
def withSlug (p : Part) : Part := updUnit 0 (fun r => { r with slug := some 1 }) p

/-- Books with `k` litres at 20 mg/L in every vessel. -/
def filled (k : Nat) : Books := { Books.reset with vessels := Vector.replicate 8 ⟨k, k * 20⟩ }

/-- Books with a cell liquor of 500 L at 100 mg/L in C1, and a cathode of 50 mg. -/
def liquored : Books :=
  { filled 1000 with liquors := updAt Books.reset.liquors 0 (fun _ => ⟨500, 50000⟩)
                     cathodes := updAt Books.reset.cathodes 0 (fun _ => 50) }

def commissioning : State := plant .commissioning equipped (filled 1000)
def operating : State := plant .operating equipped (filled 1000)
def lockedDown : State := plant .lockdown equipped (filled 1000)

/-- The outcome of a step, where it is a next state. -/
def after (c : Instr) (s : State) : Option State :=
  match step { s with pending := [c] } with
  | .next t => some t
  | _ => none

/-! ## WellFormed: a term that each check refuses -/

theorem test_illFormed_names : [Instr.setVessel 0 256 {}, .readVessel 0 256, .cellOn 0 256, .setUnit 0 256 none none,
    .readUnit 0 256 false, .setPattern 0 256 ⟨Vector.replicate 24 .ignore, .andMode, false⟩, .resume 0 256,
    .setFaultResponse 0 256 ⟨{}, .manual, 60⟩, .sealLot 0 65536, .readLot 0 65536 false, .harvestDone 0 256 0,
    .harvestDone 0 1 4294967296, .setCell 0 256 {}, .setClock 0 16777216, .setAging 0 256 .route,
    .removeSource 0 ⟨256, 0, 0⟩, .removeSource 0 ⟨0, 256, 0⟩, .removeSource 0 ⟨0, 0, 256⟩,
    .setSource 0 ⟨0, 0, 0⟩ ⟨256, none, false, false⟩].all (fun i => !wellFormed i) = true := by decide

theorem test_illFormed_items : [Instr.setVessel 0 1 { capacity := some 65536 }, .setVessel 0 1 { tolerance := some 65536 },
    .setVessel 0 1 { travel := some 256 }, .setVessel 0 1 { sealVolume := some 65536 },
    .setMovementTimes 0 { stall := some 65536 }, .setMovementTimes 0 { cellTravel := some 256 },
    .setMovementTimes 0 { outfallTravel := some 256 }, .setLotTimes 0 { fillAge := some 16777216 },
    .setLotTimes 0 { settle := some 65536 }, .setLotTimes 0 { sampleDuration := some 65536 },
    .setLotTimes 0 { sampleVolume := some 256 }, .setLotTimes 0 { verdict := some 16777216 },
    .setRouting 0 { amber := some 65536 }, .setRouting 0 { red := some 65536 },
    .setRouting 0 { silenceLimit := some 256 }, .setRouting 0 { transferTimeout := some 65536 },
    .setFaultResponse 0 1 ⟨{}, .manual, 65536⟩].all (fun i => !wellFormed i) = true := by decide

theorem test_illFormed_moreItems : [Instr.setRegulation 0 { reuseHigh := some 256 }, .setRegulation 0 { reuseLow := some 256 },
    .setRegulation 0 { reserve := some 65536 }, .setRegulation 0 { headroom := some 65536 },
    .setRegulation 0 { feedHigh := some 256 }, .setRegulation 0 { feedLow := some 256 },
    .setCell 0 1 { chargeVolume := some 65536 }, .setCell 0 1 { endConc := some 65536 },
    .setCell 0 1 { runLimit := some 16777216 }, .setCell 0 1 { cathodeCapacity := some 4294967296 },
    .setLimits 0 { massAllowance := some 4294967296 }, .setLimits 0 { volumeAllowance := some 16777216 },
    .setLimits 0 { concLimit := some 65536 }, .setLimits 0 { phBand := some (256, 0) },
    .setLimits 0 { phBand := some (0, 256) }, .setLimits 0 { floor := some 4294967296 },
    .setLimits 0 { persistence := some 256 }, .setLimits 0 { dayBoundary := some 65536 },
    .setWindows 0 (some ⟨65536, 0⟩) none, .setWindows 0 none (some ⟨0, 65536⟩),
    .verdict 0 ⟨65536, 1, 0, 70, .pass⟩, .verdict 0 ⟨1, 256, 0, 70, .pass⟩, .verdict 0 ⟨1, 1, 65536, 70, .pass⟩,
    .verdict 0 ⟨1, 1, 0, 256, .pass⟩].all (fun i => !wellFormed i) = true := by decide

theorem test_illFormed_events : [Instr.unitOffer ⟨⟨256, 0, 0⟩, 1, 1, 1⟩, .unitOffer ⟨rawA, 65536, 1, 1⟩,
    .unitOffer ⟨rawA, 1, 65536, 1⟩, .unitOffer ⟨rawA, 1, 1, 256⟩, .unitDone ⟨256, 0, 0⟩ 1 none, .unitDone rawA 65536 none,
    .unitDone rawA 1 (some 4294967296), .transferTimeout 0, .travelElapsed 65536, .stallTimeout 0, .fillAgeExpiry 0,
    .settleExpiry 65536, .sampleEnd 0, .verdictExpiry 0, .autoHoldExpiry 0, .autoHoldExpiry 7].all
      (fun i => !wellFormed i) = true := by decide

theorem test_wellFormed : [Instr.identify 0, .setVessel 255 255 { capacity := some 65535 }, .unitOffer ⟨rawA, 65535, 65535, 255⟩,
    .unitDone rawA 65535 (some 4294967295), .transferTimeout 65535, .autoHoldExpiry 6, .clockTick,
    .supervisoryFrameAccepted []].all wellFormed = true := by decide

/-! ## The byte codes (R192, R199, R200) -/

/-- The check value of the CRC that R192 names. -/
theorem test_crc : crc16 [0x31, 0x32, 0x33, 0x34, 0x35, 0x36, 0x37, 0x38, 0x39] = 0x29B1#16 := by decide +kernel

/-- A LOCKDOWN request numbered 7, byte by byte: SYNC, LENGTH 2, KIND 0x35, number, CHECK. -/
theorem test_frame : (requestFrame 7 .lockdown).take 5 = [0xC3#8, 0x00#8, 0x02#8, 0x35#8, 0x07#8] ∧
    (requestFrame 7 .lockdown).length = 7 := by decide +kernel

/-- SET CLOCK to 36 000 s carries three bytes, most significant first. -/
theorem test_body : requestBody (.setClock 36000) = [0x00#8, 0x8C#8, 0xA0#8] := by decide +kernel

/-- An OFFER of 400 L at 30 mg/L and pH 7.0 from unit 4: address 0x84, KIND 0x12, LENGTH 8. -/
theorem test_offer : (answerBytes 3 (.offer ⟨rawA, 400, 30, 70⟩)).take 12 =
    [0x5A#8, 0x84#8, 0x12#8, 0x08#8, 0x01#8, 0x00#8, 0x01#8, 0x01#8, 0x90#8, 0x00#8, 0x1E#8, 0x46#8] := by
  decide +kernel

/-- A DONE of 400 L with no mass is read back from its polled unit, and not from another. -/
theorem test_done : parseAnswer 3 (answerBytes 3 (.done rawA 400 none)) = some (.done rawA 400 none) ∧
    parseAnswer 4 (answerBytes 3 (.done rawA 400 none)) = none := by decide +kernel

/-- Requests of every layout are read back. -/
theorem test_roundTrip : [Request.identify, .setVessel 3 { role := some .hold, capacity := some 65535, sealVolume := some 9 },
    .setVessel 3 { inlet := some .opened, clearCount := true }, .readMovements true, .setLotTimes { verdict := some 86400 },
    .setSource rawA ⟨31, some .red, true, false⟩, .setSource rawA ⟨1, none, false, true⟩, .setAging 240 .refuse,
    .setUnit 31 (some false) none, .readUnit 4 true, .setRouting { red := some 800 }, .setRegulation { feedLow := some 1 },
    .setCell 4 { runLimit := some 86400, drainPref := some .quarantineOnly }, .harvestDone 1 1000000000,
    .setWindows (some ⟨480, 1020⟩) none, .setLimits { phBand := some (60, 90), floorEnable := some true }, .setClock 86399,
    .setPattern 1 ⟨(Vector.replicate 24 .ignore).set 0 .rise, .firstMode, true⟩, .verdict ⟨9, 2, 140, 70, .fail⟩,
    .setFaultResponse 16 ⟨{ lockdown := true }, .auto, 3600⟩,
    .manualOutput ⟨(Vector.replicate 51 none).set 50 (some true), false⟩, .readLot 8 true, .resume 6].all
      (fun r => requestFits r && decide (parseRequest (requestKind r) (requestBody r) = .taken r)) = true := by
  decide +kernel

/-- A STATUS request arrives as bytes and its reply is sent at once. -/
theorem test_receive : ((after (.supervisoryFrameAccepted (requestFrame 9 .status)) State.reset).map
    (fun t => t.part.link.sent.map (fun f => match f with | .reply p => (p.number, p.kind) | .notice _ => (0, 0))))
      = some [(9#8, 0x02#8)] := by decide +kernel

/-- No row of the table gives bits, so no word spells a command (log 45). -/
theorem test_noWord : decodeTableWord 8 0 = none ∧ State.reset.withFetchWord 8 0 = State.reset := by decide

/-! ## Steps -/

/-- From reset the self-test ends without fault: COMMISSIONING with START queued or sent. -/
theorem test_start : ((after (.selfTestEnd {} (Vector.replicate 24 true) (Vector.replicate 4 false)) State.reset).map
    (fun t => (t.part.ctl.mode, t.part.pat.inputs.get 0, t.part.link.sent.length))) = some (.commissioning, true, 1) := by
  decide +kernel

/-- A slug is offered, routed to REUSE, and its grant is number 1. -/
theorem test_offerRouted : ((after (.unitOffer ⟨rawA, 400, 30, 70⟩)
    { operating with part := withTurn .poll operating.part }).map (fun t => t.part.fld.sent)) =
      some (some (0, .decision (.routed 1 400 1))) := by decide +kernel

/-- A quantum of a return: 10 L at the source's concentration move from V3 to FEED. -/
theorem test_quantum : ((after (.meterQuantum (.vesselOutlet 2))
    { operating with part := withMoves [returnA .running] operating.part }).map
      (fun t => (t.books.vessel 2, t.books.vessel 0))) = some (⟨990, 19800⟩, ⟨1010, 20200⟩) := by decide +kernel

/-- LOCKDOWN from OPERATING, and RELEASE back. -/
theorem test_lockdown : (((after (.lockdown 1) operating).bind (after (.release 2))).map
    (fun t => t.part.ctl.mode)) = some .operating := by decide +kernel

/-- An adoption books the reading through the corrections. -/
theorem test_adopt : ((after (.adoptLevel 1 3) commissioning).map (fun t => (t.books.vessel 2, t.books.acc.volumeCorrections)))
    = some (⟨500, 20000⟩, -500) := by decide +kernel


/-! ## Witnesses: states and operands that meet the hypotheses of each statement, clause by clause

A statement without hypotheses, or whose clauses are all equations, has none here. -/

/-- Books after an admission of 400 L with 12 g into V3. -/
def admitted : Books := Books.reset.book (.admission 2 400 12000)

/-- A held RESET line. -/
def held (p : Part) : Part := { p with ctl := { p.ctl with resetHeld := true } }

/-- The RESTART line seen active. -/
def restartActive (p : Part) : Part := { p with ctl := { p.ctl with restartLine := true } }

/-- Four waiting replies. -/
def fullBuffer (p : Part) : Part :=
  { p with link := { p.link with buffer := List.replicate 4 ⟨0, 1, { status := .ok }⟩ } }

/-- A frame in transmission. -/
def sending (holds : Bool) (p : Part) : Part :=
  { p with link := { p.link with tx := some ⟨.reply ⟨0, 1, { status := .ok }⟩, holds⟩ } }

/-- `k` notices wait. -/
def notices (k : Nat) (p : Part) : Part :=
  { p with link := { p.link with queue := List.replicate k ⟨false, none, .released⟩ } }

theorem witness_StepRunsTheFrontCommand : State.reset.pending = [] := by decide

theorem witness_invariants : admitted.balanced ∧ admitted.emptyHoldersClean ∧ operating.part.bounded ∧
    operating.part.mov.distinct ∧ (withMoves [slugA .running] operating.part).mov.slugsFromSumps ∧
    operating.part.src.inTagOrder ∧ operating.part.flt.leaving = {} ∧ operating.part.mov.ending = none ∧
    (after .clockTick ⟨admitted, operating.part, []⟩).isSome = true := by decide +kernel

theorem witness_ProportionalMassRule : (0 < (Holding.mk 3 10).volume ∧ ((Holding.mk 3 10).take 3).litres = 3) ∧
    (Holding.mk 0 0).volume = 0 ∧ (0 : VesselId) ≠ 1 := by decide

theorem witness_ResetAndRestartLines : (held State.reset.part).ctl.resetHeld = true ∧
    State.reset.part.ctl.mode.inService = false ∧ actsWhileHeld .clockTick = false ∧
    (restartActive operating.part).ctl.restartLine = true ∧
    ((held operating.part).ctl.restartLine = false ∧ (held operating.part).ctl.resetHeld = true) ∧
    (State.reset.part.ctl.restartLine = false ∧ State.reset.part.ctl.mode = .starting) := by decide +kernel

theorem witness_SelfTestEndEntersItsMode : State.reset.live ∧ State.reset.part.ctl.mode = .starting ∧
    ({ memory := true } : SelfTest) ≠ {} ∧ (∀ c : CellId, (Vector.replicate 4 false).get c = false) ∧
    State.reset.part.flt.stack = [] ∧ ((Vector.replicate 4 true).get (3 : CellId)) = true := by decide +kernel

/-- A RESTART taken: its OK, the last of the buffer, is in transmission. -/
def restarting (p : Part) : Part :=
  let q := sending true p
  { q with link := { q.link with buffer := [⟨0, 0x03, { status := .ok }⟩], restarting := true } }

theorem witness_RestartOutsideService : (State.reset.hasPlace ∧ State.reset.part.ctl.mode = .starting) ∧
    ((plant .failed id Books.reset).hasPlace ∧ (plant .failed id Books.reset).part.ctl.mode = .failed) ∧
    (let p := (plant .failed restarting Books.reset).part
     p.ctl.resetHeld = false ∧ p.ctl.mode = .failed ∧ p.link.restarting = true ∧
      p.link.tx.map Transmission.holdsPlace = some true ∧ p.link.buffer = [⟨0, 0x03, { status := .ok }⟩]) ∧
    (plant .failed id Books.reset).part.ctl.restartLine = false := by decide +kernel

/-- A RESTART is taken at once and made at the end of its OK; a request behind it is not answered. -/
theorem test_restart : ((after (.restart 1) operating).bind (after (.status 2))).map
    (fun t => (t.part.ctl.mode, t.part.link.restarting, t.part.link.behind)) = some (.operating, true, 1) ∧
    (((after (.restart 1) operating).bind (after (.status 2))).bind (after .transmitComplete)).map
      (fun t => (t.part.ctl.mode, t.part.link.buffer, t.part.link.behind)) = some (.commissioning, [], 0) := by
  decide +kernel

/-- A plant with a READY slug, and one with a slug under way. -/
def slugReady : State := { operating with part := withMoves [slugA .ready] operating.part }
def slugRunning : State := { operating with part := withSlug (withMoves [slugA .running] operating.part) }

/-- Two slugs under way, one READY, and a lot SUSPENDED. -/
def restartPart : Part :=
  { withMoves [slugA .running, { slugA .stopping with number := 5, source := .sumpUnit 1 },
      { slugA .ready with number := 6, source := .sumpUnit 2 }]
    (withLots [{ lotA .suspended with clearanceNo := some 1 }] commissioning.part) with link := {} }

theorem witness_WarmRestart : (slugReady.hasPlace ∧ slugReady.part.ctl.mode ≠ .starting) ∧
    (let s : State := { operating with part := restarting operating.part }
     s.working ∧ s.part.link.restarting = true ∧ s.part.link.tx.map Transmission.holdsPlace = some true ∧
      s.part.link.buffer = [⟨0, 0x03, { status := .ok }⟩] ∧ s.part.ctl.restartLine = false) ∧
    operating.part.ctl.mode.inService = true ∧
    (restartPart.ctl.mode = .commissioning ∧ restartPart.mov.distinct ∧ restartPart.mov.slugsFromSumps) ∧
    ((restartPart.lot.lots.map Lot.number).Nodup ∧
      (∀ l ∈ restartPart.lot.lots, l.state = .suspended → l.clearanceNo.isSome = true)) ∧
    (commissioning.part.ctl.mode = .commissioning ∧ commissioning.part.mov.entries = [] ∧
      commissioning.part.flt.stack = []) ∧
    (cellRec (updCell 0 (fun r => { r with faultInput := true }) commissioning.part) 0).faultInput = true ∧
    (restartRaises commissioning.books
      (updCell 0 (fun r => { r with faultInput := true }) commissioning.part)).flt.stack.length < 6 ∧
    ((∀ i : CellId, (cellRec commissioning.part i).faultInput = false) ∧
      (∀ k : PatternId, (patternRec commissioning.part k).enabled = true →
        patternMet commissioning.part.pat.inputs none (patternRec commissioning.part k) = false)) := by decide +kernel

/-- Several slugs at a warm restart: 400 L twice by level difference into V8, and the lot CLEARED, held, out of the
queue. -/
theorem test_warmRestart : (let q := restartCuts ⟨filled 1000, restartPart⟩
      let r := restartBlocks q.books q.part
      ((q.books.vessel 7).volume, q.books.acc.admittedVolume, r.lot.lots.map (fun l => (l.state, l.held)), r.gate.queue)) =
    (1800, 800, [(.cleared, true)], []) := by decide +kernel

theorem witness_OperatingAndCommissioning : (operating.hasPlace ∧ operating.part.ctl.mode = .operating ∧
      operating.part.mov.distinct) ∧
    (lockedDown.hasPlace ∧ lockedDown.part.ctl.mode = .lockdown) ∧
    (commissioning.hasPlace ∧ commissioning.part.ctl.mode = .commissioning ∧
      (missingItems commissioning.part).isEmpty = true) ∧
    (missingItems (plant .commissioning id Books.reset).part).isEmpty = false := by decide +kernel

theorem witness_RequestsThatAreNotTaken : (State.reset.hasPlace ∧ State.reset.part.ctl.mode = .starting ∧
      takenInService .readGate = true) ∧
    (({ operating with part := fullBuffer operating.part } : State).live ∧
      4 ≤ (fullBuffer operating.part).link.buffer.length + (fullBuffer operating.part).link.behind) ∧
    (({ operating with part := restarting operating.part } : State).live ∧
      (restarting operating.part).link.restarting = true ∧
      (restarting operating.part).link.buffer.length + (restarting operating.part).link.behind < 4) := by decide +kernel

/-- A MANUAL OUTPUT that masks every output. -/
def allOn : ManualItems := ⟨Vector.replicate 51 (some true), false⟩

theorem witness_ManualOutput : operating.part.ctl.mode ≠ .commissioning ∧
    (∃ o, (allOn.sets.get o).isSome = true ∧
      (drivenValue (withMoves [returnA .running] commissioning.part) (outputAt o)).isSome = true) ∧
    (∀ o, (allOn.sets.get o).isSome = true → drivenValue commissioning.part (outputAt o) = none) := by decide +kernel

/-- The order of precedence at one output each: the transfer pump of V3 (18) driven, V1's inlet (0) forced, V1's pump
(16) manual, the sample valve of V3 (26) of its owner, and rest in STARTING. -/
theorem witness_ManualOutput_outputs :
    (drivenValue (withMoves [returnA .running] operating.part) (outputAt 18) = some true ∧
      drivenValue (withMoves [returnA .ready] operating.part) (outputAt 18) = some false) ∧
    (let p := withFrames [{ frameA .flowStall (.movement 1) .cleared with actions := { stopIntake := true } }] operating.part
     drivenValue p (outputAt 0) = none ∧ forcedOff (actionsInForce p) (outputAt 0) = true ∧
      forcedOff (actionsInForce p) (outputAt 16) = false) ∧
    (drivenValue operating.part (outputAt 16) = none ∧
      (Vector.replicate 51 (some true)).get (16 : OutputId) = some true ∧ operating.part.ctl.manual.get 16 = none) ∧
    (ownerValue (withLots [lotA .sampling] operating.part) (outputAt 26) = true ∧
      ownerValue (withLots [lotA .sampling] commissioning.part) (outputAt 26) = false) ∧
    (operating.part.ctl.resetHeld = false ∧ operating.part.ctl.mode.inService = true ∧
      State.reset.part.ctl.mode.inService = false) ∧
    portValve (returnA .running).source = some (outputAt 10) ∧ portPump (returnA .running).source = some (outputAt 18) ∧
    lotOf 2 (withLots [lotA .sampling] operating.part) = some (lotA .sampling) := by decide +kernel

theorem witness_TransmitterAndNoticeQueue : (commissioning.live ∧ commissioning.part.ctl.resetHeld = false ∧
      commissioning.part.link.tx = none ∧ commissioning.part.link.restarting = false) ∧
    (fullBuffer (restarting commissioning.part)).link.buffer.tail ≠ [] ∧
    (sending true commissioning.part).link.tx.isSome = true ∧
    (notices 31 commissioning.part).link.queue.length < 32 ∧ 32 ≤ (notices 32 commissioning.part).link.queue.length ∧
    (notices 1 commissioning.part).link.buffer = [] ∧
    (fullBuffer commissioning.part).link.buffer = ⟨0, 1, { status := .ok }⟩ :: List.replicate 3 ⟨0, 1, { status := .ok }⟩ :=
  by decide +kernel

theorem witness_ReceiverAndMisshapenFrames : (commissioning.live ∧ commissioning.part.link.rx = []) ∧
    (∀ b ∈ [0x00#8, 0x5A#8], b ≠ 0xC3#8) ∧
    ((0x00#8).toNat * 256 + (0x02#8).toNat = ([] : List Byte).length + 2 ∧
      (∀ b ∈ 0x00#8 :: 0x02#8 :: 0x35#8 :: 0x07#8 :: [] ++ [0x00#8, 0x00#8], b ≠ 0xC3#8) ∧
      (0x00#8).toNat * 256 + (0x00#8).toNat ≠ (crc16 (0x00#8 :: 0x02#8 :: 0x35#8 :: 0x07#8 :: [])).toNat) ∧
    (((0x00#8).toNat * 256 + (0x01#8).toNat < 2 ∧ 1024 < (0x04#8).toNat * 256 + (0x01#8).toNat) ∧
      (0x04#8).toNat * 256 + (0x00#8).toNat = (List.replicate 1024 0x00#8).length ∧
      (0x00#8).toNat * 256 + (0x02#8).toNat = [0x35#8, 0x07#8].length ∧
      (0x00#8).toNat * 256 + (0x00#8).toNat ≠ (crc16 [0x00#8, 0x02#8, 0x35#8, 0x07#8]).toNat) ∧
    commissioning.hasPlace ∧ 0x36 < (0x37#8).toNat ∧
    (∃ l, layoutOf (0x29#8).toNat = some l ∧ ([] : List Byte).length ≠ l.length []) := by
  refine ⟨?_, ?_, ?_, ?_, ?_, ?_, ⟨_, rfl, ?_⟩⟩ <;> decide +kernel

theorem witness_roundTrips : requestFits (.setClock 86399) = true ∧ offerFits ⟨rawA, 65535, 65535, 255⟩ = true ∧
    (tagFits rawA && fits 2 65535 && optFits 4 (some 4294967295)) = true ∧
    (withTurn .poll operating.part).fld.turn = some ⟨0, .poll⟩ := by decide

theorem witness_SetVesselAppliesTogether : commissioning.serves ∧ vesselOf 1 = some 0 ∧ vesselOf 8 = some 7 ∧
    vesselOf 0 = none ∧ vesselOf 9 = none ∧
    vesselItemsValid { travel := some 121 } (vesselRec commissioning.part 0) = false ∧
    (vesselItemsValid { capacity := some 5000 } (vesselRec commissioning.part 0) = true ∧
      changesPlan { capacity := some 5000 } (vesselRec commissioning.part 0) = true ∧
      planFree commissioning.books commissioning.part 0 = false ∧
      planFree Books.reset commissioning.part 0 = true) ∧
    changesPlan { inlet := some .blocked } (vesselRec commissioning.part 0) = false := by decide +kernel

/-- The bounds of a seal volume, and a vessel that takes UNUSED with an inlet state given (log 64). -/
theorem test_setVesselItems : let hold : VesselRec := { vesselRec commissioning.part 2 with sealVolume := some 9000 }
    [some 1000, some 999, some 10000, some 10001].map (fun k => vesselItemsValid { sealVolume := k } hold) =
      [true, false, true, false] ∧
    vesselItemsValid { role := some .feed, sealVolume := some 1000 } hold = false ∧
    (applyVessel { role := some .unused, inlet := some .opened } hold).inlet = .disabled ∧
    (applyVessel { capacity := some 5001 } hold).sealVolume = some 4500 := by decide +kernel

/-- A regulation block that is set stays at a change of capacity alone, which turns the switch OFF, and clears as the
vessel leaves the role. -/
theorem test_blockAtSetVessel : (let s : State := { commissioning with
        books := Books.reset
        part := updVessel 1 (fun r => { r with regBlock := true })
          { commissioning.part with reg := { commissioning.part.reg with switchOn := true } } }
      let seen (i : VesselItems) := (after (.setVessel 0 2 i) s).map (fun t =>
        ((vesselRec t.part 1).regBlock, t.part.reg.switchOn))
      [seen { capacity := some 5001 }, seen { role := some .hold }, seen { travel := some 9 }]) =
    [some (true, false), some (false, false), some (true, true)] := by decide +kernel

theorem witness_AdoptLevelBooksTheReading : (commissioning.hasPlace ∧ adoptMode 3 operating.part = false ∧
      adoptMode 3 commissioning.part = true ∧ adoptMode 9 commissioning.part = true ∧ vesselOf 9 = none) ∧
    (vesselRec commissioning.part 3).role = .unused ∧
    ((vesselRec commissioning.part 2).role ≠ .unused ∧ (vesselRec commissioning.part 2).lastLevel = some 500 ∧
      (∀ m ∈ commissioning.part.mov.entries, m.touches commissioning.part 2 = false)) ∧
    (vesselRec (updVessel 2 (fun r => { r with lastLevel := none }) commissioning.part) 2).lastLevel = none ∧
    (∃ m ∈ (withMoves [returnA .running] commissioning.part).mov.entries,
      m.touches (withMoves [returnA .running] commissioning.part) 2 = true) ∧
    ((vesselRec commissioning.part 2).role = .hold ∧ lotOf 2 commissioning.part = none ∧
      0 < commissioning.part.lot.times.settle ∧
      (let p := { commissioning.part with lot := { commissioning.part.lot with times := { settle := 0 } } }
       p.lot.times.settle = 0 ∧ (vesselRec p 2).role = .hold ∧ lotOf 2 p = none)) ∧
    ((vesselRec commissioning.part 0).role ≠ .hold ∧
      (lotOf 2 (withLots [lotA .settling] commissioning.part)).isSome = true) ∧
    (let held := commissioning.part.lot.lots.map Lot.number ++ commissioning.part.lot.closed.map ClosedLot.number
     commissioning.part.lot.nextLot ∉ held ∧ held.length < 25 ∧ 1 ≤ commissioning.part.lot.nextLot ∧
      commissioning.part.lot.nextLot ≤ 65535) := by decide +kernel

theorem witness_LevelReadingIsComparedWithTheBooks : commissioning.live ∧ compared commissioning.part 3 = false ∧
    compared commissioning.part 2 = true ∧ (vesselRec commissioning.part 2).tolerance + 1000 < 1201 ∧
    ¬ ((vesselRec commissioning.part 2).tolerance + 1000 < 1200 ∨
      (vesselRec commissioning.part 2).tolerance + 1200 < 1000) ∧
    hasFrame .levelMismatch (.vessel 2)
      (withFrames [frameA .levelMismatch (.vessel 2) .present] commissioning.part) = true ∧
    hasFrame .levelMismatch (.vessel 2) commissioning.part = false ∧
    (∃ m ∈ (withMoves [returnA .running] commissioning.part).mov.entries,
      m.touches (withMoves [returnA .running] commissioning.part) 2 = true) ∧
    (∀ m ∈ commissioning.part.mov.entries, m.touches commissioning.part 2 = false) := by decide +kernel

/-- A LEARNED and a STATIC entry; the cursor on the first. -/
def learnedA : SourceEntry := ⟨tagA, 0, .learned true, some .green, none, 0, 0, 0⟩
def staticB : SourceEntry := ⟨⟨1, .fix, 0⟩, 1, .static (some .red) true false, none, none, 0, 0, 0⟩
def sourced (p : Part) : Part :=
  { p with src := { p.src with entries := [learnedA, staticB], cursor := some tagA } }

theorem witness_Reads : (commissioning.serves ∧ vesselOf 8 = some 7 ∧ cellOf 4 = some 3 ∧ patternOf 6 = some 5 ∧
      unitOf 31 = some 30) ∧
    (findLot 1 (withLots [lotA .filling] commissioning.part) = some (lotA .filling) ∧
      lotOf 2 (withLots [lotA .filling] commissioning.part) = some (lotA .filling)) ∧
    findLot 1 commissioning.part = none ∧
    ((sourced commissioning.part).src.entries = learnedA :: [staticB] ∧ commissioning.part.src.entries = [] ∧
      commissioning.part.src.cursor = none) ∧
    ((sourced commissioning.part).src.cursor = some tagA ∧
      (∀ x ∈ [learnedA], tagKey x.tag ≤ tagKey tagA) ∧ tagKey tagA < tagKey staticB.tag) ∧
    (∀ x ∈ (sourced commissioning.part).src.entries, tagKey x.tag ≤ tagKey ⟨1, .fix, 0⟩) := by decide +kernel

theorem witness_ReadAccountsCarriesTheSums : (commissioning.hasPlace ∧ commissioning.inService) ∧
    (State.reset.hasPlace ∧ State.reset.part.ctl.mode.inService = false) := by decide +kernel

theorem witness_SettingsAreAppliedTogether : commissioning.hasPlace ∧ commissioning.inService ∧
    operating.part.ctl.mode ≠ .commissioning ∧ (State.reset.hasPlace ∧ State.reset.part.ctl.mode.inService = false) ∧
    commissioning.part.ctl.mode = .commissioning ∧ ¬ (1 ≤ 17 ∧ 17 ≤ 16) ∧ ¬ (10 ≤ 9 ∧ 9 ≤ 3600) ∧
    (10 ≤ 3600 ∧ 3600 ≤ 3600) := by decide +kernel

/-- Asks for a start: a return out of V3, a spill out of the same port, a return out of an empty V4. -/
def askA : StartAsk := { kind := .ret, source := .vesselOutlet 2, dest := .vesselInlet 0, requested := 100 }
def askB : StartAsk := { askA with source := .vesselOutlet 1 }

theorem witness_MovementStartChecks : commissioning.part.ctl.mode.running = false ∧ operating.part.ctl.mode.running = true ∧
    portBusy (withMoves [returnA .running] operating.part) askA.source = true ∧
    portBusy operating.part askA.source = false ∧ sourceVolume (filled 0) askA.source = some 0 ∧
    (portBusy (withMoves [returnA .running] operating.part) askB.source = false ∧
      sourceVolume (filled 1) askB.source ≠ some 0 ∧
      portBusy (withMoves [returnA .running] operating.part) askB.dest = true) ∧
    portBusy operating.part askA.dest = false ∧
    12 ≤ (withMoves (List.replicate 12 dischargeA) operating.part).mov.entries.length ∧
    portBusy (withMoves (List.replicate 12 dischargeA) operating.part) askB.source = false ∧
    portBusy (withMoves (List.replicate 12 dischargeA) operating.part) askB.dest = false ∧
    operating.part.mov.entries.length < 12 := by decide +kernel

/-- A drain of C1 that asks for its own place, and a plant in whose waiting list that place stands. -/
def askC : StartAsk := { kind := .drain, source := .cellOutlet 0, dest := .vesselInlet 7, requested := 500,
                         waiter := some (.drain 0) }
def drainWaiting (p : Part) : Part := enterWaiting (.drain 0) none p

theorem witness_MovementStartChecks_waiting : askC.waiter = some (.drain 0) ∧
    (askStart liquored askC operating.part).2 = .started 1 ∧
    (askStart (filled 1000) askC operating.part).2 = .refused .sourceEmpty ∧
    ((askStart liquored askC commissioning.part).2 = .refused .mode ∧
      (drainWaiting commissioning.part).mov.waiting.any (fun w => decide (w.owner = .drain 0)) = true) ∧
    (∃ w ∈ (drainWaiting commissioning.part).mov.waiting, w.owner = .drain 0) ∧
    (let full : Movement := { returnA .running with movedLitres := 400 }
     findMove 2 (withMoves [full] operating.part) = some full ∧ full.requested ≤ full.movedLitres) ∧
    ((returnA .running).movedLitres < (returnA .running).requested) ∧
    ((withMoves [returnA .running, slugA .running] operating.part).mov.entries.filter
      (fun x => decide (sourceVolume (filled 0) x.source = some 0)) = [returnA .running]) ∧
    (∀ m ∈ (withMoves [returnA .running] operating.part).mov.entries,
      sourceVolume (filled 1) m.source ≠ some 0) := by decide +kernel

theorem witness_MovementTimes : (operating.live ∧ findMove 2 operating.part = none) ∧
    (findMove 2 (withMoves [returnA .running] operating.part) = some (returnA .running) ∧
      (returnA .running).phase ≠ .opening ∧ (returnA .running).kind ≠ .slug) ∧
    (returnA .opening).phase = .opening ∧ (slugA .opening).phase = .opening ∧ (slugA .opening).kind = .slug ∧
    (slugA .opening).slug.isSome = true ∧
    (operating.serves ∧ movementTimeRanges { stall := some 9 } = false ∧ movementTimeRanges { stall := some 600 } = true) ∧
    (operating.part.mov.distinct ∧ (∀ m ∈ operating.part.mov.entries, m.kind ≠ .slug → m.phase = .running →
      m.quiet ≤ 600)) ∧
    (120 < (returnA .running).quiet ∧ movementTimeRanges { stall := some 120 } = true) := by decide +kernel

/-- A stalled CHARGE: FEED's outlet is still occupied when the arbiter is examined at the push, and free after the end. -/
theorem test_stallKeepsPorts : (let m := move 4 .charge (.vesselOutlet 0) (.cellInlet 0) .running
      let table := operating.part.flt.table.map (fun r => { r with actions := { stopRegulation := true }, loaded := true })
      let p := withMoves [m] { operating.part with flt := { operating.part.flt with table := table } }
      let raised := raiseBeforeEnd operating.books { ftype := .flowStall, subject := .movement 4 } m p
      let ended := stallMove operating.books m p
      (raised.cel.outcome, raised.mov.entries, raised.flt.stack.map Frame.interrupted, raised.mov.ending,
        portBusy ended (.vesselOutlet 0))) =
    (some .outletBusy, [], [some (move 4 .charge (.vesselOutlet 0) (.cellInlet 0) .running)], none, false) := by
  decide +kernel

theorem witness_MeterQuantaAreBookedOrStray : operating.working ∧ meteredMove .makeup operating.part = none ∧
    (meteredMove (.vesselOutlet 2) (withMoves [returnA .running] operating.part) = some (returnA .running) ∧
      quantumBooking (returnA .running) (roleVessel .reuse operating.part) (min 10 (400 - 0)) =
        some (.vesselToVessel 2 0 10)) ∧
    findMove 2 (withMoves [returnA .running] operating.part) = some (returnA .running) ∧
    (roleVessel .reuse operating.part = some 1 ∧ 0 < (operating.books.vessel 1).volume) ∧
    roleVessel .reuse State.reset.part = none ∧ ((filled 0).vessel 1).volume = 0 := by decide +kernel

theorem witness_MeterQuantaAreBookedOrStray_told :
    (let l : Lot := lotA .filling
     let p := updVessel 2 (fun r => { r with sealVolume := some 1000 }) (withLots [l] operating.part)
     findLot 1 p = some l ∧ l.state = .filling ∧ l.sealPending = none ∧ (vesselRec p 2).sealVolume = some 1000 ∧
      (1000 ≤ ((filled 1000).vessel 2).volume ∧ ((filled 999).vessel 2).volume < 1000) ∧
      (∃ m ∈ (withMoves [move 4 .spill (.vesselOutlet 1) (.vesselInlet 2) .running] p).mov.entries,
        m.dest = .vesselInlet 2) ∧ (∀ m ∈ p.mov.entries, m.dest ≠ .vesselInlet 2)) ∧
    (lotA .settling).state ≠ .filling ∧ (returnA .running).lot = none ∧ dischargeA.lot = some 1 ∧
    ((vesselRec State.reset.part 0).capacity = none ∧ (vesselRec operating.part 0).capacity = some 20000) ∧
    (hasFrame .vesselOverflow (.vessel 0)
        (withFrames [frameA .vesselOverflow (.vessel 0) .present] operating.part) = true ∧
      hasFrame .vesselOverflow (.vessel 0) operating.part = false) := by decide +kernel

/-- A FILL quantum past the capacity of REUSE raises VESSEL OVERFLOW, and a draw back to it reports it CLEARED. -/
theorem test_vesselOverflow : (let fill : State := { operating with
        books := filled 16000
        part := withMoves [move 4 .fill .mains .makeupEntry .running] operating.part }
      let raised := after (.meterQuantum .makeup) fill
      (raised.map (fun t => t.part.flt.stack.map (fun f => (f.ftype, f.condition))),
        (raised.bind (after .reuseDrawQuantum)).map (fun t => t.part.flt.stack.map (fun f => (f.ftype, f.condition))))) =
    (some [(.vesselOverflow, .present)], some [(.vesselOverflow, .cleared)]) := by decide +kernel

theorem witness_LotsClearAndAreRejected :
    findLot 1 (withLots [lotA .awaitingVerdict] operating.part) = some (lotA .awaitingVerdict) ∧
    (lotA .awaitingVerdict).rejectionNo = none ∧ ({ lotA .rejected with rejectionNo := some 4 } : Lot).rejectionNo ≠ none ∧
    (lotA .awaitingVerdict).clearanceNo = none ∧ ({ lotA .cleared with clearanceNo := some 4 } : Lot).clearanceNo ≠ none ∧
    (lotA .cleared).held = false ∧ ({ lotA .cleared with held := true } : Lot).held = true ∧
    [(3, 1), (4, 3)].Pairwise (fun (x y : Nat × Nat) => x.2 ≤ y.2) := by decide +kernel

/-- `k` contributions of slugs of as many sources. -/
def slugContributions (k : Nat) : List Contribution :=
  (List.replicate k ()).zipIdx.map (fun x => ⟨.tag ⟨Fin.ofNat 24 x.2, .wash, 0⟩, 10, 100⟩)

theorem witness_LotsOpenAndClose :
    (fillingLot (withLots [{ lotA .filling with sealPending := some .host }] operating.part)).map Lot.sealPending =
      some (some .host) ∧
    fillingLot (withLots [lotA .filling] operating.part) = some (lotA .filling) ∧ (lotA .filling).sealPending = none ∧
    (fillingLot operating.part = none ∧ fillingLot State.reset.part = none ∧
      (∀ v, ¬ ((vesselRec State.reset.part v).role = .hold ∧ lotOf v State.reset.part = none ∧
        (vesselRec State.reset.part v).inlet = .opened))) ∧
    ((vesselRec operating.part 2).role = .hold ∧ lotOf 2 operating.part = none ∧
      (vesselRec operating.part 2).inlet = .opened ∧
      (∀ w, (vesselRec operating.part w).role = .hold ∧ lotOf w operating.part = none ∧
        (vesselRec operating.part w).inlet = .opened → 2 ≤ w)) ∧
    (capacityOf operating.part 2 < 10001 ∧ 10000 ≤ capacityOf operating.part 2) ∧
    (let named (l : List Contribution) := (l.filter (fun c => decide (c.source ≠ .other))).length
     named (slugContributions 14) < 15 ∧ 15 ≤ named (slugContributions 15) ∧
      (∃ c ∈ slugContributions 15 ++ [⟨.other, 1, 1⟩], c.source = .other) ∧
      (∀ c ∈ slugContributions 15, c.source ≠ .other) ∧ (∀ c ∈ slugContributions 15, c.source ≠ .cell 0) ∧
      (∃ c ∈ slugContributions 1, c.source = .tag ⟨0, .wash, 0⟩)) ∧
    (lotOf 2 (withLots [lotA .cleared] operating.part) = some (lotA .cleared) ∧ (lotA .cleared).state ≠ .filling ∧
      ((filled 0).vessel 2).volume = 0 ∧ 0 < (operating.books.vessel 2).volume) ∧
    (0 < ({ lotA .cleared with dischargedVolume := 10 } : Lot).dischargedVolume ∧ (lotA .cleared).returnedVolume = 0 ∧
      (lotA .cleared).dischargedVolume = 0 ∧ 0 < ({ lotA .cleared with returnedVolume := 10 } : Lot).returnedVolume) :=
  by decide +kernel

theorem witness_LotRequests : operating.serves ∧ findLot 1 operating.part = none ∧
    (∀ st ∈ [LotState.filling, .settling, .sampling, .awaitingVerdict, .cleared, .discharging, .suspended, .rejected,
      .returning], findLot 1 (withLots [lotA st] operating.part) = some (lotA st) ∧ (lotA st).state = st) ∧
    (lotA .cleared).held = false ∧ ({ lotA .cleared with held := true } : Lot).held = true := by decide +kernel

/-- A FILLING lot with the inflow of a slug under way, and one with the seal pending. -/
def fillingInflow (p : Part) : Part :=
  withMoves [{ slugA .running with dest := .vesselInlet 2 }] (withLots [lotA .filling] p)

theorem witness_LotsSeal : (operating.serves ∧ operating.live ∧ operating.part.ctl.mode.running = true) ∧
    findLot 1 (fillingInflow operating.part) = some (lotA .filling) ∧ (lotA .settling).state ≠ .filling ∧
    ({ lotA .filling with sealPending := some .host } : Lot).sealPending.isSome = true ∧
    (lotA .filling).sealPending = none ∧ (lotA .filling).timer.isSome = true ∧
    inflowInFlight (fillingInflow operating.part) 2 = true ∧ inflowInFlight operating.part 2 = false ∧
    0 < (operating.books.vessel 2).volume ∧ ((filled 0).vessel 2).volume = 0 ∧
    commissioning.part.ctl.mode.running = false ∧ 0 < operating.part.lot.times.settle := by decide +kernel

theorem witness_LotTimers : (operating.live ∧ operating.part.ctl.mode.running = true) ∧
    commissioning.part.ctl.mode.running = false ∧ ({ lotA .settling with timer := none } : Lot).timer = none ∧
    (findLot 1 (withLots [lotA .sampling] operating.part) = some (lotA .sampling) ∧
      (lotA .sampling).timer.isSome = true) ∧
    0 < ((operating.books.book (.sample 2 2)).vessel 2).volume ∧ (((filled 2).book (.sample 2 2)).vessel 2).volume = 0 ∧
    (lotA .awaitingVerdict).sampleNumber < 2 ∧
    2 ≤ ({ lotA .awaitingVerdict with sampleNumber := 2 } : Lot).sampleNumber := by decide +kernel

/-- A verdict that passes, one that fails, one that is out of range. -/
def verdictA (r : LabResult) (conc : Nat) : VerdictItems := ⟨1, 1, conc, 70, r⟩

/-- Lot 1 as a closed record. -/
def closedA : ClosedLot := ⟨1, 2, none, none, none, none, none, none, 1, 0, 0, 0, 0, .discharged⟩

/-- Lot 1 awaiting its verdict, held. -/
def heldLot : Lot := { lotA .awaitingVerdict with held := true }

/-- The gate OPEN, its last outcome NO FIT. -/
def openNoFit (p : Part) : Part := { p with gate := { p.gate with state := .open_, outcome := some .noFit } }

/-- A lot that passes is discharged at once; one that passes held is CLEARED out of the queue, and the last outcome stays
(R49, R54, R144). -/
theorem test_verdictOfHeldLot :
    let taken (l : Lot) := after (.verdict 1 (verdictA .pass 140))
      { operating with part := openNoFit (withLots [l] operating.part) }
    ((taken (lotA .awaitingVerdict)).map (fun t => (t.part.lot.lots.map Lot.state, t.part.gate.outcome)) =
      some ([.discharging], some .started)) ∧
    ((taken heldLot).map (fun t => (t.part.lot.lots.map Lot.state, t.part.gate.outcome)) =
      some ([.cleared], some .noFit)) ∧
    ((taken heldLot).map (fun t => t.part.gate.queue) = some []) := by decide +kernel

theorem witness_VerdictIsCheckedAndApplied : operating.serves ∧ verdictRange (verdictA .pass 30001) = false ∧
    (verdictRange (verdictA .pass 140) = true ∧ (∃ c ∈ [closedA], c.number = (verdictA .pass 140).lot)) ∧
    ((∀ c ∈ operating.part.lot.closed, c.number ≠ 1) ∧ findLot 1 operating.part = none) ∧
    findLot 1 (withLots [lotA .awaitingVerdict] operating.part) = some (lotA .awaitingVerdict) ∧
    verdictRefusal (verdictA .pass 140) (lotA .settling) operating.part.gate = some .wrongState ∧
    verdictRefusal (verdictA .pass 140) (lotA .awaitingVerdict) operating.part.gate = none ∧
    (lotA .awaitingVerdict).held = false ∧
    (let p := withMoves [slugA .running, move 5 .charge (.vesselOutlet 0) (.cellInlet 0) .running]
       (withLots [heldLot] operating.part)
     heldLot.held = true ∧ findLot 1 p = some heldLot ∧
      verdictRefusal (verdictA .pass 140) heldLot p.gate = none ∧
      (vesselRec p heldLot.vessel).role = .hold ∧ 0 < (operating.books.vessel heldLot.vessel).volume ∧
      (∀ m ∈ p.mov.entries, sourceVolume operating.books m.source ≠ some 0) ∧
      hasFrame .vesselOverflow (.vessel heldLot.vessel) p = false) ∧
    (concWithin operating.part.gate.limits 140 = true ∧ phWithin operating.part.gate.limits 70 = true) ∧
    concWithin operating.part.gate.limits 301 = false := by decide +kernel

theorem witness_SourceRequests : operating.serves ∧ tagOf ⟨25, 0, 1⟩ = none ∧ tagOf rawA = some tagA ∧
    unitOf 32 = none ∧ unitOf 1 = some 0 ∧ findSource tagA (sourced operating.part) = some learnedA ∧
    findSource tagA operating.part = none ∧ 64 ≤ (List.replicate 64 staticB).length ∧
    operating.part.src.entries.length < 64 := by decide +kernel

theorem witness_OfferIsClassified : (findSource tagA (sourced operating.part) = some learnedA ∧
      learnedA.origin = .learned true ∧ (unitRec operating.part 0).learning = true) ∧
    ((unitRec (updUnit 0 (fun r => { r with learning := false }) operating.part) 0).learning = false ∧
      learnedA.cls = some .green) ∧
    (findSource staticB.tag (sourced operating.part) = some staticB ∧ staticB.unit ≠ 0 ∧ staticB.unit = 1) ∧
    findSource tagA operating.part = none ∧ operating.part.src.entries.length < 64 ∧
    (64 ≤ (List.replicate 64 staticB).length ∧ (List.replicate 64 staticB).find? (fun e => decide (e.tag = tagA)) = none) ∧
    operating.part.src.fullReported = false := by decide +kernel

theorem witness_AgingScan : operating.live ∧ commissioning.part.ctl.mode.running = false ∧
    operating.part.ctl.mode.running = true ∧ (sourced operating.part).src.inTagOrder := by decide +kernel

theorem witness_SetUnit : operating.serves ∧ unitOf 1 = some 0 ∧ (unitRec operating.part 0).enabled = true ∧
    (unitRec operating.part 1).enabled = false ∧ (unitRec slugRunning.part 0).slug.isSome = true ∧
    (unitRec operating.part 0).slug = none ∧ (∀ w : UnitId, w ≠ 0 → (unitRec operating.part w).enabled = false) ∧
    (∃ w : UnitId, w ≠ 0 ∧
      (unitRec (updUnit 1 (fun r => { r with enabled := true }) operating.part) w).enabled = true) := by decide +kernel

/-- Unit 3 had the last turn; all are disabled, then 2 and 10 enabled: the next turn goes to 2 (R79). -/
theorem test_roundOver : (((((after (.setUnit 1 1 (some false) none)
      { operating with part := { operating.part with fld := { operating.part.fld with lastTurn := some 2 } } }).bind
    (after (.setUnit 2 2 (some true) none))).bind (after (.setUnit 3 10 (some true) none))).bind
    (after .fieldTurn)).map (fun t => t.part.fld.turn)) = some (some ⟨1, .poll⟩) := by decide +kernel

theorem witness_FieldTurnsGoRound : operating.live ∧ (withTurn .poll operating.part).fld.turn.isSome = true ∧
    State.reset.part.ctl.mode.inService = false ∧ nextUnit State.reset.part = none ∧
    (operating.part.fld.turn = none ∧ operating.inService ∧ nextUnit operating.part = some 0) ∧
    (unitRec (updUnit 0 (fun r => { r with outbound := some (.stop 1) }) operating.part) 0).outbound = some (.stop 1) ∧
    (unitRec (updUnit 0 (fun r => { r with outbound := some .go }) slugReady.part) 0).outbound = some .go ∧
    findMove 1 slugReady.part = some (slugA .ready) ∧ (unitRec operating.part 0).outbound = none := by decide +kernel

theorem witness_FieldMisses : (operating.live ∧ operating.part.fld.turn = none ∧ parseAnswer 0 [] = none) ∧
    ¬ (operating.part.fld.settings.silenceLimit ≤ min 255 ((unitRec operating.part 0).missed + 1)) ∧
    (let quiet := updUnit 0 (fun r => { r with missed := 4 }) (withTurn .poll slugRunning.part)
     quiet.fld.settings.silenceLimit ≤ min 255 ((unitRec quiet 0).missed + 1) ∧
      (unitRec quiet 0).presence ≠ .silent ∧ slugOf quiet 0 = some (slugA .running)) ∧
    slugOf operating.part 0 = none ∧ slugOf (withSlug slugReady.part) 0 = some (slugA .ready) ∧
    (withTurn (.decision (.routed 7 400 1)) operating.part).fld.turn =
      some ⟨0, .decision (.routed 7 400 1)⟩ ∧
    (let quiet := updUnit 0 (fun r => { r with missed := 4 })
       (withTurn (.decision (.routed 7 400 1)) (withSlug slugReady.part))
     quiet.fld.turn = some ⟨0, .decision (.routed 7 400 1)⟩ ∧
      quiet.fld.settings.silenceLimit ≤ min 255 ((unitRec quiet 0).missed + 1) ∧
      (unitRec quiet 0).presence ≠ .silent ∧ slugOf quiet 0 = some (slugA .ready)) := by decide +kernel

/-- The STOP of a movement number is pending at unit 1 and sent in its open turn. -/
def toldStop (n : Nat) (p : Part) : Part :=
  updUnit 0 (fun r => { r with outbound := some (.stop n) }) (withTurn (.stop n) p)

theorem witness_UnitIdleDelivers : operating.live ∧ operating.part.fld.turn = none ∧
    (withTurn .poll operating.part).fld.turn = some ⟨0, .poll⟩ ∧
    ((withTurn (.stop 1) operating.part).fld.turn = some ⟨0, .stop 1⟩ ∧ slugOf operating.part 0 = none ∧
      (unitRec operating.part 0).outbound ≠ some (.stop 1) ∧
      (unitRec (toldStop 1 operating.part) 0).outbound = some (.stop 1)) ∧
    (let p := toldStop 9 (withSlug slugReady.part)
     p.fld.turn = some ⟨0, .stop 9⟩ ∧ (unitRec p 0).outbound = some (.stop 9) ∧ slugOf p 0 = some (slugA .ready) ∧ (slugA .ready).phase = .ready) ∧
    ((withTurn (.go 1 400) slugReady.part).fld.turn = some ⟨0, .go 1 400⟩ ∧
      findMove 1 slugReady.part = some (slugA .ready) ∧ (slugA .ready).dest = .vesselInlet 7) := by decide +kernel

/-- The STOP of an earlier slug is delivered where a later slug is READY: its GO is pending then (log 57). -/
theorem test_goAfterStop : ((after .unitIdle { operating with part := toldStop 9 (withSlug slugReady.part) }).map
    (fun t => (unitRec t.part 0).outbound)) = some (some .go) := by decide +kernel

/-- The later slug is cut while that turn is open: its own STOP stays pending at the answer to the earlier one (R91). -/
theorem test_laterStopStays : ((after .unitIdle { operating with
      part := cutMovement operating.books 1 .plain (toldStop 9 (withSlug slugReady.part)) }).map
    (fun t => (unitRec t.part 0).outbound)) = some (some (.stop 1)) := by decide +kernel

theorem witness_OffersAreRouted : (operating.live ∧ operating.part.fld.turn = none) ∧
    (FieldMessage.poll.isDecision = false ∧ commissioning.part.ctl.mode.running = false) ∧
    (operating.part.ctl.mode.running = true ∧ (unitRec slugRunning.part 0).slug.isSome = true ∧
      (unitRec operating.part 0).slug = none) ∧
    (tagOf ⟨25, 0, 1⟩ = none ∧ offerRange ⟨rawA, 0, 30, 70⟩ = false ∧ tagOf rawA = some tagA ∧
      offerRange ⟨rawA, 400, 30, 70⟩ = true) ∧
    (classifyOffer staticB.tag 0 30 (sourced operating.part)).2 = .unitMismatch ∧
    (classifyOffer tagA 0 30 { updUnit 0 (fun r => { r with learning := false }) operating.part with
      src := { operating.part.src with policy := .refuse } }).2 = .unknownSource ∧
    ((classifyOffer tagA 0 30 operating.part).2 = .continue_ .green false false ∧
      (actionsInForce (withFrames [{ frameA .flowStall (.movement 1) .cleared with
        actions := { stopIntake := true } }] operating.part)).stopIntake = true) ∧
    (routeContinue operating.books ⟨0, tagA, .green, 30, none⟩ false false 400 operating.part).2 = .routed 1 400 1 ∧
    (lockedDown.part.ctl.mode = .lockdown ∧ operating.part.ctl.mode ≠ .lockdown ∧
      (actionsInForce operating.part).quarantineIntake = false) := by decide +kernel

/-- The error of a walk. -/
def errorOf {α β : Type} (x : Except α β) : Option α :=
  match x with
  | .ok _ => none
  | .error e => some e

theorem witness_OffersAreRouted_walk : let x : SlugParticulars := ⟨0, tagA, .green, 30, none⟩
    let walk (k vol : Nat) := (walkCandidates (filled k) x false vol (candidates operating.part .green false) [] operating.part).2
    let reuse (p : Part) := (tryCandidate operating.books x false 400 (.role .reuse) p).2
    ((walk 1000 400).toOption = some (1, 1) ∧ errorOf (walk 16000 4000) = some [.noSpace, .noSpace, .noSpace]) ∧
    ((reuse operating.part).toOption = some (1, 1) ∧
      errorOf (reuse (withMoves (List.replicate 12 dischargeA) operating.part)) = some .tableFull ∧
      errorOf (reuse commissioning.part) = some .inletBusy) ∧
    errorOf (candidateVessel (.role .feed) 400 State.reset.part).2 = some .disabled ∧
    (candidateVessel .lot 400 operating.part).2.toOption = some (2, some 1) ∧
    (actionsInForce operating.part).stopIntake = false := by decide +kernel

theorem witness_OffersAreRouted_tests : vesselSkip operating.books State.reset.part 0 400 true = some .disabled ∧
    vesselSkip operating.books (updVessel 1 (fun r => { r with regBlock := true }) operating.part) 1 400 false =
      some .blocked ∧
    vesselSkip operating.books operating.part 1 15000 false = none ∧
    vesselSkip operating.books operating.part 1 15001 false = some .noSpace ∧
    vesselSkip operating.books (withMoves [returnA .running] operating.part) 0 400 false = some .inletBusy ∧
    noCandidate operating.part [.role .quarantine] [.noSpace] 12001 = .refuse .tooLarge ∧
    noCandidate operating.part [.role .quarantine] [.noSpace] 12000 = .wait .noSpace ∧
    noCandidate operating.part [.role .quarantine] [.disabled] 12000 = .refuse .noRoute ∧
    candidateCapacity operating.part .lot = some 10000 ∧ candidateCapacity State.reset.part .lot = none := by
  decide +kernel

theorem witness_DoneIsBookedOrLate : operating.live ∧ operating.part.fld.turn = none ∧
    ((withTurn .poll slugRunning.part).fld.turn = some ⟨0, .poll⟩ ∧ slugOf slugRunning.part 0 = some (slugA .running) ∧
      (slugA .running).phase ≠ .opening ∧ (slugA .running).dest = .vesselInlet 7 ∧ tagOf rawA = some tagA) ∧
    slugOf operating.part 0 = none ∧ tagOf ⟨2, 0, 1⟩ ≠ some tagA := by decide +kernel

theorem witness_TransferTimeoutBooksByLevel : slugRunning.working ∧ findMove 9 slugRunning.part = none ∧
    ({ slugA .ready with timeoutLeft := none } : Movement).timeoutLeft = none ∧
    (findMove 1 slugRunning.part = some (slugA .running) ∧ (slugA .running).timeoutLeft.isSome = true ∧
      (slugA .running).slug.isSome = true ∧ (slugA .running).dest = .vesselInlet 7) := by decide +kernel

/-- A timed-out slug: its entry leaves the table, its frame keeps the copy, its unit is told to stop. -/
theorem test_transferTimeout : ((after (.transferTimeout 1) slugRunning).map (fun t =>
      (t.part.mov.entries.any (fun m => decide (m.kind = .slug)), t.part.flt.stack.map (fun f => f.interrupted.map Movement.number),
        (unitRec t.part 0).outbound, (t.books.vessel 7).volume))) =
    some (false, [some 1], some (.stop 1), 1400) := by decide +kernel

/-- Regulation switched on. -/
def regulated (p : Part) : Part := { p with reg := { p.reg with switchOn := true } }

theorem witness_RegulationRequests : operating.serves ∧ State.reset.hasPlace ∧
    State.reset.part.ctl.mode.inService = false ∧ ({ reuseHigh := some 8 } : RegulationItems) ≠ {} ∧
    regulationValid { reuseHigh := some 2 } operating.part = false ∧
    regulationValid { reuseHigh := some 5 } operating.part = true ∧ regulationValid {} operating.part = true ∧
    regulationValid {} { operating.part with reg := { operating.part.reg with
      marks := { operating.part.reg.marks with reserve := 4000 } } } = false ∧ (regulated operating.part).reg.switchOn = true ∧
    operating.part.reg.switchOn = false ∧ roleCapacity .reuse State.reset.part = none ∧
    roleCapacity .reuse operating.part = some 16000 ∧ (0 < 16000 * 2 / 8 ∧ 16000 * 6 / 8 < 16000 - 0) ∧
    ¬ (4000 < 16000 * 2 / 8 ∧ 16000 * 6 / 8 < 16000 - 0) := by decide +kernel

theorem witness_ReuseMarksAct : roleVessel .reuse State.reset.part = none ∧ roleVessel .reuse operating.part = some 1 ∧
    (((filled 0).vessel 1).volume ≤ operating.part.reg.marks.reserve ∧
      operating.part.reg.marks.reserve < ((filled 1).vessel 1).volume) ∧
    (16000 * 2 / 8 ≤ ((filled 4000).vessel 1).volume ∧ ((filled 3999).vessel 1).volume < 16000 * 2 / 8) ∧
    (16000 - 0 < ((filled 16001).vessel 1).volume ∧ ((filled 16000).vessel 1).volume ≤ 16000 - 0) ∧
    (((filled 12000).vessel 1).volume ≤ 16000 * 6 / 8 ∧ 16000 * 6 / 8 < ((filled 12001).vessel 1).volume) ∧
    (vesselRec operating.part 1).regBlock = false ∧ operating.part.reg.supplyOpen = false := by decide +kernel

/-- An IDLE need does not run. -/
theorem idleNeed {x : Need} (h : x = .idle) (n : Nat) : x ≠ .running n := by rw [h]; nofun

/-- A frame that holds the owner of a movement, and one that stops regulation. -/
def holding (m : Movement) : Frame :=
  { frameA .flowStall (.movement m.number) .cleared with actions := { stopMovement := true }, interrupted := some m }
def stopping : Frame := { frameA .flowStall (.movement 1) .cleared with actions := { stopRegulation := true } }

theorem witness_ReuseMarksAct_needs : (regulated operating.part).reg.switchOn = true ∧
    roleVessel .reuse (regulated operating.part) = some 1 ∧ (∀ n, (regulated operating.part).reg.spill ≠ .running n) ∧
    (∀ n, (regulated operating.part).reg.fill ≠ .running n) ∧
    kindHeld (withFrames [holding (move 4 .spill (.vesselOutlet 1) (.vesselInlet 2) .running)] operating.part) .spill = true ∧
    kindHeld (withFrames [holding (move 4 .fill .mains .makeupEntry .running)] operating.part) .fill = true ∧
    kindHeld (withFrames [holding (returnA .running)] operating.part) .ret = true ∧
    (kindHeld operating.part .spill = false ∧ kindHeld operating.part .fill = false ∧ kindHeld operating.part .ret = false) ∧
    (actionsInForce (withFrames [stopping] operating.part)).stopRegulation = true ∧
    (actionsInForce operating.part).stopRegulation = false ∧
    (12001 - 16000 * 6 / 8 = 1 ∧ 12000 - 16000 * 6 / 8 = 0 ∧ 16000 * 2 / 8 - 3999 = 1 ∧ 16000 * 2 / 8 - 4000 = 0) ∧
    ((askFilling 100 operating.part).2 = .named 1 2 ∧ (askFilling 10001 operating.part).2 = .noSpace ∧
      (askFilling 100 State.reset.part).2 = .noVessel ∧
      (askFilling 100 (withLots [{ lotA .filling with sealPending := some .host }] operating.part)).2 = .sealPending) ∧
    (spillCheck { filled 0 with vessels := updAt (filled 0).vessels 1 (fun _ => ⟨12001, 0⟩) }
      (regulated operating.part)).reg.spill = .running 1 ∧
    (fillCheck (filled 3999) (regulated operating.part)).reg.fill = .running 1 := by
  refine ⟨?_, ?_, idleNeed (by decide +kernel), idleNeed (by decide +kernel), ?_⟩ <;> decide +kernel

/-- A REUSE evaluation cuts a running SPILL at the high mark and a running FILL at the low mark, and under STOP REGULATION
neither; each bound is tried with the litre beside it. -/
theorem witness_ReuseMarksAct_evaluation :
    (let spill := move 4 .spill (.vesselOutlet 1) (.vesselInlet 2) .running
     let fill := move 5 .fill .mains .makeupEntry .running
     let p : Part := withMoves [spill, fill] (regulated operating.part)
     let q : Part := { p with reg := { p.reg with spill := .running 4, fill := .running 5 } }
     let left (k : Nat) (r : Part) := (reuseEvaluation (filled k) r).mov.entries.filterMap (fun m =>
       if m.number = 4 ∨ m.number = 5 then some m.number else none)
     (left 12000 q, left 12001 q, left 4000 q, left 3999 q,
       left 12000 (withFrames [{ stopping with actions := { stopRegulation := true } }] q),
       left 12000 { q with reg := { q.reg with switchOn := false } })) =
      ([], [4], [], [5], [4, 5], [4, 5]) := by decide +kernel

theorem witness_ReuseMarksAct_returns : (∀ n, operating.part.reg.ret ≠ .running n) ∧
    firstRejected (withLots [lotA .rejected] operating.part) = some (lotA .rejected) ∧
    (firstRejected operating.part = none ∧ roleVessel .quarantine operating.part = some 7 ∧
      roleVessel .quarantine State.reset.part = none) ∧
    (findReturnSource operating.books operating.part = some (.quarantine, 7, none) ∧
      findReturnSource (filled 0) operating.part = none ∧
      findReturnSource operating.books (withLots [lotA .rejected] operating.part) = some (.lot 1, 2, some 1)) ∧
    roleVessel .feed operating.part = some 0 ∧
    (portBusy (withMoves [returnA .running] operating.part) (.vesselInlet 0) = true ∧
      portBusy operating.part (.vesselInlet 0) = false) ∧
    (20000 * operating.part.reg.marks.feedHigh / 8 = 15000 ∧ min 1000 (15000 - 14999) < min 1000 50 ∧
      min 1000 50 ≤ min 1000 (15000 - 14950)) ∧
    (vesselRec (updVessel 0 (fun r => { r with inlet := .disabled }) operating.part) 0).inlet = .disabled := by
  exact ⟨idleNeed (by decide +kernel), by decide +kernel⟩

/-- C1 in a state, configured. -/
def cellIn (st : CellState) (p : Part) : Part :=
  updCell 0 (fun r => { r with state := st, chargeVolume := some 400, runLimit := some 3600, cathodeCapacity := some 5000
                               rectifier := true, runTimer := some 60 }) p

theorem witness_CellRequests : (commissioning.hasPlace ∧ commissioning.serves ∧ operating.part.ctl.mode ≠ .commissioning ∧
      cellOf 5 = none ∧ cellOf 1 = some 0 ∧ cellRanges { chargeVolume := some 49 } = false ∧
      cellRanges { chargeVolume := some 50 } = true) ∧
    (∀ st ∈ [CellState.offline, .idle, .charging, .plating, .draining, .harvest],
      (cellRec (cellIn st commissioning.part) 0).state = st) ∧
    ((cellRec (cellIn .offline commissioning.part) 0).chargeVolume.isSome = true ∧
      (cellRec commissioning.part 0).chargeVolume = none) ∧
    (1000000000 < 1000000001 ∧ 1000000000 ≤ 1000000000) := by decide +kernel

theorem witness_CellReadingsAndLimits : operating.live ∧ operating.inService ∧ ¬ State.reset.inService ∧
    ((cellRec (cellIn .plating operating.part) 0).state = .plating ∧
      (cellRec (cellIn .plating operating.part) 0).paused = false ∧
      (cellRec (updCell 0 (fun r => { r with paused := true }) (cellIn .plating operating.part)) 0).paused = true) ∧
    (99 * (liquored.liquor 0).volume < (liquored.liquor 0).mass ∧
      ¬ 100 * (liquored.liquor 0).volume < (liquored.liquor 0).mass) ∧
    ((cellRec (updCell 0 (fun r => { r with cathodeCapacity := some 50 }) operating.part) 0).cathodeCapacity = some 50 ∧
      50 ≤ liquored.cathode 0) ∧
    (20 ≤ (cellRec operating.part 0).endConc ∧ (cellRec operating.part 0).endConc < 21) ∧
    (cellRec (cellIn .plating operating.part) 0).runTimer.isSome = true ∧ operating.working ∧
    (cellRec operating.part 0).faultInput = false ∧ (held operating.part).ctl.resetHeld = true ∧
    hasFrame .cellFault (.cell 0) (withFrames [frameA .cellFault (.cell 0) .present] operating.part) = true ∧
    hasFrame .cellFault (.cell 0) operating.part = false := by decide +kernel

theorem witness_ArbiterExamination : lockedDown.part.ctl.mode ≠ .operating ∧ operating.part.ctl.mode = .operating ∧
    (actionsInForce (withFrames [{ frameA .flowStall (.movement 1) .cleared with
      actions := { stopCells := true } }] operating.part)).stopCells = true ∧
    roleVessel .feed operating.part = some 0 ∧
    portBusy (withMoves [move 4 .charge (.vesselOutlet 0) (.cellInlet 1) .running] operating.part)
      (.vesselOutlet 0) = true ∧
    arbiterChoice operating.books operating.part = none ∧
    arbiterChoice operating.books (cellIn .idle operating.part) = some 0 ∧
    (operating.books.vessel 0).volume < chargeFloor (cellIn .idle operating.part) + 400 ∧
    chargeFloor (cellIn .idle operating.part) + 400 ≤ ((filled 5400).vessel 0).volume ∧
    portBusy (cellIn .idle operating.part) (.cellInlet 0) = false ∧
    wantsRemainder (updCell 0 (fun r => { r with step := .waiting .cut }) (cellIn .charging operating.part)) 0 = true :=
  by decide +kernel

theorem witness_ArbiterExamination_cells : (cellRec (cellIn .plating operating.part) 0).state = .plating ∧
    ((cellRec (updCell 0 (fun r => { r with paused := true }) (cellIn .plating operating.part)) 0).paused = true ∧
      rectifierWanted (cellIn .plating operating.part) 0 = true ∧
      rectifierWanted (cellIn .plating lockedDown.part) 0 = false) ∧
    (Ending.stall none ≠ .complete ∧ Ending.stall none ≠ .cut .abandon) ∧
    ((cellRec (cellIn .charging operating.part) 0).state = .charging ∧ 0 < (liquored.liquor 0).volume ∧
      ((filled 0).liquor 0).volume = 0) ∧
    ((cellRec (cellIn .draining operating.part) 0).state = .draining ∧
      (∀ n, (cellRec (cellIn .draining operating.part) 0).step ≠ .running n)) ∧
    (cellHeld (withFrames [frameA .cellFault (.cell 0) .present] operating.part) 0 = true ∧
      cellHeld operating.part 0 = false) := by
  refine ⟨?_, ?_, ?_, ?_, ⟨?_, idleNeed (by decide +kernel)⟩, ?_⟩ <;> decide +kernel

/-- A DRAINING cell in COMMISSIONING asks the Lot Unit, which opens a lot, and waits MODE (log 17). -/
theorem test_drainInMode : (let p := seekDrain liquored 0 (cellIn .draining commissioning.part)
    ((cellRec p 0).step, p.lot.lots.map Lot.state)) = (.waiting .mode, [.filling]) := by decide +kernel

theorem witness_GateSettings : operating.serves ∧ 86399 < 86400 ∧
    ({ operating with part := { operating.part with gate := { operating.part.gate with state := .running } } } :
      State).part.gate.state = .running ∧
    (inWindow commissioning.part.gate = true ∧ inWindow { commissioning.part.gate with clock := some 0 } = false ∧
      inWindow { commissioning.part.gate with clock := some 28800 } = true ∧
      inWindow { commissioning.part.gate with clock := some 61200 } = false) ∧
    limitRanges { persistence := some 120 } = true ∧ limitRanges { persistence := some 121 } = false ∧ limitRanges { phBand := some (70, 141) } = false ∧
    limitsSet operating.part.gate.limits = true ∧ limitsSet State.reset.part.gate.limits = false := by decide +kernel

/-- A window above its range, and one at its top. -/
theorem witness_GateSettings_windows :
    ¬ (∀ w, some (Window.mk 1440 1440) = some w ∨ none = some w → w.start ≤ 1439 ∧ w.stop ≤ 1440) ∧
    (∀ w, some (Window.mk 1439 1440) = some w ∨ none = some w → w.start ≤ 1439 ∧ w.stop ≤ 1440) := by
  refine ⟨fun h => absurd (h _ (.inl rfl)).1 (by decide), fun w h => ?_⟩
  cases h with
  | inl e => cases e; decide
  | inr e => cases e

/-- Lot 1 CLEARED and queued, the gate OPEN. -/
def queued (p : Part) : Part :=
  let q := withLots [lotA .cleared] p
  { q with gate := { q.gate with state := .open_, queue := [(1, 1)] } }

theorem witness_GateSelection : operating.part.gate.state ≠ .open_ ∧ (queued operating.part).gate.state = .open_ ∧
    gateStateOf (queued operating.part) = .open_ ∧ gateStateOf (queued lockedDown.part) ≠ .open_ ∧
    (queued operating.part).gate.silver.isSome = true ∧ (queued operating.part).gate.ph.isSome = true ∧
    State.reset.part.gate.silver = none ∧
    kindHeld (withFrames [{ frameA .outfallPh (.discharge 3 1) .cleared with
      actions := { stopMovement := true }, interrupted := some dischargeA }] operating.part) .discharge = true ∧
    kindHeld (queued operating.part) .discharge = false ∧ operating.part.gate.queue = [] ∧
    (queued operating.part).gate.queue ≠ [] ∧ firstFit (filled 90001) (queued operating.part) = none ∧
    firstFit operating.books (queued operating.part) = some (lotA .cleared) ∧
    (queued operating.part).ctl.mode.running = true ∧
    portBusy (queued operating.part) (.vesselOutlet 2) = false ∧ 0 < (operating.books.vessel 2).volume ∧
    portBusy (queued operating.part) .outfall = false ∧
    lotFits operating.books operating.part.gate (lotA .cleared) = true := by decide +kernel

/-- A day on which `m` mg and `v` litres have gone out, with the floor of 100 000 mg enabled or not. -/
def dayOf (enable : Bool) (m v : Nat) : Gate :=
  let g := operating.part.gate
  { g with todayMass := m, todayVolume := v, limits := { g.limits with floor := 100000, floorEnable := enable } }

theorem witness_GateSelection_increments :
    (incrementCheck (dayOf true 800001 0) 500 = .floor ∧ incrementCheck (dayOf true 800000 0) 500 = .none) ∧
    (incrementCheck (dayOf false 900000 0) 500 = .pause ∧ incrementCheck (dayOf false 899999 0) 500 = .none) ∧
    (incrementCheck (dayOf false 0 89991) 10 = .pause ∧ incrementCheck (dayOf false 0 89991) 9 = .none ∧
      incrementCheck (dayOf false 0 89990) 500 = .none) ∧
    (findMove 3 (withMoves [dischargeA] operating.part) = some dischargeA ∧ findMove 3 operating.part = none ∧
      dischargeA.lot = some 1 ∧ dischargeA.kind = .discharge) ∧
    (∃ f ∈ [frameA .allowanceFloor (.discharge 3 1) .cleared], f.ftype = .allowanceFloor) ∧
    (¬ ∃ f ∈ operating.part.flt.stack, f.ftype = .allowanceFloor) := by decide +kernel

theorem witness_GateSelection_ends : dischargeA.kind = .discharge ∧ dischargeA.lot = some 1 ∧
    findLot 1 (withLots [lotA .discharging] operating.part) = some (lotA .discharging) ∧
    findLot 1 operating.part = none := by decide +kernel

/-- A stalled DISCHARGE is SUSPENDED with its frame, and one cut by a probe failure is CLEARED. -/
theorem test_dischargeEnds : (let p := withMoves [dischargeA] (withLots [lotA .discharging] operating.part)
      let s : State := { operating with part := { p with gate := { p.gate with state := .running } } }
      ((after (.stallTimeout 3) s).map (fun t => (t.part.lot.lots.map (fun l => (l.state, l.bindingFrame)),
          t.part.flt.stack.map Frame.lot)),
        (after (.probeSilenceTimeout .ph) s).map (fun t => t.part.lot.lots.map (fun l => (l.state, l.bindingFrame))))) =
    (some ([(.suspended, some 1)], [some 1]), some [(.cleared, none)]) := by decide +kernel

theorem witness_ClockTick : operating.live ∧ State.reset.part.gate.clock = none ∧
    operating.part.gate.clock = some 36000 ∧ operating.part.gate.limits.dayBoundary * 60 = 0 ∧
    (if 86399 < 86399 then 86399 + 1 else 0) = operating.part.gate.limits.dayBoundary * 60 := by decide +kernel

/-- A discharge runs, with its persistence timers. -/
def discharging (p : Part) : Part :=
  let q := withMoves [dischargeA] (withLots [lotA .discharging] p)
  { q with gate := { q.gate with state := .running, silverTimer := some 5, phTimer := some 5 } }

theorem witness_OutfallProbes : operating.working ∧ operating.part.gate.state ≠ .running ∧
    ((discharging operating.part).gate.silver.isSome = true ∧ (discharging operating.part).gate.ph.isSome = true ∧
      (discharging operating.part).gate.state = .running ∧ 0 < (discharging operating.part).gate.limits.persistence) ∧
    (let g := (discharging operating.part).gate
     let now := { g with silverTimer := none, phTimer := none, limits := { g.limits with persistence := 0 } }
     now.limits.persistence = 0 ∧ now.silverTimer = none ∧ now.phTimer = none ∧
      concWithin now.limits 301 = false ∧ phWithin now.limits 91 = false) ∧
    (operating.part.gate.silverTimer = none ∧ operating.part.gate.phTimer = none) ∧
    ((discharging operating.part).gate.silverTimer.isSome = true ∧
      dischargeMove (discharging operating.part) = some dischargeA ∧ dischargeA.lot = some 1) := by decide +kernel

/-- A pattern record with one RISE term on I1 and one HIGH term on I2. -/
def patternA (m : PatternMode) : PatternRec :=
  { terms := ((Vector.replicate 24 .ignore).set 0 .rise).set 1 .high, mode := m, enabled := true }

/-- I2 HIGH. -/
def inputsA : Vector Bool 24 := (Vector.replicate 24 false).set 1 true

theorem witness_PatternTermsAndModes : (patternA .andMode).mode = .andMode ∧
    patternMet (inputsA.set 0 true) (some (0, true)) (patternA .andMode) = true ∧
    patternMet inputsA none (patternA .andMode) = false ∧ patternMet inputsA none (patternA .anyMode) = true ∧
    (patternMet inputsA (some (5, true)) (patternA .firstMode) = true ∧ (patternA .firstMode).mode ≠ .anyMode) := by
  decide +kernel

/-- P1 programmed. -/
def patterned (f : PatternRec → PatternRec) : State :=
  { operating with part := updPattern 0 (fun _ => f (patternA .anyMode)) operating.part }

theorem witness_PatternRequestsAndChanges : (patterned id).serves ∧ patternOf 1 = some 0 ∧ ¬ (1 ≤ 7 ∧ 7 ≤ 6) ∧
    (∃ x y, x ≠ y ∧ isEdge (((Vector.replicate 24 Term.ignore).set 0 .rise).set 1 .fall |>.get x) = true ∧
      isEdge (((Vector.replicate 24 Term.ignore).set 0 .rise).set 1 .fall |>.get y) = true) ∧
    ((patternRec (patterned id).part 0).enabled = true ∧ (patternRec operating.part 0).enabled = false ∧
      (∀ i, (patternRec operating.part 0).terms.get i = .ignore)) ∧
    (∃ i, (patternRec (patterned (fun r => { r with enabled := false })).part 0).terms.get i ≠ .ignore) ∧
    ((patternRec (patterned (fun r => { r with state := .pending })).part 0).state = .pending ∧
      (patternRec (patterned (fun r => { r with state := .taken })).part 0).state = .taken ∧
      (patternRec (patterned id).part 0).state = .armed) ∧
    (operating.part.pat.inputs.get 0 = false ∧ operating.part.pat.inputs.get 0 ≠ true ∧ operating.working ∧
      ¬ State.reset.working) ∧
    patternMet inputsA none (patternRec (patterned id).part 0) = true ∧
    hasFrame (.interlock 0) (.pattern 0) (withFrames [frameA (.interlock 0) (.pattern 0) .cleared] operating.part) = true :=
  by decide +kernel

theorem witness_FaultPushes : operating.part.ctl.mode ≠ .commissioning ∧
    (operating.part.flt.table.get (FaultType.flowStall).row).loaded = true ∧
    (State.reset.part.flt.table.get (FaultType.flowStall).row).loaded = false ∧
    commissioning.part.ctl.mode = .commissioning ∧ State.reset.part.ctl.mode.inService = false ∧
    (operating.part.ctl.mode.inService = true ∧
      (withFrames (List.replicate 5 (frameA .flowStall (.movement 1) .cleared)) operating.part).flt.stack.length + 1 ≤ 6 ∧
      6 < (withFrames (List.replicate 6 (frameA .flowStall (.movement 1) .cleared)) operating.part).flt.stack.length + 1) ∧
    lockedDown.part.ctl.mode ≠ .operating := by decide +kernel

theorem witness_FaultPushes_actions :
    (let p := withMoves [dischargeA, returnA .running] operating.part
     dischargeMove p = some dischargeA ∧ dischargeMove operating.part = none ∧
      (holding (returnA .running)).actions.stopMovement = true ∧
      (holding (returnA .running)).interrupted = some (returnA .running) ∧ findMove 2 p = some (returnA .running) ∧
      findMove 2 operating.part = none) ∧
    defaultActions.shutOutfall = true ∧ defaultActions.lockdown = false ∧
    (actionsInForce (withFrames [stopping] operating.part) ≠ {} ∧ actionsInForce operating.part = {}) ∧
    ((frameA .cellFault (.cell 2) .present).holdsCell 2 = true ∧ ∀ c : CellId, stopping.holdsCell c = false) := by
  decide +kernel

/-- SHUT OUTFALL and LOCKDOWN in one frame of another subject: the lot is CLEARED, in LOCKDOWN. -/
theorem test_pushActions : (let p := withMoves [dischargeA] (withLots [lotA .discharging] operating.part)
      let loaded : Part := { p with flt := { p.flt with table := p.flt.table.map (fun r =>
        { r with actions := { shutOutfall := true, lockdown := true }, policy := .manual, loaded := true }) } }
      let q (s : Subject) := raise operating.books { ftype := .outfallPh, subject := s, interrupted := some dischargeA } loaded
      ((q (.discharge 3 1)).lot.lots.map Lot.state, (q (.probe .ph)).lot.lots.map Lot.state,
        (q (.discharge 3 1)).ctl.mode, (q (.discharge 3 1)).flt.stack.map Frame.lot)) =
    ([.suspended], [.cleared], .lockdown, [some 1]) := by decide +kernel

/-- Two frames, the upper CLEARED. -/
def framed : State :=
  { operating with part := withFrames [{ frameA .vesselOverflow (.vessel 1) .cleared with policy := .manual },
    frameA .flowStall (.movement 1) .cleared] operating.part }

theorem witness_FaultPops : framed.serves ∧ framed.live ∧ (¬ (1 ≤ 0 ∧ 0 ≤ 6) ∧ ¬ (1 ≤ 7 ∧ 7 ≤ 6)) ∧
    framed.part.flt.stack.length < 6 ∧ 1 < framed.part.flt.stack.length ∧
    framed.part.flt.stack = [{ frameA .vesselOverflow (.vessel 1) .cleared with policy := .manual }] ++
      [frameA .flowStall (.movement 1) .cleared] ∧
    (frameA .levelMismatch (.vessel 0) .present).condition = .present ∧
    (∀ x, framed.part.flt.stack.dropLast.getLast? = some x → x.policy = .manual) ∧
    ¬ State.reset.inService ∧ frameAt 0 framed.part = none ∧
    ((frameA .flowStall (.movement 1) .cleared).policy = .auto ∧
      (frameA .flowStall (.movement 1) .cleared).holdLeft.isSome = true) := by
  refine ⟨?_, ?_, ?_, ?_, ?_, ?_, ?_, fun x h => by cases h; rfl, ?_, ?_, ?_⟩ <;> decide +kernel

theorem witness_LockdownAndRelease : (operating.hasPlace ∧ operating.part.ctl.mode = .operating) ∧
    (lockedDown.hasPlace ∧ lockedDown.part.ctl.mode = .lockdown ∧ lockedDown.part.flt.stack = []) ∧
    (commissioning.part.ctl.mode ≠ .operating ∧ commissioning.part.ctl.mode ≠ .lockdown) ∧
    (withFrames [frameA .flowStall (.movement 1) .cleared] lockedDown.part).flt.stack ≠ [] := by decide +kernel

/-! ## Cuts, a full stack, a pop's owners, SET CELL, the arbiter, widths -/

/-- A cut at each phase of a SLUG, of an internal movement, and of one that has left the table. -/
theorem test_cuts : (let s (ph : Phase) := cutMovement operating.books 1 .plain (withSlug (withMoves [slugA ph] operating.part))
      let seen (p : Part) := ((p.mov.entries.filter (fun m => decide (m.kind = .slug))).map Movement.phase,
        (unitRec p 0).outbound)
      ([Phase.opening, .ready, .running, .stopping].map (fun ph => seen (s ph)),
        (findMove 2 (cutMovement operating.books 2 .plain (withMoves [returnA .opening] operating.part))).isNone,
        findMove 2 operating.part)) =
    ([([], some (.stop 1)), ([], some (.stop 1)), ([.stopping], some (.stop 1)), ([.stopping], none)], true, none) := by
  decide +kernel

/-- ALLOWANCE FLOOR with the stack full: LOCKDOWN is entered, and then the discharge is paused (log 78). -/
theorem test_floorFullStack :
    (let six := List.replicate 6 (frameA .flowStall (.movement 1) .cleared)
     let p := withFrames six (discharging operating.part)
     let q : Part := { p with gate := { dayOf true 800001 0 with state := .running } }
     let r := afterIncrement operating.books 3 q
     (r.ctl.mode, r.lot.lots.map Lot.state, dischargeMove r, r.link.queue.map Notice.body)) =
    (.lockdown, [.cleared], none, [.faultNotStacked .allowanceFloor (.discharge 3 1) (some 36000), .lockdown .fullStack,
      .gate .running .barred .mode none, .lotState 1 (some .cleared) .pause]) := by decide +kernel

/-- A stack of six, and of five. -/
theorem witness_GateSelection_fullStack :
    ¬ (withFrames (List.replicate 6 (frameA .flowStall (.movement 1) .cleared)) operating.part).flt.stack.length < 6 ∧
    (withFrames (List.replicate 5 (frameA .flowStall (.movement 1) .cleared)) operating.part).flt.stack.length < 6 := by
  decide +kernel

/-- A pop of a frame that held the gate and a stopped regulation, and one that changes no action. -/
theorem witness_FaultPops_announced :
    ((stopping.actions.stopRegulation = true ∧ (actionsInForce operating.part).stopRegulation = false) ∧
      actionsInForce operating.part ≠ stopping.actions) ∧
    (actionsInForce operating.part = {} ∧ (∀ c : CellId, (frameA .flowStall (.movement 1) .cleared).holdsCell c = false)) ∧
    (∃ c : CellId, (frameA .cellFault (.cell 2) .present).holdsCell c = true) := by decide +kernel

/-- A RESUME of a CELL FAULT on C1 takes the plating up again, an ABANDON frees the empty cell. -/
theorem test_popCells : (let p := withFrames [frameA .cellFault (.cell 0) .cleared] (cellIn .plating operating.part)
      let seen (way : PopWay) := let q := popOnce operating.books way p
        ((cellRec q 0).state, (cellRec q 0).rectifier)
      (seen .resume, seen .abandon)) = ((.plating, true), (.idle, false)) := by decide +kernel

/-- An IDLE cell whose new cathode capacity is at its load sends HARVEST NEEDED. -/
theorem test_setCellHarvest : (let s : State := { commissioning with books := liquored, part := cellIn .idle commissioning.part }
      let seen (k : Nat) := (after (.setCell 0 1 { cathodeCapacity := some k }) s).map (fun t => t.part.link.queue.map Notice.body)
      (seen 50, seen 51)) = (some [.harvestNeeded 0 50], some []) := by decide +kernel

/-- A grant whose start is made, one whose start is refused, and a plant with no FEED vessel. -/
theorem test_arbiterGrants : (let p := cellIn .idle operating.part
      let full := withMoves (List.replicate 12 (slugA .running)) p
      let seen (q : Part) := let r := examineArbiter (filled 5400) q
        ((cellRec r 0).state, (cellRec r 0).step, r.cel.outcome)
      (seen p, seen full, seen (plant .operating (cellIn .idle) (filled 5400)).part)) =
    ((.charging, .running 1, some .granted), (.charging, .waiting .tableFull, some .granted),
      (.idle, .idle, some .outletBusy)) := by decide +kernel

theorem witness_OffersAreRouted_limits : (vesselRec operating.part 0).role = .feed ∧
    (vesselRec operating.part 1).role = .reuse ∧
    ((vesselRec operating.part 2).role ≠ .feed ∧ (vesselRec operating.part 2).role ≠ .reuse) := by decide +kernel

/-- The widths of the items of READ MOVEMENTS and READ GATE, counted from R199 and 12.6, and of a DAY END with an allowance
absent. -/
theorem test_widths : (wMovement dischargeA).length = 47 ∧ (wQueuedLot ⟨1, 1, 20500, 2870000, true⟩).length = 26 ∧
    (wRunning (3, some 1, 400, 56000)).length = 16 ∧ (wNoticeBody (.dayEnd 22550 500100 (some 500000) none 21600)).length =
      4 + 7 + (1 + 4) + (1 + 3) + 3 ∧
    (wOpt 2 wOutcome (some (.refused .tableFull))).length = 3 := by decide +kernel
/-! ## Ports apart, a refused selection, held owners, AUTO pops, readings in FAILED -/

/-- Two movements that share no port; a RETURN and a SLUG into one inlet share it, two FILLs share the makeup entry alone. -/
theorem witness_TablesStayInForm_ports : (withMoves [returnA .running, slugA .running] operating.part).mov.portsApart ∧
    ¬ (withMoves [returnA .running, { slugA .ready with dest := .vesselInlet 0 }] operating.part).mov.portsApart ∧
    (move 4 .fill .mains (.vesselInlet 0) .running).apart (move 5 .fill .mains .makeupEntry .running) := by decide +kernel

/-- A selection whose start is made, and one that meets a full table: the gate runs, or shows the reason. -/
theorem test_selectionStarts :
    (let q := selectLot operating.books (queued operating.part)
     q.gate.state = .running ∧ q.gate.outcome = some .started ∧ q.gate.queue = [] ∧
      q.lot.lots.map Lot.state = [.discharging]) ∧
    (let q := selectLot operating.books (withMoves (List.replicate 12 (slugA .running)) (queued operating.part))
     q.gate.state = .open_ ∧ q.gate.outcome = some (.refused .tableFull) ∧ q.gate.queue = [(1, 1)] ∧
      q.lot.lots.map Lot.state = [.cleared]) := by decide +kernel

/-- A frame tells the spill it holds, and a cell in CHARGING but not one in PLATING. -/
theorem test_ownersHeld :
    ((holdOwners (holding (move 4 .spill (.vesselOutlet 1) (.vesselInlet 2) .running)) operating.part).reg.spill,
      (cellRec (holdOwners (frameA .cellFault (.cell 0) .present) (cellIn .charging operating.part)) 0).step,
      (cellRec (holdOwners (frameA .cellFault (.cell 0) .present) (cellIn .plating operating.part)) 0).step) =
    (.waiting .held, .waiting .held, .idle) := by decide +kernel

/-- Under the popped frame an AUTO frame that has held pops too, and a MANUAL one below it stays. -/
theorem test_autoPops : (let f := frameA .vesselOverflow (.vessel 1) .cleared
      let stack := [{ f with policy := .manual }, { f with holdLeft := some 0 }, frameA .flowStall (.movement 1) .cleared]
      let p := withFrames stack operating.part
      ((popOnce operating.books .resume p).flt.stack.length, topPops (popOnce operating.books .resume p),
        (popFrame operating.books .resume p).flt.stack.map Frame.policy)) = (2, true, [.manual]) := by decide +kernel

/-- An invalid silver reading in FAILED makes the last one absent and raises nothing; in STARTING it is passed over. -/
theorem test_readingsOutOfService : (let s (m : Mode) := plant m equipped (filled 1000)
      let seen (m : Mode) := (after (.outfallSilverReading none) (s m)).map (fun t =>
        (t.part.gate.silver, t.part.flt.stack.length))
      (seen .failed, seen .starting)) = (some (none, 0), some (some 20, 0)) := by decide +kernel

end Sys2Proof.Tests
end

