-- ==== Sys2Proof/Proofs/Bookkeeping.lean ====
section
/-! SUPPORT. The books through one step: the requests whose owners book nothing, what a command does to the books, and
from these the statements of chapter 1 on bookings (R7), the laws (R16) and READ ACCOUNTS (R17). -/

namespace Sys2Proof.Machine

/-! ## One figure after a write of the same kind -/

@[simp] theorem vessel_setVessel (v w : VesselId) (h : Holding) (b : Books) :
    (b.setVessel v h).vessel w = if w = v then h else b.vessel w := get_updAt _ _ _ _
@[simp] theorem liquor_setLiquor (c d : CellId) (h : Holding) (b : Books) :
    (b.setLiquor c h).liquor d = if d = c then h else b.liquor d := get_updAt _ _ _ _
@[simp] theorem cathode_setCathode (c d : CellId) (m : Nat) (b : Books) :
    (b.setCathode c m).cathode d = if d = c then m else b.cathode d := get_updAt _ _ _ _
@[simp] theorem liquor_setCathode (c d : CellId) (m : Nat) (b : Books) :
    (b.setCathode c m).liquor d = b.liquor d := rfl
@[simp] theorem vessel_acc (b : Books) (a : Accounts) (v : VesselId) :
    Books.vessel { b with acc := a } v = b.vessel v := rfl
@[simp] theorem cathode_acc (b : Books) (a : Accounts) (c : CellId) :
    Books.cathode { b with acc := a } c = b.cathode c := rfl

/-! ## Owners that book nothing -/

/-- The owner of a request leaves the books as they were. -/
def KeepsBooks (take : Plant → Plant × Reply) : Prop := ∀ q, (take q).1.books = q.books

/-! With these a proof reads the books of an answered plant without computing its part. -/

@[simp] theorem refuse_fst (st : Status) (q : Plant) : (refuse st q).1 = q := rfl
@[simp] theorem okay_fst (q : Plant) : (okay q).1 = q := rfl

theorem KeepsBooks.inService {take : Plant → Plant × Reply} (h : KeepsBooks take) :
    KeepsBooks (inService take) := by
  intro q
  unfold Machine.inService
  split
  · exact h q
  · rfl

theorem KeepsBooks.named {α : Type} {thing : Option α} {take : α → Plant → Plant × Reply}
    (h : ∀ x, KeepsBooks (take x)) : KeepsBooks (named thing take) := by
  intro q
  cases thing with
  | none => rfl
  | some x => exact h x q

theorem KeepsBooks.onLot {n : Nat} {take : Lot → Plant → Plant × Reply} (h : ∀ l, KeepsBooks (take l)) :
    KeepsBooks (onLot n take) := by
  refine KeepsBooks.inService fun q => ?_
  split
  · rfl
  · exact h _ q

theorem KeepsBooks.onTopFrame {depth : Nat} {take : Frame → Plant → Plant × Reply}
    (h : ∀ f, KeepsBooks (take f)) : KeepsBooks (onTopFrame depth take) := by
  intro q
  unfold Machine.onTopFrame
  split
  · rfl
  · split
    · rfl
    · split
      · exact h _ q
      · rfl

theorem Booked.of_eq {b c : Books} (h : c = b) : Booked b c := h ▸ .refl b

/-- A request whose owner books nothing leaves the books as they were, wherever it finds its place. -/
theorem booked_request_of_keepsBooks (n kind : Byte) {take : Plant → Plant × Reply} (h : KeepsBooks take)
    (q : Plant) : Booked q.books (request n kind take q).books :=
  booked_request n kind take q (.of_eq (h q))

/-! ## The general requests (chapter 11) -/

theorem keepsBooks_takeEnterOperating : KeepsBooks takeEnterOperating := by
  intro q
  unfold takeEnterOperating
  split
  · rfl
  · rfl
  · rfl
  · rfl
  · split
    · simp only [okay_fst]
    · rfl

theorem keepsBooks_takeEnterCommissioning : KeepsBooks takeEnterCommissioning := by
  intro q
  unfold takeEnterCommissioning
  split <;> simp only [okay_fst, refuse_fst]

theorem keepsBooks_takeManualOutput (i : ManualItems) : KeepsBooks (takeManualOutput i) := by
  intro q
  unfold takeManualOutput
  split
  · rfl
  · split <;> simp only [okay_fst, refuse_fst]

/-! ## Vessels, movements and lots (chapters 1 to 3) -/

theorem keepsBooks_setVesselOf (i : VesselItems) (v : VesselId) : KeepsBooks (setVesselOf i v) := by
  intro q
  dsimp only [setVesselOf]
  split
  · rfl
  · split <;> rfl

theorem keepsBooks_sealLotOf (l : Lot) : KeepsBooks (sealLotOf l) := by
  intro q
  dsimp only [sealLotOf]
  split <;> rfl

theorem keepsBooks_holdLotOf (l : Lot) : KeepsBooks (holdLotOf l) := by
  intro q
  unfold holdLotOf
  split <;> rfl

theorem keepsBooks_releaseLotOf (l : Lot) : KeepsBooks (releaseLotOf l) := by
  intro q
  unfold releaseLotOf
  split <;> rfl

theorem keepsBooks_rejectLotOf (l : Lot) : KeepsBooks (rejectLotOf l) := by
  intro q
  unfold rejectLotOf
  split <;> rfl

theorem keepsBooks_readLotOf (l : Option Lot) : KeepsBooks (readLotOf l) := by
  intro q
  cases l <;> rfl

theorem keepsBooks_takeReadLot (n : Nat) (byVessel : Bool) : KeepsBooks (takeReadLot n byVessel) := by
  refine KeepsBooks.inService fun q => ?_
  split
  · exact KeepsBooks.named (fun v x => keepsBooks_readLotOf (lotOf v x.part) x) q
  · exact keepsBooks_readLotOf _ q

theorem keepsBooks_takeSetLotTimes (i : LotTimeItems) : KeepsBooks (takeSetLotTimes i) := by
  refine KeepsBooks.inService fun q => ?_
  dsimp only
  split <;> rfl

theorem keepsBooks_takeSetMovementTimes (i : MovementTimeItems) : KeepsBooks (takeSetMovementTimes i) := by
  refine KeepsBooks.inService fun q => ?_
  dsimp only
  split <;> rfl

/-! ## Sources and the Field Link (chapters 4 and 5) -/

theorem keepsBooks_setSourceTo (t : Tag) (i : SourceItems) (u : UnitId) : KeepsBooks (setSourceTo t i u) := by
  intro q
  unfold setSourceTo
  repeat' split
  all_goals rfl

theorem keepsBooks_removeSourceOf (t : Tag) : KeepsBooks (removeSourceOf t) := by
  intro q
  unfold removeSourceOf
  split <;> rfl

theorem keepsBooks_iterate (e : Option SourceEntry) (atEnd : Option Tag) : KeepsBooks (iterate e atEnd) := by
  intro q
  cases e <;> rfl

theorem keepsBooks_takeReadSourceNext : KeepsBooks takeReadSourceNext := by
  refine KeepsBooks.inService fun q => ?_
  split
  · rfl
  · exact keepsBooks_iterate _ _ q

theorem keepsBooks_takeSetAging (period : Nat) (pol : UnknownPolicy) : KeepsBooks (takeSetAging period pol) := by
  refine KeepsBooks.inService fun q => ?_
  dsimp only
  split <;> rfl

theorem keepsBooks_setUnitOf (enabled learning : Option Bool) (u : UnitId) :
    KeepsBooks (setUnitOf enabled learning u) := by
  intro q
  dsimp only [setUnitOf]
  split <;> rfl

theorem keepsBooks_takeSetRouting (i : RoutingItems) : KeepsBooks (takeSetRouting i) := by
  refine KeepsBooks.inService fun q => ?_
  dsimp only
  split <;> rfl

/-! ## Regulation, cells and the gate (chapters 6 to 8) -/

theorem keepsBooks_takeRegulationOn : KeepsBooks takeRegulationOn := by
  refine KeepsBooks.inService fun q => ?_
  dsimp only
  repeat' split
  all_goals rfl

theorem keepsBooks_takeRegulationOff : KeepsBooks takeRegulationOff := by
  refine KeepsBooks.inService fun q => ?_
  split <;> rfl

theorem keepsBooks_setCellOf (i : CellItems) (c : CellId) : KeepsBooks (setCellOf i c) := by
  intro q
  unfold setCellOf
  split
  · rfl
  · split <;> rfl

theorem keepsBooks_takeSetCell (n : Nat) (i : CellItems) : KeepsBooks (takeSetCell n i) := by
  intro q
  unfold takeSetCell
  split
  · exact KeepsBooks.named (keepsBooks_setCellOf i) q
  · rfl

theorem keepsBooks_cellOnOf (c : CellId) : KeepsBooks (cellOnOf c) := by
  intro q
  dsimp only [cellOnOf]
  split <;> rfl

theorem keepsBooks_cellOffOf (c : CellId) : KeepsBooks (cellOffOf c) := by
  intro q
  unfold cellOffOf
  split <;> rfl

theorem keepsBooks_harvestOf (c : CellId) : KeepsBooks (harvestOf c) := by
  intro q
  unfold harvestOf
  split <;> rfl

theorem keepsBooks_takeSetWindows (w1 w2 : Option Window) : KeepsBooks (takeSetWindows w1 w2) := by
  refine KeepsBooks.inService fun q => ?_
  dsimp only
  split <;> rfl

theorem keepsBooks_takeSetLimits (i : LimitItems) : KeepsBooks (takeSetLimits i) := by
  refine KeepsBooks.inService fun q => ?_
  split <;> rfl

theorem keepsBooks_takeSetClock (t : Nat) : KeepsBooks (takeSetClock t) := by
  refine KeepsBooks.inService fun q => ?_
  repeat' split
  all_goals rfl

/-! ## Patterns and faults (chapters 9 and 10) -/

theorem keepsBooks_setPatternOf (i : PatternItems) (k : PatternId) : KeepsBooks (setPatternOf i k) := by
  intro q
  unfold setPatternOf
  repeat' split
  all_goals rfl

theorem keepsBooks_patternOnOf (k : PatternId) : KeepsBooks (patternOnOf k) := by
  intro q
  dsimp only [patternOnOf]
  repeat' split
  all_goals rfl

theorem keepsBooks_patternOffOf (k : PatternId) : KeepsBooks (patternOffOf k) := by
  intro q
  dsimp only [patternOffOf]
  split <;> rfl

theorem keepsBooks_alarmTakeOf (k : PatternId) : KeepsBooks (alarmTakeOf k) := by
  intro q
  unfold alarmTakeOf
  split <;> rfl

theorem keepsBooks_alarmClearOf (k : PatternId) : KeepsBooks (alarmClearOf k) := by
  intro q
  unfold alarmClearOf
  split <;> rfl

theorem keepsBooks_setResponseOf (i : ResponseItems) (row : Fin 16) : KeepsBooks (setResponseOf i row) := by
  intro q
  unfold setResponseOf
  split <;> rfl

theorem keepsBooks_takeSetFaultResponse (code : Nat) (i : ResponseItems) :
    KeepsBooks (takeSetFaultResponse code i) := by
  intro q
  unfold takeSetFaultResponse
  split
  · exact KeepsBooks.named (keepsBooks_setResponseOf i) q
  · rfl

theorem keepsBooks_resumeTop (f : Frame) :
    KeepsBooks (fun r => if f.condition = .cleared then popAnswer .resume f r else refuse .wrongState r) := by
  intro q
  dsimp only
  split <;> rfl

theorem keepsBooks_takeLockdown : KeepsBooks takeLockdown := by
  intro q
  unfold takeLockdown
  split <;> simp only [okay_fst, refuse_fst]

theorem keepsBooks_takeRelease : KeepsBooks takeRelease := by
  intro q
  unfold takeRelease
  split
  · split
    · simp only [okay_fst]
    · rfl
  · rfl

/-! ## Every request and every command -/

/-- Every request books by `Books.book` alone; three of the 54 book at all: ADOPT LEVEL, VERDICT and HARVEST DONE. -/
theorem booked_serve (n : Byte) (r : Request) (q : Plant) : Booked q.books (serve n r q).books := by
  cases r with
  | adoptLevel v => exact booked_request n _ _ q (booked_takeAdoptLevel v q)
  | verdict i => exact booked_request n _ _ q (booked_takeVerdict i q)
  | harvestDone c w => exact booked_request n _ _ q (booked_takeHarvestDone c w q)
  | identify | status | setRegulation => exact booked_request_of_keepsBooks n _ (fun _ => rfl) q
  | restart => exact booked_request n _ _ q (booked_takeRestart q)
  | enterOperating => exact booked_request_of_keepsBooks n _ keepsBooks_takeEnterOperating q
  | enterCommissioning => exact booked_request_of_keepsBooks n _ keepsBooks_takeEnterCommissioning q
  | manualOutput i => exact booked_request_of_keepsBooks n _ (keepsBooks_takeManualOutput i) q
  | readInputs | readAccounts | readMovements | readClosedLots | readGate | readFaults =>
    exact booked_request_of_keepsBooks n _ (KeepsBooks.inService fun _ => rfl) q
  | readVessel | readCell | readPattern | readUnit =>
    exact booked_request_of_keepsBooks n _ (KeepsBooks.named fun _ _ => rfl).inService q
  | setVessel v i => exact booked_request_of_keepsBooks n _ (KeepsBooks.named (keepsBooks_setVesselOf i)).inService q
  | setMovementTimes i => exact booked_request_of_keepsBooks n _ (keepsBooks_takeSetMovementTimes i) q
  | sealLot l => exact booked_request_of_keepsBooks n _ (KeepsBooks.onLot keepsBooks_sealLotOf) q
  | holdLot l => exact booked_request_of_keepsBooks n _ (KeepsBooks.onLot keepsBooks_holdLotOf) q
  | releaseLot l => exact booked_request_of_keepsBooks n _ (KeepsBooks.onLot keepsBooks_releaseLotOf) q
  | rejectLot l => exact booked_request_of_keepsBooks n _ (KeepsBooks.onLot keepsBooks_rejectLotOf) q
  | readLot l byVessel => exact booked_request_of_keepsBooks n _ (keepsBooks_takeReadLot l byVessel) q
  | setLotTimes i => exact booked_request_of_keepsBooks n _ (keepsBooks_takeSetLotTimes i) q
  | setSource tag i =>
    exact booked_request_of_keepsBooks n _
      (KeepsBooks.named fun t => KeepsBooks.named (keepsBooks_setSourceTo t i)).inService q
  | removeSource tag => exact booked_request_of_keepsBooks n _ (KeepsBooks.named keepsBooks_removeSourceOf).inService q
  | readSourceFirst =>
    exact booked_request_of_keepsBooks n _ (KeepsBooks.inService fun r => keepsBooks_iterate _ none r) q
  | readSourceNext => exact booked_request_of_keepsBooks n _ keepsBooks_takeReadSourceNext q
  | setAging period policy => exact booked_request_of_keepsBooks n _ (keepsBooks_takeSetAging period policy) q
  | setUnit u enabled learning =>
    exact booked_request_of_keepsBooks n _ (KeepsBooks.named (keepsBooks_setUnitOf enabled learning)).inService q
  | setRouting i => exact booked_request_of_keepsBooks n _ (keepsBooks_takeSetRouting i) q
  | regulationOn => exact booked_request_of_keepsBooks n _ keepsBooks_takeRegulationOn q
  | regulationOff => exact booked_request_of_keepsBooks n _ keepsBooks_takeRegulationOff q
  | setCell c i => exact booked_request_of_keepsBooks n _ (keepsBooks_takeSetCell c i) q
  | cellOn c => exact booked_request_of_keepsBooks n _ (KeepsBooks.named keepsBooks_cellOnOf).inService q
  | cellOff c => exact booked_request_of_keepsBooks n _ (KeepsBooks.named keepsBooks_cellOffOf).inService q
  | harvest c => exact booked_request_of_keepsBooks n _ (KeepsBooks.named keepsBooks_harvestOf).inService q
  | setWindows w1 w2 => exact booked_request_of_keepsBooks n _ (keepsBooks_takeSetWindows w1 w2) q
  | setLimits i => exact booked_request_of_keepsBooks n _ (keepsBooks_takeSetLimits i) q
  | setClock t => exact booked_request_of_keepsBooks n _ (keepsBooks_takeSetClock t) q
  | setPattern k i => exact booked_request_of_keepsBooks n _ (KeepsBooks.named (keepsBooks_setPatternOf i)).inService q
  | patternOn k => exact booked_request_of_keepsBooks n _ (KeepsBooks.named keepsBooks_patternOnOf).inService q
  | patternOff k => exact booked_request_of_keepsBooks n _ (KeepsBooks.named keepsBooks_patternOffOf).inService q
  | alarmTake k => exact booked_request_of_keepsBooks n _ (KeepsBooks.named keepsBooks_alarmTakeOf).inService q
  | alarmClear k => exact booked_request_of_keepsBooks n _ (KeepsBooks.named keepsBooks_alarmClearOf).inService q
  | setFaultResponse code i => exact booked_request_of_keepsBooks n _ (keepsBooks_takeSetFaultResponse code i) q
  | resume depth =>
    exact booked_request_of_keepsBooks n _ (KeepsBooks.onTopFrame keepsBooks_resumeTop).inService q
  | abandon depth =>
    exact booked_request_of_keepsBooks n _ (KeepsBooks.onTopFrame fun _ _ => rfl).inService q
  | lockdown => exact booked_request_of_keepsBooks n _ keepsBooks_takeLockdown q
  | release => exact booked_request_of_keepsBooks n _ keepsBooks_takeRelease q

/-- A frame that names no request, or whose body is not read, books nothing; any other is its request (R194). -/
theorem booked_acceptFrame (f : RawFrame) (q : Plant) : Booked q.books (acceptFrame f q).books := by
  unfold acceptFrame
  split
  · exact booked_request_of_keepsBooks _ _ (fun _ => rfl) q
  · exact booked_request_of_keepsBooks _ _ (fun _ => rfl) q
  · exact booked_request_of_keepsBooks _ _ (fun _ => rfl) q
  · exact booked_serve _ _ q

theorem booked_receive (bytes : List Byte) (q : Plant) : Booked q.books (receive bytes q).books :=
  booked_foldl (fun x f => acceptFrame f x) (fun x f => booked_acceptFrame f x) _
    { q with part := { q.part with link :=
      { q.part.link with rx := (scan (q.part.link.rx ++ bytes).length (q.part.link.rx ++ bytes)).2 } } }

theorem booked_restartLineActive (q : Plant) : Booked q.books (restartLineActive q).books := by
  unfold restartLineActive
  split
  · exact .refl _
  · dsimp only
    split
    · exact .refl _
    · exact booked_restartPlant { q with part := { q.part with ctl := { q.part.ctl with restartLine := true } } }

/-- The books after a line command are those its function left. -/
theorem lineCommand_books {f : Plant → Plant} {s t : State} (h : lineCommand f s = .next t) :
    t.books = (f ⟨s.books, s.begun⟩).books := by
  rw [lineCommand_next] at h
  cases h
  rfl

theorem booked_lineCommand {f : Plant → Plant} {s t : State} (h : lineCommand f s = .next t)
    (hf : ∀ q, Booked q.books (f q).books) : Booked s.books t.books :=
  lineCommand_books h ▸ hf ⟨s.books, s.begun⟩

/-- A command whose function books, or one that is not taken while RESET is held, books by `Books.book` alone. -/
theorem booked_command {f : Plant → Plant} {s t : State} (h : command f s = .next t)
    (hf : ∀ q, Booked q.books (f q).books) : Booked s.books t.books := by
  refine booked_lineCommand h fun q => ?_
  split
  · exact .refl _
  · exact hf q

theorem booked_partCommand {f : Books → Part → Part} {s t : State} (h : partCommand f s = .next t) :
    Booked s.books t.books := booked_command h fun q => .refl q.books

/-- The row of a request takes it through `serve`. -/
theorem exec_of_requestOf {c : Instr} {n : Byte} {r : Request} (h : requestOf c = some (n, r)) (s : State) :
    exec c s = command (serve n r) s := by
  cases c <;> cases h <;> rfl

/-- What a command does to the books: a cold reset makes them new, and every other books by `Books.book` alone. -/
theorem exec_books {c : Instr} {s t : State} (h : exec c s = .next t) :
    (c = .coldReset ∧ t.books = Books.reset) ∨ Booked s.books t.books := by
  cases hr : requestOf c with
  | some nr =>
    obtain ⟨n, r⟩ := nr
    rw [exec_of_requestOf hr] at h
    exact .inr (booked_command h (booked_serve n r))
  | none =>
    cases c with
    | coldReset => exact .inl ⟨rfl, lineCommand_books h⟩
    | supervisoryFrameAccepted bytes | supervisoryFrameDiscarded bytes =>
      exact .inr (booked_command h (booked_receive bytes))
    | transmitComplete => exact .inr (booked_command h booked_transmitEnds)
    | restartLine => exact .inr (booked_lineCommand h booked_restartLineActive)
    | resetAssert | restartLineInactive | cellFaultInput | inputChange =>
      dsimp only [exec, execResetAssert, execRestartLineInactive, execCellFaultInput, execInputChange] at h
      exact .inr (booked_lineCommand h (fun q => .refl q.books))
    | fieldAnswerInvalid bytes => exact .inr (booked_command h (booked_answerOfBytes bytes))
    | unitIdle | unitOffer | unitDone => exact .inr (booked_command h (booked_fieldAnswer _))
    | transferTimeout mv => exact .inr (booked_command h (booked_transferTimeout mv))
    | meterQuantum meter => exact .inr (booked_command h (booked_meterQuantum meter))
    | reuseDrawQuantum => exact .inr (booked_command h booked_drawQuantum)
    | sampleEnd lot => exact .inr (booked_command h (booked_sampleEnds lot))
    | cellProbeReading c reading => exact .inr (booked_command h (booked_probeReading c reading))
    | receiveGapTimeout | selfTestEnd | fieldTurn | fieldReplyTimeout | travelElapsed | stallTimeout | levelReading
    | fillAgeExpiry | settleExpiry | verdictExpiry | agingExpiry | runLimitExpiry | clockTick | outfallSilverReading
    | outfallPhReading | probeSilenceTimeout | excursionExpiry | phPersistenceExpiry | autoHoldExpiry =>
      dsimp only [exec, execReceiveGapTimeout, execSelfTestEnd, execFieldTurn, execFieldReplyTimeout,
        execTravelElapsed, execStallTimeout, execLevelReading, execFillAgeExpiry, execSettleExpiry, execVerdictExpiry,
        execAgingExpiry, execRunLimitExpiry, execClockTick, execOutfallSilverReading, execOutfallPhReading,
        execProbeSilenceTimeout, execExcursionExpiry, execPhPersistenceExpiry, execAutoHoldExpiry] at h
      exact .inr (booked_partCommand h)
    | _ => cases hr

/-- What a step does to the books: the queue it takes from is no figure of theirs. -/
theorem step_books {s t : State} (h : step s = .next t) : t.books = Books.reset ∨ Booked s.books t.books := by
  unfold step at h
  split at h
  · cases h
    exact .inr (.refl _)
  · next c rest _ => exact (exec_books (s := { s with pending := rest }) h).imp And.right id

/-- What holds at cold reset and is kept by every sound booking, every step keeps. -/
theorem step_keeps_books {P : Books → Prop} (h0 : P Books.reset) (hb : ∀ k b, k.sound → P b → P (b.book k))
    {s t : State} (hs : P s.books) (h : step s = .next t) : P t.books := by
  rcases step_books h with e | k
  · exact e ▸ h0
  · exact k.keeps hb hs

/-! ## The conservation laws (R16) -/

/-- At cold reset every holder and every account is 0. -/
theorem reset_balanced : Books.reset.balanced := by decide

/-- The figures that an admission, a makeup and a mass correction change on their two sides (R6, R48, R93). -/
theorem book_inflow_figures (b : Books) (v : VesselId) (x m : Nat) :
    (b.book (.admission v x m)).vessel v = ⟨(b.vessel v).volume + x, (b.vessel v).mass + m⟩ ∧
    (b.book (.makeup v x)).vessel v = ⟨(b.vessel v).volume + x, (b.vessel v).mass⟩ ∧
    (b.book (.massCorrection v x)).vessel v = ⟨(b.vessel v).volume, x * (b.vessel v).volume⟩ := by
  simp [Books.book, Holding.add]

/-- The figures that plating and a harvest change on their two sides (R123, R128). -/
theorem book_cathode_figures (b : Books) (c : CellId) (x : Nat) :
    let moved := (b.liquor c).mass - x * (b.liquor c).volume
    (b.book (.plating c x)).liquor c = ⟨(b.liquor c).volume, (b.liquor c).mass - moved⟩ ∧
    (b.book (.plating c x)).cathode c = b.cathode c + moved ∧
    (b.book (.harvest c x)).cathode c = 0 := by
  simp [Books.book]

/-- Settles O3: each booking by `book_balanced`, each step because it books by `Books.book` alone or makes the books
new (`step_books`), the figures from the writes of each booking. -/
theorem conservationLawsAreKept : Obligations.ConservationLawsAreKept := by
  refine ⟨book_balanced, fun s t hs h => ?_, reset_balanced, fun b v x m => ?_, fun b c x => ?_⟩
  · exact step_keeps_books (P := Books.balanced) reset_balanced (fun k b _ => book_balanced k b) hs h
  · obtain ⟨admission, makeup, correction⟩ := book_inflow_figures b v x m
    exact ⟨admission, rfl, makeup, rfl, correction, rfl⟩
  · obtain ⟨liquor, cathode, harvested⟩ := book_cathode_figures b c x
    exact ⟨liquor, cathode, rfl, harvested, rfl⟩

/-! ## The proportional mass rule (R7) -/

/-- From a holder with volume the mass that leaves is the whole part of M × v / V, all of M among it when v is V. -/
theorem take_mg_of_pos (want : Nat) (h : Holding) (hv : 0 < h.volume) :
    (h.take want).mg = h.mass * (h.take want).litres / h.volume := by
  simp only [Holding.take, if_neg (Nat.ne_of_gt hv)]
  split
  · next e => rw [e, Nat.mul_div_cancel _ hv]
  · rfl

/-- With the last litre all the mass leaves. -/
theorem take_mg_of_all (want : Nat) (h : Holding) (hv : 0 < h.volume) (e : (h.take want).litres = h.volume) :
    (h.take want).mg = h.mass := by
  rw [take_mg_of_pos want h hv, e, Nat.mul_div_cancel _ hv]

/-- Nothing leaves a holder that books no volume. -/
theorem take_of_empty (want : Nat) (h : Holding) (hv : h.volume = 0) :
    (h.take want).litres = 0 ∧ (h.take want).mg = 0 := by
  simp [Holding.take, hv]

/-- The figures on the two sides of a transfer between two vessels (R7). -/
theorem book_vesselToVessel_figures (b : Books) (s d : VesselId) (w : Nat) (hsd : s ≠ d) :
    (b.book (.vesselToVessel s d w)).vessel s = ((b.vessel s).take w).left ∧
    (b.book (.vesselToVessel s d w)).vessel d =
      (b.vessel d).add ((b.vessel s).take w).litres ((b.vessel s).take w).mg := by
  simp [Books.book, hsd, hsd.symm]

/-- The figures on the two sides of a CHARGE and of a DRAIN (R7). -/
theorem book_cellTransfer_figures (b : Books) (v : VesselId) (c : CellId) (w : Nat) :
    (b.book (.vesselToCell v c w)).vessel v = ((b.vessel v).take w).left ∧
    (b.book (.vesselToCell v c w)).liquor c =
      (b.liquor c).add ((b.vessel v).take w).litres ((b.vessel v).take w).mg ∧
    (b.book (.cellToVessel c v w)).liquor c = ((b.liquor c).take w).left ∧
    (b.book (.cellToVessel c v w)).vessel v =
      (b.vessel v).add ((b.liquor c).take w).litres ((b.liquor c).take w).mg := by
  simp [Books.book]

/-- What a discharge, a draw and a sample leave in the vessel (R7). -/
theorem book_outflow_vessel (b : Books) (v : VesselId) (w : Nat) :
    (b.book (.discharge v w)).vessel v = ((b.vessel v).take w).left ∧
    (b.book (.draw v w)).vessel v = ((b.vessel v).take w).left ∧
    (b.book (.sample v w)).vessel v = ((b.vessel v).take w).left := by
  simp [Books.book]

/-- Settles O8: the rule from the equations of `Holding.take`, the other place from the writes of each booking. -/
theorem proportionalMassRule : Obligations.ProportionalMassRule := by
  refine ⟨fun want h => ?_, book_vesselToVessel_figures, book_cellTransfer_figures, fun b v w => ?_⟩
  · have all_leaves (hv : 0 < h.volume) (e : (h.take want).litres = h.volume) :
        (h.take want).mg = h.mass ∧ (h.take want).left.mass = 0 := by
      have hm := take_mg_of_all want h hv e
      exact ⟨hm, by have := take_mass want h; omega⟩
    exact ⟨rfl, take_mg_of_pos want h, all_leaves, take_of_empty want h, rfl, take_mg_le want h⟩
  · obtain ⟨discharge, draw, sample⟩ := book_outflow_vessel b v w
    exact ⟨discharge, draw, sample, rfl, rfl, rfl⟩

/-! ## READ ACCOUNTS (R17) -/

/-- Settles O24: the request changes nothing and replies the report in service, the status alone elsewhere. -/
theorem readAccountsCarriesTheSums : Obligations.ReadAccountsCarriesTheSums := fun n s hp =>
  ⟨fun hm => request_told (n := n) (kind := 0x0B) hp (inService_in _ ⟨s.books, s.begun⟩ hm),
   fun hm => request_told (n := n) (kind := 0x0B) hp (inService_out _ ⟨s.books, s.begun⟩ hm)⟩

end Sys2Proof.Machine
end

