-- ==== Sys2Proof/Proofs/Settings.lean ====
section
/-! SUPPORT. The settings requests SET LOT TIMES, SET AGING, SET ROUTING and SET FAULT RESPONSE (R60, R76, R98, R166): each
is checked whole and applied together, and a warm restart keeps what they set (R190). -/

namespace Sys2Proof.Machine

/-! ## Checks of the operands -/

/-- An optional item is in its range when it is absent or its value lies there. -/
@[simp] theorem inRange_iff (lo hi : Nat) (x : Option Nat) :
    inRange lo hi x = true ↔ ∀ k, x = some k → lo ≤ k ∧ k ≤ hi := by
  cases x <;> simp [inRange]

theorem lotTimeRanges_iff (i : LotTimeItems) : lotTimeRanges i = true ↔
    (∀ x, i.fillAge = some x → x ≤ 86400) ∧ (∀ x, i.settle = some x → x ≤ 7200) ∧
    (∀ x, i.sampleDuration = some x → 10 ≤ x ∧ x ≤ 600) ∧ (∀ x, i.sampleVolume = some x → 1 ≤ x ∧ x ≤ 20) ∧
    (∀ x, i.verdict = some x → 600 ≤ x ∧ x ≤ 86400) := by
  simp [lotTimeRanges, and_assoc]

theorem routingRanges_iff (i : RoutingItems) : routingRanges i = true ↔
    (∀ x, i.amber = some x → 1 ≤ x ∧ x ≤ 30000) ∧ (∀ x, i.red = some x → 1 ≤ x ∧ x ≤ 30000) ∧
    (∀ x, i.silenceLimit = some x → 2 ≤ x ∧ x ≤ 20) ∧
    (∀ x, i.transferTimeout = some x → 60 ≤ x ∧ x ≤ 3600) := by
  simp [routingRanges, and_assoc]

/-- A number outside 1 to `n` names nothing. -/
theorem indexOf_outside {n k : Nat} (h : ¬ (1 ≤ k ∧ k ≤ n)) : indexOf n k = none := dif_neg h

/-- The number of a thing is its index and one. -/
@[simp] theorem indexOf_succ {n : Nat} (i : Fin n) : indexOf n (i.1 + 1) = some i :=
  dif_pos ⟨Nat.le_add_left 1 i.1, i.2⟩

/-! ## A request that is checked whole -/

/-- A request whose owner applies all of it where a check holds, and refuses it with BAD VALUE and nothing changed
where it fails. -/
theorem request_checked {n kind : Byte} {take : Plant → Plant × Reply} {s : State} {p : Part} {c : Prop} [Decidable c]
    (h : s.hasPlace) (applied : c → take ⟨s.books, s.begun⟩ = okay ⟨s.books, p⟩)
    (refused : ¬ c → take ⟨s.books, s.begun⟩ = refuse .badValue ⟨s.books, s.begun⟩) :
    command (request n kind take) s =
      .next (if c then s.answered n kind { status := .ok } p else s.told n kind { status := .badValue }) := by
  split
  · next hc => exact request_answered h (applied hc)
  · next hc => exact request_told h (refused hc)

/-- Where the mode does not take it, a request taken in service is refused with WRONG MODE. -/
theorem request_outOfService {n kind : Byte} (take : Plant → Plant × Reply) {s : State} (h : s.hasPlace)
    (hm : s.part.ctl.mode.inService = false) :
    command (request n kind (inService take)) s = .next (s.told n kind { status := .wrongMode }) :=
  request_told h (inService_out take ⟨s.books, s.begun⟩ hm)

/-! ## The owners' answers (R60, R76, R98, R166) -/

section Owners

variable {q : Plant}

theorem takeSetLotTimes_inService (i : LotTimeItems) (hm : q.part.ctl.mode.inService = true) :
    takeSetLotTimes i q = if lotTimeRanges i then okay { q with part := { q.part with lot := { q.part.lot with
      times := applyLotTimes i q.part.lot.times } } } else refuse .badValue q :=
  inService_in _ q hm

theorem takeSetAging_inService (period : Nat) (policy : UnknownPolicy) (hm : q.part.ctl.mode.inService = true) :
    takeSetAging period policy q = if 1 ≤ period ∧ period ≤ 240 then
      okay { q with part := { q.part with src := { q.part.src with
        agingPeriod := period, policy := policy, agingLeft := period * 60 } } } else refuse .badValue q :=
  inService_in _ q hm

theorem takeSetRouting_inService (i : RoutingItems) (hm : q.part.ctl.mode.inService = true) :
    takeSetRouting i q =
      if routingRanges i && decide ((applyRouting i q.part.fld.settings).amber < (applyRouting i q.part.fld.settings).red)
      then okay { q with part := { q.part with fld := { q.part.fld with
        settings := applyRouting i q.part.fld.settings } } } else refuse .badValue q :=
  inService_in _ q hm

theorem takeSetFaultResponse_elsewhere (code : Nat) (i : ResponseItems) (hm : q.part.ctl.mode ≠ .commissioning) :
    takeSetFaultResponse code i q = refuse .wrongMode q := if_neg hm

theorem takeSetFaultResponse_commissioning (code : Nat) (i : ResponseItems)
    (hm : q.part.ctl.mode = .commissioning) :
    takeSetFaultResponse code i q = named (indexOf 16 code) (setResponseOf i) q := if_pos hm

/-- A type that does not exist, or a hold out of range, is refused (R166). -/
theorem takeSetFaultResponse_badValue (code : Nat) (i : ResponseItems) (hm : q.part.ctl.mode = .commissioning)
    (bad : ¬ (1 ≤ code ∧ code ≤ 16) ∨ ¬ (10 ≤ i.hold ∧ i.hold ≤ 3600)) :
    takeSetFaultResponse code i q = refuse .badValue q := by
  rw [takeSetFaultResponse_commissioning code i hm]
  rcases bad with noType | noHold
  · rw [indexOf_outside noType]; rfl
  · cases indexOf 16 code with
    | none => rfl
    | some row => exact if_neg noHold

/-- The row of the type takes the whole response and is loaded (R166). -/
theorem takeSetFaultResponse_loads (row : Fin 16) (i : ResponseItems) (hm : q.part.ctl.mode = .commissioning)
    (hold : 10 ≤ i.hold ∧ i.hold ≤ 3600) :
    takeSetFaultResponse (row.1 + 1) i q = okay { q with part := { q.part with flt := { q.part.flt with
      table := q.part.flt.table.set row.1 ⟨i.actions, i.policy, i.hold, true⟩ row.2 } } } := by
  rw [takeSetFaultResponse_commissioning _ i hm, indexOf_succ]
  exact if_pos hold

end Owners

/-! ## The rows of the four requests -/

section Rows

variable {n : Byte} {s : State}

theorem exec_setLotTimes (i : LotTimeItems) (h : s.hasPlace) (hm : s.inService) :
    exec (.setLotTimes n i) s = .next (if lotTimeRanges i
      then s.answered n 0x15 { status := .ok } { s.begun with lot := { s.part.lot with
        times := applyLotTimes i s.part.lot.times } }
      else s.told n 0x15 { status := .badValue }) :=
  have owner := takeSetLotTimes_inService (q := ⟨s.books, s.begun⟩) i hm
  request_checked h (fun hc => owner.trans (if_pos hc)) (fun hc => owner.trans (if_neg hc))

theorem exec_setAging (period : Nat) (policy : UnknownPolicy) (h : s.hasPlace) (hm : s.inService) :
    exec (.setAging n period policy) s = .next (if 1 ≤ period ∧ period ≤ 240
      then s.answered n 0x1A { status := .ok } { s.begun with src := { s.part.src with
        agingPeriod := period, policy := policy, agingLeft := period * 60 } }
      else s.told n 0x1A { status := .badValue }) :=
  have owner := takeSetAging_inService (q := ⟨s.books, s.begun⟩) period policy hm
  request_checked h (fun hc => owner.trans (if_pos hc)) (fun hc => owner.trans (if_neg hc))

theorem exec_setRouting (i : RoutingItems) (h : s.hasPlace) (hm : s.inService) :
    exec (.setRouting n i) s = .next (if routingRanges i && decide
        ((applyRouting i s.part.fld.settings).amber < (applyRouting i s.part.fld.settings).red)
      then s.answered n 0x1D { status := .ok } { s.begun with fld := { s.begun.fld with
        settings := applyRouting i s.part.fld.settings } }
      else s.told n 0x1D { status := .badValue }) :=
  have owner := takeSetRouting_inService (q := ⟨s.books, s.begun⟩) i hm
  request_checked h (fun hc => owner.trans (if_pos hc)) (fun hc => owner.trans (if_neg hc))

end Rows

/-! ## A warm restart keeps the settings (R190) -/

/-- The settings of SET LOT TIMES, SET ROUTING and SET FAULT RESPONSE. -/
def Part.settings (p : Part) : LotTimes × RoutingSettings × Vector Response 16 :=
  (p.lot.times, p.fld.settings, p.flt.table)

/-- The settings stand. -/
theorem settings_of_standing {p q : Part} (h : q.standing = p.standing) : q.settings = p.settings := by
  have stands : q.standing.settings = p.standing.settings := by rw [h]
  exact stands

theorem settings_of_settles {p q : Part} (h : Settles p q) : q.settings = p.settings :=
  settings_of_standing h.standing

/-- Steps 4 and 5 of R190: the emptied stack, the restart values and the armed patterns are no settings, and the rest
settles. -/
theorem settings_restartBlocks (b : Books) (p : Part) : (restartBlocks b p).settings = p.settings := by
  have lots (ls : List Lot) (r : Part) : (ls.foldl (fun q l => restartLot l q) r).settings = r.settings :=
    settings_of_settles (settles_foldl _ (fun _ l k => settles_restartLot l k) ls (.refl r))
  have tables (r : Part) : (restartTables r).settings = r.settings := rfl
  have cells (r : Part) : (settleCells b r).settings = r.settings :=
    settings_of_settles (settles_settleCells b (.refl r))
  have patterns (r : Part) : (armAll r).settings = r.settings := rfl
  have gate (r : Part) : (recomputeGate .mode r).settings = r.settings :=
    settings_of_settles (settles_recomputeGate .mode (.refl r))
  simp only [restartBlocks, gate, patterns, cells, tables, lots]
  rfl

/-- Step 6 of R190. -/
theorem settings_restartRaises (b : Books) (p : Part) : (restartRaises b p).settings = p.settings :=
  settings_of_standing (reaches_restartRaises b (.refl p)).standing

/-! ## The statement -/

/-- Settles O26: the defaults are those of `Part.reset`; a warm restart by `settings_restartBlocks` and
`settings_restartRaises`; the requests by their rows, whose range checks are the stated ones. -/
theorem settingsAreAppliedTogether : Obligations.SettingsAreAppliedTogether := by
  refine ⟨⟨rfl, rfl⟩, fun b p _ => ?_, fun n s h => ⟨fun hm => ?_, fun i hm => ?_, fun period policy hm => ?_,
    fun i hm => ?_, fun code i hm => ?_, fun code i hm bad => ?_, fun row i hm lo hi => ?_⟩⟩
  · have kept := (settings_restartRaises b (restartBlocks b p)).trans (settings_restartBlocks b p)
    obtain ⟨times, rest⟩ := Prod.mk.inj kept
    obtain ⟨routing, table⟩ := Prod.mk.inj rest
    exact ⟨times, routing, table⟩
  · exact ⟨fun _ => request_outOfService _ h hm, fun _ _ => request_outOfService _ h hm,
      fun _ => request_outOfService _ h hm⟩
  · simp only [← lotTimeRanges_iff]
    exact exec_setLotTimes i h hm
  · exact exec_setAging period policy h hm
  · have := exec_setRouting (n := n) i h hm
    simp only [Bool.and_eq_true, routingRanges_iff, decide_eq_true_eq, and_assoc] at this
    exact this
  · exact request_told h (takeSetFaultResponse_elsewhere (q := ⟨s.books, s.begun⟩) code i hm)
  · exact request_told h (takeSetFaultResponse_badValue (q := ⟨s.books, s.begun⟩) code i hm bad)
  · exact request_answered h (takeSetFaultResponse_loads (q := ⟨s.books, s.begun⟩) row i hm ⟨lo, hi⟩)

end Sys2Proof.Machine
end

