-- ==== Sys2Proof/Proofs/Generic.lean ====
section
/-! SUPPORT. What the proofs below use of conditionals and lists and core Lean does not have: they stand without Mathlib. -/

namespace Sys2Proof.Machine

/-- Conditionals whose conditions and branches agree. -/
theorem ite_of_iff {α : Type} {c d : Prop} [Decidable c] [Decidable d] {x y z w : α} (h : c ↔ d) (hx : x = z) (hy : y = w) :
    (if c then x else y) = if d then z else w := ite_congr (propext h) (fun _ => hx) (fun _ => hy)

/-- Two entries of a list under which a function takes no value twice. -/
theorem eq_of_nodup_map {α β : Type} {f : α → β} {l : List α} (h : (l.map f).Nodup) {x y : α} (hx : x ∈ l) (hy : y ∈ l)
    (e : f x = f y) : x = y := by
  induction l with
  | nil => cases hx
  | cons z l ih =>
    obtain ⟨fresh, rest⟩ := List.nodup_cons.mp h
    have apart : ∀ w ∈ l, f z ≠ f w := fun w hw same => fresh (List.mem_map.mpr ⟨w, hw, same.symm⟩)
    rcases List.mem_cons.mp hx with first | hx
    · rcases List.mem_cons.mp hy with second | hy
      · exact first.trans second.symm
      · exact absurd e (first ▸ apart y hy)
    · rcases List.mem_cons.mp hy with second | hy
      · exact absurd e.symm (second ▸ apart x hx)
      · exact ih rest hx hy

/-- Items of one element each. -/
theorem length_flatMap_single {α β : Type} {f : α → List β} (h : ∀ x, (f x).length = 1) (l : List α) :
    (l.flatMap f).length = l.length := by
  induction l with
  | nil => rfl
  | cons x l ih => rw [List.flatMap_cons, List.length_append, h, ih, List.length_cons, Nat.add_comm]

end Sys2Proof.Machine
end

