-- ==== Sys2Proof/Proofs/Invariants.lean ====
section
/-! SUPPORT. The step of the queue, the values at cold reset, and the invariant of the books (R6): an empty holder books
no mass. -/

namespace Sys2Proof.Machine

/-- Settles O1: by cases on the queue. -/
theorem stepRunsTheFrontCommand : Obligations.StepRunsTheFrontCommand :=
  ⟨fun _ _ _ => rfl, fun s h => by simp only [step, h]⟩


/-! ## Empty holders (R6) -/

/-- At cold reset no holder books mass. -/
theorem reset_emptyHoldersClean : Books.reset.emptyHoldersClean := by decide

/-- Settles O4: each sound booking keeps an empty holder without mass, and a step books by sound bookings alone. -/
theorem emptyHoldersBookNoMass : Obligations.EmptyHoldersBookNoMass := fun _ _ hs h =>
  step_keeps_books reset_emptyHoldersClean book_clean hs h

/-! ## Cold reset (R183) -/

/-- Settles O6: at cold reset every table is empty and every figure 0. -/
theorem invariantsHoldAtReset : Obligations.InvariantsHoldAtReset := by
  have noSlug : State.reset.part.mov.slugsFromSumps := fun x hx => absurd hx List.not_mem_nil
  exact ⟨reset_balanced, reset_emptyHoldersClean, by decide, .nil, noSlug, .nil, .nil, rfl, rfl, rfl⟩

/-- Settles O7: the values are those of `Part.reset` and `Books.reset`. -/
theorem resetLeavesTheStatedValues : Obligations.ResetLeavesTheStatedValues := by
  unfold Obligations.ResetLeavesTheStatedValues
  decide

end Sys2Proof.Machine
end

