-- ==== Sys2Proof/Proofs/Lines.lean ====
section
/-! SUPPORT. The plant lines and the transmitter: COLD_RESET, RESET_ASSERT and RESTART_LINE (R183, R190), what is
answered while RESET is held, and the end of a transmission (R196, R197). -/

namespace Sys2Proof.Machine

/-! ## Everything at rest -/

/-- With the RESET line held nothing is begun. -/
theorem pump_held {p : Part} (h : p.ctl.resetHeld = true) : pump p = p := pump_idle p (.inl h)

/-- A part that sends nothing and has nothing to send begins nothing. -/
theorem pump_empty {p : Part} (hb : p.link.buffer = []) (hq : p.link.queue = []) : pump p = p :=
  pump_idle p (.inr (.inr ⟨hb, hq⟩))

/-- Where nothing is begun, the part after a command is the part it left. -/
theorem after_of_idle {s : State} {b : Books} {p : Part} (h : pump p = p) :
    s.after b p = { s with books := b, part := p } := congrArg (fun x => State.mk b x s.pending) h

/-- Every output is at rest while RESET is held and out of service (R183 to R185). -/
theorem commanded_rest (p : Part) (o : OutputId) (h : p.ctl.resetHeld = true ∨ p.ctl.mode.inService = false) :
    commanded p o = false := by
  have rest : outputsRest p = true := by
    rcases h with h | h <;> simp [outputsRest, h]
  simp only [commanded, rest, if_true]

/-! ## Line commands -/

/-- A line command that leaves the part as `p` with the books as they were. -/
theorem lineCommand_after {f : Plant → Plant} {s : State} {b : Books} {p : Part}
    (h : f ⟨s.books, s.begun⟩ = ⟨b, p⟩) : lineCommand f s = .next (s.after b p) := by
  rw [lineCommand_next, h]

/-- A command, taken while RESET is not held, that leaves the books `b` and the part `p`. -/
theorem command_after {f : Plant → Plant} {s : State} {b : Books} {p : Part} (hl : s.live)
    (h : f ⟨s.books, s.begun⟩ = ⟨b, p⟩) : command f s = .next (s.after b p) := by
  rw [command_live f s hl, h]

theorem partCommand_command (f : Books → Part → Part) : ∃ g, ∀ s, partCommand f s = command g s := ⟨_, fun _ => rfl⟩

/-- Every command but those of the lines goes through `command`. -/
theorem exec_command (c : Instr) (h : actsWhileHeld c = false) : ∃ f, ∀ s, exec c s = command f s := by
  cases hr : requestOf c with
  | some nr => exact ⟨_, exec_of_requestOf hr⟩
  | none =>
    cases c with
    | resetAssert | coldReset | restartLine | restartLineInactive | cellFaultInput | inputChange => cases h
    | receiveGapTimeout | selfTestEnd | fieldTurn | fieldReplyTimeout | travelElapsed | stallTimeout | levelReading
    | fillAgeExpiry | settleExpiry | verdictExpiry | agingExpiry | runLimitExpiry | clockTick | outfallSilverReading
    | outfallPhReading | probeSilenceTimeout | excursionExpiry | phPersistenceExpiry | autoHoldExpiry =>
      dsimp only [exec, execReceiveGapTimeout, execSelfTestEnd, execFieldTurn, execFieldReplyTimeout,
        execTravelElapsed, execStallTimeout, execLevelReading, execFillAgeExpiry, execSettleExpiry, execVerdictExpiry,
        execAgingExpiry, execRunLimitExpiry, execClockTick, execOutfallSilverReading, execOutfallPhReading,
        execProbeSilenceTimeout, execExcursionExpiry, execPhPersistenceExpiry, execAutoHoldExpiry]
      exact partCommand_command _
    | supervisoryFrameAccepted | supervisoryFrameDiscarded | transmitComplete | fieldAnswerInvalid | unitIdle
    | unitOffer | unitDone | transferTimeout | meterQuantum | reuseDrawQuantum | sampleEnd | cellProbeReading =>
      exact ⟨_, fun _ => rfl⟩
    | _ => cases hr

/-- Settles O2: a command and a line command both answer a next state with the queue as it was. -/
theorem everyCommandCompletes : Obligations.EveryCommandCompletes := by
  intro c s
  cases hc : actsWhileHeld c with
  | false =>
    obtain ⟨f, hf⟩ := exec_command c hc
    exact ⟨_, (hf s).trans (lineCommand_next _ s), rfl⟩
  | true =>
    cases c with
    | resetAssert | coldReset | restartLine | restartLineInactive | cellFaultInput | inputChange => exact ⟨_, rfl, rfl⟩
    | _ => cases hc

/-- While RESET is held a command that is no line changes nothing (log 33). -/
theorem exec_held (c : Instr) (s : State) (hc : actsWhileHeld c = false) (hr : s.part.ctl.resetHeld = true) :
    exec c s = .next { s with part := s.begun } := by
  obtain ⟨f, hf⟩ := exec_command c hc
  rw [hf, command_held f s hr]
  exact congrArg _ (after_of_idle (pump_held hr))

/-- A cell's record after a cold reset: its fault input, and the rest at its cold-reset values. -/
theorem keepLines_cells (old : Part) :
    (keepLines old Part.reset).cel.cells = old.cel.cells.map (fun r => { faultInput := r.faultInput }) := by
  ext i hi
  simp [keepLines, Part.reset]

/-- Settles O9: the part it leaves has nothing to send, so the transmitter begins nothing. -/
theorem coldResetRestoresEveryBlock : Obligations.ColdResetRestoresEveryBlock := by
  intro s
  have kept : keepLines s.begun Part.reset = { Part.reset with
      pat := { Part.reset.pat with inputs := s.part.pat.inputs }
      cel := { cells := s.part.cel.cells.map (fun r => { faultInput := r.faultInput }) }
      ctl := { Part.reset.ctl with
        restartLine := s.part.ctl.restartLine, readBacks := s.part.ctl.readBacks } } := by
    have cells := keepLines_cells s.begun
    simp only [keepLines] at cells ⊢
    rw [cells]
    rfl
  refine (lineCommand_after (p := keepLines s.begun Part.reset) rfl).trans ?_
  rw [after_of_idle (pump_empty rfl rfl), kept]

/-! ## The RESTART line -/

theorem restartLineActive_again {q : Plant} (h : q.part.ctl.restartLine = true) : restartLineActive q = q :=
  if_pos h

/-- An activation found inactive is recorded, and restarts the part where RESET is not held. -/
theorem restartLineActive_first {q : Plant} (h : q.part.ctl.restartLine = false) :
    restartLineActive q =
      let r : Plant := { q with part := { q.part with ctl := { q.part.ctl with restartLine := true } } }
      if r.part.ctl.resetHeld then r else restartPlant r :=
  if_neg (by simp [h])

theorem restartLineActive_live {q : Plant} (h : q.part.ctl.restartLine = false) (hl : q.part.ctl.resetHeld = false) :
    restartLineActive q =
      restartPlant { q with part := { q.part with ctl := { q.part.ctl with restartLine := true } } } :=
  (restartLineActive_first h).trans (if_neg (by simp [hl]))

/-- In STARTING no restart is made (R190). -/
theorem restartPlant_starting {q : Plant} (h : q.part.ctl.mode = .starting) : restartPlant q = q := by
  simp only [restartPlant, h]

theorem restartPlant_failed {q : Plant} (h : q.part.ctl.mode = .failed) :
    restartPlant q = { q with part := restartSelfTest q.part } := by
  simp only [restartPlant, h]

theorem restartPlant_inService {q : Plant} (h : q.part.ctl.mode.inService = true) :
    restartPlant q = warmRestart q := by
  unfold restartPlant
  split <;> simp_all [Mode.inService]

/-- Settles O10. -/
theorem resetAndRestartLines : Obligations.ResetAndRestartLines := by
  refine ⟨⟨fun s => ?_, commanded_rest, exec_held⟩, fun s => ⟨fun h => ?_, rfl, fun h held => ?_⟩⟩
  · exact (lineCommand_after rfl).trans (congrArg _ (after_of_idle (pump_held rfl)))
  · exact lineCommand_after (restartLineActive_again (q := ⟨s.books, s.begun⟩) h)
  · refine lineCommand_after ((restartLineActive_first (q := ⟨s.books, s.begun⟩) h).trans ?_)
    have ctl : s.begun.ctl = s.part.ctl := rfl
    rcases held with held | starting
    · simp only [ctl, held, if_true]
    · dsimp only
      rw [restartPlant_starting (by exact starting)]
      exact ite_self _

/-! ## A RESTART outside service (R190, R191) -/

theorem exec_restart_ok (n : Byte) {s : State} (h : s.hasPlace) (hm : s.part.ctl.mode ≠ .starting) :
    exec (.restart n) s = .next (s.answered n 0x03 { status := .ok }
      { s.begun with link := { s.begun.link with restarting := true } }) :=
  request_answered h (if_neg hm)

/-- The end of the OK of a RESTART, the last reply of the buffer, makes the restart (log 3). -/
theorem transmitEnds_restart {q : Plant} {t : Transmission} {x : Place} (hr : q.part.link.restarting = true)
    (ht : q.part.link.tx = some t) (hp : t.holdsPlace = true) (hb : q.part.link.buffer = [x]) :
    transmitEnds q = restartPlant { q with part := { q.part with link := { q.part.link with
      tx := none, buffer := [], restarting := false, behind := 0 } } } := by
  simp [transmitEnds, frameEnds, ht, hp, hb, hr, endRestarting]

/-- Settles O12. -/
theorem restartOutsideService : Obligations.RestartOutsideService := by
  intro n s
  refine ⟨fun h hm => ?_, fun h hm => ?_, fun t x hl hm hr ht hp hb => ?_, fun hl h hm => ?_⟩
  · exact request_told (n := n) h (if_pos hm)
  · exact exec_restart_ok n h (by simp [hm])
  · refine (command_after hl ((transmitEnds_restart (q := ⟨s.books, s.begun⟩) hr ht hp hb).trans
      (restartPlant_failed hm))).trans ?_
    exact congrArg _ (after_of_idle (pump_empty rfl rfl))
  · refine (lineCommand_after ((restartLineActive_live (q := ⟨s.books, s.begun⟩) h hl).trans
      (restartPlant_failed hm))).trans ?_
    exact congrArg _ (after_of_idle (pump_empty rfl rfl))

/-! ## The transmitter (R196, R197) -/

theorem pump_reply {p : Part} {r : Place} {rest : List Place} (hl : p.ctl.resetHeld = false) (ht : p.link.tx = none)
    (hb : p.link.buffer = r :: rest) : pump p = { p with link := { p.link with
      tx := some ⟨.reply r, true⟩, sent := p.link.sent ++ [.reply r] } } := by
  simp [pump, hl, ht, hb, beginFrame]

theorem pump_notice {p : Part} {x : Notice} {rest : List Notice} (hl : p.ctl.resetHeld = false)
    (ht : p.link.tx = none) (hb : p.link.buffer = []) (hq : p.link.queue = x :: rest) :
    pump p = { p with link := { p.link with
      tx := some ⟨.notice x, false⟩, queue := rest, sent := p.link.sent ++ [.notice x] } } := by
  simp [pump, hl, ht, hb, hq, beginFrame]

/-- A notice that finds room joins the queue with the mark of the lost flag. -/
theorem notify_joins {body : NoticeBody} {p : Part} (h : p.link.queue.length < 32) :
    notify body p = { p with link := { p.link with
      queue := p.link.queue ++ [⟨p.link.lost, p.gate.clock, body⟩], lost := false } } := if_pos h

theorem notify_dropped {body : NoticeBody} {p : Part} (h : 32 ≤ p.link.queue.length) :
    notify body p = { p with link := { p.link with lost := true } } := if_neg (by omega)

/-- Where no RESTART waits for its end, the end of a frame is that alone. -/
theorem transmitEnds_plain {q : Plant} (h : q.part.link.restarting = false ∨ (frameEnds q.part).link.buffer ≠ []) :
    transmitEnds q = { q with part := frameEnds q.part } := by
  have same : (frameEnds q.part).link.restarting = q.part.link.restarting := by
    unfold frameEnds; split <;> rfl
  refine if_neg ?_
  rcases h with h | h <;> simp [same, h]

/-- Settles O17. -/
theorem transmitterAndNoticeQueue : Obligations.TransmitterAndNoticeQueue := by
  refine ⟨⟨?_, fun p hl ht => ⟨fun r rest => pump_reply hl ht, fun x rest => pump_notice hl ht,
    pump_empty⟩, fun p h => pump_idle p (.inr (.inl h))⟩, fun body p => ⟨notify_joins, notify_dropped⟩⟩
  intro s hl ended h
  have ends : frameEnds s.begun = ended := rfl
  refine command_after hl ((transmitEnds_plain (q := ⟨s.books, s.begun⟩) ?_).trans ?_)
  · rw [ends]; exact h
  · rw [ends]

end Sys2Proof.Machine
end

