-- ==== Sys2Proof/Proofs/Serving.lean ====
section
/-! SUPPORT. How a request finds its owner: the row and the buffer's place (R194), the mode, the thing it names; the
requests that are not taken, and MANUAL OUTPUT with the value commanded on every output (R173, R187). -/

namespace Sys2Proof.Machine

/-! ## The owner of a request -/

/-- In service a request that names a thing that there is comes to that thing. -/
theorem inService_named {α : Type} {thing : Option α} {take : α → Plant → Plant × Reply} {q : Plant} {x : α}
    (hm : q.part.ctl.mode.inService = true) (h : thing = some x) : inService (named thing take) q = take x q := by
  rw [inService_in _ _ hm, h]
  rfl

/-- A request that names nothing is refused with BAD VALUE. -/
theorem inService_unnamed {α : Type} {thing : Option α} {take : α → Plant → Plant × Reply} {q : Plant}
    (hm : q.part.ctl.mode.inService = true) (h : thing = none) :
    inService (named thing take) q = refuse .badValue q := by
  rw [inService_in _ _ hm, h]
  rfl

/-- The row of a request takes it through `serve`. -/
theorem exec_rowOf (n : Byte) (r : Request) (s : State) : exec (rowOf n r) s = command (serve n r) s :=
  exec_of_requestOf (by cases r <;> rfl) s

/-- What the owner of a request that STARTING and FAILED refuse answers there (R101, R195). -/
def outOfService (r : Request) (q : Plant) : Plant × Reply :=
  (q, { status := .wrongMode
        items := match r with
          | .setRegulation _ => .regulation (regulationReport q.part)
          | _ => .none })

theorem takeEnterOperating_outOfService {q : Plant} (h : q.part.ctl.mode.inService = false) :
    takeEnterOperating q = refuse .wrongMode q := by
  unfold takeEnterOperating
  split <;> simp_all [Mode.inService]

theorem takeEnterCommissioning_outOfService {q : Plant} (h : q.part.ctl.mode.inService = false) :
    takeEnterCommissioning q = refuse .wrongMode q := by
  unfold takeEnterCommissioning
  split <;> simp_all [Mode.inService]

theorem takeLockdown_outOfService {q : Plant} (h : q.part.ctl.mode.inService = false) :
    takeLockdown q = refuse .wrongMode q := by
  unfold takeLockdown
  split <;> simp_all [Mode.inService]

/-- Out of service the mode is none of the three. -/
theorem mode_ne_of_outOfService {m k : Mode} (h : m.inService = false) (hk : k.inService = true) : m ≠ k := by
  rintro rfl
  simp [h] at hk

theorem takeAdoptLevel_outOfService (v : Nat) {q : Plant} (h : q.part.ctl.mode.inService = false) :
    takeAdoptLevel v q = refuse .wrongMode q := by
  refine if_neg ?_
  unfold adoptMode
  split <;> simp_all [Mode.inService]

theorem takeSetRegulation_outOfService (i : RegulationItems) {q : Plant} (h : q.part.ctl.mode.inService = false) :
    takeSetRegulation i q = outOfService (.setRegulation i) q := by
  have status : regulationStatus i q.part = .wrongMode := by simp [regulationStatus, h]
  simp [takeSetRegulation, outOfService, status]

theorem onLot_outOfService (n : Nat) (take : Lot → Plant → Plant × Reply) {q : Plant}
    (h : q.part.ctl.mode.inService = false) : onLot n take q = refuse .wrongMode q := inService_out _ q h

/-- A request is taken under its KIND by an owner that refuses it in STARTING and FAILED, unless it is one of the three
that are taken there. -/
theorem serve_request (n : Byte) (r : Request) : ∃ take : Plant → Plant × Reply,
    (∀ q, serve n r q = request n (BitVec.ofNat 8 (requestKind r)) take q) ∧
    (takenInService r = true → ∀ q, q.part.ctl.mode.inService = false → take q = outOfService r q) := by
  cases r with
  | identify | status | restart => exact ⟨_, fun _ => rfl, fun h => absurd h (by decide)⟩
  | enterOperating => exact ⟨_, fun _ => rfl, fun _ _ => takeEnterOperating_outOfService⟩
  | enterCommissioning => exact ⟨_, fun _ => rfl, fun _ _ => takeEnterCommissioning_outOfService⟩
  | lockdown => exact ⟨_, fun _ => rfl, fun _ _ => takeLockdown_outOfService⟩
  | release => exact ⟨_, fun _ => rfl, fun _ _ h => if_neg (mode_ne_of_outOfService h rfl)⟩
  | manualOutput i => exact ⟨_, fun _ => rfl, fun _ _ h => if_pos (mode_ne_of_outOfService h rfl)⟩
  | setCell c i => exact ⟨_, fun _ => rfl, fun _ _ h => if_neg (mode_ne_of_outOfService h rfl)⟩
  | setFaultResponse t i => exact ⟨_, fun _ => rfl, fun _ _ h => if_neg (mode_ne_of_outOfService h rfl)⟩
  | adoptLevel v => exact ⟨_, fun _ => rfl, fun _ _ => takeAdoptLevel_outOfService v⟩
  | setRegulation i => exact ⟨_, fun _ => rfl, fun _ _ => takeSetRegulation_outOfService i⟩
  | sealLot | holdLot | releaseLot | rejectLot => exact ⟨_, fun _ => rfl, fun _ _ => onLot_outOfService _ _⟩
  | _ => exact ⟨_, fun _ => rfl, fun _ q h => inService_out _ q h⟩

/-- Settles O15: the owner refuses by `serve_request`; a full buffer and a waiting RESTART take no owner. -/
theorem requestsThatAreNotTaken : Obligations.RequestsThatAreNotTaken := by
  refine ⟨fun n r s hp hm taken => ?_, fun n r s hl => ⟨fun hf => ?_, fun hf hr => ?_⟩⟩
  all_goals
    obtain ⟨take, served, refused⟩ := serve_request n r
    rw [exec_rowOf, show serve n r = _ from funext served]
  · have out : s.part.ctl.mode.inService = false := by rcases hm with h | h <;> rw [h] <;> rfl
    exact request_told hp (refused taken ⟨s.books, s.begun⟩ out)
  · exact request_full _ _ _ _ hl hf
  · exact request_behind _ _ _ _ hl hr hf

/-! ## MANUAL OUTPUT (R187) -/

theorem mem_allOutputs (o : OutputId) : o ∈ allOutputs := by
  simp [allOutputs, Vector.mem_toList_iff, Vector.mem_ofFn]

/-- The mask names a driven output. -/
theorem masksDriven_iff (i : ManualItems) (p : Part) : masksDriven i p = true ↔
    ∃ o, (i.sets.get o).isSome = true ∧ (drivenValue p (outputAt o)).isSome = true := by
  simp [masksDriven, mem_allOutputs]

theorem takeManualOutput_elsewhere (i : ManualItems) {q : Plant} (h : q.part.ctl.mode ≠ .commissioning) :
    takeManualOutput i q = refuse .wrongMode q := if_pos h

theorem takeManualOutput_commissioning (i : ManualItems) {q : Plant} (h : q.part.ctl.mode = .commissioning) :
    takeManualOutput i q = if masksDriven i q.part then refuse .busy q else
      okay { q with part := { q.part with ctl := { q.part.ctl with
        manual := applyManual i q.part.ctl.manual } } } := if_neg (by simp [h])

/-- A masked output takes the given value, or is released; the others keep theirs. -/
theorem applyManual_eq (i : ManualItems) (m : Vector (Option Bool) 51) : applyManual i m = Vector.ofFn (fun o =>
    match i.sets.get o, i.release with
    | none, _ => m.get o
    | some _, true => none
    | some x, false => some x) := by
  refine congrArg Vector.ofFn (funext fun o => ?_)
  cases i.sets.get o <;> cases i.release <;> rfl

/-- What the row of MANUAL OUTPUT answers. -/
theorem exec_manualOutput (n : Byte) (i : ManualItems) {s : State} (hp : s.hasPlace)
    (hm : s.part.ctl.mode = .commissioning) :
    exec (.manualOutput n i) s = .next (if masksDriven i s.part then s.told n 0x06 { status := .busy } else
      s.answered n 0x06 { status := .ok }
        { s.begun with ctl := { s.part.ctl with manual := applyManual i s.part.ctl.manual } }) := by
  have owner := takeManualOutput_commissioning (q := ⟨s.books, s.begun⟩) i hm
  have same : masksDriven i s.begun = masksDriven i s.part := rfl
  simp only [same] at owner
  split
  · next hd => exact request_told hp (owner.trans (if_pos hd))
  · next hd => exact request_answered hp (owner.trans (if_neg hd))

/-! ## The value commanded on an output (R173, R187) -/

theorem outputsRest_live {p : Part} (hr : p.ctl.resetHeld = false) (hm : p.ctl.mode.inService = true) :
    outputsRest p = false := by simp [outputsRest, hr, hm]

/-- What a movement drives comes first. -/
theorem commanded_driven {p : Part} {k : OutputId} {x : Bool} (hr : p.ctl.resetHeld = false)
    (hm : p.ctl.mode.inService = true) (h : drivenValue p (outputAt k) = some x) : commanded p k = x := by
  simp only [commanded, outputsRest_live hr hm, h, Bool.false_eq_true, if_false]

/-- Then the rest that an action in force holds, then the manual value, then the owner's. -/
theorem commanded_undriven {p : Part} {k : OutputId} (hr : p.ctl.resetHeld = false)
    (hm : p.ctl.mode.inService = true) (h : drivenValue p (outputAt k) = none) :
    commanded p k = if forcedOff (actionsInForce p) (outputAt k) then false
      else (p.ctl.manual.get k).getD (ownerValue p (outputAt k)) := by
  simp only [commanded, outputsRest_live hr hm, h, Bool.false_eq_true, if_false]

theorem drivenValue_none (p : Part) (o : Output) :
    drivenValue p o = none ↔ ∀ m ∈ p.mov.entries, m.drives o = none := by
  simp [drivenValue]

theorem drivenValue_some {p : Part} {o : Output} {x : Bool} (h : drivenValue p o = some x) :
    ∃ m ∈ p.mov.entries, m.drives o = some x := List.exists_of_findSome?_eq_some h

theorem drives_valve {m : Movement} {o : Output} (h : portValve m.source = some o ∨ portValve m.dest = some o) :
    m.drives o = some true := if_pos h

theorem drives_noValve {m : Movement} {o : Output} (hs : portValve m.source ≠ some o) (hd : portValve m.dest ≠ some o) :
    m.drives o = if portPump m.source = some o then some (decide (m.phase = .running)) else none :=
  if_neg (by simp [hs, hd])

theorem ownerValue_sampleValve (p : Part) (v : VesselId) : ownerValue p (.sampleValve v) = true ↔
    p.ctl.mode.running = true ∧ ∃ l, lotOf v p = some l ∧ l.state = .sampling := by
  cases h : lotOf v p <;> simp [ownerValue, h]

/-- Settles O16. -/
theorem manualOutput : Obligations.ManualOutput := by
  refine ⟨fun n i s hp => ⟨fun hm => ?_, fun hm hd => ?_, fun hm hd => ?_⟩,
    fun p k => ⟨commanded_rest p k, fun hr hm => ⟨fun x => commanded_driven hr hm, fun hd hf => ?_,
      fun hd hf => ⟨fun x hx => ?_, fun hx => ?_⟩⟩⟩,
    fun p o => ⟨drivenValue_none p o, fun x => drivenValue_some, fun m => ⟨drives_valve, fun hs hd =>
      ⟨fun h => (drives_noValve hs hd).trans (if_pos h), fun h => (drives_noValve hs hd).trans (if_neg h)⟩⟩⟩,
    fun v c => ⟨rfl, rfl, rfl, rfl, rfl, rfl, rfl, rfl⟩,
    fun p a v c => ⟨⟨rfl, rfl, rfl, rfl, rfl, rfl, rfl, rfl, rfl, rfl, rfl⟩, rfl, rfl, ownerValue_sampleValve p v,
      rfl, rfl, rfl, rfl, rfl, rfl, rfl, rfl⟩⟩
  · exact request_told hp (takeManualOutput_elsewhere (q := ⟨s.books, s.begun⟩) i hm)
  · exact (exec_manualOutput n i hp hm).trans (congrArg _ (if_pos ((masksDriven_iff i s.part).mpr hd)))
  · have free : ¬ masksDriven i s.part = true := by
      rw [masksDriven_iff]
      rintro ⟨o, masked, driven⟩
      simp [hd o masked] at driven
    have answered := exec_manualOutput n i hp hm
    rw [if_neg free, applyManual_eq] at answered
    exact answered
  · exact (commanded_undriven hr hm hd).trans (if_pos hf)
  · rw [commanded_undriven hr hm hd, hf, hx]; rfl
  · rw [commanded_undriven hr hm hd, hf, hx]; rfl

end Sys2Proof.Machine
end

