-- ==== Sys2Proof/Proofs/Codec.lean ====
section
/-! SUPPORT. The byte forms of requests and answers (R199, R200): what each reader makes of what the writer of the same item
wrote, item by item, and from these the round trips of all 54 request bodies and of the three answers. -/

namespace Sys2Proof.Machine

/-! ## Reading back what was written -/

/-- The reader `r` takes the bytes `w` as `a`, whatever follows them. -/
def Reads {α : Type} (r : Reader α) (w : List Byte) (a : α) : Prop := ∀ rest, r (w ++ rest) = some (a, rest)

theorem Reads.done {α : Type} (a : α) : Reads (rDone a) [] a := fun _ => rfl

theorem Reads.andThen {α β : Type} {r : Reader α} {f : α → Reader β} {w v : List Byte} {a : α} {b : β}
    (h : Reads r w a) (k : Reads (f a) v b) : Reads (rThen r f) (w ++ v) b := fun rest => by
  simp only [rThen, List.append_assoc, h (v ++ rest), k rest]

/-- The last item of a body, after which its reader is done. -/
theorem Reads.last {α β : Type} {r : Reader α} {f : α → Reader β} {w : List Byte} {a : α} {b : β}
    (h : Reads r w a) (k : f a = rDone b) : Reads (rThen r f) w b := fun rest => by
  simp only [rThen, h rest, k, rDone]

/-! ## Numbers -/

@[simp] theorem wNum_length (k n : Nat) : (wNum k n).length = k := by
  induction k with
  | zero => rfl
  | succ j ih => simp [wNum, ih]

/-- Big-endian digits: what was read so far, and the number modulo what its bytes carry. -/
theorem takeNum_wNum (k acc n : Nat) (rest : List Byte) :
    takeNum k acc (wNum k n ++ rest) = (acc * 256 ^ k + n % 256 ^ k, rest) := by
  induction k generalizing acc with
  | zero => simp [takeNum, wNum, Nat.mod_one]
  | succ j ih =>
    have digit : (BitVec.ofNat 8 (n / 256 ^ j)).toNat = n / 256 ^ j % 256 := by simp
    simp only [wNum, List.cons_append, takeNum, List.headD_cons, List.tail_cons, digit, ih, Nat.mod_pow_succ,
      Prod.mk.injEq, and_true]
    rw [Nat.add_mul, Nat.pow_succ', Nat.mul_assoc, Nat.add_assoc, Nat.add_comm (n % 256 ^ j),
      Nat.mul_comm (n / 256 ^ j % 256)]

theorem takeNum_of_fits {k n : Nat} (h : fits k n = true) (rest : List Byte) :
    takeNum k 0 (wNum k n ++ rest) = (n, rest) := by
  rw [takeNum_wNum, Nat.mod_eq_of_lt (of_decide_eq_true h)]
  simp

theorem Reads.num {k n : Nat} (h : fits k n = true) : Reads (rNum k) (wNum k n) n := fun rest => by
  rw [rNum, takeNum_of_fits h]

/-! ## Enumerated items, flags, absent items -/

/-- An item of a list is read from its place in the list. -/
theorem Reads.enum {α : Type} {l : List α} {i : Nat} {a : α} (h : l[i]? = some a) (hi : i < 256) :
    Reads (rEnum l) (wNum 1 i) a := fun rest => by
  simp only [rEnum, takeNum_of_fits (decide_eq_true (show i < 256 ^ 1 by omega)), h]

theorem Reads.flag (b : Bool) : Reads rFlag (wFlag b) b := by cases b <;> exact fun _ => rfl

theorem Reads.first (b : Bool) : Reads (rEnum [true, false]) (wFirst b) b := by cases b <;> exact fun _ => rfl

/-- An optional item: a presence byte, then the item, or as many zero bytes. -/
theorem Reads.opt {α : Type} {w : Nat} {r : Reader α} {f : α → List Byte} {x : Option α}
    (h : ∀ a, x = some a → Reads r (f a) a) : Reads (rOpt w r) (wOpt w f x) x := by
  cases x with
  | none =>
    intro rest
    have skipped : (List.replicate w (0#8) ++ rest).drop w = rest := by simp
    exact congrArg (fun t => some (none, t)) skipped
  | some a =>
    have item : Reads (rThen r fun b => rDone (some b)) (f a) (some a) := (h a rfl).last rfl
    exact (Reads.flag true).andThen item

theorem Reads.optNum {k : Nat} {x : Option Nat} (h : optFits k x = true) : Reads (rOptNum k) (wOptNum k x) x :=
  Reads.opt fun a e => Reads.num (by subst e; exact h)

theorem Reads.optFlag (x : Option Bool) : Reads (rOpt 1 rFlag) (wOpt 1 wFlag x) x :=
  Reads.opt fun a _ => Reads.flag a

/-- An optional item of a list, written as the optional number of its place. -/
theorem Reads.optEnum {α : Type} {l : List α} {idx : α → Nat} (h : ∀ a, l[idx a]? = some a ∧ idx a < 256)
    (x : Option α) : Reads (rOpt 1 (rEnum l)) (wOptEnum (x.map idx)) x := by
  have written : wOptEnum (x.map idx) = wOpt 1 (fun a => wNum 1 (idx a)) x := by cases x <;> rfl
  rw [written]
  exact Reads.opt fun a _ => Reads.enum (h a).1 (h a).2

/-- A list of items of the same form. -/
theorem Reads.many {α : Type} {r : Reader α} {f : α → List Byte} (h : ∀ a, Reads r (f a) a) (l : List α) :
    Reads (rMany l.length r) (l.flatMap f) l := by
  induction l with
  | nil => exact Reads.done []
  | cons a l ih => exact (h a).andThen (ih.last rfl)

theorem Reads.rawTag {t : RawTag} (h : tagFits t = true) : Reads rRawTag (wRawTag t) t := by
  obtain ⟨⟨hl, hk⟩, hi⟩ : (fits 1 t.line = true ∧ fits 1 t.kind = true) ∧ fits 1 t.index = true := by
    simpa [tagFits] using h
  rw [wRawTag, List.append_assoc]
  exact (Reads.num hl).andThen ((Reads.num hk).andThen ((Reads.num hi).last rfl))

/-- An action set is read from one byte, whatever follows it. -/
theorem rActions_cons (b : Byte) (rest : List Byte) :
    rActions (b :: rest) = (rActions [b]).map (fun x => (x.1, rest)) := by
  unfold rActions
  dsimp only [List.headD_cons]
  split <;> rfl

/-- The seven flags stand in the low bits of the byte. -/
theorem rActions_wActions (a : ActionSet) : rActions (wActions a) = some (a, []) := by
  obtain ⟨outfall, intake, quarantine, cells, movement, regulation, lockdown⟩ := a
  revert outfall intake quarantine cells movement regulation lockdown
  decide

theorem Reads.actions (a : ActionSet) : Reads rActions (wActions a) a := fun rest => by
  have read := rActions_wActions a
  rw [wActions, wSet] at read ⊢
  rw [List.cons_append, List.nil_append, rActions_cons, read, Option.map_some]

/-! ## Lengths -/

@[simp] theorem wFlag_length (b : Bool) : (wFlag b).length = 1 := rfl
@[simp] theorem wRawTag_length (t : RawTag) : (wRawTag t).length = 3 := rfl
@[simp] theorem wActions_length (a : ActionSet) : (wActions a).length = 1 := rfl
@[simp] theorem wWindow_length (w : Window) : (wWindow w).length = 4 := rfl
@[simp] theorem wBand_length (b : Nat × Nat) : (wBand b).length = 2 := rfl

theorem wOpt_length {α : Type} {w : Nat} {f : α → List Byte} (h : ∀ a, (f a).length = w) (x : Option α) :
    (wOpt w f x).length = w + 1 := by
  cases x <;> simp [wOpt, h]

@[simp] theorem wOptNum_length (w : Nat) (x : Option Nat) : (wOptNum w x).length = w + 1 :=
  wOpt_length (wNum_length w) x
@[simp] theorem wOptEnum_length (x : Option Nat) : (wOptEnum x).length = 2 := wOptNum_length 1 x
@[simp] theorem wOpt_flag_length (x : Option Bool) : (wOpt 1 wFlag x).length = 2 := wOpt_length wFlag_length x
@[simp] theorem wOpt_window_length (x : Option Window) : (wOpt 4 wWindow x).length = 5 := wOpt_length wWindow_length x
@[simp] theorem wOpt_band_length (x : Option (Nat × Nat)) : (wOpt 2 wBand x).length = 3 := wOpt_length wBand_length x

/-! ## The items of requests -/

/-- The numbers of an item fit its bytes, said for a group of items at once. -/
theorem Reads.vesselItems {i : VesselItems} (h : vesselFits i = true) : Reads rVesselItems (wVesselItems i) i := by
  simp only [vesselFits, Bool.and_eq_true] at h
  obtain ⟨⟨⟨capacity, tolerance⟩, travel⟩, sealVolume⟩ := h
  simp only [wVesselItems, List.append_assoc]
  exact (Reads.optEnum (by intro a; cases a <;> decide) _).andThen ((Reads.optNum capacity).andThen
    ((Reads.optEnum (by intro a; cases a <;> decide) _).andThen ((Reads.optNum tolerance).andThen
    ((Reads.optNum travel).andThen ((Reads.optNum sealVolume).andThen ((Reads.flag _).last rfl))))))

theorem Reads.lotTimes {i : LotTimeItems} (h : lotTimesFit i = true) : Reads rLotTimes (wLotTimes i) i := by
  simp only [lotTimesFit, Bool.and_eq_true] at h
  obtain ⟨⟨⟨⟨fillAge, settle⟩, duration⟩, volume⟩, verdict⟩ := h
  simp only [wLotTimes, List.append_assoc]
  exact (Reads.optNum fillAge).andThen ((Reads.optNum settle).andThen ((Reads.optNum duration).andThen
    ((Reads.optNum volume).andThen ((Reads.optNum verdict).last rfl))))

theorem Reads.regulation {i : RegulationItems} (h : regulationFits i = true) :
    Reads rRegulation (wRegulation i) i := by
  simp only [regulationFits, Bool.and_eq_true] at h
  obtain ⟨⟨⟨⟨⟨reuseHigh, reuseLow⟩, reserve⟩, headroom⟩, feedHigh⟩, feedLow⟩ := h
  simp only [wRegulation, List.append_assoc]
  exact (Reads.optNum reuseHigh).andThen ((Reads.optNum reuseLow).andThen ((Reads.optNum reserve).andThen
    ((Reads.optNum headroom).andThen ((Reads.optNum feedHigh).andThen ((Reads.optNum feedLow).last rfl)))))

theorem Reads.cellItems {i : CellItems} (h : cellFits i = true) : Reads rCellItems (wCellItems i) i := by
  simp only [cellFits, Bool.and_eq_true] at h
  obtain ⟨⟨⟨chargeVolume, endConc⟩, runLimit⟩, capacity⟩ := h
  simp only [wCellItems, List.append_assoc]
  exact (Reads.optNum chargeVolume).andThen ((Reads.optNum endConc).andThen ((Reads.optNum runLimit).andThen
    ((Reads.optNum capacity).andThen ((Reads.optEnum (by intro a; cases a <;> decide) _).last rfl))))

theorem Reads.window {w : Window} (h : windowFits (some w) = true) : Reads rWindow (wWindow w) w := by
  simp only [windowFits, pairFits, Option.map_some, Bool.and_eq_true] at h
  exact (Reads.num h.1).andThen ((Reads.num h.2).last rfl)

theorem Reads.optWindow {w : Option Window} (h : windowFits w = true) :
    Reads (rOpt 4 rWindow) (wOpt 4 wWindow w) w :=
  Reads.opt fun _ e => Reads.window (e ▸ h)

theorem Reads.band {b : Nat × Nat} (h : pairFits 1 (some b) = true) : Reads rBand (wBand b) b := by
  simp only [pairFits, Bool.and_eq_true] at h
  exact (Reads.num h.1).andThen ((Reads.num h.2).last rfl)

theorem Reads.limits {i : LimitItems} (h : limitsFit i = true) : Reads rLimits (wLimits i) i := by
  simp only [limitsFit, Bool.and_eq_true] at h
  obtain ⟨⟨⟨⟨⟨⟨mass, volume⟩, conc⟩, band⟩, floor⟩, persistence⟩, boundary⟩ := h
  simp only [wLimits, List.append_assoc]
  exact (Reads.optNum mass).andThen ((Reads.optNum volume).andThen ((Reads.optNum conc).andThen
    ((Reads.opt fun _ e => Reads.band (e ▸ band)).andThen ((Reads.optNum floor).andThen ((Reads.optFlag _).andThen
    ((Reads.optNum persistence).andThen ((Reads.optNum boundary).last rfl)))))))

theorem Reads.response {i : ResponseItems} (h : fits 2 i.hold = true) :
    Reads rResponse (wActions i.actions ++ (wNum 1 i.policy.ctorIdx ++ wNum 2 i.hold)) i :=
  have policy : ∀ x : Policy, framePolicies[x.ctorIdx]? = some x ∧ x.ctorIdx < 256 := by intro x; cases x <;> decide
  (Reads.actions _).andThen ((Reads.enum (policy _).1 (policy _).2).andThen ((Reads.num h).last rfl))

/-- The 24 terms of a pattern are read in their order. -/
theorem Reads.patternItems (i : PatternItems) :
    Reads rPatternItems (i.terms.toList.flatMap (fun t => wNum 1 t.ctorIdx) ++ (wNum 1 i.mode.ctorIdx ++ wFlag i.latch))
      i := by
  have term : ∀ x : Term, Reads (rEnum termList) (wNum 1 x.ctorIdx) x := by
    intro x; cases x <;> exact Reads.enum (by decide) (by decide)
  have mode : Reads (rEnum patternModes) (wNum 1 i.mode.ctorIdx) i.mode := by
    cases i.mode <;> exact Reads.enum (by decide) (by decide)
  have length : i.terms.toList.length = 24 := i.terms.length_toList
  have terms : Vector.ofFn (fun k : Fin 24 => i.terms.toList.getD k.1 .ignore) = i.terms := by
    ext k hk
    simp
  have many := Reads.many term i.terms.toList
  rw [length] at many
  refine many.andThen (mode.andThen ((Reads.flag i.latch).last ?_))
  rw [terms]

/-! ## The mask of MANUAL OUTPUT -/

/-- The number that a list of bits spells, lowest first. -/
def bitsNumber (bits : List Bool) : Nat := bits.foldr (fun b n => 2 * n + b.toNat) 0

theorem bitsNumber_lt (bits : List Bool) : bitsNumber bits < 2 ^ bits.length := by
  induction bits with
  | nil => exact Nat.one_pos
  | cons b bs ih =>
    have digit := Bool.toNat_lt b
    simp only [bitsNumber, List.foldr_cons, List.length_cons, Nat.pow_succ] at ih ⊢
    omega

/-- The bits are read back from the number. -/
theorem maskBits_bitsNumber (bits : List Bool) : maskBits bits.length (bitsNumber bits) = bits := by
  induction bits with
  | nil => rfl
  | cons b bs ih =>
    have digit := Bool.toNat_lt b
    have low : (2 * bitsNumber bs + b.toNat) % 2 = b.toNat := by omega
    have high : (2 * bitsNumber bs + b.toNat) / 2 = bitsNumber bs := by omega
    have number : bitsNumber (b :: bs) = 2 * bitsNumber bs + b.toNat := rfl
    rw [List.length_cons, maskBits, number, low, high, ih]
    cases b <;> rfl

/-- The values fill the places that the mask names. -/
theorem fillMask_values (l : List (Option Bool)) : fillMask (l.map Option.isSome) (l.filterMap id) = l := by
  induction l with
  | nil => rfl
  | cons x xs ih =>
    cases x with
    | none => exact congrArg (none :: ·) ih
    | some v => exact congrArg (some v :: ·) ih

theorem count_isSome (l : List (Option Bool)) : (l.map Option.isSome).count true = (l.filterMap id).length := by
  induction l with
  | nil => rfl
  | cons x xs ih => cases x <;> simp [ih]

theorem maskBits_manualMask (i : ManualItems) : maskBits 51 (manualMask i) = i.sets.toList.map Option.isSome := by
  have bits := maskBits_bitsNumber (i.sets.toList.map Option.isSome)
  rw [List.length_map, i.sets.length_toList] at bits
  exact bits

theorem manualMask_lt (i : ManualItems) : manualMask i < 2 ^ 51 := by
  have bound := bitsNumber_lt (i.sets.toList.map Option.isSome)
  rw [List.length_map, i.sets.length_toList] at bound
  exact bound

theorem maskCount_manualMask (i : ManualItems) : maskCount (manualMask i) = (manualValues i).length := by
  rw [maskCount, maskBits_manualMask, count_isSome]; rfl

theorem manualValues_length_le (i : ManualItems) : (manualValues i).length ≤ 51 := by
  have := List.length_filterMap_le id i.sets.toList
  rwa [i.sets.length_toList] at this

theorem manualOf_written (i : ManualItems) : manualOf (manualMask i) (manualValues i) i.release = i := by
  have sets : (manualOf (manualMask i) (manualValues i) i.release).sets = i.sets := by
    have filled := fillMask_values i.sets.toList
    ext k hk
    simp only [manualOf, maskBits_manualMask, manualValues, filled, Vector.getElem_ofFn]
    simp [hk]
  exact congrArg (fun v => ManualItems.mk v i.release) sets

theorem Reads.manual (i : ManualItems) :
    Reads manualLayout.read (requestBody (.manualOutput i)) (.manualOutput i) := by
  have mask : fits 7 (manualMask i) = true := decide_eq_true (Nat.lt_trans (manualMask_lt i) (by decide))
  have count : fits 1 (manualValues i).length = true := decide_eq_true (by have := manualValues_length_le i; omega)
  simp only [requestBody, wList, List.append_assoc, manualLayout]
  refine (Reads.num mask).andThen ((Reads.num count).andThen ?_)
  rw [if_pos ⟨manualMask_lt i, (maskCount_manualMask i).symm⟩]
  refine (Reads.many Reads.first _).andThen ((Reads.flag i.release).last ?_)
  rw [manualOf_written]

theorem manual_length (i : ManualItems) :
    (requestBody (.manualOutput i)).length = manualLayout.length (requestBody (.manualOutput i)) := by
  have mask : fits 7 (manualMask i) = true := decide_eq_true (Nat.lt_trans (manualMask_lt i) (by decide))
  have values : ((manualValues i).flatMap wFirst).length = (manualValues i).length :=
    length_flatMap_single (fun _ => rfl) _
  have read : (takeNum 7 0 (requestBody (.manualOutput i))).1 = manualMask i := by
    simp only [requestBody, List.append_assoc, takeNum_of_fits mask]
  have count : manualLayout.length (requestBody (.manualOutput i)) = 9 + (manualValues i).length := by
    rw [← maskCount_manualMask, ← read]; rfl
  rw [count]
  simp only [requestBody, wList, List.length_append, wNum_length, values, wFlag_length]
  omega

/-! ## The round trips -/

/-- A body of its layout's length that the layout's reader takes is the request. -/
theorem parseRequest_of_reads {k : Nat} {l : Layout} {body : List Byte} {r : Request} (hl : layoutOf k = some l)
    (length : body.length = l.length body) (read : Reads l.read body r) : parseRequest k body = .taken r := by
  have taken : l.read body = some (r, []) := by simpa using read []
  simp only [parseRequest, hl, length, ne_eq, not_true_eq_false, if_false, taken]

theorem parseRequest_fixed {k n : Nat} {rd : Reader Request} {body : List Byte} {r : Request}
    (hl : layoutOf k = some (fixed n rd)) (length : body.length = n) (read : Reads rd body r) :
    parseRequest k body = .taken r := parseRequest_of_reads hl length read

/-- A request that only names something by a number. -/
theorem parseRequest_naming {k w n : Nat} {f : Nat → Request} (hl : layoutOf k = some (naming w f))
    (h : fits w n = true) : parseRequest k (wNum w n) = .taken (f n) :=
  parseRequest_fixed hl (wNum_length w n) ((Reads.num h).last rfl)

/-- Settles O19: each layout's reader takes what the body's writer wrote, by the items in their order. -/
theorem requestBodiesRoundTrip : Obligations.RequestBodiesRoundTrip := by
  intro r h
  cases r with
  | manualOutput i => exact parseRequest_of_reads rfl (manual_length i) (Reads.manual i)
  | identify | status | restart | enterOperating | enterCommissioning | readInputs | readAccounts | readClosedLots
  | readSourceFirst | readSourceNext | regulationOn | regulationOff | readGate | readFaults | lockdown | release => rfl
  | readVessel | adoptLevel | cellOn | cellOff | harvest | readCell | patternOn | patternOff | alarmTake | alarmClear
  | readPattern | resume | abandon | sealLot | holdLot | releaseLot | rejectLot | setClock =>
    exact parseRequest_naming rfl h
  | readMovements clear => exact parseRequest_fixed rfl rfl ((Reads.flag clear).last rfl)
  | removeSource t => exact parseRequest_fixed rfl rfl ((Reads.rawTag h).last rfl)
  | setLotTimes i => exact parseRequest_fixed rfl (by simp [requestBody, wLotTimes]) ((Reads.lotTimes h).last rfl)
  | setRegulation i => exact parseRequest_fixed rfl (by simp [requestBody, wRegulation]) ((Reads.regulation h).last rfl)
  | setLimits i => exact parseRequest_fixed rfl (by simp [requestBody, wLimits]) ((Reads.limits h).last rfl)
  | readLot n byVessel =>
    exact parseRequest_fixed rfl (by simp [requestBody]) ((Reads.num h).andThen ((Reads.flag _).last rfl))
  | readUnit n clear =>
    exact parseRequest_fixed rfl (by simp [requestBody]) ((Reads.num h).andThen ((Reads.flag _).last rfl))
  | setAging period policy =>
    have listed : Reads (rEnum policies) (wNum 1 policy.ctorIdx) policy := by
      cases policy <;> exact Reads.enum (by decide) (by decide)
    exact parseRequest_fixed rfl (by simp [requestBody]) ((Reads.num h).andThen (listed.last rfl))
  | setUnit n enabled learning =>
    refine parseRequest_fixed rfl (by simp [requestBody]) ?_
    simp only [requestBody, List.append_assoc]
    exact (Reads.num h).andThen ((Reads.optFlag _).andThen ((Reads.optFlag _).last rfl))
  | setVessel v i =>
    simp only [requestFits, Bool.and_eq_true] at h
    exact parseRequest_fixed rfl (by simp [requestBody, wVesselItems])
      ((Reads.num h.1).andThen ((Reads.vesselItems h.2).last rfl))
  | setCell c i =>
    simp only [requestFits, Bool.and_eq_true] at h
    exact parseRequest_fixed rfl (by simp [requestBody, wCellItems])
      ((Reads.num h.1).andThen ((Reads.cellItems h.2).last rfl))
  | harvestDone c w =>
    simp only [requestFits, Bool.and_eq_true] at h
    exact parseRequest_fixed rfl (by simp [requestBody]) ((Reads.num h.1).andThen ((Reads.num h.2).last rfl))
  | setWindows w1 w2 =>
    simp only [requestFits, Bool.and_eq_true] at h
    exact parseRequest_fixed rfl (by simp [requestBody])
      ((Reads.optWindow h.1).andThen ((Reads.optWindow h.2).last rfl))
  | setPattern p i =>
    have terms : (i.terms.toList.flatMap (fun t => wNum 1 t.ctorIdx)).length = i.terms.toList.length :=
      length_flatMap_single (fun t : Term => wNum_length 1 t.ctorIdx) _
    refine parseRequest_fixed rfl (by simp [requestBody, terms]) ?_
    simp only [requestBody, List.append_assoc]
    exact (Reads.num h).andThen ((Reads.patternItems i).last rfl)
  | setFaultResponse code i =>
    simp only [requestFits, Bool.and_eq_true] at h
    refine parseRequest_fixed rfl (by simp [requestBody]) ?_
    simp only [requestBody, List.append_assoc]
    exact (Reads.num h.1).andThen ((Reads.response h.2).last rfl)
  | setMovementTimes i =>
    simp only [requestFits, Bool.and_eq_true] at h
    refine parseRequest_fixed rfl (by simp [requestBody]) ?_
    simp only [requestBody, List.append_assoc]
    exact (Reads.optNum h.1.1).andThen ((Reads.optNum h.1.2).andThen ((Reads.optNum h.2).last rfl))
  | setRouting i =>
    simp only [requestFits, Bool.and_eq_true] at h
    obtain ⟨⟨⟨amber, red⟩, silence⟩, timeout⟩ := h
    refine parseRequest_fixed (rd := rThen rRouting fun i => rDone (.setRouting i)) rfl (by simp [requestBody]) ?_
    refine Reads.last (a := i) ?_ rfl
    simp only [requestBody, List.append_assoc]
    exact (Reads.optNum amber).andThen ((Reads.optNum red).andThen ((Reads.optNum silence).andThen
      ((Reads.optNum timeout).last rfl)))
  | verdict i =>
    simp only [requestFits, Bool.and_eq_true] at h
    obtain ⟨⟨⟨lot, sample⟩, conc⟩, ph⟩ := h
    have listed : Reads (rEnum labResults) (wNum 1 i.result.ctorIdx) i.result := by
      cases i.result <;> exact Reads.enum (by decide) (by decide)
    refine parseRequest_fixed (rd := rThen rVerdict fun i => rDone (.verdict i)) rfl (by simp [requestBody]) ?_
    refine Reads.last (a := i) ?_ rfl
    simp only [requestBody, List.append_assoc]
    exact (Reads.num lot).andThen ((Reads.num sample).andThen ((Reads.num conc).andThen ((Reads.num ph).andThen
      (listed.last rfl))))
  | setSource t i =>
    simp only [requestFits, Bool.and_eq_true] at h
    have items : Reads rSourceItems (wNum 1 i.unit ++ (wOptEnum (i.pinned.map WaterClass.ctorIdx) ++
        (wFlag i.filter ++ wFlag i.bypass))) i :=
      (Reads.num h.2).andThen ((Reads.optEnum (by intro a; cases a <;> decide) _).andThen
        ((Reads.flag _).andThen ((Reads.flag _).last rfl)))
    refine parseRequest_fixed rfl (by simp [requestBody]) ?_
    simp only [requestBody, List.append_assoc]
    exact (Reads.rawTag h.1).andThen (items.last rfl)

end Sys2Proof.Machine
end

