-- ==== Sys2Proof/Proofs/Frames.lean ====
section
/-! SUPPORT. Frames on the two links by their bytes (R192, R193, R200): a framed body reaches the rule that takes it, a
misshapen frame is hunted past, and a row does what its bytes do. -/

namespace Sys2Proof.Machine

/-! ## Commands that act alike -/

/-- Two commands that act alike on the plant they find answer alike. -/
theorem command_congr {f g : Plant → Plant} {s : State} (h : f ⟨s.books, s.begun⟩ = g ⟨s.books, s.begun⟩) :
    command f s = command g s := by
  have acts : ∀ b : Bool, (if b then (⟨s.books, s.begun⟩ : Plant) else f ⟨s.books, s.begun⟩) =
      if b then ⟨s.books, s.begun⟩ else g ⟨s.books, s.begun⟩ := fun b => by rw [h]
  simp only [command, lineCommand_next, acts]

/-! ## The receiver (R193) -/

/-- Bytes that arrive while nothing is collected, by what the hunt makes of them. -/
theorem receive_of_scan {bytes held : List Byte} {frames : List RawFrame} {q : Plant} (hr : q.part.link.rx = [])
    (h : scan bytes.length bytes = (frames, held)) : receive bytes q = frames.foldl (fun x f => acceptFrame f x)
      { q with part := { q.part with link := { q.part.link with rx := held } } } := by
  simp only [receive, hr, List.nil_append, h]

/-- Where nothing is accepted and nothing held, nothing changes. -/
theorem receive_nothing {bytes : List Byte} {q : Plant} (hr : q.part.link.rx = [])
    (h : scan bytes.length bytes = ([], [])) : receive bytes q = q := by
  rw [receive_of_scan hr h]
  obtain ⟨books, part⟩ := q
  exact congrArg (fun x => Plant.mk books { part with link := { part.link with rx := x } }) hr.symm

theorem receive_congr {bytes more : List Byte} {q : Plant} (hr : q.part.link.rx = [])
    (h : scan bytes.length bytes = scan more.length more) : receive bytes q = receive more q := by
  rw [receive_of_scan hr h, ← receive_of_scan hr rfl]

/-- Bytes with no SYNC are passed over whole. -/
theorem scan_noSync {bytes : List Byte} (h : ∀ b ∈ bytes, b ≠ 0xC3#8) : scan bytes.length bytes = ([], []) := by
  have passed := scan_passes bytes [] h
  rwa [List.append_nil] at passed

/-- A LENGTH outside 2 to 1024 is discarded as soon as it is complete. -/
theorem examine_badLength {h l : Byte} (more : List Byte)
    (bad : h.toNat * 256 + l.toNat < 2 ∨ 1024 < h.toNat * 256 + l.toNat) : examine (h :: l :: more) = .discarded :=
  if_pos bad

/-- Bytes of a frame that is complete go to its CHECK. -/
theorem examine_complete {h l : Byte} {inner more : List Byte} (c d : Byte) (len : h.toNat * 256 + l.toNat = inner.length)
    (lo : 2 ≤ inner.length) (hi : inner.length ≤ 1024) :
    examine (h :: l :: (inner ++ c :: d :: more)) = checkFrame h l inner.length (inner ++ c :: d :: more) := by
  have ranged : ¬ (inner.length < 2 ∨ 1024 < inner.length) := by omega
  have whole : ¬ (inner ++ c :: d :: more).length < inner.length + 2 := by simp
  simp only [examine, len, ranged, whole, if_false]

/-- A complete frame whose CHECK does not match. -/
theorem examine_mismatch {h l c d : Byte} {inner : List Byte} (more : List Byte)
    (len : h.toNat * 256 + l.toNat = inner.length) (lo : 2 ≤ inner.length) (hi : inner.length ≤ 1024)
    (check : c.toNat * 256 + d.toNat ≠ (crc16 (h :: l :: inner)).toNat) :
    examine (h :: l :: (inner ++ c :: d :: more)) = .discarded := by
  rw [examine_complete c d len lo hi, checkFrame_mismatch h l c d inner more check]

/-! ## A framed body (R192) -/

theorem crc_fits (bs : List Byte) : fits 2 (crc16 bs).toNat = true := decide_eq_true (crc16 bs).isLt

/-- The receiver finds in a frame its KIND, its number and its body. -/
theorem scan_supFrame {kind : Nat} {n : Byte} {body : List Byte} (hb : body.length ≤ 1022) :
    scan (supFrame kind n body).length (supFrame kind n body) = ([⟨BitVec.ofNat 8 kind, n, body⟩], []) := by
  obtain ⟨h, l, length⟩ : ∃ h l, wNum 2 (body.length + 2) = [h, l] := ⟨_, _, rfl⟩
  have numbered : h.toNat * 256 + l.toNat = body.length + 2 := by
    have fit : fits 2 (body.length + 2) = true := decide_eq_true (by omega)
    have read := takeNum_of_fits fit []
    rw [length] at read
    simpa [takeNum] using congrArg Prod.fst read
  obtain ⟨c, d, check⟩ : ∃ c d, wNum 2 (crc16 (h :: l :: BitVec.ofNat 8 kind :: n :: body)).toNat = [c, d] :=
    ⟨_, _, rfl⟩
  have framed : supFrame kind n body =
      0xC3#8 :: h :: l :: ((BitVec.ofNat 8 kind :: n :: body) ++ c :: d :: []) := by
    have kindByte : wNum 1 kind = [BitVec.ofNat 8 kind] := by simp [wNum]
    simp only [supFrame, length, kindByte, List.cons_append, List.nil_append, check]
  have accepted : examine (h :: l :: ((BitVec.ofNat 8 kind :: n :: body) ++ c :: d :: [])) =
      .accepted ⟨BitVec.ofNat 8 kind, n, body⟩ [] := by
    have take_inner : ((BitVec.ofNat 8 kind :: n :: body) ++ [c, d]).take (body.length + 2) =
        BitVec.ofNat 8 kind :: n :: body := by simp
    have drop_inner : ((BitVec.ofNat 8 kind :: n :: body) ++ [c, d]).drop (body.length + 2) = [c, d] := by simp
    have check_sent : (takeNum 2 0 [c, d]).1 = (crc16 (h :: l :: BitVec.ofNat 8 kind :: n :: body)).toNat := by
      have read := takeNum_of_fits (crc_fits (h :: l :: BitVec.ofNat 8 kind :: n :: body)) []
      rw [check] at read
      exact congrArg Prod.fst read
    rw [examine_complete c d (by simpa using numbered) (by simp) (by simp; omega)]
    simp only [checkFrame, List.length_cons, take_inner, drop_inner, check_sent, if_true]
    simp
  rw [framed]
  simp only [List.length_cons, scan, ne_eq, not_true_eq_false, if_false, accepted]

/-- A frame that arrives while nothing is collected is accepted and handed on. -/
theorem receive_supFrame {kind : Nat} {n : Byte} {body : List Byte} {q : Plant} (hr : q.part.link.rx = [])
    (hb : body.length ≤ 1022) :
    receive (supFrame kind n body) q = acceptFrame ⟨BitVec.ofNat 8 kind, n, body⟩ q := by
  rw [receive_of_scan hr (scan_supFrame hb)]
  obtain ⟨books, part⟩ := q
  exact congrArg (fun x => acceptFrame ⟨BitVec.ofNat 8 kind, n, body⟩
    (Plant.mk books { part with link := { part.link with rx := x } })) hr.symm

/-! ## A request's frame does what its row does -/

theorem maskBits_length (n m : Nat) : (maskBits n m).length = n := by
  induction n generalizing m with
  | zero => rfl
  | succ k ih => simp [maskBits, ih]

theorem maskCount_le (m : Nat) : maskCount m ≤ 51 :=
  Nat.le_trans List.count_le_length (Nat.le_of_eq (maskBits_length 51 m))

/-- No layout asks for more than 60 bytes. -/
theorem layout_length_le {k : Nat} {l : Layout} (h : layoutOf k = some l) (bs : List Byte) : l.length bs ≤ 60 := by
  have listed : l ∈ layouts := by
    unfold layoutOf at h
    split at h
    · cases h
    · exact List.mem_of_getElem? h
  have manual := maskCount_le (takeNum 7 0 bs).1
  have bounds : ∀ x ∈ layouts, x.length bs ≤ 60 := by
    simp [layouts, generalLayouts, vesselLayouts, lotLayouts, sourceLayouts, flowLayouts, cellLayouts, gateLayouts,
      patternLayouts, faultLayouts, bare, naming, fixed, manualLayout]
    omega
  exact bounds l listed

/-- A request's body has its layout's length. -/
theorem requestBody_length_le {r : Request} (h : requestFits r = true) : (requestBody r).length ≤ 60 := by
  have parsed := requestBodiesRoundTrip r h
  unfold parseRequest at parsed
  split at parsed
  · cases parsed
  · next l hl =>
    split at parsed
    · cases parsed
    · next length => exact Classical.not_not.mp length ▸ layout_length_le hl _

/-- Settles O20: the receiver hands the framed body to the rule of its KIND, which reads back the request. -/
theorem acceptedFrameIsItsRow : Obligations.AcceptedFrameIsItsRow := by
  intro n r s hr hf
  rw [exec_rowOf]
  refine command_congr ((receive_supFrame hr (by have := requestBody_length_le hf; omega)).trans ?_)
  have kind : (BitVec.ofNat 8 (requestKind r)).toNat = requestKind r := by cases r <;> rfl
  simp only [acceptFrame, kind, requestBodiesRoundTrip r hf]

/-! ## Misshapen frames (R193, R194) -/

/-- A KIND that names no request has no layout. -/
theorem layoutOf_unknown {k : Nat} (h : k = 0 ∨ 0x36 < k) : layoutOf k = none := by
  rcases h with rfl | h
  · rfl
  · have beyond : layouts.length ≤ k - 1 := by rw [show layouts.length = 0x36 from rfl]; omega
    exact (if_neg (by omega)).trans (List.getElem?_eq_none beyond)

theorem acceptFrame_unknown {f : RawFrame} (h : layoutOf f.kind.toNat = none) (q : Plant) :
    acceptFrame f q = request f.number f.kind (answerUnknown f.kind) q := by
  simp only [acceptFrame, parseRequest, h]

theorem acceptFrame_badLength {f : RawFrame} {l : Layout} (h : layoutOf f.kind.toNat = some l)
    (bad : f.body.length ≠ l.length f.body) (q : Plant) :
    acceptFrame f q = request f.number f.kind (refuseKind f.kind .badValue) q := by
  simp only [acceptFrame, parseRequest, h, ne_eq, bad, not_false_eq_true, if_true]

/-- A frame of a KIND, taken by the rule that its bytes come to. -/
theorem exec_supFrame {kind n : Byte} {body : List Byte} {s : State} {take : Plant → Plant × Reply}
    (hr : s.part.link.rx = []) (hb : body.length ≤ 1022)
    (h : ∀ q, acceptFrame ⟨kind, n, body⟩ q = request n kind take q) :
    exec (.supervisoryFrameAccepted (supFrame kind.toNat n body)) s = command (request n kind take) s := by
  have kindByte : BitVec.ofNat 8 kind.toNat = kind := by simp
  refine command_congr ((receive_supFrame hr hb).trans ?_)
  rw [kindByte, h]

/-- The receiver while nothing is collected, by what the hunt makes of the bytes. -/
theorem exec_discarded_congr {bytes more : List Byte} {s : State} (hr : s.part.link.rx = [])
    (h : scan bytes.length bytes = scan more.length more) :
    exec (.supervisoryFrameDiscarded bytes) s = exec (.supervisoryFrameDiscarded more) s :=
  command_congr (receive_congr (q := ⟨s.books, s.begun⟩) hr h)

theorem exec_discarded_nothing {bytes : List Byte} {s : State} (hl : s.live) (hr : s.part.link.rx = [])
    (h : scan bytes.length bytes = ([], [])) : exec (.supervisoryFrameDiscarded bytes) s = .next s.idled :=
  command_after hl (receive_nothing (q := ⟨s.books, s.begun⟩) hr h)

/-- Settles O18: what holds no SYNC is passed over, and after a discard the hunt goes on behind the SYNC. -/
theorem receiverAndMisshapenFrames : Obligations.ReceiverAndMisshapenFrames := by
  refine ⟨⟨fun s hl => partCommand_live (fun _ p => dropCollected p) s hl, fun bytes s hl hr h => exec_discarded_nothing hl hr (scan_noSync h),
    fun h l kind n c d body s hl hr len hb noSync check => ?_⟩,
    fun s hl hr => ⟨fun bytes more h => exec_discarded_congr hr (scan_passes bytes more h), fun h l more bad => ?_,
      fun h l c d inner more len lo hi check => ?_⟩,
    fun kind n body s hp hr hb => ⟨fun hk => ?_, fun l hl bad => ?_⟩⟩
  · refine exec_discarded_nothing hl hr ((scan_discards _ ?_).trans (scan_noSync noSync))
    exact examine_mismatch (inner := kind :: n :: body) [] (by simpa using len) (by simp) (by simp; omega) check
  · exact exec_discarded_congr hr (scan_discards _ (examine_badLength more bad))
  · exact exec_discarded_congr hr (scan_discards _ (examine_mismatch more len lo hi check))
  · have none : layoutOf kind.toNat = none := layoutOf_unknown (hk.imp (fun e => by rw [e]; rfl) id)
    exact (exec_supFrame hr hb fun q => acceptFrame_unknown (f := ⟨kind, n, body⟩) none q).trans (request_told hp rfl)
  · exact (exec_supFrame hr hb fun q => acceptFrame_badLength (f := ⟨kind, n, body⟩) hl bad q).trans
      (request_told hp rfl)

/-! ## Answers of the Field Link (R200) -/

/-- The answer in a frame from the polled unit is that of its KIND and body. -/
theorem parseAnswer_fieldFrame {u : UnitId} {kind : Nat} {body : List Byte} (hk : kind < 256)
    (hb : body.length < 256) : parseAnswer u (fieldFrame (0x81 + u.1) kind body) = readAnswer kind body := by
  have address : 0x81 + u.1 < 256 := by have := u.isLt; omega
  obtain ⟨c, d, check⟩ : ∃ c d, wNum 2 (crc16 (BitVec.ofNat 8 (0x81 + u.1) :: BitVec.ofNat 8 kind ::
      BitVec.ofNat 8 body.length :: body)).toNat = [c, d] := ⟨_, _, rfl⟩
  have framed : fieldFrame (0x81 + u.1) kind body = 0x5A#8 :: BitVec.ofNat 8 (0x81 + u.1) :: BitVec.ofNat 8 kind ::
      BitVec.ofNat 8 body.length :: (body ++ [c, d]) := by
    simp [fieldFrame, wNum, ← check]
  have addressByte : (BitVec.ofNat 8 (0x81 + u.1)).toNat = 0x81 + u.1 := Nat.mod_eq_of_lt address
  have kindByte : (BitVec.ofNat 8 kind).toNat = kind := Nat.mod_eq_of_lt hk
  have lengthByte : (BitVec.ofNat 8 body.length).toNat = body.length := Nat.mod_eq_of_lt hb
  have check_sent := congrArg Prod.fst (takeNum_of_fits (crc_fits (BitVec.ofNat 8 (0x81 + u.1) :: BitVec.ofNat 8 kind ::
    BitVec.ofNat 8 body.length :: body)) [])
  rw [check, List.append_nil] at check_sent
  rw [framed]
  simp only [parseAnswer, addressByte, kindByte, lengthByte, List.take_left, List.drop_left, List.length_cons,
    List.length_nil, check_sent, and_self, if_true]

/-- The numbers of an answer fit their bytes. -/
def answerFits (a : FieldAnswer) : Bool :=
  match a with
  | .idle => true
  | .offer o => offerFits o
  | .done t l m => tagFits t && fits 2 l && optFits 4 m

theorem Reads.offer {o : Offer} (h : offerFits o = true) : Reads rOffer (wOffer o) o := by
  simp only [offerFits, Bool.and_eq_true] at h
  obtain ⟨⟨⟨tag, volume⟩, conc⟩, ph⟩ := h
  simp only [wOffer, List.append_assoc]
  exact (Reads.rawTag tag).andThen ((Reads.num volume).andThen ((Reads.num conc).andThen ((Reads.num ph).last rfl)))

/-- A unit's answer is read back from its bytes. -/
theorem parseAnswer_answerBytes (u : UnitId) (a : FieldAnswer) (h : answerFits a = true) :
    parseAnswer u (answerBytes u a) = some a := by
  cases a with
  | idle => exact parseAnswer_fieldFrame (by decide) (by decide)
  | offer o =>
    have length : (wOffer o).length = 8 := by simp [wOffer]
    have read : rOffer (wOffer o) = some (o, []) := by simpa using Reads.offer h []
    rw [answerBytes, parseAnswer_fieldFrame (by decide) (by omega)]
    simp [readAnswer, length, read]
  | done t l m =>
    simp only [answerFits, Bool.and_eq_true] at h
    obtain ⟨⟨tag, litres⟩, mass⟩ := h
    have length : (wRawTag t ++ wNum 2 l ++ wOptNum 4 m).length = 10 := by simp
    have read : Reads (rThen rRawTag fun t => rThen (rNum 2) fun v => rThen (rOptNum 4) fun m =>
        rDone (FieldAnswer.done t v m)) (wRawTag t ++ (wNum 2 l ++ wOptNum 4 m)) (.done t l m) :=
      (Reads.rawTag tag).andThen ((Reads.num litres).andThen ((Reads.optNum mass).last rfl))
    have whole := read []
    rw [List.append_nil, ← List.append_assoc] at whole
    rw [answerBytes, parseAnswer_fieldFrame (by decide) (by omega)]
    simp only [readAnswer, length, whole]
    rfl

/-- An answer's bytes at the open turn do what its row does. -/
theorem exec_answerBytes {t : Turn} {s : State} {a : FieldAnswer} (ht : s.part.fld.turn = some t)
    (h : answerFits a = true) :
    exec (.fieldAnswerInvalid (answerBytes t.unit a)) s = command (fieldAnswer a) s := by
  have turn : s.begun.fld.turn = some t := ht
  refine command_congr ?_
  simp only [answerOfBytes, turn, parseAnswer_answerBytes t.unit a h]

/-- Settles O46. -/
theorem fieldAnswersRoundTrip : Obligations.FieldAnswersRoundTrip := by
  refine ⟨fun u a h => parseAnswer_answerBytes u a (by cases a <;> exact h), fun t s ht =>
    ⟨exec_answerBytes ht rfl, fun o ho => exec_answerBytes ht ho, fun g l m hf => exec_answerBytes ht hf⟩⟩

end Sys2Proof.Machine
end

