-- ==== Sys2Proof/Proofs/Numbers.lean ====
section
/-! SUPPORT. The numbers of movements and lots (R18, R36): the first from the next one on that nothing holds, which is free
while fewer are held than are looked at. -/

namespace Sys2Proof.Machine

/-- The `i`-th number after `n`: counting on, and from 1 again after 65 535. -/
def numberAt (n : Nat) : Nat → Nat
  | 0 => n
  | i + 1 => numberAt (numberAfter n) i

theorem numberAt_eq {n i : Nat} (hi : i ≤ 65535) : numberAt n i =
    if n ≤ 65535 then (if n + i ≤ 65535 then n + i else n + i - 65535) else if i = 0 then n else i := by
  induction i generalizing n with
  | zero =>
    rw [numberAt]
    split
    · rw [if_pos (by omega), Nat.add_zero]
    · rw [if_pos rfl]
  | succ i ih =>
    rw [numberAt, ih (by omega), numberAfter]
    by_cases onward : n < 65535
    · have next : n + 1 ≤ 65535 := onward
      have here : n ≤ 65535 := by omega
      rw [if_pos onward, if_pos next, if_pos here, Nat.add_right_comm, Nat.add_assoc]
    · have first : 1 + i ≤ 65535 := by omega
      rw [if_neg onward, if_pos (by decide : 1 ≤ 65535), if_pos first, if_neg i.succ_ne_zero]
      split
      · next last =>
        have over_ : ¬ n + (i + 1) ≤ 65535 := by omega
        rw [if_neg over_]
        omega
      · exact Nat.add_comm 1 i

/-- Counting on meets no number twice before it has met them all. -/
theorem numberAt_inj {n i j : Nat} (hi : i < 65535) (hj : j < 65535) (h : numberAt n i = numberAt n j) : i = j := by
  rw [numberAt_eq (by omega), numberAt_eq (by omega)] at h
  by_cases hn : n ≤ 65535
  · rw [if_pos hn, if_pos hn] at h
    split at h <;> split at h <;> omega
  · rw [if_neg hn, if_neg hn] at h
    split at h <;> split at h <;> omega

/-- A number that is found held was looked for among the held ones only. -/
theorem numberAt_mem_of_freeNumberFrom_mem {k n : Nat} {held : List Nat} (h : freeNumberFrom k n held ∈ held) :
    ∀ i ≤ k, numberAt n i ∈ held := by
  induction k generalizing n with
  | zero =>
    intro i hi
    obtain rfl : i = 0 := by omega
    exact h
  | succ k ih =>
    unfold freeNumberFrom at h
    split at h
    · next taken =>
      intro i hi
      cases i with
      | zero => simpa [numberAt] using taken
      | succ i => exact ih h i (by omega)
    · next free => exact absurd h (by simpa using free)

/-- Where fewer are held than are looked at, the number taken is free. -/
theorem freeNumberFrom_not_mem {k n : Nat} {held : List Nat} (hk : k < 65535) (hl : held.length ≤ k) :
    freeNumberFrom k n held ∉ held := by
  intro h
  have every := numberAt_mem_of_freeNumberFrom_mem h
  have nodup : ((List.range (k + 1)).map (numberAt n)).Nodup := by
    refine List.pairwise_map.mpr (List.nodup_range.imp_of_mem fun {i j} hi hj apart e => apart ?_)
    rw [List.mem_range] at hi hj
    exact numberAt_inj (by omega) (by omega) e
  have within : (List.range (k + 1)).map (numberAt n) ⊆ held := by
    intro x hx
    obtain ⟨i, hi, rfl⟩ := List.mem_map.mp hx
    exact every i (by rw [List.mem_range] at hi; omega)
  have fewer := nodup.length_le_of_subset within
  rw [List.length_map, List.length_range] at fewer
  omega

/-- A next number that is not held is taken. -/
theorem freeNumberFrom_of_not_mem {k n : Nat} {held : List Nat} (h : n ∉ held) :
    freeNumberFrom k n held = n := by
  cases k with
  | zero => rfl
  | succ k => exact if_neg (by simpa using h)

end Sys2Proof.Machine
end

