-- ==== Sys2Proof/Proofs/Vessels.lean ====
section
/-! SUPPORT. What no consequence touches, and the vessel commands: SET VESSEL (R1 to R4), ADOPT LEVEL (R12 to R14) and the
level readings (R10, R11). -/

namespace Sys2Proof.Machine

/-! ## Consequences -/

/-- Settles O27: each consequence settles or reaches its result, and no single change touches what stands. -/
theorem consequencesLeaveTheRestStanding : Obligations.ConsequencesLeaveTheRestStanding := fun b b' p =>
  have here := Settles.refl p
  have start := Reaches.refl p
  ⟨fun m e => (settles_endMovement b m e here).standing, fun m e => (settles_movementEnded b m e here).standing,
   fun r m => (reaches_raiseBeforeEnd b r m start).standing, fun n why => (settles_cutMovement b n why here).standing,
   fun why spare => (settles_generalCut b why spare here).standing, fun r => (reaches_raise b r start).standing,
   fun way => (reaches_popFrame b way start).standing,
   fun cause spare => (reaches_enterLockdown b cause spare start).standing,
   fun vs mv spare => (reaches_afterBooking b b' vs mv spare start).standing,
   fun change => (reaches_evaluateAll b change start).standing, (settles_reexamineNeeds b here).standing,
   (settles_reuseEvaluation b here).standing, (settles_selectLot b here).standing,
   fun r => (settles_recomputeGate r here).standing, (settles_examineArbiter b here).standing,
   (settles_settleCells b here).standing, (settles_seekDrains b here).standing,
   fun n why r => (settles_rejectLot n why r here).standing, fun n r => (settles_clearLot n r here).standing,
   fun l r => (settles_sealLot b l r here).standing, fun l k => (settles_closeLot l k here).standing⟩

/-- The books and the part of a plant after a command, told apart. -/
theorem any_touches_false {p q : Part} {v : VesselId} :
    (p.mov.entries.any (fun m => m.touches q v)) = false ↔ ∀ m ∈ p.mov.entries, m.touches q v = false := by
  simp

theorem any_touches_true {p q : Part} {v : VesselId} :
    (p.mov.entries.any (fun m => m.touches q v)) = true ↔ ∃ m ∈ p.mov.entries, m.touches q v = true := by
  simp

/-! ## SET VESSEL (R1, R3, R4) -/

/-- Check 2 of R4. -/
theorem vesselItemsValid_iff (i : VesselItems) (r : VesselRec) : vesselItemsValid i r = true ↔
    (∀ x, i.capacity = some x → 100 ≤ x ∧ x ≤ 60000) ∧ (∀ x, i.tolerance = some x → 10 ≤ x ∧ x ≤ 5000) ∧
    (∀ x, i.travel = some x → 1 ≤ x ∧ x ≤ 60) ∧
    (∀ k, i.sealVolume = some k → i.role.getD r.role = .hold ∧
      ∃ c, i.capacity.or r.capacity = some c ∧ c ≤ 10 * k ∧ k ≤ c) ∧
    (i.role.getD r.role ≠ .unused → (i.capacity.or r.capacity).isSome = true) := by
  have sealPlace : (match i.sealVolume, capacityAfter i r with
      | none, _ => true
      | some k, some c => decide (roleAfter i r = .hold ∧ c ≤ 10 * k ∧ k ≤ c)
      | some _, none => false) = true ↔ ∀ k, i.sealVolume = some k → i.role.getD r.role = .hold ∧
        ∃ c, i.capacity.or r.capacity = some c ∧ c ≤ 10 * k ∧ k ≤ c := by
    unfold capacityAfter roleAfter
    cases i.sealVolume <;> cases i.capacity.or r.capacity <;> simp
  have held : (decide (roleAfter i r = .unused) || (capacityAfter i r).isSome) = true ↔
      (i.role.getD r.role ≠ .unused → (i.capacity.or r.capacity).isSome = true) := by
    rw [Bool.or_eq_true, decide_eq_true_eq]
    exact Classical.or_iff_not_imp_left
  unfold vesselItemsValid
  rw [Bool.and_eq_true, Bool.and_eq_true, held]
  refine Iff.trans (and_congr_left' (and_congr_right' sealPlace)) ?_
  simp [vesselRanges, and_assoc]

theorem changesPlan_iff (i : VesselItems) (r : VesselRec) : changesPlan i r = true ↔
    i.role.getD r.role ≠ r.role ∨ i.capacity.or r.capacity ≠ r.capacity := by
  simp only [changesPlan, Bool.or_eq_true, decide_eq_true_eq]
  rfl

/-- The record that SET VESSEL applies (R1, R4). -/
theorem applyVessel_eq (i : VesselItems) (r : VesselRec) :
    let role := i.role.getD r.role
    let capacity := i.capacity.or r.capacity
    applyVessel i r = { r with
      role := role, capacity := capacity
      inlet := if role = .unused ∧ r.role ≠ .unused then .disabled else i.inlet.getD r.inlet
      regBlock := if (role = .unused ∧ r.role ≠ .unused) ∨ (r.role = .reuse ∧ role ≠ .reuse) then false else r.regBlock
      tolerance := i.tolerance.getD r.tolerance, travel := i.travel.getD r.travel
      sealVolume := if role ≠ .hold then none
        else if i.sealVolume.isSome then i.sealVolume
        else if role ≠ r.role ∨ capacity ≠ r.capacity then capacity.map (fun c => c * 9 / 10)
        else r.sealVolume
      stray := if i.clearCount then 0 else r.stray } := by
  intro role capacity
  have block : (r.regBlock && !(decide (role = .unused) && decide (r.role ≠ .unused)) &&
      !(decide (r.role = .reuse) && decide (role ≠ .reuse))) =
      if (role = .unused ∧ r.role ≠ .unused) ∨ (r.role = .reuse ∧ role ≠ .reuse) then false else r.regBlock := by
    split
    · next h => rcases h with ⟨a, b⟩ | ⟨a, b⟩ <;> simp [a, b]
    · next h =>
      obtain ⟨notUnused, stays⟩ := not_or.mp h
      rw [← Bool.decide_and, ← Bool.decide_and, decide_eq_false notUnused, decide_eq_false stays]
      simp
  have inlet : (if (decide (role = .unused) && decide (r.role ≠ .unused)) = true then InletState.disabled
      else i.inlet.getD r.inlet) =
      if role = .unused ∧ r.role ≠ .unused then .disabled else i.inlet.getD r.inlet := by
    rw [← Bool.decide_and]; simp only [decide_eq_true_eq]
  have volume : sealAfter i r = if role ≠ .hold then none
        else if i.sealVolume.isSome then i.sealVolume
        else if role ≠ r.role ∨ capacity ≠ r.capacity then capacity.map (fun c => c * 9 / 10)
        else r.sealVolume := by
    simp only [sealAfter, changesPlan_iff]
    rfl
  have applied : applyVessel i r = { r with
      role := role, capacity := capacity
      inlet := if (decide (role = .unused) && decide (r.role ≠ .unused)) = true then .disabled else i.inlet.getD r.inlet
      regBlock := r.regBlock && !(decide (role = .unused) && decide (r.role ≠ .unused)) &&
        !(decide (r.role = .reuse) && decide (role ≠ .reuse))
      tolerance := i.tolerance.getD r.tolerance, travel := i.travel.getD r.travel
      sealVolume := sealAfter i r, stray := if i.clearCount then 0 else r.stray } := rfl
  rw [applied, block, inlet, volume]

theorem planFree_iff (b : Books) (p : Part) (v : VesselId) : planFree b p v = true ↔
    p.ctl.mode = .commissioning ∧ (b.vessel v).volume = 0 ∧ lotOf v p = none ∧
      ∀ m ∈ p.mov.entries, m.touches p v = false := by
  simp [planFree, and_assoc]

/-- What a SET VESSEL does on a vessel, by its checks in order. -/
theorem setVesselOf_applies {i : VesselItems} {v : VesselId} {q : Plant}
    (valid : vesselItemsValid i (vesselRec q.part v) = true)
    (free : changesPlan i (vesselRec q.part v) = false ∨ planFree q.books q.part v = true) :
    setVesselOf i v q = okay { q with
      part := vesselChanged q.books v q.part (updVessel v (applyVessel i) q.part) } := by
  have planned : (changesPlan i (vesselRec q.part v) && !planFree q.books q.part v) = false := by
    rcases free with h | h <;> simp [h]
  simp [setVesselOf, valid, planned]

theorem setVesselOf_invalid {i : VesselItems} {v : VesselId} {q : Plant}
    (valid : vesselItemsValid i (vesselRec q.part v) = false) : setVesselOf i v q = refuse .badValue q := by
  simp [setVesselOf, valid]

theorem setVesselOf_busy {i : VesselItems} {v : VesselId} {q : Plant}
    (valid : vesselItemsValid i (vesselRec q.part v) = true) (plan : changesPlan i (vesselRec q.part v) = true)
    (busy : planFree q.books q.part v = false) : setVesselOf i v q = refuse .wrongState q := by
  simp [setVesselOf, valid, plan, busy]

/-- The end of regulation turns the switch off, and what stands is otherwise as it was. -/
theorem standing_regulationEnds (p : Part) :
    (regulationEnds p).standing = { p with reg := { p.reg with switchOn := false } }.standing := by
  unfold regulationEnds
  split
  · exact (settles_setFill _ _ (settles_setSpill _ _ (settles_notify _ (.refl _)))).standing
  · next off =>
    have same : { p with reg := { p.reg with switchOn := false } } = p := by
      rw [show false = p.reg.switchOn by simpa using off]
    rw [same]

/-- A regulation block is none of what stands. -/
theorem standing_setSwitch {p q : Part} (on : Bool) (h : q.standing = p.standing) :
    { q with reg := { q.reg with switchOn := on } }.standing = { p with reg := { p.reg with switchOn := on } }.standing :=
  congrArg (fun x : Part => { x with reg := { x.reg with switchOn := on } }) h

/-- The role vessel's capacity is that of the vessel which holds the role. -/
theorem roleCapacity_some {r : Role} {v : VesselId} {p : Part} (h : roleVessel r p = some v) :
    roleCapacity r p = (vesselRec p v).capacity := by simp [roleCapacity, h]

theorem roleCapacity_none {r : Role} {p : Part} (h : roleVessel r p = none) : roleCapacity r p = none := by
  simp [roleCapacity, h]

/-- REUSE is the same vessel with the same capacity exactly where neither change of R100 happens. -/
theorem reuse_kept_iff {v : VesselId} {f : VesselRec → VesselRec} {p : Part}
    (same : roleVessel .reuse (updVessel v f p) = roleVessel .reuse p) :
    roleCapacity .reuse (updVessel v f p) = roleCapacity .reuse p ↔
      ¬ (roleVessel .reuse p = some v ∧ (vesselRec p v).capacity ≠ (vesselRec (updVessel v f p) v).capacity) := by
  cases h : roleVessel .reuse p with
  | none => simp [roleCapacity_none h, roleCapacity_none (same.trans h)]
  | some w =>
    rw [roleCapacity_some h, roleCapacity_some (same.trans h)]
    by_cases hw : w = v
    · subst hw
      simp only [true_and, ne_eq, Classical.not_not]
      exact eq_comm
    · simp [hw]

/-- What regulation makes of a SET VESSEL (R100, R102, R107): it ends where the REUSE vessel changes, which the supply
valve follows, or where its capacity does. -/
def vesselTold (b : Books) (v : VesselId) (old p : Part) : Part :=
  if roleVessel .reuse p ≠ roleVessel .reuse old then supplyCheck b (reuseLeaves (roleVessel .reuse old) p)
  else if roleVessel .reuse old = some v ∧ (vesselRec old v).capacity ≠ (vesselRec p v).capacity then regulationEnds p
  else p

/-- At an inlet state change the needs re-examine, then the drains seek (R2, log 77). -/
theorem vesselChanged_eq (b : Books) (v : VesselId) (old p : Part) : vesselChanged b v old p =
    if (vesselRec old v).inlet = (vesselRec p v).inlet then vesselTold b v old p
    else arbiterIfStepped b (vesselTold b v old p) (seekDrains b (reexamineNeeds b (vesselTold b v old p))) := by
  have told : vesselTold b v old p = (
      let was := roleVessel .reuse old
      let moved := decide (roleVessel .reuse p ≠ was)
      let resized := decide (was = some v) && decide ((vesselRec old v).capacity ≠ (vesselRec p v).capacity)
      let p1 := if moved then reuseLeaves was p else if resized then regulationEnds p else p
      if moved then supplyCheck b p1 else p1) := by
    unfold vesselTold
    by_cases moved : roleVessel .reuse p = roleVessel .reuse old
    · simp [moved]
    · simp [moved]
  rw [told]
  unfold vesselChanged
  by_cases kept : (vesselRec old v).inlet = (vesselRec p v).inlet
  · rw [if_pos kept]; exact if_neg (Classical.not_not.mpr kept)
  · rw [if_neg kept]; exact if_pos kept

/-- A regulation block that the leaving REUSE vessel clears is none of what stands. -/
theorem settles_unblock (was : Option VesselId) (p : Part) : Settles p (match was with
    | none => p
    | some w => updVessel w (fun r => { r with regBlock := false }) p) := by
  cases was with
  | none => exact .refl p
  | some w => exact settles_updVessel _ _ (fun _ => rfl) (.refl p)

theorem ctl_regulationEnds (p : Part) : (regulationEnds p).ctl = p.ctl := by
  unfold regulationEnds
  split
  · exact (settles_setFill _ _ (settles_setSpill _ _ (settles_notify _ (.refl _)))).ctl
  · rfl

theorem standing_reuseLeaves (was : Option VesselId) (p : Part) :
    (reuseLeaves was p).standing = { p with reg := { p.reg with switchOn := false } }.standing :=
  (standing_regulationEnds _).trans (standing_setSwitch false (settles_unblock was p).standing)

theorem ctl_vesselTold (b : Books) (v : VesselId) (old p : Part) : (vesselTold b v old p).ctl = p.ctl := by
  unfold vesselTold
  split
  · exact ((settles_supplyCheck b (.refl _)).ctl.trans (ctl_regulationEnds _)).trans (settles_unblock _ p).ctl
  · split
    · exact ctl_regulationEnds p
    · rfl

/-- Of what stands the switch alone changes (R100, R102). -/
theorem standing_vesselTold (b : Books) (v : VesselId) (f : VesselRec → VesselRec) (p : Part) :
    (vesselTold b v p (updVessel v f p)).standing = { updVessel v f p with reg := { p.reg with
      switchOn := p.reg.switchOn && decide (roleVessel .reuse (updVessel v f p) = roleVessel .reuse p ∧
        roleCapacity .reuse (updVessel v f p) = roleCapacity .reuse p) } }.standing := by
  unfold vesselTold
  by_cases same : roleVessel .reuse (updVessel v f p) = roleVessel .reuse p
  · rw [if_neg (Classical.not_not.mpr same)]
    split
    · next resized =>
      have off := decide_eq_false (fun h : roleVessel .reuse (updVessel v f p) = roleVessel .reuse p ∧
        roleCapacity .reuse (updVessel v f p) = roleCapacity .reuse p => (reuse_kept_iff same).mp h.2 resized)
      rw [standing_regulationEnds, off, Bool.and_false]
      rfl
    · next resized =>
      have on := decide_eq_true (show _ ∧ roleCapacity .reuse (updVessel v f p) = roleCapacity .reuse p from
        ⟨same, (reuse_kept_iff same).mpr resized⟩)
      rw [on, Bool.and_true]
      rfl
  · have off := decide_eq_false
      (fun h : roleVessel .reuse (updVessel v f p) = roleVessel .reuse p ∧
        roleCapacity .reuse (updVessel v f p) = roleCapacity .reuse p => same h.1)
    rw [if_pos same, (settles_supplyCheck b (.refl _)).standing, standing_reuseLeaves, off, Bool.and_false]
    rfl

/-- The needs, the drains and the arbiter are consequences. -/
theorem settles_vesselChanged (b : Books) (v : VesselId) (old p : Part) :
    Settles (vesselTold b v old p) (vesselChanged b v old p) := by
  rw [vesselChanged_eq]
  split
  · exact .refl _
  · exact settles_arbiterIfStepped b _ (settles_seekDrains b (settles_reexamineNeeds b (.refl _)))

/-- Settles O21: the checks by `setVesselOf`, what follows by `vesselChanged` and `standing_vesselChanged`. -/
theorem setVesselAppliesTogether : Obligations.SetVesselAppliesTogether := by
  refine ⟨fun n k i s hs hk => ?_, fun n k v i s hs hk => ⟨fun valid => ?_, fun valid plan busy => ?_, ?_⟩,
    fun i r => ⟨vesselItemsValid_iff i r, changesPlan_iff i r, applyVessel_eq i r⟩, planFree_iff⟩
  · exact request_told hs.1 (inService_unnamed (q := ⟨s.books, s.begun⟩) hs.2 hk)
  · exact request_told hs.1 ((inService_named (q := ⟨s.books, s.begun⟩) hs.2 hk).trans (setVesselOf_invalid valid))
  · exact request_told hs.1
      ((inService_named (q := ⟨s.books, s.begun⟩) hs.2 hk).trans (setVesselOf_busy valid plan busy))
  · intro valid free changed was ends unblocked told
    refine ⟨vesselChanged s.books v s.begun changed, request_answered hs.1
      ((inService_named (q := ⟨s.books, s.begun⟩) hs.2 hk).trans (setVesselOf_applies valid free)), vesselChanged_eq _ _ _ _,
      (settles_vesselChanged _ _ _ _).ctl.trans (ctl_vesselTold _ _ _ _),
      (settles_vesselChanged _ _ _ _).standing.trans (standing_vesselTold s.books v (applyVessel i) s.begun)⟩

/-! ## ADOPT LEVEL (R12 to R14) -/

/-- A frame of a type and subject is on the stack. -/
theorem hasFrame_iff (t : FaultType) (x : Subject) (p : Part) :
    hasFrame t x p = true ↔ ∃ f ∈ p.flt.stack, f.ftype = t ∧ f.subject = x := by
  simp [hasFrame, Frame.names]

/-- Check 1 of R12. -/
theorem adoptMode_iff (k : Nat) (p : Part) : adoptMode k p = true ↔ p.ctl.mode = .commissioning ∨
    ((p.ctl.mode = .operating ∨ p.ctl.mode = .lockdown) ∧
      ∃ v, vesselOf k = some v ∧ ∃ f ∈ p.flt.stack, f.ftype = .levelMismatch ∧ f.subject = .vessel v) := by
  simp only [← hasFrame_iff]
  cases hm : p.ctl.mode <;> cases hv : vesselOf k <;> simp [adoptMode, hm, hv]

/-- What ADOPT LEVEL answers on a vessel of a role, with a level and no movement. -/
theorem adoptLevelOf_adopts {v : VesselId} {level : Nat} {q : Plant} (role : (vesselRec q.part v).role ≠ .unused)
    (last : (vesselRec q.part v).lastLevel = some level) (free : ∀ m ∈ q.part.mov.entries, m.touches q.part v = false) :
    adoptLevelOf v q = okay (adoptLevel v level q) := by
  simp only [adoptLevelOf, role, if_false, last, any_touches_false.mpr free, Bool.false_eq_true]

theorem adoptLevelOf_busy {v : VesselId} {level : Nat} {q : Plant} (role : (vesselRec q.part v).role ≠ .unused)
    (last : (vesselRec q.part v).lastLevel = some level)
    (busy : ∃ m ∈ q.part.mov.entries, m.touches q.part v = true) : adoptLevelOf v q = refuse .busy q := by
  simp only [adoptLevelOf, role, if_false, last, any_touches_true.mpr busy, if_true]

theorem adoptLevelOf_unread {v : VesselId} {q : Plant} (role : (vesselRec q.part v).role ≠ .unused)
    (last : (vesselRec q.part v).lastLevel = none) : adoptLevelOf v q = refuse .noSuch q := by
  simp only [adoptLevelOf, role, if_false, last]

theorem takeAdoptLevel_on {k : Nat} {v : VesselId} {q : Plant} (hm : adoptMode k q.part = true)
    (hk : vesselOf k = some v) : takeAdoptLevel k q = adoptLevelOf v q := by
  rw [takeAdoptLevel, if_pos hm, hk]
  rfl

theorem openAdopted_none {v : VesselId} {level : Nat} {p : Part}
    (h : (vesselRec p v).role ≠ .hold ∨ (lotOf v p).isSome = true ∨ level = 0) : openAdopted v level p = p := by
  refine if_neg fun ⟨role, noLot, water⟩ => ?_
  rcases h with h | h | h
  · exact h role
  · simp [Option.isNone_iff_eq_none.mp noLot] at h
  · omega

/-- A HOLD vessel without a lot gets its adopted lot, which settles or is sampled (R14, R44). -/
theorem openAdopted_opens {v : VesselId} {level : Nat} {p : Part} (role : (vesselRec p v).role = .hold)
    (noLot : lotOf v p = none) (water : 0 < level) :
    openAdopted v level p =
      let n := freeNumberFrom 25 p.lot.nextLot (p.lot.lots.map Lot.number ++ p.lot.closed.map ClosedLot.number)
      settleOrSample n (lotNotice n .settling .adopted { p with lot := { p.lot with
        nextLot := if n < 65535 then n + 1 else 1
        lots := p.lot.lots ++ [{ number := n, vessel := v, state := .settling, opened := p.gate.clock
                                 contributions := [⟨.adopted, level, 0⟩], timer := some p.lot.times.settle }] } }) :=
  if_pos ⟨role, by simp [noLot], water⟩

/-- A notice leaves the lots and their times as they were. -/
theorem lotNotice_lot (n : Nat) (s : LotState) (r : LotReason) (p : Part) : (lotNotice n s r p).lot = p.lot :=
  notify_lot _ _

/-- A lot that has told its SETTLING goes on to SAMPLING at once with a settle time of 0 (R44, log 16). -/
theorem settleOrSample_told (n : Nat) (s : LotState) (r : LotReason) (p : Part) :
    settleOrSample n (lotNotice n s r p) = if p.lot.times.settle = 0 then
      lotNotice n .sampling .settled (updLot n (fun l => { l with
        state := .sampling, sampleNumber := l.sampleNumber + 1, timer := some p.lot.times.sampleDuration })
        (lotNotice n s r p)) else lotNotice n s r p := by
  simp only [settleOrSample, enterSampling, lotNotice_lot]

/-- Settles O22: the checks by `adoptLevelOf`, the booking by `Books.book`, the lot by `openAdopted_opens` and its number by
`freeNumberFrom_not_mem`. -/
theorem adoptLevelBooksTheReading : Obligations.AdoptLevelBooksTheReading := by
  refine ⟨fun n k s hp => ⟨adoptMode_iff k s.part, fun hm => ?_, fun hm hk => ?_, fun v hm hk => ⟨fun role => ?_,
      fun role last => ?_, fun level role last => ⟨fun busy => ?_, ?_⟩⟩⟩, fun b v level => ⟨?_, ?_⟩, ?_⟩
  · exact request_told hp (if_neg (by simp [show adoptMode k s.begun = false from hm]))
  · refine request_told hp ((if_pos hm).trans ?_)
    rw [hk]
    rfl
  · exact request_told hp ((takeAdoptLevel_on (q := ⟨s.books, s.begun⟩) hm hk).trans (if_pos role))
  · exact request_told hp ((takeAdoptLevel_on (q := ⟨s.books, s.begun⟩) hm hk).trans (adoptLevelOf_unread role last))
  · exact request_told hp ((takeAdoptLevel_on (q := ⟨s.books, s.begun⟩) hm hk).trans (adoptLevelOf_busy role last busy))
  · intro free booked p
    refine ⟨request_after hp ((takeAdoptLevel_on (q := ⟨s.books, s.begun⟩) hm hk).trans
      (adoptLevelOf_adopts role last free)), ?_⟩
    exact (reaches_afterBooking s.books booked _ none none ((Reaches.refl _).settle
      (settles_openAdopted v level (settles_reportOn _ _ _ (.refl _))))).standing
  · simp [Books.book]
  · by_cases h : level = 0 <;> simp [Books.book, h, Int.sub_eq_add_neg]
  · intro v level p held n
    refine ⟨openAdopted_none, fun role noLot water timed => ?_, fun role noLot water untimed => ?_,
      freeNumberFrom_of_not_mem, fun few _ _ => freeNumberFrom_not_mem (by omega) (by omega)⟩
    · exact (openAdopted_opens role noLot water).trans
        ((settleOrSample_told _ _ _ _).trans (if_neg (Nat.ne_of_gt timed)))
    · have opened := (openAdopted_opens role noLot water).trans
        ((settleOrSample_told _ _ _ _).trans (if_pos untimed))
      rw [untimed] at opened
      exact opened

/-! ## Level readings (R10, R11) -/

/-- The reading is further from the books than the tolerance, on either side (R11). -/
theorem outOfTolerance_iff (r : VesselRec) (booked reading : Nat) : outOfTolerance r booked reading = true ↔
    r.tolerance + booked < reading ∨ r.tolerance + reading < booked := by
  simp only [outOfTolerance, decide_eq_true_eq]
  omega

/-- The comparison of R11, by its cases. -/
theorem crossCheck_far_framed {b : Books} {v : VesselId} {x : Nat} {p : Part}
    (far : outOfTolerance (vesselRec p v) (b.vessel v).volume x = true)
    (framed : hasFrame .levelMismatch (.vessel v) p = true) :
    crossCheck b v x p = reportOn .levelMismatch (.vessel v) .present p := by
  simp only [crossCheck, far, framed, if_true]

theorem crossCheck_far_moving {b : Books} {v : VesselId} {x : Nat} {p : Part}
    (far : outOfTolerance (vesselRec p v) (b.vessel v).volume x = true)
    (framed : hasFrame .levelMismatch (.vessel v) p = false)
    (moving : ∃ m ∈ p.mov.entries, m.touches p v = true) : crossCheck b v x p = p := by
  simp only [crossCheck, far, framed, any_touches_true.mpr moving, if_true, Bool.false_eq_true, if_false]

theorem crossCheck_far_still {b : Books} {v : VesselId} {x : Nat} {p : Part}
    (far : outOfTolerance (vesselRec p v) (b.vessel v).volume x = true)
    (framed : hasFrame .levelMismatch (.vessel v) p = false)
    (still : ∀ m ∈ p.mov.entries, m.touches p v = false) :
    crossCheck b v x p = raise b { ftype := .levelMismatch, subject := .vessel v } p := by
  simp only [crossCheck, far, framed, any_touches_false.mpr still, if_true, Bool.false_eq_true, if_false]

theorem crossCheck_near {b : Books} {v : VesselId} {x : Nat} {p : Part}
    (near : ¬ outOfTolerance (vesselRec p v) (b.vessel v).volume x = true) :
    crossCheck b v x p = if hasFrame .levelMismatch (.vessel v) p then
      reportOn .levelMismatch (.vessel v) .cleared p else p := if_neg near

/-- A reading leaves the roles as they were, and so what touches a vessel. -/
theorem touches_updVessel {v w : VesselId} {f : VesselRec → VesselRec} (h : ∀ r, (f r).role = r.role) (p : Part)
    (m : Movement) : m.touches (updVessel w f p) v = m.touches p v := by
  have roles : ∀ u, (vesselRec (updVessel w f p) u).role = (vesselRec p u).role := fun u => by
    rw [vesselRec_updVessel]
    split
    · next e => rw [h, e]
    · rfl
  have reuse : roleVessel .reuse (updVessel w f p) = roleVessel .reuse p := by
    simp only [roleVessel, roles]
  simp only [Movement.touches, Movement.into, reuse]

/-- The vessel of a role is read from the vessel records. -/
theorem roleVessel_congr {p q : Part} (h : q.vessels = p.vessels) (r : Role) : roleVessel r q = roleVessel r p := by
  unfold roleVessel vesselRec
  rw [h]

/-- Forgetting what the step before sent changes no role. -/
theorem touches_begun (m : Movement) (s : State) (v : VesselId) : m.touches s.begun v = m.touches s.part v := by
  have reuse : roleVessel .reuse s.begun = roleVessel .reuse s.part := roleVessel_congr rfl _
  simp only [Movement.touches, Movement.into, reuse]

/-- The last reading is no matter of whether a vessel is compared. -/
theorem compared_lastLevel (v : VesselId) (x : Option Nat) (p : Part) :
    compared (updVessel v (fun r => { r with lastLevel := x }) p) v = compared p v := by
  simp [compared, updVessel_ctl]

theorem compared_iff (p : Part) (v : VesselId) : compared p v = true ↔
    p.ctl.mode.inService = true ∧ (vesselRec p v).role ≠ .unused ∧ (vesselRec p v).adopted = true := by
  simp [compared, and_assoc]

/-- A reading within its range is recorded and compared. -/
theorem levelReading_recorded {b : Books} {v : VesselId} {x : Nat} {p : Part} (hx : x ≤ 65535) :
    levelReading b v (some x) p =
      if compared p v then crossCheck b v x (updVessel v (fun r => { r with lastLevel := some x }) p)
      else updVessel v (fun r => { r with lastLevel := some x }) p := by
  have recorded : levelReading b v (some x) p =
      if compared (updVessel v (fun r => { r with lastLevel := some x }) p) v
      then crossCheck b v x (updVessel v (fun r => { r with lastLevel := some x }) p)
      else updVessel v (fun r => { r with lastLevel := some x }) p := if_neg (by omega)
  rw [recorded, compared_lastLevel]

/-- A reading beyond the range of a level is discarded (R10). -/
theorem levelReading_beyond {b : Books} {v : VesselId} {x : Nat} {p : Part} (hx : 65535 < x) :
    levelReading b v (some x) p = p := if_pos hx

theorem exec_levelReading (v : VesselId) (r : Option Nat) {s : State} (hl : s.live) :
    exec (.levelReading v r) s = .next (s.after s.books (levelReading s.books v r s.begun)) :=
  partCommand_live (fun b p => levelReading b v r p) s hl

/-- Settles O23: the reading by `levelReading_recorded`, the comparison by the cases of `crossCheck`. -/
theorem levelReadingIsComparedWithTheBooks : Obligations.LevelReadingIsComparedWithTheBooks := by
  intro v s hl
  refine ⟨exec_levelReading v none hl, fun x hx => ?_, ?_⟩
  · rw [exec_levelReading v _ hl, levelReading_beyond hx]
    rfl
  intro x hx read far
  have row := exec_levelReading v (some x) hl
  have checked : compared s.part v = true → exec (.levelReading v (some x)) s =
      .next (s.after s.books (crossCheck s.books v x read)) := fun hc => by
    rw [row, levelReading_recorded hx, if_pos (show compared s.begun v = true from hc)]
  have far_iff : outOfTolerance (vesselRec read v) (s.books.vessel v).volume x = true ↔ far := by
    rw [outOfTolerance_iff, vesselRec_updVessel, if_pos rfl]
    exact Iff.rfl
  have touching (m : Movement) : m.touches read v = m.touches s.part v :=
    (touches_updVessel (w := v) (f := fun r => { r with lastLevel := some x }) (fun _ => rfl) s.begun m).trans
      (touches_begun m s v)
  have entries : read.mov.entries = s.part.mov.entries := rfl
  have framed : hasFrame .levelMismatch (.vessel v) read = hasFrame .levelMismatch (.vessel v) s.part := rfl
  refine ⟨compared_iff s.part v, fun hc => ?_, fun hc hf hh => ?_, fun hc hf hh moving => ?_, fun hc hf hh still => ?_,
    fun hc hf hh => ?_, fun hc hf hh => ?_⟩
  · rw [row, levelReading_recorded hx, if_neg (by simp [show compared s.begun v = false from hc])]
  · rw [checked hc, crossCheck_far_framed (far_iff.mpr hf) hh]
  · rw [checked hc, crossCheck_far_moving (far_iff.mpr hf) hh (by simpa only [touching, entries] using moving)]
  · rw [checked hc, crossCheck_far_still (far_iff.mpr hf) hh (by simpa only [touching, entries] using still)]
  · rw [checked hc, crossCheck_near ((not_congr far_iff).mpr hf), framed, if_pos hh]
  · rw [checked hc, crossCheck_near ((not_congr far_iff).mpr hf), framed, if_neg (by simpa using hh)]

end Sys2Proof.Machine
end

