-- ==== Sys2Proof/Proofs/Reads.lean ====
section
/-! SUPPORT. The READ requests: each answers its report and changes what it names alone (R5, R33, R57, R75, R99, R132, R152,
R163, R181, R186). -/

namespace Sys2Proof.Machine

/-- In service a request is its owner's, which booked nothing. -/
theorem request_inService {n kind : Byte} {take : Plant → Plant × Reply} {s : State} {p : Part} {r : Reply}
    (h : s.serves) (e : take ⟨s.books, s.begun⟩ = (⟨s.books, p⟩, r)) :
    command (request n kind (inService take)) s = .next (s.answered n kind r p) :=
  request_answered h.1 ((inService_in take ⟨s.books, s.begun⟩ h.2).trans e)

/-- In service a request that names a thing comes to that thing. -/
theorem request_named {α : Type} {n kind : Byte} {thing : Option α} {take : α → Plant → Plant × Reply} {x : α}
    {s : State} {p : Part} {r : Reply} (h : s.serves) (hx : thing = some x)
    (e : take x ⟨s.books, s.begun⟩ = (⟨s.books, p⟩, r)) :
    command (request n kind (inService (named thing take))) s = .next (s.answered n kind r p) :=
  request_answered h.1 ((inService_named (q := ⟨s.books, s.begun⟩) h.2 hx).trans e)

/-- A request that names nothing is refused with BAD VALUE. -/
theorem request_unnamed {α : Type} {n kind : Byte} {thing : Option α} {take : α → Plant → Plant × Reply} {s : State}
    (h : s.serves) (hx : thing = none) :
    command (request n kind (inService (named thing take))) s = .next (s.told n kind { status := .badValue }) :=
  request_told h.1 (inService_unnamed (q := ⟨s.books, s.begun⟩) h.2 hx)

/-- What READ LOT answers of a lot that there is, and of none. -/
theorem takeReadLot_byNumber {k : Nat} {q : Plant} (hm : q.part.ctl.mode.inService = true) :
    takeReadLot k false q = readLotOf (findLot k q.part) q := inService_in _ q hm

theorem takeReadLot_byVessel {k : Nat} {v : VesselId} {q : Plant} (hm : q.part.ctl.mode.inService = true)
    (hk : vesselOf k = some v) : takeReadLot k true q = readLotOf (lotOf v q.part) q := by
  refine (inService_in _ q hm).trans ?_
  simp only [if_true, hk]
  rfl

/-- The cursor moves to the entry that an iteration finds, and its end leaves it at what it is given (R75). -/
theorem iterate_some (e : SourceEntry) (atEnd : Option Tag) (q : Plant) : iterate (some e) atEnd q =
    ({ q with part := { q.part with src := { q.part.src with cursor := some e.tag } } },
      { status := .ok, items := .source (some (e, slugsOf e.tag q.part)) (sourceSummary q.part) }) := rfl

/-- The first entry behind the cursor, where the table is in tag order up to it. -/
theorem find_behind {t : Tag} {before rest : List SourceEntry} {e : SourceEntry}
    (low : ∀ x ∈ before, tagKey x.tag ≤ tagKey t) (high : tagKey t < tagKey e.tag) :
    (before ++ e :: rest).find? (fun x => decide (tagKey t < tagKey x.tag)) = some e := by
  rw [List.find?_append, List.find?_eq_none.mpr (fun x hx => by simpa using low x hx)]
  simp [high]

theorem find_behind_none {t : Tag} {entries : List SourceEntry} (low : ∀ x ∈ entries, tagKey x.tag ≤ tagKey t) :
    entries.find? (fun x => decide (tagKey t < tagKey x.tag)) = none :=
  List.find?_eq_none.mpr fun x hx => by simpa using low x hx

/-- Settles O25: each report is that of its owner on the part found. -/
theorem reads : Obligations.Reads := by
  refine ⟨fun n s hp => ⟨request_told hp rfl, request_told hp rfl, fun hm => ?_⟩, fun n s hs => ?_⟩
  · have hs : s.serves := ⟨hp, hm⟩
    refine ⟨fun k v hk => request_named hs hk rfl, fun k l hl => ?_, fun k v l hk hl => ?_, fun k hl => ?_,
      request_inService hs rfl, fun k c hk => request_named hs hk rfl, request_inService hs rfl,
      fun k a hk => request_named hs hk rfl, request_inService hs rfl⟩
    · exact request_told hp ((takeReadLot_byNumber (q := ⟨s.books, s.begun⟩) hm).trans (by
        rw [show findLot k s.begun = some l from hl]; rfl))
    · exact request_told hp ((takeReadLot_byVessel (q := ⟨s.books, s.begun⟩) hm hk).trans (by
        rw [show lotOf v s.begun = some l from hl]; rfl))
    · exact request_told hp ((takeReadLot_byNumber (q := ⟨s.books, s.begun⟩) hm).trans (by
        rw [show findLot k s.begun = none from hl]; rfl))
  · refine ⟨fun clear => request_inService hs (by cases clear <;> rfl),
      fun k u clear hk => request_named hs hk (by cases clear <;> rfl), request_inService hs rfl,
      fun e rest he => request_inService hs ?_, fun he => request_inService hs ?_,
      fun hc => request_inService hs ?_, fun t before e rest hc he low high => request_inService hs ?_,
      fun t hc low => request_inService hs ?_⟩
    · rw [show s.begun.src.entries = e :: rest from he]
      rfl
    · rw [show s.begun.src.entries = [] from he]
      rfl
    · rw [show s.begun.src.cursor = none from hc]
      rfl
    · rw [show s.begun.src.cursor = some t from hc]
      have found : s.begun.src.entries.find? (fun x => decide (tagKey t < tagKey x.tag)) = some e :=
        (congrArg _ he).trans (find_behind low high)
      exact (congrArg (fun x => iterate x (some t) ⟨s.books, s.begun⟩) found).trans (iterate_some e _ _)
    · rw [show s.begun.src.cursor = some t from hc]
      have found : s.begun.src.entries.find? (fun x => decide (tagKey t < tagKey x.tag)) = none :=
        find_behind_none low
      have kept : { s.begun with src := { s.begun.src with cursor := some t } } = s.begun := by
        rw [← hc]; rfl
      refine (congrArg (fun x => iterate x (some t) ⟨s.books, s.begun⟩) found).trans ?_
      exact congrArg (fun p => ((⟨s.books, p⟩ : Plant), (⟨.end_, .source none (sourceSummary s.begun)⟩ : Reply))) kept

end Sys2Proof.Machine
end

