-- ==== Sys2Proof/Proofs/Patterns.lean ====
section
/-! SUPPORT. The Pattern Unit (chapter 9): when terms and patterns are met, the input a match writes, the pattern requests
and the outcome of an evaluation. -/

namespace Sys2Proof.Machine

/-! ## Terms and modes (R155, R156) -/

theorem mem_allInputs (i : InputId) : i ∈ allInputs := by revert i; decide

/-- The inputs stand in their order, each once. -/
theorem allInputs_sorted : allInputs.Pairwise (· < ·) := by decide

theorem mem_activeInputs (r : PatternRec) (i : InputId) : i ∈ activeInputs r ↔ r.terms.get i ≠ .ignore := by
  simp [activeInputs, mem_allInputs]

/-- A term that is met is active. -/
theorem mem_metInputs (inputs : Vector Bool 24) (change : Option (InputId × Bool)) (r : PatternRec) (i : InputId) :
    i ∈ metInputs inputs change r ↔ termMet inputs change i (r.terms.get i) = true := by
  simp only [metInputs, List.mem_filter, mem_activeInputs, and_iff_right_iff_imp]
  intro met ignored
  rw [ignored] at met
  cases met

/-- AND asks for one active term at least, and for all of them (R156). -/
theorem patternMet_and {inputs : Vector Bool 24} {change : Option (InputId × Bool)} {r : PatternRec}
    (h : r.mode = .andMode) : patternMet inputs change r = true ↔
      (∃ i, r.terms.get i ≠ .ignore) ∧
      ∀ i, r.terms.get i ≠ .ignore → termMet inputs change i (r.terms.get i) = true := by
  simp only [patternMet, h, Bool.and_eq_true, List.all_eq_true, mem_activeInputs, Bool.not_eq_true',
    List.isEmpty_eq_false_iff_exists_mem]

/-- ANY and FIRST ask for one. -/
theorem patternMet_some {inputs : Vector Bool 24} {change : Option (InputId × Bool)} {r : PatternRec}
    (h : r.mode ≠ .andMode) : patternMet inputs change r = true ↔
      ∃ i, termMet inputs change i (r.terms.get i) = true := by
  have mode : patternMet inputs change r = !(metInputs inputs change r).isEmpty := by
    cases hm : r.mode <;> simp_all [patternMet]
  simp only [mode, Bool.not_eq_true', List.isEmpty_eq_false_iff_exists_mem, mem_metInputs]

/-- A pattern that is met has a met term. -/
theorem met_of_patternMet {inputs : Vector Bool 24} {change : Option (InputId × Bool)} {r : PatternRec}
    (h : patternMet inputs change r = true) : ∃ i, termMet inputs change i (r.terms.get i) = true := by
  by_cases hm : r.mode = .andMode
  · obtain ⟨⟨i, active⟩, all⟩ := (patternMet_and hm).mp h
    exact ⟨i, all i active⟩
  · exact (patternMet_some hm).mp h

/-- The first of the met inputs is the lowest. -/
theorem head_metInputs {inputs : Vector Bool 24} {change : Option (InputId × Bool)} {r : PatternRec}
    (h : patternMet inputs change r = true) : ∃ i, (metInputs inputs change r).head? = some i ∧
      termMet inputs change i (r.terms.get i) = true ∧
      ∀ k, termMet inputs change k (r.terms.get k) = true → i ≤ k := by
  obtain ⟨j, met⟩ := met_of_patternMet h
  have sorted : (metInputs inputs change r).Pairwise (· < ·) := (allInputs_sorted.filter _).filter _
  cases hl : metInputs inputs change r with
  | nil => exact absurd ((mem_metInputs inputs change r j).mpr met) (by simp [hl])
  | cons i rest =>
    have all (k : InputId) : k ∈ i :: rest ↔ termMet inputs change k (r.terms.get k) = true := by
      rw [← hl]; exact mem_metInputs inputs change r k
    rw [hl, List.pairwise_cons] at sorted
    refine ⟨i, rfl, (all i).mp List.mem_cons_self, fun k hk => ?_⟩
    rcases List.mem_cons.mp ((all k).mpr hk) with rfl | later
    · exact Fin.le_refl k
    · exact Nat.le_of_lt (sorted.1 k later)

/-- Which input a match writes (R156). -/
theorem matchedInput_lowest {inputs : Vector Bool 24} {change : Option (InputId × Bool)} {r : PatternRec}
    (h : change = none ∨ r.mode = .firstMode) :
    matchedInput inputs change r = (metInputs inputs change r).head? := by
  cases change with
  | none => rfl
  | some c =>
    have first : r.mode = .firstMode := h.resolve_left (by simp)
    simp [matchedInput, first]

theorem matchedInput_changed {inputs : Vector Bool 24} {j : InputId} {high : Bool} {r : PatternRec}
    (h : r.mode ≠ .firstMode) : matchedInput inputs (some (j, high)) r = some j := by
  cases hm : r.mode with
  | andMode => simp only [matchedInput, hm]
  | anyMode => simp only [matchedInput, hm]
  | firstMode => exact absurd hm h

/-- Settles O56: the terms by their definition, the modes by the lists of active and of met inputs. -/
theorem patternTermsAndModes : Obligations.PatternTermsAndModes := by
  refine ⟨fun inputs i => ⟨fun change => ?_, fun j high => ?_, rfl, rfl, rfl⟩, ?_⟩
  · simp [termMet]
  · simp [termMet]
  · intro inputs change r active met
    refine ⟨patternMet_and, fun hm => ?_, fun j high hc hm => ?_, fun h hc => ?_⟩
    · have notAnd : r.mode ≠ .andMode := by rcases hm with h | h <;> simp [h]
      rw [patternMet_some notAnd]
      refine exists_congr fun i => (and_iff_right_of_imp fun hi => ?_).symm
      exact (mem_activeInputs r i).mp (List.mem_filter.mp ((mem_metInputs inputs change r i).mpr hi)).1
    · rw [hc]; exact matchedInput_changed hm
    · rw [matchedInput_lowest hc]; exact head_metInputs h

/-! ## An evaluation (R155 to R157) -/

section Evaluation

variable {b : Books} {change : Option (InputId × Bool)} {k : PatternId} {p : Part}

theorem evaluatePattern_unmet (h : (patternRec p k).enabled = false ∨
    patternMet p.pat.inputs change (patternRec p k) = false) : evaluatePattern b change k p = p := by
  refine if_neg ?_
  rcases h with h | h <;> simp [h]

theorem evaluatePattern_met (enabled : (patternRec p k).enabled = true)
    (met : patternMet p.pat.inputs change (patternRec p k) = true) :
    evaluatePattern b change k p = takeMatch b k (matchedInput p.pat.inputs change (patternRec p k)) p :=
  if_pos (by simp [enabled, met])

theorem takeMatch_overrun {i : Option InputId} (h : (patternRec p k).state ≠ .armed) :
    takeMatch b k i p = updPattern k (fun r => { r with overrun := true }) p := by
  unfold takeMatch
  split
  · next armed => exact absurd armed h
  · rfl
  · rfl

theorem takeMatch_armed {i : Option InputId} (h : (patternRec p k).state = .armed) :
    takeMatch b k i p = matchArmed b k i p := by
  simp only [takeMatch, h]

/-- A match and its notice touch no frame. -/
theorem hasFrame_congr {t : FaultType} {x : Subject} {p q : Part} (h : q.flt = p.flt) :
    hasFrame t x q = hasFrame t x p := by
  unfold hasFrame
  rw [h]

theorem raiseOrReport_framed {r : Raise} (h : hasFrame r.ftype r.subject p = true) :
    raiseOrReport b r p = reportOn r.ftype r.subject .present p := if_pos h

theorem raiseOrReport_new {r : Raise} (h : hasFrame r.ftype r.subject p = false) :
    raiseOrReport b r p = raise b r p := if_neg (by simp [h])

end Evaluation

/-! ## The pattern requests (R158 to R160) -/

/-- Two edge terms of a programming (R158). -/
theorem edgeCount_iff (terms : Vector Term 24) : 1 < edgeCount terms ↔
    ∃ x y, x ≠ y ∧ isEdge (terms.get x) = true ∧ isEdge (terms.get y) = true := by
  have nodup : (allInputs.filter (fun i => isEdge (terms.get i))).Nodup :=
    (allInputs_sorted.imp Fin.ne_of_lt).filter _
  have edge (x : InputId) : x ∈ allInputs.filter (fun i => isEdge (terms.get i)) ↔ isEdge (terms.get x) = true := by
    simp only [List.mem_filter, mem_allInputs, true_and]
  rw [edgeCount]
  constructor
  · intro two
    generalize allInputs.filter (fun i => isEdge (terms.get i)) = l at nodup edge two
    match l, two with
    | x :: y :: _, _ =>
      have fresh := (List.nodup_cons.mp nodup).1
      exact ⟨x, y, fun e => fresh (e ▸ List.mem_cons_self), (edge x).mp (by simp), (edge y).mp (by simp)⟩
  · rintro ⟨x, y, apart, hx, hy⟩
    have pair : [x, y].Nodup := by simp [apart]
    refine pair.length_le_of_subset fun z hz => ?_
    rcases List.mem_cons.mp hz with rfl | hz
    · exact (edge z).mpr hx
    · exact List.mem_singleton.mp hz ▸ (edge y).mpr hy

theorem activeInputs_isEmpty_iff (r : PatternRec) :
    (activeInputs r).isEmpty = true ↔ ∀ i, r.terms.get i = .ignore := by
  rw [List.isEmpty_iff, List.eq_nil_iff_forall_not_mem]
  simp only [mem_activeInputs, ne_eq, Classical.not_not]

/-- What the owner of a pattern answers, by its checks in order. -/
theorem setPatternOf_eq (i : PatternItems) (k : PatternId) (q : Plant) : setPatternOf i k q =
    if i.mode = .andMode ∧ 1 < edgeCount i.terms then refuse .badValue q
    else if (patternRec q.part k).enabled then refuse .wrongState q
    else okay { q with
      part := updPattern k (fun r => { r with terms := i.terms, mode := i.mode, latch := i.latch }) q.part } := rfl

theorem patternOnOf_eq (k : PatternId) (q : Plant) : patternOnOf k q =
    if (patternRec q.part k).enabled then okay q
    else if (activeInputs (patternRec q.part k)).isEmpty then refuse .wrongState q
    else okay { q with
      part := evaluatePattern q.books none k (updPattern k (fun x => { x with enabled := true }) q.part) } := rfl

theorem patternOffOf_alarmed {k : PatternId} {q : Plant} (h : (patternRec q.part k).state ≠ .armed) :
    patternOffOf k q = refuse .wrongState q := by
  cases hs : (patternRec q.part k).state with
  | armed => exact absurd hs h
  | pending | taken => simp only [patternOffOf, hs]

theorem patternOffOf_armed {k : PatternId} {q : Plant} (h : (patternRec q.part k).state = .armed) :
    patternOffOf k q = if (patternRec q.part k).enabled then
      okay { q with part := updPattern k (fun x => { x with enabled := false }) q.part } else okay q := by
  cases he : (patternRec q.part k).enabled <;> simp [patternOffOf, h, he]

theorem alarmTakeOf_pending {k : PatternId} {q : Plant} (h : (patternRec q.part k).state = .pending) :
    alarmTakeOf k q = okay { q with part := updPattern k (fun x => { x with state := .taken }) q.part } := by
  simp only [alarmTakeOf, h]

theorem alarmTakeOf_else {k : PatternId} {q : Plant} (h : (patternRec q.part k).state ≠ .pending) :
    alarmTakeOf k q = refuse .wrongState q := by
  cases hs : (patternRec q.part k).state with
  | pending => exact absurd hs h
  | armed | taken => simp only [alarmTakeOf, hs]

theorem alarmClearOf_taken {k : PatternId} {q : Plant} (h : (patternRec q.part k).state = .taken) :
    alarmClearOf k q = ({ q with part := clearAlarm q.books k q.part },
      { status := .ok, items := .patternState (patternRec (clearAlarm q.books k q.part) k).state }) := by
  simp only [alarmClearOf, h]

theorem alarmClearOf_else {k : PatternId} {q : Plant} (h : (patternRec q.part k).state ≠ .taken) :
    alarmClearOf k q = refuse .wrongState q := by
  cases hs : (patternRec q.part k).state with
  | taken => exact absurd hs h
  | armed | pending => simp only [alarmClearOf, hs]

/-! ## Input changes (R153, R157) -/

theorem inputChanges_same {b : Books} {i : InputId} {high : Bool} {p : Part} (h : p.pat.inputs.get i = high) :
    inputChanges b i high p = p := if_pos h

theorem inputChanges_new {b : Books} {i : InputId} {high : Bool} {p : Part} (h : p.pat.inputs.get i ≠ high) :
    inputChanges b i high p = if p.ctl.mode.inService && !p.ctl.resetHeld
      then evaluateAll b (some (i, high)) (recordInput i high p) else recordInput i high p := if_neg h

/-- The row acts while RESET is held as well (R153). -/
theorem exec_inputChange (i : InputId) (high : Bool) (s : State) : exec (.inputChange i high) s =
    .next (s.after s.books (inputChanges s.books i high s.begun)) := rfl

/-- Settles O57. -/
theorem patternRequestsAndChanges : Obligations.PatternRequestsAndChanges := by
  refine ⟨?_, fun n k s hs bad => ?_, ?_, ?_⟩
  · intro n k a s hs hk r put
    have disabled (off : r.enabled = false) : ¬ (patternRec s.begun a).enabled = true := by
      rw [show (patternRec s.begun a).enabled = false from off]
      decide
    refine ⟨?_, fun on => request_named hs hk (if_pos on), fun off none => ?_, fun off some => ?_,
      fun alarmed => request_named hs hk (patternOffOf_alarmed alarmed), fun armed on => ?_, fun armed off => ?_,
      fun pending => request_named hs hk (alarmTakeOf_pending pending),
      fun other => request_named hs hk (alarmTakeOf_else other), ?_,
      fun other => request_named hs hk (alarmClearOf_else other)⟩
    · intro i twoEdges
      have edges : twoEdges ↔ 1 < edgeCount i.terms := (edgeCount_iff i.terms).symm
      simp only [edges]
      exact ⟨fun two => request_named hs hk (if_pos two),
        fun one on => request_named hs hk ((if_neg one).trans (if_pos on)),
        fun one off => request_named hs hk ((if_neg one).trans (if_neg (disabled off)))⟩
    · exact request_named hs hk ((if_neg (disabled off)).trans
        (if_pos ((activeInputs_isEmpty_iff _).mpr none)))
    · obtain ⟨i, active⟩ := some
      exact request_named hs hk ((if_neg (disabled off)).trans
        (if_neg fun empty => active ((activeInputs_isEmpty_iff _).mp empty i)))
    · exact request_named hs hk ((patternOffOf_armed armed).trans (if_pos on))
    · exact request_named hs hk ((patternOffOf_armed armed).trans
        (if_neg (disabled off)))
    · intro taken p
      exact request_named hs hk (alarmClearOf_taken taken)
  · have none : patternOf k = none := indexOf_outside bad
    exact ⟨fun i => request_unnamed hs none, request_unnamed hs none, request_unnamed hs none, request_unnamed hs none,
      request_unnamed hs none, request_unnamed hs none⟩
  · intro i high s recorded
    refine ⟨fun same => ?_, fun new idle => ?_, fun new working => ?_⟩
    · rw [exec_inputChange, inputChanges_same (show s.begun.pat.inputs.get i = high from same)]
      rfl
    · rw [exec_inputChange, inputChanges_new (show s.begun.pat.inputs.get i ≠ high from new), if_neg]
      · rfl
      · intro acts
        obtain ⟨service, free⟩ := Bool.and_eq_true_iff.mp acts
        exact idle ⟨Bool.not_eq_true' _ |>.mp free, service⟩
    · rw [exec_inputChange, inputChanges_new (show s.begun.pat.inputs.get i ≠ high from new), if_pos]
      · rfl
      · exact Bool.and_eq_true_iff.mpr ⟨working.2, (Bool.not_eq_true' _).mpr working.1⟩
  · intro b change k p r
    refine ⟨evaluatePattern_unmet, fun enabled met => ⟨fun alarmed => ?_, ?_⟩⟩
    · exact (evaluatePattern_met enabled met).trans (takeMatch_overrun alarmed)
    · intro armed i snap matched
      have taken : evaluatePattern b change k p = raiseOrReport b { ftype := .interlock k, subject := .pattern k } matched :=
        (evaluatePattern_met enabled met).trans (takeMatch_armed armed)
      have frames : hasFrame (.interlock k) (.pattern k) matched = hasFrame (.interlock k) (.pattern k) p :=
        hasFrame_congr (notify_flt _ _)
      exact ⟨fun framed => taken.trans (raiseOrReport_framed (frames.trans framed)),
        fun new => taken.trans (raiseOrReport_new (frames.trans new))⟩

end Sys2Proof.Machine
end

