-- ==== Sys2Proof/Proofs/Sources.lean ====
section
/-! SUPPORT. The Source Table: its requests, the classification of an offer and the aging scan (R63 to R74). -/

namespace Sys2Proof.Machine

/-! ## The requests (R73, R74) -/

theorem setSourceTo_known {t : Tag} {i : SourceItems} {u : UnitId} {q : Plant} {e : SourceEntry}
    (h : findSource t q.part = some e) :
    setSourceTo t i u q = okay { q with part := updSource t (bindStatic u i) q.part } := by
  rw [setSourceTo, h]

theorem setSourceTo_full {t : Tag} {i : SourceItems} {u : UnitId} {q : Plant} (h : findSource t q.part = none)
    (hl : 64 ≤ q.part.src.entries.length) : setSourceTo t i u q = refuse .full q := by
  rw [setSourceTo, h]
  exact if_pos hl

theorem setSourceTo_added {t : Tag} {i : SourceItems} {u : UnitId} {q : Plant} (h : findSource t q.part = none)
    (hl : q.part.src.entries.length < 64) : setSourceTo t i u q =
      okay { q with part := addSource ⟨t, u, .static i.pinned i.filter i.bypass, none, none, 0, 0, 0⟩ q.part } := by
  rw [setSourceTo, h]
  exact if_neg (Nat.not_le.mpr hl)

theorem removeSourceOf_unknown {t : Tag} {q : Plant} (h : findSource t q.part = none) :
    removeSourceOf t q = refuse .noSuch q := by
  rw [removeSourceOf, h]

theorem removeSourceOf_known {t : Tag} {q : Plant} {e : SourceEntry} (h : findSource t q.part = some e) :
    removeSourceOf t q = okay { q with part := dropSource t q.part } := by
  rw [removeSourceOf, h]

/-- Settles O36: the checks in the order of the request, each with the owner's answer. -/
theorem sourceRequests : Obligations.SourceRequests := by
  intro n raw s hs
  refine ⟨fun ht => ⟨fun i => request_unnamed hs ht, request_unnamed hs ht⟩, fun t i ht hu => ?_,
    fun t i u e ht hu he => ?_, fun t i u ht hu he => ⟨fun hl => ?_, fun hl => ?_⟩, fun t ht he => ?_,
    fun t e ht he => ?_⟩
  · exact request_named hs ht (by rw [hu]; rfl)
  · exact request_named hs ht (by rw [hu]; exact setSourceTo_known (q := ⟨s.books, s.begun⟩) he)
  · exact request_named hs ht (by rw [hu]; exact setSourceTo_full (q := ⟨s.books, s.begun⟩) he hl)
  · exact request_named hs ht (by rw [hu]; exact setSourceTo_added (q := ⟨s.books, s.begun⟩) he hl)
  · exact request_named hs ht (removeSourceOf_unknown (q := ⟨s.books, s.begun⟩) he)
  · exact request_named hs ht (removeSourceOf_known (q := ⟨s.books, s.begun⟩) he)

/-! ## Offers (R63 to R69) -/

theorem tag_of_findSource {t : Tag} {p : Part} {e : SourceEntry} (h : findSource t p = some e) : e.tag = t :=
  by simpa using List.find?_some h

/-- Settles O37: by whether the tag has an entry, its origin, and whether the unit learns. -/
theorem offerIsClassified : Obligations.OfferIsClassified := by
  intro t u conc p cls byPolicy classTold unitTold kept
  have policy : unknownClass p.src.policy cls = byPolicy := rfl
  refine ⟨fun e mark he ho hu => ?_, fun e mark old he ho hu hc => ?_, fun e pinned filter bypass he ho => ⟨fun h => ?_,
    fun h => ?_⟩, ?_, fun he hu => ?_, fun he hu hl => ⟨fun hr => ?_, fun hr => ?_⟩⟩
  · obtain rfl := tag_of_findSource he
    simp only [classifyOffer, he, ho, hu, if_true, refreshEntry]
    cases hc : e.cls <;> rfl
  · simp only [classifyOffer, he, ho, hu, hc]
    rfl
  · simp only [classifyOffer, he, ho]
    exact if_pos h
  · simp only [classifyOffer, he, ho]
    refine (if_neg (Classical.not_not.mpr h)).trans ?_
    cases hc : e.cls <;> rfl
  · intro he hu hl
    simp only [classifyOffer, he, offerUnknown, hu, hl, if_true]
    rfl
  · simp only [classifyOffer, he, offerUnknown, hu]
    exact congrArg (Prod.mk p) policy
  · simp only [classifyOffer, he, offerUnknown, hu, Nat.not_lt.mpr hl, reportFull, hr, if_true]
    exact congrArg (Prod.mk p) policy
  · simp only [classifyOffer, he, offerUnknown, hu, Nat.not_lt.mpr hl, reportFull, hr]
    exact congrArg (Prod.mk _) policy

/-! ## Aging (R71, R72) -/

/-- What a scan leaves of an entry. -/
def agedEntry (e : SourceEntry) : Option SourceEntry :=
  match e.origin with
  | .learned true => some { e with origin := .learned false }
  | .learned false => none
  | .static _ _ _ => some e

/-- The entries that a scan removes. -/
def agedOf (l : List SourceEntry) : List SourceEntry := l.filter (fun e => decide (e.origin = .learned false))

/-- The notice of a removal. -/
def tellAged (q : Part) (e : SourceEntry) : Part := notify (.sourceAged e.tag e.unit e.slugs e.litres e.mg) q

/-- A part whose table has these entries and this flag. -/
def withEntries (l : List SourceEntry) (full : Bool) (p : Part) : Part :=
  { p with src := { p.src with entries := l, fullReported := full } }

theorem notify_withEntries (b : NoticeBody) (l : List SourceEntry) (full : Bool) (p : Part) :
    notify b (withEntries l full p) = withEntries l full (notify b p) := by
  unfold notify withEntries
  split <;> rfl

theorem map_other {t : Tag} {f : SourceEntry → SourceEntry} {l : List SourceEntry} (h : ∀ x ∈ l, x.tag ≠ t) :
    l.map (fun e => if e.tag = t then f e else e) = l :=
  (List.map_congr_left fun x hx => if_neg (h x hx)).trans (List.map_id _)

theorem filter_other {t : Tag} {l : List SourceEntry} (h : ∀ x ∈ l, x.tag ≠ t) :
    l.filter (fun e => decide (e.tag ≠ t)) = l :=
  List.filter_eq_self.mpr fun x hx => decide_eq_true (h x hx)

section
variable {e : SourceEntry} {before rest : List SourceEntry} {full : Bool} {p : Part}

/-- A scan passes over a STATIC entry. -/
theorem ageEntry_static {pinned : Option WaterClass} {filter bypass : Bool} (h : e.origin = .static pinned filter bypass) :
    ageEntry e p = p := by
  rw [ageEntry, h]

/-- The mark of an entry is cleared, and no other entry changes. -/
theorem ageEntry_marked (h : e.origin = .learned true) (hb : ∀ x ∈ before, x.tag ≠ e.tag)
    (hr : ∀ x ∈ rest, x.tag ≠ e.tag) : ageEntry e (withEntries (before ++ e :: rest) full p) =
      withEntries (before ++ { e with origin := .learned false } :: rest) full p := by
  have entries : (before ++ e :: rest).map (fun x => if x.tag = e.tag then { x with origin := .learned false } else x) =
      before ++ { e with origin := .learned false } :: rest := by
    rw [List.map_append, List.map_cons, map_other hb, map_other hr, if_pos rfl]
  rw [← entries, ageEntry, h]
  rfl

/-- An unmarked entry is removed with its notice, and no other entry changes. -/
theorem ageEntry_unmarked (h : e.origin = .learned false) (hb : ∀ x ∈ before, x.tag ≠ e.tag)
    (hr : ∀ x ∈ rest, x.tag ≠ e.tag) : ageEntry e (withEntries (before ++ e :: rest) full p) =
      withEntries (before ++ rest) false (tellAged p e) := by
  have entries : (before ++ e :: rest).filter (fun x => decide (x.tag ≠ e.tag)) = before ++ rest := by
    rw [List.filter_append, List.filter_cons_of_neg (by simp), filter_other hb, filter_other hr]
  rw [tellAged, ← notify_withEntries, ← entries, ageEntry, h]
  rfl

end

/-- The scan of the entries that are still to come, behind those that it has passed. -/
theorem scan_rest (rest : List SourceEntry) : ∀ (before : List SourceEntry) (full : Bool) (p : Part),
    (before ++ rest).Pairwise (fun x y => x.tag ≠ y.tag) →
    rest.foldl (fun q e => ageEntry e q) (withEntries (before ++ rest) full p) =
      withEntries (before ++ rest.filterMap agedEntry) (full && (agedOf rest).isEmpty)
        ((agedOf rest).foldl tellAged p) := by
  induction rest with
  | nil => intro before full p _; simp [agedOf]
  | cons e rest ih =>
    intro before full p apart
    obtain ⟨hbefore, hrest, cross⟩ := List.pairwise_append.mp apart
    obtain ⟨first, hrest⟩ := List.pairwise_cons.mp hrest
    have hb : ∀ x ∈ before, x.tag ≠ e.tag := fun x hx => cross x hx e List.mem_cons_self
    have hr : ∀ x ∈ rest, x.tag ≠ e.tag := fun x hx => (first x hx).symm
    have without : (before ++ rest).Pairwise (fun x y => x.tag ≠ y.tag) :=
      List.pairwise_append.mpr ⟨hbefore, hrest, fun x hx y hy => cross x hx y (List.mem_cons_of_mem _ hy)⟩
    have passed (x : SourceEntry) (hx : x.tag = e.tag) :
        ((before ++ [x]) ++ rest).Pairwise (fun x y => x.tag ≠ y.tag) := by
      rw [List.append_assoc, List.singleton_append, List.pairwise_append]
      refine ⟨hbefore, List.pairwise_cons.mpr ⟨fun y hy => hx ▸ first y hy, hrest⟩, fun y hy z hz => ?_⟩
      rcases List.mem_cons.mp hz with rfl | hz
      · exact hx ▸ hb y hy
      · exact cross y hy z (List.mem_cons_of_mem _ hz)
    rw [List.foldl_cons]
    match ho : e.origin with
    | .static pinned filter bypass =>
      have kept := ih (before ++ [e]) full p (passed e rfl)
      rw [ageEntry_static ho]
      simpa [agedOf, agedEntry, ho] using kept
    | .learned true =>
      have kept := ih (before ++ [{ e with origin := .learned false }]) full p (passed _ rfl)
      rw [ageEntry_marked ho hb hr]
      simpa [agedOf, agedEntry, ho] using kept
    | .learned false =>
      have kept := ih before false (tellAged p e) without
      rw [ageEntry_unmarked ho hb hr]
      simpa [agedOf, agedEntry, ho] using kept

theorem tags_differ {l : List SourceEntry} (h : l.Pairwise (fun x y => tagKey x.tag < tagKey y.tag)) :
    l.Pairwise (fun x y => x.tag ≠ y.tag) := h.imp fun lt same => absurd (same ▸ lt) (Nat.lt_irrefl _)

/-- The whole scan. -/
theorem agingScan_eq {p : Part} (h : p.src.inTagOrder) : agingScan p =
    withEntries (p.src.entries.filterMap agedEntry) (p.src.fullReported && (agedOf p.src.entries).isEmpty)
      ((agedOf p.src.entries).foldl tellAged p) :=
  scan_rest p.src.entries [] p.src.fullReported p (tags_differ h)

theorem foldl_tellAged_src (l : List SourceEntry) (p : Part) : (l.foldl tellAged p).src = p.src := by
  induction l generalizing p with
  | nil => rfl
  | cons e l ih => exact (ih _).trans (by unfold tellAged notify; split <;> rfl)

theorem agingExpires_running {p : Part} (h : p.ctl.mode.running = true) : agingExpires p = restartAging (agingScan p) :=
  if_pos h

theorem agingExpires_paused {p : Part} (h : p.ctl.mode.running = false) : agingExpires p = p :=
  if_neg (by rw [h]; exact Bool.false_ne_true)

/-- Settles O38: the scan runs in a running mode alone, and its notices change nothing of the table. -/
theorem agingScan_atExpiry : Obligations.AgingScan := by
  refine fun s hl => ⟨fun hm => ?_, fun hm ordered => ?_⟩
  · exact (partCommand_live (fun _ p => agingExpires p) s hl).trans
      (congrArg (fun p => Host.Outcome.next (s.after s.books p)) (agingExpires_paused (p := s.begun) hm))
  · intro aged told
    have src : told.src = s.part.src := foldl_tellAged_src aged s.begun
    refine (partCommand_live (fun _ p => agingExpires p) s hl).trans
      (congrArg (fun p => Host.Outcome.next (s.after s.books p)) ?_)
    rw [agingExpires_running (p := s.begun) hm, agingScan_eq (p := s.begun) ordered]
    show restartAging (withEntries _ _ told) = _
    simp only [restartAging, withEntries, src]
    rfl

end Sys2Proof.Machine
end

