-- ==== Sys2Proof/Proofs/Turns.lean ====
section
/-! SUPPORT. The Field Link's turns: SET UNIT, the round of the turns, misses and the answer IDLE (R78 to R83, R89, R91,
R97). -/

namespace Sys2Proof.Machine

theorem mem_allUnits (u : UnitId) : u ∈ allUnits := by revert u; decide

theorem allUnits_sorted : allUnits.Pairwise (· < ·) := by decide

/-! ## SET UNIT (R78, R79) -/

/-- An update of a unit record writes one record. -/
theorem updUnit_const (u : UnitId) (f : UnitRec → UnitRec) (p : Part) :
    updUnit u f p = updUnit u (fun _ => f (unitRec p u)) p := rfl

/-- SET UNIT changes the unit's record and, where it disables it, what hangs on it. -/
theorem setUnitOf_applies {en le : Option Bool} {u : UnitId} {q : Plant}
    (h : ((unitRec q.part u).enabled && !en.getD (unitRec q.part u).enabled) = false) : setUnitOf en le u q =
      okay { q with part := updUnit u (fun x => { enableUnit (en.getD (unitRec q.part u).enabled) x with
        learning := le.getD x.learning }) q.part } := by
  simp [setUnitOf, h]

theorem setUnitOf_busy {le : Option Bool} {u : UnitId} {q : Plant} (on : (unitRec q.part u).enabled = true)
    (hs : (unitRec q.part u).slug.isSome = true) : setUnitOf (some false) le u q = refuse .busy q := by
  simp [setUnitOf, on, hs]

theorem setUnitOf_disables {le : Option Bool} {u : UnitId} {q : Plant} (on : (unitRec q.part u).enabled = true)
    (hs : (unitRec q.part u).slug = none) : setUnitOf (some false) le u q =
      okay { q with
        part := unitDisabled u (unitRec q.part u)
          (updUnit u (fun x => { enableUnit false x with learning := le.getD x.learning }) q.part) } := by
  simp [setUnitOf, on, hs]

theorem enableUnit_same {on : Bool} {r : UnitRec} (h : on = r.enabled) : enableUnit on r = r := if_pos h

theorem enableUnit_on {r : UnitRec} (h : r.enabled = false) :
    enableUnit true r = { r with enabled := true, presence := .unknown, missed := 0 } := by simp [enableUnit, h]

theorem enableUnit_off {r : UnitRec} (h : r.enabled = true) :
    enableUnit false r = { r with enabled := false, presence := .unknown, missed := 0, outbound := none } := by
  simp [enableUnit, h]

theorem roundOver_some {p : Part} {w : UnitId} (h : (unitRec p w).enabled = true) : roundOver p = p :=
  if_pos (List.any_eq_true.mpr ⟨w, mem_allUnits w, h⟩)

theorem roundOver_none {p : Part} (h : ∀ w, (unitRec p w).enabled = false) :
    roundOver p = { p with fld := { p.fld with lastTurn := none } } :=
  if_neg (by simp [h])

theorem roundOver_turn (p : Part) : (roundOver p).fld.turn = p.fld.turn := by
  unfold roundOver
  split <;> rfl

/-- The open turn of a disabled unit ends. -/
theorem unitDisabled_eq (u : UnitId) (was : UnitRec) (p : Part) : unitDisabled u was p =
    let q := roundOver (if was.presence = .silent then reportOn .unitSilent (.unit u) .cleared p else p)
    if q.fld.turn.map Turn.unit = some u then endTurn q else q := by
  simp only [unitDisabled]
  generalize roundOver _ = q
  cases h : q.fld.turn <;> simp

/-- Settles O39: by what the enabled flag asks of the unit, and whether another unit is left enabled. -/
theorem setUnit : Obligations.SetUnit := by
  intro n k u en le s hs hk r learn
  have change {p : Part} {q : Reply} (e : setUnitOf en le u ⟨s.books, s.begun⟩ = (⟨s.books, p⟩, q)) :
      exec (.setUnit n k en le) s = .next (s.answered n 0x1B q p) := request_named hs hk e
  refine ⟨fun he => ?_, fun hr he => ?_, fun hr he hu => ?_, fun hr he hu => ?_⟩
  · have same : en.getD r.enabled = r.enabled := by rcases he with rfl | rfl <;> rfl
    refine change ((setUnitOf_applies (q := ⟨s.books, s.begun⟩) (by
      show (r.enabled && !en.getD r.enabled) = false
      simp [same])).trans ?_)
    show okay ⟨s.books, updUnit u (fun _ => { enableUnit (en.getD r.enabled) r with learning := learn }) s.begun⟩ = _
    rw [enableUnit_same same]
    rfl
  · subst he
    refine change ((setUnitOf_applies (q := ⟨s.books, s.begun⟩) (by simp)).trans ?_)
    show okay ⟨s.books, updUnit u (fun _ => { enableUnit true r with learning := learn }) s.begun⟩ = _
    rw [enableUnit_on hr]
    rfl
  · subst he
    exact change (setUnitOf_busy (q := ⟨s.books, s.begun⟩) hr hu)
  · subst he
    intro off told ended
    have fld : told.fld = off.fld := by
      unfold told
      split
      · exact report_fld _ _ _
      · rfl
    have disabled : setUnitOf (some false) le u ⟨s.books, s.begun⟩ = okay ⟨s.books, ended (roundOver told)⟩ := by
      refine (setUnitOf_disables (q := ⟨s.books, s.begun⟩) hr hu).trans ?_
      show okay ⟨s.books, unitDisabled u r
        (updUnit u (fun _ => { enableUnit false r with learning := learn }) s.begun)⟩ = _
      rw [enableUnit_off hr, unitDisabled_eq]
      show okay ⟨s.books, if (roundOver told).fld.turn.map Turn.unit = some u then endTurn (roundOver told)
        else roundOver told⟩ = _
      rw [roundOver_turn, fld]
      rfl
    have same (w : UnitId) : unitRec told w = unitRec off w := congrArg (fun x : FieldUnit => x.units.get w) fld
    have self : (unitRec told u).enabled = false := by simp [same, off]
    have other (w : UnitId) (hw : w ≠ u) : (unitRec told w).enabled = (unitRec s.part w).enabled := by
      rw [same, unitRec_updUnit, if_neg hw]
      rfl
    refine ⟨fun ⟨w, hw, on⟩ => ?_, fun others => ?_⟩
    · exact change (disabled.trans (by rw [roundOver_some ((other w hw).trans on)]; rfl))
    · have all (w : UnitId) : (unitRec told w).enabled = false := by
        by_cases hw : w = u
        · exact hw ▸ self
        · exact (other w hw).trans (others w hw)
      exact change (disabled.trans (by rw [roundOver_none all]; rfl))

/-! ## The round of the turns (R79, R89, R91) -/

/-- The enabled units in ascending address. -/
def enabledUnits (p : Part) : List UnitId := allUnits.filter (fun u => (unitRec p u).enabled)

theorem mem_enabledUnits {p : Part} {u : UnitId} : u ∈ enabledUnits p ↔ (unitRec p u).enabled = true := by
  simp [enabledUnits, mem_allUnits]

theorem enabledUnits_sorted (p : Part) : (enabledUnits p).Pairwise (· < ·) := allUnits_sorted.filter _

/-- The first of a sorted list that passes a test is the least that does. -/
theorem le_of_find_sorted {n : Nat} {l : List (Fin n)} {P : Fin n → Bool} {u : Fin n}
    (sorted : l.Pairwise (· < ·)) (h : l.find? P = some u) : ∀ w ∈ l, P w = true → u ≤ w := by
  obtain ⟨-, before, after, rfl, low⟩ := List.find?_eq_some_iff_append.mp h
  obtain ⟨-, tail, -⟩ := List.pairwise_append.mp sorted
  intro w hw hP
  rcases List.mem_append.mp hw with hb | ha
  · exact absurd (low w hb) (by simp [hP])
  · rcases List.mem_cons.mp ha with rfl | ha
    · exact Nat.le_refl _
    · exact Nat.le_of_lt ((List.pairwise_cons.mp tail).1 w ha)

/-- The lowest enabled address. -/
theorem head_enabledUnits {p : Part} {u : UnitId} (h : (enabledUnits p).head? = some u) :
    (unitRec p u).enabled = true ∧ ∀ w, (unitRec p w).enabled = true → u ≤ w := by
  have first : (enabledUnits p).find? (fun _ => true) = some u := by
    rw [← List.head?_filter, List.filter_eq_self.mpr fun _ _ => rfl]
    exact h
  exact ⟨mem_enabledUnits.mp (List.mem_of_head? h),
    fun w hw => le_of_find_sorted (enabledUnits_sorted p) first w (mem_enabledUnits.mpr hw) rfl⟩

/-- The next turn goes to the first enabled unit above the last one, else to the lowest. -/
theorem nextUnit_eq (p : Part) : nextUnit p = match p.fld.lastTurn with
    | none => (enabledUnits p).head?
    | some l => ((enabledUnits p).find? (fun u => decide (l < u))).or (enabledUnits p).head? := rfl

theorem nextUnit_none {p : Part} (h : nextUnit p = none) (u : UnitId) : (unitRec p u).enabled = false := by
  have empty : (enabledUnits p).head? = none := by
    rw [nextUnit_eq] at h
    split at h
    · exact h
    · exact (Option.or_eq_none_iff.mp h).2
  refine Bool.eq_false_iff.mpr fun on => ?_
  exact absurd (mem_enabledUnits.mpr on) (by simp [List.head?_eq_none_iff.mp empty])

theorem nextUnit_some {p : Part} {u : UnitId} (h : nextUnit p = some u) : (unitRec p u).enabled = true ∧
    ((∃ l, p.fld.lastTurn = some l ∧ l < u ∧ ∀ w, (unitRec p w).enabled = true → l < w → u ≤ w) ∨
      ((∀ l, p.fld.lastTurn = some l → ∀ w, (unitRec p w).enabled = true → w ≤ l) ∧
        ∀ w, (unitRec p w).enabled = true → u ≤ w)) := by
  rw [nextUnit_eq] at h
  split at h
  case h_1 hl =>
    obtain ⟨on, least⟩ := head_enabledUnits h
    exact ⟨on, .inr ⟨fun l => by simp [hl], least⟩⟩
  case h_2 l hl =>
    rcases Option.or_eq_some_iff.mp h with found | ⟨passed, head⟩
    · have above : l < u := by simpa using List.find?_some found
      exact ⟨mem_enabledUnits.mp (List.mem_of_find?_eq_some found), .inl ⟨l, hl, above, fun w on hw =>
        le_of_find_sorted (enabledUnits_sorted p) found w (mem_enabledUnits.mpr on) (decide_eq_true hw)⟩⟩
    · obtain ⟨on, least⟩ := head_enabledUnits head
      refine ⟨on, .inr ⟨fun k hk w hw => ?_, least⟩⟩
      obtain rfl : l = k := Option.some.inj (hl.symm.trans hk)
      simpa using List.find?_eq_none.mp passed w (mem_enabledUnits.mpr hw)

/-- A movement is found by its own number. -/
theorem number_of_findMove {k : Nat} {p : Part} {m : Movement} (h : findMove k p = some m) : m.number = k := by
  simpa using List.find?_some h

theorem giveTurn_none {p : Part} (h : p.fld.turn.isSome = true ∨ p.ctl.mode.inService = false ∨ nextUnit p = none) :
    giveTurn p = p := by
  unfold giveTurn
  rcases h with h | h | h <;> simp [h]

theorem giveTurn_some {p : Part} {u : UnitId} (ht : p.fld.turn = none) (hm : p.ctl.mode.inService = true)
    (hu : nextUnit p = some u) : giveTurn p =
      sendField u (turnMessage p u) { p with fld := { p.fld with lastTurn := some u } } := by
  simp [giveTurn, ht, hm, hu]

/-- Settles O40: the turn given, whose it is, and its record. -/
theorem fieldTurnsGoRound : Obligations.FieldTurnsGoRound := by
  refine ⟨fun s hl => ⟨fun h => ?_, fun u ht hm hu => ?_⟩, fun p => ⟨nextUnit_none, fun u => nextUnit_some⟩,
    fun p u => ⟨fun mv h => ?_, fun k m ho hs hm => ?_, fun h => ?_⟩⟩
  · exact (partCommand_live (fun _ p => giveTurn p) s hl).trans
      (congrArg (fun p => Host.Outcome.next (s.after s.books p)) (giveTurn_none (p := s.begun) h))
  · exact (partCommand_live (fun _ p => giveTurn p) s hl).trans
      (congrArg (fun p => Host.Outcome.next (s.after s.books p)) (giveTurn_some (p := s.begun) ht hm hu))
  · simp [turnMessage, h]
  · simp [turnMessage, ho, hs, hm, number_of_findMove hm]
  · simp [turnMessage, h]

end Sys2Proof.Machine
end

