-- ==== Sys2Proof/Proofs/Misses.lean ====
section
/-! SUPPORT. Misses, silence, and the answer IDLE (R80 to R83, R89, R91, R97). -/

namespace Sys2Proof.Machine

/-- The turn ended and the miss counted. -/
def missCounted (u : UnitId) (p : Part) : Part :=
  updUnit u (fun r => { r with missed := min 255 ((unitRec p u).missed + 1) }) (endTurn p)

/-- The unit SILENT, and told so. -/
def silenced (u : UnitId) (slug : Option Nat) (p : Part) : Part :=
  notify (.unitSilent u slug) (updUnit u (fun r => { r with presence := .silent }) p)

/-- The unit becomes SILENT at this miss. -/
def fallsSilent (u : UnitId) (p : Part) : Prop :=
  p.fld.settings.silenceLimit ≤ min 255 ((unitRec p u).missed + 1) ∧ (unitRec p u).presence ≠ .silent

section
variable {b : Books} {t : Turn} {u : UnitId} {p : Part} {m : Movement} {x : SlugParticulars}

theorem missCounted_presence : (unitRec (missCounted u p) u).presence = (unitRec p u).presence := by
  rw [missCounted, unitRec_updUnit, if_pos rfl]
  rfl

theorem missCounted_slug : (unitRec (missCounted u p) u).slug = (unitRec p u).slug := by
  rw [missCounted, unitRec_updUnit, if_pos rfl]
  rfl

/-- The slug of a unit hangs on its record's number and on the table. -/
theorem slugOf_congr {q : Part} (slug : (unitRec q u).slug = (unitRec p u).slug) (mov : q.mov = p.mov) :
    slugOf q u = slugOf p u := by
  rw [slugOf, slugOf, slug]
  exact congrArg _ (funext fun n => congrArg (fun y : MovementUnit => y.entries.find? _) mov)

theorem slugOf_silenced_missCounted : slugOf (silenced u (unitRec p u).slug (missCounted u p)) u = slugOf p u := by
  refine slugOf_congr ?_ (notify_mov _ _)
  have kept : unitRec (silenced u (unitRec p u).slug (missCounted u p)) u =
      unitRec (updUnit u (fun r => { r with presence := .silent }) (missCounted u p)) u :=
    congrArg (fun y : FieldUnit => y.units.get u) (notify_fld _ _)
  rw [kept, unitRec_updUnit, if_pos rfl]
  exact missCounted_slug

theorem missTurn_eq (b : Books) (t : Turn) (p : Part) : missTurn b t p = withdrawGrant b t.sent
    (if p.fld.settings.silenceLimit ≤ min 255 ((unitRec p t.unit).missed + 1) ∧
        (unitRec (missCounted t.unit p) t.unit).presence ≠ .silent
      then becomeSilent b t.unit (missCounted t.unit p) else missCounted t.unit p) := rfl

theorem missTurn_present (h : ¬ fallsSilent t.unit p) :
    missTurn b t p = withdrawGrant b t.sent (missCounted t.unit p) := by
  rw [missTurn_eq, missCounted_presence]
  exact congrArg _ (if_neg h)

theorem missTurn_silent (h : fallsSilent t.unit p) : missTurn b t p = withdrawGrant b t.sent
    (silentSlug b t.unit (silenced t.unit (unitRec p t.unit).slug (missCounted t.unit p))) := by
  rw [missTurn_eq, missCounted_presence, ← missCounted_slug]
  exact congrArg _ (if_pos h)

theorem withdrawGrant_other {sent : FieldMessage} (h : ∀ v vol mv, sent ≠ .decision (.routed v vol mv)) :
    withdrawGrant b sent p = p := by
  unfold withdrawGrant
  split
  · exact absurd rfl (h _ _ _)
  all_goals rfl

theorem silentSlug_none (h : slugOf p u = none) : silentSlug b u p = p := by
  rw [silentSlug, h]

theorem silentSlug_waiting (h : slugOf p u = some m) (hx : m.slug = some x)
    (hp : m.phase = .opening ∨ m.phase = .ready) :
    silentSlug b u p = endMovement b m (.cut .plain) (setStop x.unit m.number p) := by
  rw [silentSlug, h]
  rcases hp with hp | hp <;> simp [hp, stopSlug, hx]

theorem silentSlug_moving (h : slugOf p u = some m) (hp : m.phase = .running ∨ m.phase = .stopping) :
    silentSlug b u p = raise b { ftype := .unitSilent, subject := .unit u, interrupted := some m } p := by
  rw [silentSlug, h]
  rcases hp with hp | hp <;> simp [hp]

end

/-- FIELD_REPLY_TIMEOUT is a miss at the open turn. -/
theorem exec_timeout_turn {t : Turn} {s : State} (hl : s.live) (ht : s.part.fld.turn = some t) :
    exec .fieldReplyTimeout s = .next (s.after s.books (missTurn s.books t s.begun)) := by
  have turn : s.begun.fld.turn = some t := ht
  refine (partCommand_live replyTimeout s hl).trans ?_
  rw [replyTimeout, turn]

/-- Settles O41: whether the unit falls silent, what its slug is, and what the turn had sent. -/
theorem fieldMisses : Obligations.FieldMisses := by
  refine ⟨fun s hl ht => ?_, fun t bytes s hl ht hb => ?_, fun t s hl ht => ?_⟩
  · have turn : s.begun.fld.turn = none := ht
    refine (partCommand_live replyTimeout s hl).trans ?_
    rw [replyTimeout, turn]
    rfl
  · have turn : s.begun.fld.turn = some t := ht
    refine command_congr (f := answerOfBytes bytes) (g := fun q => { q with part := replyTimeout q.books q.part }) ?_
    simp only [answerOfBytes, turn, hb, replyTimeout]
  · intro missed counted silent quiet
    have present (h : ¬ quiet) : exec .fieldReplyTimeout s =
        .next (s.after s.books (withdrawGrant s.books t.sent counted)) :=
      (exec_timeout_turn hl ht).trans (congrArg (fun p => Host.Outcome.next (s.after s.books p))
        (missTurn_present (t := t) (p := s.begun) h))
    have quieted {p : Part} (h : quiet) (e : silentSlug s.books t.unit silent = p) : exec .fieldReplyTimeout s =
        .next (s.after s.books (withdrawGrant s.books t.sent p)) :=
      (exec_timeout_turn hl ht).trans (congrArg (fun p => Host.Outcome.next (s.after s.books p))
        ((missTurn_silent (t := t) (p := s.begun) h).trans (congrArg _ e)))
    have slug : slugOf silent t.unit = slugOf s.part t.unit := slugOf_silenced_missCounted (u := t.unit) (p := s.begun)
    refine ⟨fun h hs => ?_, fun v vol mv h hs => ?_, fun h hs => ⟨fun hn => ?_, fun m x hm hx hp => ?_,
      fun m hm hp => ?_⟩, fun v vol mv h hs => ⟨fun hn => ?_, fun m x hm hx hp => ?_⟩⟩
    · exact (present h).trans (by rw [withdrawGrant_other hs])
    · exact (present h).trans (by rw [hs]; rfl)
    · exact (quieted h (silentSlug_none (slug.trans hn))).trans (by rw [withdrawGrant_other hs])
    · exact (quieted h (silentSlug_waiting (slug.trans hm) hx hp)).trans (by rw [withdrawGrant_other hs])
    · exact (quieted h (silentSlug_moving (slug.trans hm) hp)).trans (by rw [withdrawGrant_other hs])
    · exact (quieted h (silentSlug_none (slug.trans hn))).trans (by rw [hs]; rfl)
    · exact (quieted h (silentSlug_waiting (slug.trans hm) hx hp)).trans (by rw [hs]; rfl)

/-! ## The answer IDLE (R81, R82) -/

section
variable {u : UnitId} {p : Part}

theorem updUnit_congr {f g : UnitRec → UnitRec} (h : f (unitRec p u) = g (unitRec p u)) :
    updUnit u f p = updUnit u g p := by
  rw [updUnit_const u f, h]
  rfl

theorem updUnit_self : updUnit u (fun r => r) p = p := by
  have units : updAt p.fld.units u (fun r => r) = p.fld.units := by
    ext i hi
    by_cases same : u.1 = i
    · subst same
      exact Vector.getElem_set_self u.2
    · rw [updAt, Vector.getElem_set_ne u.2 hi same]
  rw [updUnit, units]

/-- What neither a notice nor a report changes stands as the unit's record leaves it. -/
theorem answered_same {α : Type} (g : Part → α) (hn : ∀ b q, g (notify b q) = g q)
    (hr : ∀ q, g (reportOn .unitSilent (.unit u) .cleared q) = g q) :
    g (answered u p) = g (updUnit u (fun r => { r with missed := 0, presence := .present }) p) := by
  dsimp only [answered]
  split
  · exact (hr _).trans (hn _ _)
  · rfl

theorem answered_mov (u : UnitId) (p : Part) : (answered u p).mov = p.mov :=
  answered_same Part.mov notify_mov fun _ => rfl

theorem answered_gate (u : UnitId) (p : Part) : (answered u p).gate = p.gate :=
  answered_same Part.gate notify_gate fun _ => rfl

theorem answered_vessels (u : UnitId) (p : Part) : (answered u p).vessels = p.vessels :=
  answered_same Part.vessels notify_vessels fun _ => rfl

theorem answered_fld (u : UnitId) (p : Part) : (answered u p).fld =
    (updUnit u (fun r => { r with missed := 0, presence := .present }) p).fld :=
  answered_same Part.fld notify_fld fun _ => rfl

theorem unitRec_answered (u : UnitId) (p : Part) :
    unitRec (answered u p) u = { unitRec p u with missed := 0, presence := .present } :=
  (congrArg (fun y : FieldUnit => y.units.get u) (answered_fld u p)).trans
    ((unitRec_updUnit u u _ p).trans (if_pos rfl))

theorem outbound_answered (u : UnitId) (p : Part) : (unitRec (answered u p) u).outbound = (unitRec p u).outbound := by
  rw [unitRec_answered]

theorem slugOf_answered (u : UnitId) (p : Part) : slugOf (answered u p) u = slugOf p u :=
  slugOf_congr (by rw [unitRec_answered]) (answered_mov u p)

/-- A STOP that is not the one pending is not cleared. -/
theorem deliverStop_other {mv : Nat} (h : (unitRec p u).outbound ≠ some (.stop mv)) : deliverStop u mv p = p :=
  (updUnit_congr (by rw [if_neg h])).trans updUnit_self

theorem deliverStop_pending {mv : Nat} (h : (unitRec p u).outbound = some (.stop mv)) :
    deliverStop u mv p = updUnit u (fun r => { r with outbound := outboundAfterStop u p }) p :=
  updUnit_congr (by rw [if_pos h])

theorem outboundAfterStop_none (h : ∀ m, slugOf p u = some m → m.phase ≠ .ready) : outboundAfterStop u p = none := by
  unfold outboundAfterStop
  split
  · rfl
  · exact if_neg (h _ (by assumption))

theorem outboundAfterStop_ready {m : Movement} (h : slugOf p u = some m) (hp : m.phase = .ready) :
    outboundAfterStop u p = some .go := by
  rw [outboundAfterStop, h]
  exact if_pos hp

/-- What the delivery of a GO makes of its movement (R24, R89). -/
def goneOn (p : Part) (v : VesselId) (x : Movement) : Movement :=
  { x with
    phase := .running, lastProgress := p.gate.clock, quiet := 0
    timeoutLeft := some p.fld.settings.transferTimeout
    slug := x.slug.map (fun y => { y with levelAtGo := (vesselRec p v).lastLevel }) }

theorem deliverGo_eq {n : Nat} {m : Movement} {v : VesselId} (h : findMove n p = some m) (hd : m.dest = .vesselInlet v) :
    deliverGo u n p = updUnit u (fun r => { r with outbound := if r.outbound = some .go then none else r.outbound })
      (updMove n (goneOn p v) p) := by
  simp only [deliverGo, h, Movement.destVessel, hd]
  rfl

theorem findMove_congr {n : Nat} {q : Part} (h : q.mov = p.mov) : findMove n q = findMove n p :=
  congrArg (fun y : MovementUnit => y.entries.find? _) h

theorem goneOn_answered (u : UnitId) (v : VesselId) (p : Part) : goneOn (answered u p) v = goneOn p v := by
  funext x
  rw [goneOn, vesselRec, answered_gate, answered_fld, answered_vessels]
  rfl

end

/-- IDLE is an answer at the open turn. -/
theorem exec_idle_turn {t : Turn} {s : State} (hl : s.live) (ht : s.part.fld.turn = some t) :
    exec .unitIdle s = .next (s.after s.books (endTurn (deliver t.unit t.sent true (answered t.unit s.begun)))) := by
  have turn : s.begun.fld.turn = some t := ht
  refine command_after hl ?_
  simp only [fieldAnswer, turn]
  rfl

/-- Settles O42: by what the turn had sent, and what stands in its place. -/
theorem unitIdleDelivers : Obligations.UnitIdleDelivers := by
  refine ⟨fun s hl ht => ?_, fun t s hl ht => ?_⟩
  · have turn : s.begun.fld.turn = none := ht
    refine command_after hl ?_
    simp only [fieldAnswer, turn]
  · intro known heard
    have delivered {p : Part} (e : deliver t.unit t.sent true heard = p) :
        exec .unitIdle s = .next (s.after s.books (endTurn p)) :=
      (exec_idle_turn hl ht).trans (congrArg (fun p => Host.Outcome.next (s.after s.books (endTurn p))) e)
    have outbound : (unitRec heard t.unit).outbound = (unitRec s.part t.unit).outbound := outbound_answered t.unit s.begun
    have slug : slugOf heard t.unit = slugOf s.part t.unit := slugOf_answered t.unit s.begun
    refine ⟨fun h => ?_, fun mv hs ho => ?_, fun mv hs ho => ⟨fun hm => ?_, fun m hm hp => ?_⟩,
      fun mv vol m v hs hm hd => ?_⟩
    · rcases h with hs | ⟨d, hs⟩ <;> exact delivered (by rw [hs]; rfl)
    · exact delivered (by rw [hs]; exact deliverStop_other (outbound ▸ ho))
    · have none := outboundAfterStop_none (u := t.unit) (p := heard) (slug ▸ hm)
      exact delivered (by rw [hs]; exact (deliverStop_pending (outbound.trans ho)).trans (by rw [none]))
    · have go := outboundAfterStop_ready (u := t.unit) (p := heard) (slug.trans hm) hp
      exact delivered (by rw [hs]; exact (deliverStop_pending (outbound.trans ho)).trans (by rw [go]))
    · have found : findMove mv heard = some m := (findMove_congr (answered_mov t.unit s.begun)).trans hm
      refine delivered ?_
      rw [hs]
      refine (deliverGo_eq (u := t.unit) found hd).trans ?_
      rw [show goneOn heard v = goneOn s.begun v from goneOn_answered t.unit v s.begun]
      rfl

end Sys2Proof.Machine
end

