-- ==== Sys2Proof/Proofs/Routing.lean ====
section
/-! SUPPORT. The routing of an offer: the rules in order, the walk of the candidates, the tests of a vessel and the answer
when none is taken (R82 to R88). -/

namespace Sys2Proof.Machine

section
variable {b : Books} {u : UnitId} {o : Offer} {x : SlugParticulars} {q y : Bool} {vol : Nat} {p : Part} {v : VesselId}

/-! ## The offer (R82, R84) -/

theorem fieldAnswer_none {a : FieldAnswer} {r : Plant} (h : r.part.fld.turn = none) : fieldAnswer a r = r := by
  rw [fieldAnswer, h]

theorem fieldAnswer_offer_decision {d : Decision} {r : Plant} (h : r.part.fld.turn = some ⟨u, .decision d⟩) :
    fieldAnswer (.offer o) r = { r with part := missTurn r.books ⟨u, .decision d⟩ r.part } := by
  rw [fieldAnswer, h]
  rfl

theorem fieldAnswer_offer {t : Turn} {r : Plant} (h : r.part.fld.turn = some t) (hd : t.sent.isDecision = false) :
    fieldAnswer (.offer o) r = { r with part := offerAnswer r.books t o r.part } := by
  simp only [fieldAnswer, h, hd]

theorem offerRange_iff (o : Offer) :
    offerRange o = true ↔ 1 ≤ o.volume ∧ o.volume ≤ 4000 ∧ o.conc ≤ 30000 ∧ o.ph ≤ 140 := by
  simp [offerRange]

theorem routeOffer_mode (h : p.ctl.mode.running = false) : routeOffer b u o p = (p, .wait .mode) := by
  simp [routeOffer, h]

theorem routeOffer_again (h : p.ctl.mode.running = true) (hs : (unitRec p u).slug.isSome = true) :
    routeOffer b u o p = (p, .refuse .oneAtATime) := by
  simp [routeOffer, h, hs]

theorem routeOffer_bad (h : p.ctl.mode.running = true) (hs : (unitRec p u).slug = none)
    (ho : tagOf o.tag = none ∨ offerRange o = false) : routeOffer b u o p = (p, .refuse .badOffer) := by
  rcases ho with ho | ho <;> cases ht : tagOf o.tag <;> simp_all [routeOffer]

theorem routeOffer_mismatch {t : Tag} (h : p.ctl.mode.running = true) (hs : (unitRec p u).slug = none)
    (ht : tagOf o.tag = some t) (ho : offerRange o = true) (hc : (classifyOffer t u o.conc p).2 = .unitMismatch) :
    routeOffer b u o p = ((classifyOffer t u o.conc p).1, .refuse .unitMismatch) := by
  simp [routeOffer, h, hs, ht, ho, hc]

theorem routeOffer_unknown {t : Tag} (h : p.ctl.mode.running = true) (hs : (unitRec p u).slug = none)
    (ht : tagOf o.tag = some t) (ho : offerRange o = true) (hc : (classifyOffer t u o.conc p).2 = .unknownSource) :
    routeOffer b u o p = ((classifyOffer t u o.conc p).1, .refuse .unknownSource) := by
  simp [routeOffer, h, hs, ht, ho, hc]

theorem routeOffer_continue {t : Tag} {cls : WaterClass} (h : p.ctl.mode.running = true)
    (hs : (unitRec p u).slug = none) (ht : tagOf o.tag = some t) (ho : offerRange o = true)
    (hc : (classifyOffer t u o.conc p).2 = .continue_ cls q y) : routeOffer b u o p =
      routeContinue b { unit := u, tag := t, cls := cls, conc := o.conc, levelAtGo := none } q y o.volume
        (classifyOffer t u o.conc p).1 := by
  simp [routeOffer, h, hs, ht, ho, hc]

theorem routeContinue_stopped (h : (actionsInForce p).stopIntake = true) :
    routeContinue b x q y vol p = (p, .wait .stopped) := if_pos h

theorem routeContinue_taken {n : Nat} (h : (actionsInForce p).stopIntake = false)
    (hw : (walkCandidates b x y vol (candidates p x.cls q) [] p).2 = .ok (v, n)) : routeContinue b x q y vol p =
      ((walkCandidates b x y vol (candidates p x.cls q) [] p).1, .routed v vol n) := by
  simp only [routeContinue, h, hw, Bool.false_eq_true, if_false]

theorem routeContinue_untaken {skips : List Skip} (h : (actionsInForce p).stopIntake = false)
    (hw : (walkCandidates b x y vol (candidates p x.cls q) [] p).2 = .error skips) : routeContinue b x q y vol p =
      ((walkCandidates b x y vol (candidates p x.cls q) [] p).1,
        noCandidate (walkCandidates b x y vol (candidates p x.cls q) [] p).1 (candidates p x.cls q) skips vol) := by
  simp only [routeContinue, h, hw, Bool.false_eq_true, if_false]

/-! ## The walk (R86 to R88) -/

theorem walkCandidates_ok {c : Candidate} {rest : List Candidate} {skips : List Skip} {r : VesselId × Nat}
    (h : (tryCandidate b x y vol c p).2 = .ok r) :
    walkCandidates b x y vol (c :: rest) skips p = ((tryCandidate b x y vol c p).1, .ok r) := by
  simp only [walkCandidates, h]

theorem walkCandidates_full {c : Candidate} {rest : List Candidate} {skips : List Skip}
    (h : (tryCandidate b x y vol c p).2 = .error .tableFull) : walkCandidates b x y vol (c :: rest) skips p =
      ((tryCandidate b x y vol c p).1, .error (skips ++ [.tableFull])) := by
  simp only [walkCandidates, h]

theorem walkCandidates_next {c : Candidate} {rest : List Candidate} {skips : List Skip} {k : Skip} (hk : k ≠ .tableFull)
    (h : (tryCandidate b x y vol c p).2 = .error k) : walkCandidates b x y vol (c :: rest) skips p =
      walkCandidates b x y vol rest (skips ++ [k]) (tryCandidate b x y vol c p).1 := by
  cases k <;> first | exact absurd rfl hk | simp only [walkCandidates, h]

/-- The start a candidate's vessel is asked for. -/
def slugAsk (x : SlugParticulars) (v : VesselId) (lot : Option Nat) (vol : Nat) : StartAsk :=
  { kind := .slug, source := .sumpUnit x.unit, dest := .vesselInlet v, requested := vol, lot := lot, slug := some x }

theorem tryCandidate_error {c : Candidate} {k : Skip} (h : (candidateVessel c vol p).2 = .error k) :
    tryCandidate b x y vol c p = ((candidateVessel c vol p).1, .error k) := by
  simp only [tryCandidate, h]

theorem tryCandidate_skips {c : Candidate} {lot : Option Nat} {k : Skip}
    (h : (candidateVessel c vol p).2 = .ok (v, lot)) (hk : vesselSkip b (candidateVessel c vol p).1 v vol y = some k) :
    tryCandidate b x y vol c p = ((candidateVessel c vol p).1, .error k) := by
  simp only [tryCandidate, h, hk]

theorem tryCandidate_starts {c : Candidate} {lot : Option Nat} {n : Nat}
    (h : (candidateVessel c vol p).2 = .ok (v, lot)) (hk : vesselSkip b (candidateVessel c vol p).1 v vol y = none)
    (hs : (askStart b (slugAsk x v lot vol) (candidateVessel c vol p).1).2 = .started n) :
    tryCandidate b x y vol c p = (updUnit x.unit (fun r => { r with slug := some n })
      (askStart b (slugAsk x v lot vol) (candidateVessel c vol p).1).1, .ok (v, n)) := by
  simp only [slugAsk] at hs ⊢
  simp only [tryCandidate, h, hk, startSlug, hs]

theorem tryCandidate_refused {c : Candidate} {lot : Option Nat} {why : WaitReason}
    (h : (candidateVessel c vol p).2 = .ok (v, lot)) (hk : vesselSkip b (candidateVessel c vol p).1 v vol y = none)
    (hs : (askStart b (slugAsk x v lot vol) (candidateVessel c vol p).1).2 = .refused why) :
    tryCandidate b x y vol c p = ((askStart b (slugAsk x v lot vol) (candidateVessel c vol p).1).1,
      .error (startSkip why)) := by
  simp only [slugAsk] at hs ⊢
  simp only [tryCandidate, h, hk, startSlug, hs]

theorem startSkip_other {why : WaitReason} (h : why ≠ .tableFull) : startSkip why = .inletBusy := by
  cases why <;> first | exact absurd rfl h | rfl

/-! ## The tests of a vessel (R86) -/

/-- The water that a vessel can still take of an offer. -/
def routable (b : Books) (p : Part) (v : VesselId) : Nat :=
  routingLimit p v - (b.vessel v).volume - reservedVolume p v

theorem vesselSkip_eq : vesselSkip b p v vol y =
    if (vesselRec p v).inlet = .disabled then some .disabled
    else if (decide ((vesselRec p v).inlet = .blocked) || (vesselRec p v).regBlock) && !y then some .blocked
    else if routable b p v < vol then some .noSpace
    else if portBusy p (.vesselInlet v) then some .inletBusy else none := rfl

theorem blocked_iff (r : VesselRec) (y : Bool) : ((decide (r.inlet = .blocked) || r.regBlock) && !y) = true ↔
    y = false ∧ (r.inlet = .blocked ∨ r.regBlock = true) := by
  simp [and_comm]

/-- A vessel that no test skips. -/
theorem vesselSkip_none (h : vesselSkip b p v vol y = none) : (vesselRec p v).inlet ≠ .disabled ∧
    (y = true ∨ ((vesselRec p v).inlet ≠ .blocked ∧ (vesselRec p v).regBlock = false)) ∧ vol ≤ routable b p v := by
  rw [vesselSkip_eq] at h
  split at h; · cases h
  split at h; · cases h
  split at h; · cases h
  next disabled blocked full =>
  rw [blocked_iff] at blocked
  refine ⟨disabled, ?_, Nat.not_lt.mp full⟩
  cases y
  · exact .inr (by simpa using blocked)
  · exact .inl rfl

/-! ## No candidate (R87) -/

/-- The greatest capacity so far. -/
def better (p : Part) (best : Option Nat) (v : VesselId) : Option Nat :=
  match best with
  | none => some (capacityOf p v)
  | some k => some (max k (capacityOf p v))

theorem foldl_better (l : List VesselId) : ∀ best : Option Nat,
    (l.foldl (better p) best = none ↔ best = none ∧ l = []) ∧
    ∀ k, l.foldl (better p) best = some k → (best = some k ∨ ∃ v ∈ l, k = capacityOf p v) ∧
      (∀ j, best = some j → j ≤ k) ∧ ∀ v ∈ l, capacityOf p v ≤ k := by
  induction l with
  | nil =>
    refine fun best => ⟨by simp, fun k h => ⟨.inl h, fun j hj => ?_, by simp⟩⟩
    exact Nat.le_of_eq (Option.some.inj (hj.symm.trans h))
  | cons w l ih =>
    intro best
    rw [List.foldl_cons]
    obtain ⟨none_iff, best_of⟩ := ih (better p best w)
    have step : ∃ j, better p best w = some j ∧ (best = some j ∨ j = capacityOf p w) ∧
        (∀ i, best = some i → i ≤ j) ∧ capacityOf p w ≤ j := by
      cases best with
      | none => exact ⟨_, rfl, .inr rfl, fun _ h => by simp at h, Nat.le_refl _⟩
      | some i =>
        refine ⟨_, rfl, ?_, fun j h => Option.some.inj h ▸ Nat.le_max_left _ _, Nat.le_max_right _ _⟩
        rcases Nat.le_total i (capacityOf p w) with le | le
        · exact .inr (Nat.max_eq_right le)
        · exact .inl (congrArg some (Nat.max_eq_left le).symm)
    obtain ⟨j, hj, from_, low, self⟩ := step
    refine ⟨by rw [none_iff, hj]; simp, fun k hk => ?_⟩
    obtain ⟨source, bound, rest⟩ := best_of k hk
    have jk : j ≤ k := bound j hj
    refine ⟨?_, fun i hi => Nat.le_trans (low i hi) jk, fun v hv => ?_⟩
    · rcases source with e | ⟨v, hv, e⟩
      · obtain rfl : j = k := Option.some.inj (hj.symm.trans e)
        exact from_.imp id fun e => ⟨w, List.mem_cons_self, e⟩
      · exact .inr ⟨v, List.mem_cons_of_mem _ hv, e⟩
    · rcases List.mem_cons.mp hv with rfl | hv
      · exact Nat.le_trans self jk
      · exact rest v hv

/-- The HOLD vessels whose inlet is not DISABLED. -/
def lotVessels (p : Part) : List VesselId :=
  allVessels.filter (fun v => decide ((vesselRec p v).role = .hold ∧ (vesselRec p v).inlet ≠ .disabled))

theorem mem_lotVessels : v ∈ lotVessels p ↔ (vesselRec p v).role = .hold ∧ (vesselRec p v).inlet ≠ .disabled := by
  have all : v ∈ allVessels := by revert v; decide
  simp [lotVessels, all]

theorem lotCapacity_eq (p : Part) : lotCapacity p = (lotVessels p).foldl (better p) none := rfl

theorem lotCapacity_none : lotCapacity p = none ↔
    ∀ v, ¬ ((vesselRec p v).role = .hold ∧ (vesselRec p v).inlet ≠ .disabled) := by
  rw [lotCapacity_eq, (foldl_better (lotVessels p) none).1, List.eq_nil_iff_forall_not_mem]
  exact ⟨fun h v => (not_congr mem_lotVessels).mp (h.2 v), fun h => ⟨rfl, fun v => (not_congr mem_lotVessels).mpr (h v)⟩⟩

theorem lotCapacity_some {k : Nat} (h : lotCapacity p = some k) :
    (∃ v, ((vesselRec p v).role = .hold ∧ (vesselRec p v).inlet ≠ .disabled) ∧ k = (vesselRec p v).capacity.getD 0) ∧
    ∀ v, (vesselRec p v).role = .hold ∧ (vesselRec p v).inlet ≠ .disabled → (vesselRec p v).capacity.getD 0 ≤ k := by
  rw [lotCapacity_eq] at h
  obtain ⟨source, -, bound⟩ := (foldl_better (lotVessels p) none).2 k h
  obtain ⟨v, hv, e⟩ := source.resolve_left (by simp)
  exact ⟨⟨v, mem_lotVessels.mp hv, e⟩, fun v hv => bound v (mem_lotVessels.mpr hv)⟩

/-- Every candidate whose capacity is known is too small, and there is one. -/
theorem tooLarge_iff (p : Part) (cs : List Candidate) (vol : Nat) :
    ((!(cs.filterMap (candidateCapacity p)).isEmpty &&
      (cs.filterMap (candidateCapacity p)).all fun k => decide (k < vol)) = true) ↔
    (∃ k, ∃ c ∈ cs, candidateCapacity p c = some k) ∧
      ∀ k, (∃ c ∈ cs, candidateCapacity p c = some k) → k < vol := by
  have filled : (cs.filterMap (candidateCapacity p)).isEmpty = false ↔
      ∃ k, ∃ c ∈ cs, candidateCapacity p c = some k := by
    rw [List.isEmpty_eq_false_iff_exists_mem]
    simp
  simp only [Bool.and_eq_true, Bool.not_eq_true', filled, List.all_eq_true, List.mem_filterMap, decide_eq_true_eq]

theorem noCandidate_reason {before after : List Skip} {k : Skip} (h : ∀ j ∈ before, j = .disabled)
    (hk : k ≠ .disabled) : (before ++ k :: after).find? (fun k => decide (k ≠ .disabled)) = some k := by
  rw [List.find?_append, List.find?_eq_none.mpr (fun j hj => by simp [h j hj]), List.find?_cons_of_pos (by simpa using hk)]
  rfl

/-! ## What a slug that is routed is -/

/-- What the tests of a vessel read. -/
def routingView (p : Part) : MovementUnit × Vector VesselRec 8 × RegUnit := (p.mov, p.vessels, p.reg)

theorem routable_congr {r : Part} (h : routingView r = routingView p) (b : Books) (v : VesselId) :
    routable b r v = routable b p v := by
  obtain ⟨mov, vessels, reg⟩ : r.mov = p.mov ∧ r.vessels = p.vessels ∧ r.reg = p.reg := by
    simpa [routingView] using h
  cases r
  cases p
  subst mov vessels reg
  rfl

/-- An answer of the Lot Unit changes neither the table nor a vessel. -/
theorem routingView_askFilling (want : Nat) (p : Part) : routingView (askFilling want p).1 = routingView p := by
  unfold askFilling
  split
  · split <;> rfl
  · split
    · rfl
    · dsimp only
      split
      · rfl
      · simp [routingView, lotNotice, addLot]

theorem routingView_candidateVessel (c : Candidate) (want : Nat) (p : Part) :
    routingView (candidateVessel c want p).1 = routingView p := by
  cases c with
  | role r => rfl
  | lot => exact routingView_askFilling want p

/-- A slug that is refused its start leaves the part as it was. -/
theorem askStart_slug_refused {lot : Option Nat} {why : WaitReason}
    (h : (askStart b (slugAsk x v lot vol) p).2 = .refused why) : (askStart b (slugAsk x v lot vol) p).1 = p := by
  unfold askStart at h ⊢
  split
  · rfl
  · next e => simp [e] at h

theorem askStart_slug_started {lot : Option Nat} {n : Nat}
    (h : (askStart b (slugAsk x v lot vol) p).2 = .started n) :
    askStart b (slugAsk x v lot vol) p = ((addEntry (slugAsk x v lot vol) p).1, .started n) ∧
      (addEntry (slugAsk x v lot vol) p).2 = n := by
  unfold askStart at h ⊢
  split at h
  · cases h
  · next e =>
    have number : (addEntry (slugAsk x v lot vol) p).2 = n := StartAnswer.started.inj h
    exact ⟨by rw [← number]; rfl, number⟩

/-- A slug under way from its sump into a vessel that could take it. -/
structure Routed (b : Books) (x : SlugParticulars) (y : Bool) (vol : Nat) (p : Part) (v : VesselId) (n : Nat)
    (r : Part) : Prop where
  slug : (unitRec r x.unit).slug = some n
  open_ : (vesselRec r v).inlet ≠ .disabled
  clear : y = true ∨ ((vesselRec r v).inlet ≠ .blocked ∧ (vesselRec r v).regBlock = false)
  fits_ : vol ≤ routable b p v
  entry : ∃ m ∈ r.mov.entries, m.number = n ∧ m.kind = .slug ∧ m.source = .sumpUnit x.unit ∧
    m.dest = .vesselInlet v ∧ m.requested = vol ∧ m.phase = .opening ∧ m.slug = some x

/-- One candidate: its start, or nothing that a later test reads. -/
theorem tryCandidate_result (c : Candidate) :
    (∀ n, (tryCandidate b x y vol c p).2 = .ok (v, n) → Routed b x y vol p v n (tryCandidate b x y vol c p).1) ∧
    (∀ k, (tryCandidate b x y vol c p).2 = .error k →
      routingView (tryCandidate b x y vol c p).1 = routingView p) := by
  have view := routingView_candidateVessel c vol p
  match found : (candidateVessel c vol p).2 with
  | .error k =>
    rw [tryCandidate_error found]
    exact ⟨fun n h => by simp at h, fun _ _ => view⟩
  | .ok (w, lot) =>
    match skip : vesselSkip b (candidateVessel c vol p).1 w vol y with
    | some k =>
      rw [tryCandidate_skips found skip]
      exact ⟨fun n h => by simp at h, fun _ _ => view⟩
    | none =>
      match asked : (askStart b (slugAsk x w lot vol) (candidateVessel c vol p).1).2 with
      | .refused why =>
        rw [tryCandidate_refused found skip asked, askStart_slug_refused asked]
        exact ⟨fun n h => by simp at h, fun _ _ => view⟩
      | .started n =>
        obtain ⟨started, number⟩ := askStart_slug_started asked
        rw [tryCandidate_starts found skip asked, started]
        refine ⟨fun k h => ?_, fun k h => by simp at h⟩
        obtain ⟨rfl, rfl⟩ : w = v ∧ n = k := by simpa using h
        obtain ⟨open_, clear, fits⟩ := vesselSkip_none skip
        exact ⟨by rw [unitRec_updUnit, if_pos rfl], open_, clear, routable_congr view b w ▸ fits, _,
          List.mem_append_right _ (List.mem_singleton_self _), number, rfl, rfl, rfl, rfl, rfl, rfl⟩

theorem walkCandidates_routed {n : Nat} (cs : List Candidate) : ∀ (skips : List Skip) (r : Part),
    routingView r = routingView p → (walkCandidates b x y vol cs skips r).2 = .ok (v, n) →
    Routed b x y vol p v n (walkCandidates b x y vol cs skips r).1 := by
  induction cs with
  | nil => intro skips r _ h; simp [walkCandidates] at h
  | cons c rest ih =>
    intro skips r view h
    obtain ⟨ok, error⟩ := tryCandidate_result (b := b) (x := x) (y := y) (vol := vol) (p := r) (v := v) c
    match tried : (tryCandidate b x y vol c r).2 with
    | .ok (w, k) =>
      rw [walkCandidates_ok tried] at h ⊢
      obtain ⟨rfl, rfl⟩ : w = v ∧ k = n := by simpa using h
      obtain ⟨slug, open_, clear, fits, entry⟩ := ok k tried
      exact ⟨slug, open_, clear, routable_congr view b w ▸ fits, entry⟩
    | .error k =>
      by_cases full : k = .tableFull
      · subst full
        rw [walkCandidates_full tried] at h
        simp at h
      · rw [walkCandidates_next full tried] at h ⊢
        exact ih _ _ ((error k tried).trans view) h

theorem noCandidate_ne_routed (cs : List Candidate) (skips : List Skip) {granted n : Nat} :
    noCandidate p cs skips vol ≠ .routed v granted n := by
  unfold noCandidate
  dsimp only
  split
  · nofun
  · split <;> nofun

theorem routeContinue_routed {granted n : Nat} (h : (routeContinue b x q y vol p).2 = .routed v granted n) :
    granted = vol ∧ Routed b x y vol p v n (routeContinue b x q y vol p).1 := by
  match stopped : (actionsInForce p).stopIntake with
  | true => simp [routeContinue_stopped stopped] at h
  | false =>
    match walked : (walkCandidates b x y vol (candidates p x.cls q) [] p).2 with
    | .error skips =>
      rw [routeContinue_untaken stopped walked] at h
      exact absurd h (noCandidate_ne_routed _ _)
    | .ok (w, k) =>
      rw [routeContinue_taken stopped walked] at h ⊢
      obtain ⟨rfl, rfl, rfl⟩ : w = v ∧ vol = granted ∧ k = n := by simpa using h
      exact ⟨rfl, walkCandidates_routed _ [] p rfl walked⟩

end

/-- Settles O43: rule by rule, from the offer to the slug that stands for its ROUTED. -/
theorem offersAreRouted : Obligations.OffersAreRouted := by
  refine ⟨fun o s hl => ⟨fun ht => ?_, fun u d ht => ?_, fun u sent ht hd => ?_⟩,
    fun b u o p => ⟨routeOffer_mode, routeOffer_again, offerRange_iff o, routeOffer_bad, fun t h hs ht ho => ?_⟩,
    fun b x q y vol p h => ⟨fun v n => routeContinue_taken h, fun skips => routeContinue_untaken h⟩,
    fun b x y vol skips p => ⟨rfl, fun c rest => ⟨fun r => walkCandidates_ok, walkCandidates_full,
      fun k => walkCandidates_next⟩⟩,
    fun b x y vol c p => ⟨fun k => tryCandidate_error, fun v lot h => ⟨fun k => tryCandidate_skips h,
      fun hk => ⟨fun n => tryCandidate_starts h hk, tryCandidate_refused h hk, fun why hw ha => ?_⟩⟩⟩,
    fun vol p => ⟨fun r => rfl, rfl⟩, fun b p v vol y => ?_, fun p cs skips vol => ?_,
    fun b x q y vol p v granted n h => ?_, fun p cls q => ⟨fun h => ?_, fun hm hq h => ?_⟩⟩
  · exact command_after hl (fieldAnswer_none (r := ⟨s.books, s.begun⟩) ht)
  · refine (command_after hl (fieldAnswer_offer_decision (r := ⟨s.books, s.begun⟩) ht)).trans ?_
    exact (exec_timeout_turn hl ht).symm
  · exact command_after hl (fieldAnswer_offer (t := ⟨u, sent⟩) (r := ⟨s.books, s.begun⟩) ht hd)
  · intro c
    exact ⟨routeOffer_mismatch h hs ht ho, routeOffer_unknown h hs ht ho, fun cls q y hc => ⟨fun stop =>
      (routeOffer_continue h hs ht ho hc).trans (routeContinue_stopped stop), fun _ => routeOffer_continue h hs ht ho hc⟩⟩
  · exact (tryCandidate_refused h hk ha).trans (by rw [startSkip_other hw]; rfl)
  · intro r disabled blocked full capacity
    refine ⟨fun h => ?_, fun h => ?_, fun hf hr => ?_, fun h => if_pos h, fun h hb => ?_, fun h hb hn => ?_,
      fun h hb hn => ?_⟩
    · simp only [routingLimit, show (vesselRec p v).role = .feed from h]
      rfl
    · simp only [routingLimit, show (vesselRec p v).role = .reuse from h]
      rfl
    · have role : (vesselRec p v).role ≠ .feed ∧ (vesselRec p v).role ≠ .reuse := ⟨hf, hr⟩
      unfold routingLimit
      split
      · exact absurd ‹_› role.1
      · exact absurd ‹_› role.2
      · rfl
      · rfl
      · rfl
    · exact (if_neg h).trans (if_pos ((blocked_iff r y).mpr hb))
    · exact ((if_neg h).trans (if_neg ((not_congr (blocked_iff r y)).mpr hb))).trans (if_pos hn)
    · exact ((if_neg h).trans (if_neg ((not_congr (blocked_iff r y)).mpr hb))).trans (if_neg hn)
  · intro sized tooLarge
    have small (h : ¬ tooLarge) : noCandidate p cs skips vol =
        match skips.find? (fun k => decide (k ≠ .disabled)) with
        | none => .refuse .noRoute
        | some k => .wait k.reason := if_neg ((not_congr (tooLarge_iff p cs vol)).mpr h)
    refine ⟨fun h => if_pos ((tooLarge_iff p cs vol).mpr h), fun h hk => ?_, fun before k after h e hb hk => ?_,
      fun r => rfl, lotCapacity_none, fun k => lotCapacity_some⟩
    · rw [small h, List.find?_eq_none.mpr fun k m => by simp [hk k m]]
    · rw [small h, e, noCandidate_reason hb hk]
      cases k <;> first | exact absurd rfl hk | rfl
  · obtain ⟨rfl, slug, open_, clear, fits, entry⟩ := routeContinue_routed h
    exact ⟨rfl, slug, open_, clear, fits, entry⟩
  · rcases h with h | h | h <;> simp [candidates, h]
  · cases cls <;> simp [candidates, hm, hq, h]

end Sys2Proof.Machine
end

