-- ==== Sys2Proof/Proofs/Raises.lean ====
section
/-! SUPPORT. What a raise leaves on the stack and in the last-fault record (R164, R167, R168, R180). -/

namespace Sys2Proof.Machine

section
variable {b : Books} {r : Raise} {p q : Part}

/-- The frames as they were pushed, and the last-fault record. -/
def faultView (p : Part) : List Frame × Option LastFault := (p.flt.stack.map Frame.fixed, p.flt.last)

theorem Settles.faultView (h : Settles p q) : faultView q = faultView p := Prod.ext h.stack h.last

/-- An entry to LOCKDOWN raises nothing. -/
theorem faultView_enterLockdown (b : Books) (cause : LockdownCause) (spare : Option Nat) (p : Part) :
    faultView (enterLockdown b cause spare p) = faultView p := by
  unfold enterLockdown
  split
  · exact (settles_blocksLockdown b (settles_notify _ (settles_generalCut b _ _ (.refl
      { p with ctl := { p.ctl with mode := .lockdown } })))).faultView
  · rfl

/-- Nor do the actions of a frame. -/
theorem faultView_applyActions (b : Books) (f : Frame) (depth : Nat) (spare : Option Nat) (old : ActionSet) (p : Part) :
    faultView (applyActions b f depth spare old p) = faultView p := by
  have settled := (settles_announcePush b f old (settles_applyStopMovement b f depth spare
    (settles_applyShutOutfall b f depth (.refl p)))).faultView
  dsimp only [applyActions]
  split
  · exact (faultView_enterLockdown b _ _ _).trans settled
  · exact settled

theorem raise_outOfService (h : p.ctl.mode.inService = false) : raise b r p = p :=
  if_pos (by rw [h]; rfl)

/-- The record of a raise. -/
def lastFault (r : Raise) (depth : Option Nat) (p : Part) : LastFault := ⟨r.ftype, r.subject, p.gate.clock, depth⟩

/-- A raise with room pushes its frame. -/
theorem faultView_raise_pushes (h : p.ctl.mode.inService = true) (hl : p.flt.stack.length < 6) :
    faultView (raise b r p) = (p.flt.stack.map Frame.fixed ++ [(newFrame r p).fixed],
      some (lastFault r (some (p.flt.stack.length + 1)) p)) := by
  have pushed : raise b r p = pushFrame b r p := (if_neg (by simp [h])).trans (if_pos hl)
  rw [pushed]
  exact (faultView_applyActions b _ _ _ _ _).trans ((settles_notify _ (.refl _)).faultView.trans
    (Prod.ext (by simp [faultView, recordFault]) rfl))

/-- A raise with six frames pushes none. -/
theorem faultView_raise_full (h : p.ctl.mode.inService = true) (hl : 6 ≤ p.flt.stack.length) :
    faultView (raise b r p) = (p.flt.stack.map Frame.fixed, some (lastFault r none p)) := by
  have full : raise b r p = notStacked b r p := (if_neg (by simp [h])).trans (if_neg (by omega))
  rw [full]
  exact (faultView_enterLockdown b _ _ _).trans (settles_notify _ (.refl _)).faultView

/-- A raise in service is the last fault. -/
theorem last_raise (b : Books) (r : Raise) (h : p.ctl.mode.inService = true) :
    ∃ depth, (raise b r p).flt.last = some (lastFault r depth p) := by
  by_cases hl : p.flt.stack.length < 6
  · exact ⟨_, congrArg Prod.snd (faultView_raise_pushes h hl)⟩
  · exact ⟨_, congrArg Prod.snd (faultView_raise_full h (by omega))⟩

theorem last_raiseBeforeEnd (b : Books) (r : Raise) (m : Movement) (h : p.ctl.mode.inService = true) :
    ∃ depth, (raiseBeforeEnd b r m p).flt.last = some (lastFault r depth p) :=
  last_raise (p := setEnding (some m) (removeMove m.number p)) b { r with interrupted := some m } h

/-- Whether a frame of a type and subject stands hangs on what the frames took at their pushes. -/
theorem hasFrame_eq_fixed (t : FaultType) (x : Subject) (p : Part) :
    hasFrame t x p = (p.flt.stack.map Frame.fixed).any (Frame.names t x) := by
  rw [List.any_map]
  rfl

theorem hasFrame_of_fixed (t : FaultType) (x : Subject) (h : q.flt.stack.map Frame.fixed = p.flt.stack.map Frame.fixed) :
    hasFrame t x q = hasFrame t x p := by
  rw [hasFrame_eq_fixed, hasFrame_eq_fixed, h]

end

end Sys2Proof.Machine
end

