-- ==== Sys2Proof/Proofs/Slugs.lean ====
section
/-! SUPPORT. The bookings of a slug: by the unit's DONE, and by level where its transfer timeout expires (R90 to R96). -/

namespace Sys2Proof.Machine

/-! ## What stands through an update -/

section
variable {p q : Part}

theorem standing_endTurn (h : q.standing = p.standing) : (endTurn q).standing = (endTurn p).standing :=
  congrArg endTurn h

theorem clock_of_standing (h : q.standing = p.standing) : q.gate.clock = p.gate.clock :=
  show q.standing.gate.clock = p.standing.gate.clock by rw [h]

theorem standing_sourceBooked (t : Tag) (conc litres mg : Nat) (h : q.standing = p.standing) :
    (sourceBooked t conc litres mg q).standing = (sourceBooked t conc litres mg p).standing :=
  congrArg (sourceBooked t conc litres mg) h

/-- An update of what stands of a record is an update of what stands. -/
theorem map_updAt_comm {α β : Type} {n : Nat} (xs : Vector α n) (i : Fin n) (f : α → α) (f' : β → β) (g : α → β)
    (h : ∀ x, g (f x) = f' (g x)) : (updAt xs i f).map g = updAt (xs.map g) i f' := by
  ext j hj
  by_cases same : i.1 = j
  · subst same
    simp [updAt, Vector.get, h]
  · simp [updAt, Vector.getElem_set_ne, same]

theorem standing_lateReport (u : UnitId) (h : q.standing = p.standing) :
    (lateReport u q).standing = (lateReport u p).standing := by
  have through (r : Part) : (lateReport u r).standing = lateReport u r.standing := by
    have units := map_updAt_comm r.fld.units u (fun x => { x with late := countUp x.late })
      (fun x => { x with late := countUp x.late }) UnitRec.standing (fun _ => rfl)
    simp only [Part.standing, lateReport, updUnit, units]
  rw [through, through, h]

theorem settles_answered (u : UnitId) (p : Part) :
    Settles (updUnit u (fun r => { r with missed := 0, presence := .present }) p) (answered u p) := by
  dsimp only [answered]
  split
  · exact settles_reportOn _ _ _ (settles_notify _ (.refl _))
  · exact .refl _

end

/-! ## A slug on its way (R24, R89, R90) -/

/-- A movement that has been told GO. -/
def Movement.gone (m : Movement) (now : Stamp) (timeout : Option Nat) (level : Option Nat) : Movement :=
  { m with
    phase := .running, lastProgress := now, quiet := 0, timeoutLeft := timeout
    slug := m.slug.map (fun y => { y with levelAtGo := level }) }

/-- A movement as it was, or told GO since. -/
def Advanced (m m' : Movement) : Prop := m' = m ∨ ∃ now timeout level, m' = m.gone now timeout level

section
variable {b : Books} {u : UnitId} {p : Part} {m m' : Movement} {x : SlugParticulars}

theorem ownerTold_gone (b : Books) (m : Movement) (now : Stamp) (timeout level : Option Nat) (e : Ending) (p : Part) :
    ownerTold b (m.gone now timeout level) e p = ownerTold b m e p := by
  have slug : slugEnds b (m.gone now timeout level) p = slugEnds b m p := by
    unfold slugEnds Movement.gone
    cases m.slug <;> rfl
  unfold ownerTold
  rw [slug]
  rfl

/-- The end of a movement does not read what GO writes. -/
theorem endMovement_advanced (h : Advanced m m') (b : Books) (e : Ending) (p : Part) :
    endMovement b m' e p = endMovement b m e p := by
  rcases h with rfl | ⟨now, timeout, level, rfl⟩
  · rfl
  · exact congrArg (reexamineAll b) (ownerTold_gone b m now timeout level e _)

/-- The particulars of a slug, less the reading that GO writes, stand. -/
theorem slug_advanced (h : Advanced m m') (hx : m.slug = some x) :
    ∃ level, m'.slug = some { x with levelAtGo := level } := by
  rcases h with rfl | ⟨now, timeout, level, rfl⟩
  · exact ⟨x.levelAtGo, hx⟩
  · exact ⟨level, by simp [Movement.gone, hx]⟩

theorem phase_advanced (h : Advanced m m') (hp : m.phase ≠ .opening) : m'.phase ≠ .opening := by
  rcases h with rfl | ⟨now, timeout, level, rfl⟩
  · exact hp
  · exact nofun

/-- The delivery of a GO leaves a unit's slug in the table, told GO or not. -/
theorem slugOf_deliverGo (u : UnitId) (n : Nat) (p : Part) :
    ∃ f, (∀ m, Advanced m (f m)) ∧ slugOf (deliverGo u n p) u = (slugOf p u).map f := by
  match go : findMove n p with
  | none =>
    refine ⟨id, fun _ => .inl rfl, ?_⟩
    rw [deliverGo, go, Option.map_id]
    rfl
  | some m0 =>
    let level := m0.destVessel.bind (fun v => (vesselRec p v).lastLevel)
    let told (y : Movement) := y.gone p.gate.clock (some p.fld.settings.transferTimeout) level
    have after : deliverGo u n p = updUnit u
        (fun r => { r with outbound := if r.outbound = some .go then none else r.outbound }) (updMove n told p) := by
      rw [deliverGo, go]
      rfl
    have slug : (unitRec (deliverGo u n p) u).slug = (unitRec p u).slug := by
      rw [after, unitRec_updUnit, if_pos rfl]
      rfl
    have entry (k : Nat) :
        findMove k (deliverGo u n p) = (findMove k p).map fun y => if y.number = n then told y else y := by
      have number (y : Movement) : (if y.number = n then told y else y).number = y.number := by split <;> rfl
      rw [after, findMove, findMove, updUnit_mov, updMove, List.find?_map]
      exact congrArg (Option.map _) (congrArg (List.find? · p.mov.entries)
        (funext fun y => by rw [Function.comp_apply, number]))
    refine ⟨fun y => if y.number = n then told y else y, fun m => ?_, ?_⟩
    · dsimp only
      split
      · exact .inr ⟨_, _, _, rfl⟩
      · exact .inl rfl
    · rw [slugOf, slugOf, slug, Option.map_bind]
      exact congrArg _ (funext entry)

theorem slugOf_endTurn (p : Part) (u : UnitId) : slugOf (endTurn p) u = slugOf p u := rfl

/-- What a STOP delivers changes no slug. -/
theorem slugOf_deliver_quiet {sent : FieldMessage} {go : Bool} (h : (∀ mv vol, sent ≠ .go mv vol) ∨ go = false) :
    slugOf (deliver u sent go p) u = slugOf p u := by
  unfold deliver
  split
  · exact slugOf_congr (by rw [deliverStop, unitRec_updUnit, if_pos rfl]) rfl
  · rcases h with h | rfl
    · exact absurd rfl (h _ _)
    · rfl
  · rfl
  · rfl

/-- What a turn delivers leaves the unit's slug in the table, told GO or not, and makes none. -/
theorem slugOf_deliver (u : UnitId) (sent : FieldMessage) (go : Bool) (p : Part) :
    ∃ f, (∀ m, Advanced m (f m)) ∧ slugOf (deliver u sent go p) u = (slugOf p u).map f := by
  by_cases quiet : (∀ mv vol, sent ≠ .go mv vol) ∨ go = false
  · exact ⟨id, fun _ => .inl rfl, (slugOf_deliver_quiet quiet).trans (by rw [Option.map_id]; rfl)⟩
  · obtain ⟨⟨mv, vol, rfl⟩, rfl⟩ : (∃ mv vol, sent = .go mv vol) ∧ go = true := by simpa using quiet
    exact slugOf_deliverGo u mv p

/-! ## DONE (R90 to R94) -/

variable {tag : RawTag} {litres : Nat} {mass : Option Nat} {q : Plant}

theorem takeDone_none (h : slugOf q.part u = none) :
    takeDone u tag litres mass q = { q with part := lateReport u q.part } := by
  rw [takeDone, h]

/-- A report that does not book is late. -/
theorem takeDone_late (h : slugOf q.part u = some m) (hx : m.slug = some x)
    (late : m.phase = .opening ∨ tagOf tag ≠ some x.tag) :
    takeDone u tag litres mass q = { q with part := lateReport u q.part } := by
  have not : doneBooks m x tag = false := by
    rcases late with late | late <;> simp [doneBooks, late]
  rw [takeDone, h]
  dsimp only
  rw [hx]
  cases m.destVessel with
  | none => rfl
  | some v => exact if_neg (by rw [not]; exact Bool.false_ne_true)

theorem takeDone_books {v : VesselId} (h : slugOf q.part u = some m) (hx : m.slug = some x)
    (hd : m.dest = .vesselInlet v) (ht : tagOf tag = some x.tag) (hp : m.phase ≠ .opening) :
    takeDone u tag litres mass q = bookDone m x v litres mass { q with part := readyDelivered u m q.part } := by
  have books : doneBooks m x tag = true := by simp [doneBooks, ht, hp]
  have dest : m.destVessel = some v := by rw [Movement.destVessel, hd]
  rw [takeDone, h]
  dsimp only
  rw [hx, dest]
  exact if_pos books

/-- The booking of a DONE does not read what GO writes. -/
theorem bookDone_advanced (h : Advanced m m') (level : Option Nat) (v : VesselId) (litres : Nat) (mass : Option Nat)
    (q : Plant) : bookDone m' { x with levelAtGo := level } v litres mass q = bookDone m x v litres mass q := by
  rcases h with rfl | ⟨now, timeout, l, rfl⟩
  · rfl
  · dsimp only [bookDone]
    rw [endMovement_advanced (.inr ⟨now, timeout, l, rfl⟩)]
    rfl

/-- The part that an admission leaves. -/
def admittedPart (m : Movement) (x : SlugParticulars) (v : VesselId) (litres mg : Nat) (q : Plant) : Part :=
  afterBooking q.books (q.books.book (.admission v litres mg)) [v] none (some m.number)
    (slugTold m x litres mg (q.books.book (.admission v litres mg)) q.part)

theorem admitSlug_eq (m : Movement) (x : SlugParticulars) (v : VesselId) (litres mg : Nat) (q : Plant) :
    admitSlug m x v litres mg q = ⟨q.books.book (.admission v litres mg),
      sourceBooked x.tag x.conc litres mg (admittedPart m x v litres mg q)⟩ := by
  simp only [admitSlug, bookAndTell, Booking.vessels, admittedPart]

theorem reaches_admittedPart (m : Movement) (x : SlugParticulars) (v : VesselId) (litres mg : Nat) (q : Plant) :
    Reaches q.part (admittedPart m x v litres mg q) :=
  reaches_afterBooking q.books (q.books.book (.admission v litres mg)) [v] none (some m.number)
    (settles_slugTold m x litres mg (q.books.book (.admission v litres mg)) (.refl q.part)).reaches

/-- What stands after an admission is the part with the source's totals. -/
theorem standing_admitSlug (m : Movement) (x : SlugParticulars) (v : VesselId) (litres mg : Nat) {q : Plant} {p : Part}
    (h : q.part.standing = p.standing) :
    (admitSlug m x v litres mg q).part.standing = (sourceBooked x.tag x.conc litres mg p).standing := by
  rw [admitSlug_eq]
  exact standing_sourceBooked _ _ _ _ ((reaches_admittedPart m x v litres mg q).standing.trans h)

theorem standing_bookDone (m : Movement) (x : SlugParticulars) (v : VesselId) (litres : Nat) (mass : Option Nat)
    {q : Plant} {p : Part} (h : q.part.standing = p.standing) : (bookDone m x v litres mass q).part.standing =
      (sourceBooked x.tag x.conc litres (doneMass litres mass x.conc) p).standing :=
  ((settles_clearOutboundFor x m.number (settles_endMovement _ m .complete
      (settles_overDelivery m x v litres (.refl _)))).standing).trans
    (standing_admitSlug m x v litres _ ((settles_stopTimeout m.number (.refl _)).standing.trans h))

theorem bookDone_eq (m : Movement) (x : SlugParticulars) (v : VesselId) (litres : Nat) (mass : Option Nat) (q : Plant) :
    bookDone m x v litres mass q = ⟨q.books.book (.admission v litres (doneMass litres mass x.conc)),
      clearOutboundFor x m.number (endMovement (q.books.book (.admission v litres (doneMass litres mass x.conc))) m
        .complete (overDelivery m x v litres (sourceBooked x.tag x.conc litres (doneMass litres mass x.conc)
          (admittedPart m x v litres (doneMass litres mass x.conc) ⟨q.books, stopTimeout m.number q.part⟩))))⟩ := by
  simp only [bookDone, admitSlug_eq]

/-- What a turn's answer leaves standing. -/
theorem standing_delivered (u : UnitId) (sent : FieldMessage) (go : Bool) (p : Part) :
    (endTurn (deliver u sent go (answered u p))).standing =
      (endTurn (updUnit u (fun r => { r with missed := 0, presence := .present }) p)).standing :=
  standing_endTurn (settles_deliver u sent go (settles_answered u p)).standing

theorem fieldAnswer_done_decision {d : Decision} (h : q.part.fld.turn = some ⟨u, .decision d⟩) :
    fieldAnswer (.done tag litres mass) q = { q with part := missTurn q.books ⟨u, .decision d⟩ q.part } := by
  rw [fieldAnswer, h]
  rfl

theorem fieldAnswer_done {sent : FieldMessage} (h : q.part.fld.turn = some ⟨u, sent⟩) (hd : sent.isDecision = false) :
    fieldAnswer (.done tag litres mass) q = takeDone u tag litres mass { q with
      part := endTurn (deliver u sent (doneForSlug q.part u tag) (answered u q.part)) } := by
  simp only [fieldAnswer, h, hd]
  rfl

theorem doneForSlug_of_tag (h : slugOf p u = some m) (hx : m.slug = some x) (ht : tagOf tag = some x.tag) :
    doneForSlug p u tag = true := by
  simp [doneForSlug, h, hx, ht]

end

/-- Settles O44: by the slug that the unit has once its turn has been delivered. -/
theorem doneIsBookedOrLate : Obligations.DoneIsBookedOrLate := by
  refine fun tag litres mass s hl => ⟨fun ht => ?_, fun u d ht => ?_, fun u sent ht hd => ?_⟩
  · exact command_after hl (fieldAnswer_none (r := ⟨s.books, s.begun⟩) ht)
  · exact (command_after hl (fieldAnswer_done_decision (q := ⟨s.books, s.begun⟩) ht)).trans
      (exec_timeout_turn hl ht).symm
  · intro heard known
    have answer := fieldAnswer_done (tag := tag) (litres := litres) (mass := mass) (q := ⟨s.books, s.begun⟩) ht hd
    have slug : slugOf heard u = slugOf s.part u := slugOf_answered u s.begun
    refine ⟨?_, fun h => ?_⟩
    · intro m x v hm hx hdest hp htag mg booked delivered running stopped lotTold told silenced overTold
      obtain ⟨f, advanced, moved⟩ := slugOf_deliver u sent true heard
      have found : slugOf delivered u = some (f m) := moved.trans (by rw [slug, hm]; rfl)
      obtain ⟨level, hx'⟩ := slug_advanced (advanced m) hx
      have dest : (f m).dest = .vesselInlet v := by
        rcases advanced m with e | ⟨_, _, _, e⟩ <;> rw [e] <;> exact hdest
      have ready : running = readyDelivered u (f m) delivered := by
        simp only [running, found, readyDelivered]
      have go : doneForSlug s.begun u tag = true := doneForSlug_of_tag (p := s.begun) hm hx htag
      have books : fieldAnswer (.done tag litres mass) ⟨s.books, s.begun⟩ =
          bookDone m x v litres mass ⟨s.books, running⟩ := by
        rw [answer, go, ready]
        exact (takeDone_books (q := ⟨s.books, delivered⟩) found hx' dest htag (phase_advanced (advanced m) hp)).trans
          (bookDone_advanced (advanced m) level v litres mass _)
      have stands : running.standing = known.standing :=
        (ready ▸ (settles_readyDelivered u (f m) (.refl delivered)).standing).trans (standing_delivered u sent true s.begun)
      have lot : lotTold = slugTold m x litres mg booked stopped := by
        cases hlot : m.lot <;> simp only [lotTold, slugTold, hlot]
      have told_eq : sourceBooked x.tag x.conc litres mg (admittedPart m x v litres mg ⟨s.books, stopped⟩) = told := by
        simp only [told, lot, admittedPart]
        rfl
      have done := (books.trans (bookDone_eq m x v litres mass ⟨s.books, running⟩)).trans (congrArg (fun r => Plant.mk booked
        (clearOutboundFor x m.number (endMovement booked m .complete (overDelivery m x v litres r)))) told_eq)
      have standing := standing_bookDone m x v litres mass (q := ⟨s.books, running⟩) stands
      rw [← books, done] at standing
      exact ⟨_, command_after hl done, rfl, standing⟩
    · obtain ⟨f, advanced, moved⟩ := slugOf_deliver u sent (doneForSlug s.part u tag) heard
      have late : fieldAnswer (.done tag litres mass) ⟨s.books, s.begun⟩ =
          ⟨s.books, lateReport u (endTurn (deliver u sent (doneForSlug s.part u tag) heard))⟩ := by
        refine answer.trans ?_
        rcases h with hm | ⟨m, x, hm, hx, ⟨hp, hs⟩ | htag⟩
        · exact takeDone_none (q := ⟨s.books, _⟩) (moved.trans (by rw [slug, hm]; rfl))
        · exact takeDone_late (q := ⟨s.books, _⟩) ((slugOf_deliver_quiet (.inl hs)).trans (slug.trans hm)) hx (.inl hp)
        · obtain ⟨level, hx'⟩ := slug_advanced (advanced m) hx
          exact takeDone_late (q := ⟨s.books, _⟩) (moved.trans (by rw [slug, hm]; rfl)) hx' (.inr htag)
      exact ⟨_, command_after hl late, rfl, standing_lateReport u (standing_delivered u sent _ s.begun)⟩

/-! ## The transfer timeout (R95, R96) -/

section
variable {n : Nat} {m : Movement} {x : SlugParticulars} {v : VesselId} {q : Plant}

theorem transferTimeout_none (h : findMove n q.part = none) : transferTimeout n q = q := by
  rw [transferTimeout, h]

theorem transferTimeout_stopped (h : findMove n q.part = some m) (ht : m.timeoutLeft = none) :
    transferTimeout n q = q := by
  simp [transferTimeout, h, ht]

theorem transferTimeout_runs (h : findMove n q.part = some m) (ht : m.timeoutLeft.isSome = true)
    (hx : m.slug = some x) (hd : m.dest = .vesselInlet v) : transferTimeout n q = slugTimesOut m x v q := by
  obtain ⟨t, ht⟩ := Option.isSome_iff_exists.mp ht
  have dest : m.destVessel = some v := by rw [Movement.destVessel, hd]
  simp only [transferTimeout, h, ht, hx, dest]

/-- The water of a slug by its destination's level difference. -/
def litresByLevel (x : SlugParticulars) (v : VesselId) (p : Part) : Nat :=
  levelDifference (vesselRec p v).lastLevel x.levelAtGo

/-- The part once a slug is booked by level. -/
def bookedByLevel (m : Movement) (x : SlugParticulars) (v : VesselId) (q : Plant) : Part :=
  sourceBooked x.tag x.conc (litresByLevel x v q.part) (litresByLevel x v q.part * x.conc)
    (admittedPart m x v (litresByLevel x v q.part) (litresByLevel x v q.part * x.conc)
      ⟨q.books, stopTimeout m.number q.part⟩)

theorem slugTimesOut_eq (m : Movement) (x : SlugParticulars) (v : VesselId) (q : Plant) (b : Books)
    (hb : q.books.book (.admission v (litresByLevel x v q.part) (litresByLevel x v q.part * x.conc)) = b) :
    slugTimesOut m x v q = ⟨b, setStop x.unit m.number (movementEnded b m (.cut .plain)
      (raiseBeforeEnd b { ftype := .slugTimeout, subject := .unit x.unit } m (bookedByLevel m x v q)))⟩ := by
  subst hb
  simp only [slugTimesOut, bookByLevel, admitSlug_eq, bookedByLevel, litresByLevel]

theorem standing_bookedByLevel (m : Movement) (x : SlugParticulars) (v : VesselId) (q : Plant) :
    (bookedByLevel m x v q).standing = (sourceBooked x.tag x.conc (litresByLevel x v q.part)
      (litresByLevel x v q.part * x.conc) q.part).standing :=
  standing_sourceBooked _ _ _ _ ((reaches_admittedPart m x v _ _ ⟨q.books, stopTimeout m.number q.part⟩).standing.trans
    (settles_stopTimeout m.number (.refl q.part)).standing)

/-- The bookings of a slug leave the mode in service. -/
theorem inService_bookedByLevel (h : q.part.ctl.mode.inService = true) :
    (bookedByLevel m x v q).ctl.mode.inService = true := by
  have reached := reaches_admittedPart m x v (litresByLevel x v q.part) (litresByLevel x v q.part * x.conc)
    ⟨q.books, stopTimeout m.number q.part⟩
  have service : (stopTimeout m.number q.part).ctl.mode.inService = true := h
  unfold bookedByLevel
  generalize admittedPart m x v _ _ _ = r at reached ⊢
  show r.ctl.mode.inService = true
  rcases reached.ctl with e | ⟨-, e⟩
  · rw [e]
    exact service
  · rw [e]
    rfl

/-- The slug timed out, raised and ended: what stands, what was raised last, and the STOP. -/
theorem slugTimeout_raised (b : Books) (m : Movement) (x : SlugParticulars) {t : Part}
    (h : t.ctl.mode.inService = true) :
    let p := setStop x.unit m.number (movementEnded b m (.cut .plain)
      (raiseBeforeEnd b { ftype := .slugTimeout, subject := .unit x.unit } m t))
    p.standing = t.standing ∧ (∃ depth, p.flt.last = some ⟨.slugTimeout, .unit x.unit, t.gate.clock, depth⟩) ∧
      (unitRec p x.unit).outbound = some (.stop m.number) := by
  obtain ⟨depth, last⟩ := last_raiseBeforeEnd b { ftype := .slugTimeout, subject := .unit x.unit } m h
  have raised := reaches_raiseBeforeEnd b { ftype := .slugTimeout, subject := .unit x.unit } m (.refl t)
  have ended := settles_setStop x.unit m.number (settles_movementEnded b m (.cut .plain)
    (.refl (raiseBeforeEnd b { ftype := .slugTimeout, subject := .unit x.unit } m t)))
  exact ⟨ended.standing.trans raised.standing, ⟨depth, ended.last.trans last⟩, by
    rw [setStop, unitRec_updUnit, if_pos rfl]⟩

end

/-- Settles O45: the slug booked by level, raised, and ended. -/
theorem transferTimeoutBooksByLevel : Obligations.TransferTimeoutBooksByLevel := by
  refine fun n s ⟨hl, hm⟩ => ⟨fun h => ?_, fun m x v hfind ht hx hd => ?_⟩
  · refine command_after hl ?_
    rcases h with h | ⟨m, h, ht⟩
    · exact transferTimeout_none (q := ⟨s.books, s.begun⟩) h
    · exact transferTimeout_stopped (q := ⟨s.books, s.begun⟩) h ht
  · intro litres booked told
    have number : m.number = n := number_of_findMove hfind
    subst number
    have byLevel : litresByLevel x v s.begun = litres := by
      simp only [litresByLevel, levelDifference, litres]
      rfl
    have told_eq : bookedByLevel m x v ⟨s.books, s.begun⟩ = told := by
      simp only [bookedByLevel, byLevel, admittedPart]
      rfl
    have timed := (transferTimeout_runs (q := ⟨s.books, s.begun⟩) hfind ht hx hd).trans
      (slugTimesOut_eq m x v ⟨s.books, s.begun⟩ booked (by rw [byLevel]))
    rw [told_eq] at timed
    have stands : told.standing = (sourceBooked x.tag x.conc litres (litres * x.conc) s.begun).standing := by
      have e := standing_bookedByLevel m x v ⟨s.books, s.begun⟩
      rwa [told_eq, byLevel] at e
    have service : told.ctl.mode.inService = true := told_eq ▸ inService_bookedByLevel (q := ⟨s.books, s.begun⟩) hm
    obtain ⟨keeps, ⟨depth, last⟩, stop⟩ := slugTimeout_raised booked m x service
    have now : told.gate.clock = s.part.gate.clock :=
      clock_of_standing (p := sourceBooked x.tag x.conc litres (litres * x.conc) s.begun) stands
    rw [now] at last
    exact ⟨_, command_after hl timed, rfl, keeps.trans stands, ⟨depth, last⟩, stop⟩

end Sys2Proof.Machine
end

