-- ==== Sys2Proof/Proofs/Starts.lean ====
section
/-! SUPPORT. The checks of a start, the waiting list, ends and cuts of movements (R20 to R23, R26, R29 to R32). -/

namespace Sys2Proof.Machine

section
variable {b : Books} {a : StartAsk} {p : Part}

/-! ## The checks (R21) -/

theorem running_iff (m : Mode) : m.running = true ↔ m = .operating ∨ m = .lockdown := by cases m <;> decide

theorem startRefusal_mode (h : p.ctl.mode.running = false) : startRefusal b a p = some .mode := by
  simp [startRefusal, h]

theorem startRefusal_sourceBusy (h : p.ctl.mode.running = true) (hs : portBusy p a.source = true) :
    startRefusal b a p = some .sourceBusy := by
  simp [startRefusal, h, hs]

theorem startRefusal_sourceEmpty (h : p.ctl.mode.running = true) (hs : portBusy p a.source = false)
    (hv : sourceVolume b a.source = some 0) : startRefusal b a p = some .sourceEmpty := by
  simp [startRefusal, h, hs, hv]

theorem startRefusal_destBusy (h : p.ctl.mode.running = true) (hs : portBusy p a.source = false)
    (hv : sourceVolume b a.source ≠ some 0) (hd : portBusy p a.dest = true) :
    startRefusal b a p = some .destinationBusy := by
  simp [startRefusal, h, hs, hv, hd]

theorem startRefusal_full (h : p.ctl.mode.running = true) (hs : portBusy p a.source = false)
    (hv : sourceVolume b a.source ≠ some 0) (hd : portBusy p a.dest = false) (hl : 12 ≤ p.mov.entries.length) :
    startRefusal b a p = some .tableFull := by
  simp [startRefusal, h, hs, hv, hd, hl]

theorem startRefusal_clear (h : p.ctl.mode.running = true) (hs : portBusy p a.source = false)
    (hv : sourceVolume b a.source ≠ some 0) (hd : portBusy p a.dest = false) (hl : p.mov.entries.length < 12) :
    startRefusal b a p = none := by
  simp [startRefusal, h, hs, hv, hd, Nat.not_le.mpr hl]

theorem askStart_refused {why : WaitReason} (h : startRefusal b a p = some why) :
    askStart b a p = (placeAfter a (some why) p, .refused why) := by
  rw [askStart, h]

theorem askStart_started (h : startRefusal b a p = none) : askStart b a p =
    ((addEntry a (placeAfter a none p)).1, .started (addEntry a (placeAfter a none p)).2) := by
  rw [askStart, h]

/-- An answer says which of the two it was. -/
theorem startRefusal_of_refused {why : WaitReason} (h : (askStart b a p).2 = .refused why) :
    startRefusal b a p = some why := by
  match e : startRefusal b a p with
  | none => simp [askStart_started e] at h
  | some w =>
    rw [askStart_refused e] at h
    rw [StartAnswer.refused.inj h]

theorem startRefusal_of_started {n : Nat} (h : (askStart b a p).2 = .started n) : startRefusal b a p = none := by
  match e : startRefusal b a p with
  | none => rfl
  | some w => simp [askStart_refused e] at h

/-! ## The entry and its number (R18, R23) -/

theorem addEntry_number_free (h : p.mov.entries.length < 12) : ∀ m ∈ p.mov.entries, m.number ≠ (addEntry a p).2 := by
  intro m hm same
  refine freeNumberFrom_not_mem (k := 13) (n := p.mov.nextNumber) (held := p.mov.entries.map Movement.number)
    (by decide) (by rw [List.length_map]; omega) ?_
  exact List.mem_map.mpr ⟨m, hm, same⟩

theorem newEntry_placeAfter (r : Option WaitReason) (n : Nat) : newEntry a n (placeAfter a r p) = newEntry a n p := by
  unfold placeAfter
  split <;> rfl

/-! ## The waiting list (R21, R32) -/

theorem waiting_leaves {o : WaitOwner} (h : a.waiter = some o) :
    (placeAfter a none p).mov.waiting = p.mov.waiting.filter (fun w => decide (w.owner ≠ o)) := by
  simp only [placeAfter, h]
  rfl

theorem waiting_sourceEmpty {o : WaitOwner} (h : a.waiter = some o) :
    (placeAfter a (some .sourceEmpty) p).mov.waiting = p.mov.waiting.filter (fun w => decide (w.owner ≠ o)) := by
  simp only [placeAfter, h]
  rfl

theorem waiting_enters {o : WaitOwner} {why : WaitReason} (h : a.waiter = some o) (hw : why ≠ .sourceEmpty) :
    (placeAfter a (some why) p).mov.waiting =
      if p.mov.waiting.any (fun w => decide (w.owner = o)) then
        p.mov.waiting.map (fun w => if w.owner = o then ⟨o, some (a.source, a.dest)⟩ else w)
      else p.mov.waiting ++ [⟨o, some (a.source, a.dest)⟩] := by
  have entered : placeAfter a (some why) p = enterWaiting o (some (a.source, a.dest)) p := by
    cases why <;> first | exact absurd rfl hw | simp only [placeAfter, h]
  have renamed (w : WaitPlace) : (if w.owner = o then ⟨o, some (a.source, a.dest)⟩ else w) =
      if w.owner = o then { w with ports := some (a.source, a.dest) } else w := by
    split
    · next e => rw [← e]
    · rfl
  rw [entered, enterWaiting]
  simp only [renamed]

/-! ## The examiners of an end (R32, log 7) -/

/-- A list's elements, each once, behind those already there. -/
theorem foldl_once {α : Type} [DecidableEq α] (l : List α) : ∀ acc : List α, acc.Nodup →
    (l.foldl (fun acc x => if acc.contains x then acc else acc ++ [x]) acc).Nodup ∧
      ∀ x, x ∈ l.foldl (fun acc x => if acc.contains x then acc else acc ++ [x]) acc ↔ x ∈ acc ∨ x ∈ l := by
  induction l with
  | nil => intro acc h; exact ⟨h, by simp⟩
  | cons y l ih =>
    intro acc h
    rw [List.foldl_cons]
    split
    · next there =>
      have inside : y ∈ acc := by simpa using there
      obtain ⟨nodup, mem⟩ := ih acc h
      refine ⟨nodup, fun x => (mem x).trans ⟨.imp_right (List.mem_cons_of_mem y), fun either => ?_⟩⟩
      rcases either with earlier | here
      · exact .inl earlier
      · rcases List.mem_cons.mp here with rfl | later
        · exact .inl inside
        · exact .inr later
    · next there =>
      have outside : y ∉ acc := by simpa using there
      obtain ⟨nodup, mem⟩ := ih (acc ++ [y]) (by simp [List.nodup_append, h]; exact fun x hx => fun e => outside (e ▸ hx))
      exact ⟨nodup, fun x => by rw [mem]; simp [or_assoc]⟩

theorem examiners_nodup (p : Part) : (examiners p).Nodup := (foldl_once _ [] List.nodup_nil).1

theorem mem_examiners (x : Examiner) :
    x ∈ examiners p ↔ x ∈ p.mov.waiting.map (fun w => w.owner.examiner) ∨ x ∈ standingExaminers := by
  rw [examiners, (foldl_once _ [] List.nodup_nil).2, List.mem_append]
  simp

/-! ## Ends and cuts (R26, R29 to R31) -/

variable {n : Nat} {m : Movement}

theorem completeMoved_done (h : findMove n p = some m) (hm : m.requested ≤ m.movedLitres) :
    completeMoved b (some n) p = endMovement b m .complete p := by
  rw [completeMoved, Option.bind_some, h]
  exact if_pos hm

theorem completeMoved_open (h : findMove n p = some m) (hm : m.movedLitres < m.requested) :
    completeMoved b (some n) p = p := by
  rw [completeMoved, Option.bind_some, h]
  exact if_neg (Nat.not_le.mpr hm)

theorem completeEmptied_one (h : p.mov.entries.filter (fun x => decide (sourceVolume b x.source = some 0)) = [m])
    (hm : findMove m.number p = some m) : completeEmptied b p = endMovement b m .complete p := by
  rw [completeEmptied, h, List.foldl_cons, hm]
  rfl

theorem completeEmptied_none (h : ∀ m ∈ p.mov.entries, sourceVolume b m.source ≠ some 0) : completeEmptied b p = p := by
  rw [completeEmptied, List.filter_eq_nil_iff.mpr fun m hm => by simpa using h m hm]
  rfl

theorem cutMovement_gone {why : CutWhy} (h : findMove n p = none) : cutMovement b n why p = p := by
  rw [cutMovement, h]

theorem cutMovement_internal {why : CutWhy} (h : findMove n p = some m) (hk : m.kind ≠ .slug) :
    cutMovement b n why p = endMovement b m (.cut why) p := by
  rw [cutMovement, h]
  exact if_neg hk

theorem cutMovement_slug {why : CutWhy} (h : findMove n p = some m) (hk : m.kind = .slug) :
    cutMovement b n why p = cutSlug b m why p := by
  rw [cutMovement, h]
  exact if_pos hk

theorem cutSlug_waiting {why : CutWhy} (h : m.phase = .opening ∨ m.phase = .ready) :
    cutSlug b m why p = endMovement b m (.cut why) (stopSlug m p) := by
  rcases h with h | h <;> rw [cutSlug, h]

theorem cutSlug_running {why : CutWhy} (h : m.phase = .running) :
    cutSlug b m why p = updMove m.number (fun x => { x with phase := .stopping }) (stopSlug m p) := by
  rw [cutSlug, h]

theorem cutSlug_stopping {why : CutWhy} (h : m.phase = .stopping) : cutSlug b m why p = p := by
  rw [cutSlug, h]

theorem portBusy_iff (port : Port) : portBusy p port = true ↔ port ≠ .mains ∧
    ∃ m, (m ∈ p.mov.entries ∨ p.mov.ending = some m) ∧ (m.source = port ∨ m.dest = port) := by
  simp only [portBusy, unended, Bool.and_eq_true, decide_eq_true_eq, List.any_eq_true, List.mem_append,
    Option.mem_toList]

end

/-- Settles O28: the checks in their order, the entry, the waiting list, and the ends. -/
theorem movementStartChecks : Obligations.MovementStartChecks := by
  intro b a p
  have idle (h : p.ctl.mode ≠ .operating) (k : p.ctl.mode ≠ .lockdown) : p.ctl.mode.running = false :=
    Bool.eq_false_iff.mpr fun e => ((running_iff _).mp e).elim h k
  refine ⟨fun h k => ?_, fun hm => ⟨fun hs => ?_, fun hs hv => ?_, fun hs hv hd => ?_, fun hs hv hd hl => ?_,
    fun hs hv hd hl => ?_⟩, fun why h => ?_, fun o ho => ?_, fun m e => ⟨rfl, rfl⟩, portBusy_iff, fun v => rfl,
    fun r m => rfl, fun n => rfl, ⟨examiners_nodup p, fun w hw => ?_, fun x hx => ?_⟩,
    fun n m h => ⟨completeMoved_done h, completeMoved_open h⟩, fun m => completeEmptied_one, completeEmptied_none,
    fun n why => ⟨cutMovement_gone, fun m h => ?_⟩, fun why spare => rfl⟩
  · rw [askStart_refused (startRefusal_mode (idle h k))]
  · rw [askStart_refused (startRefusal_sourceBusy ((running_iff _).mpr hm) hs)]
  · rw [askStart_refused (startRefusal_sourceEmpty ((running_iff _).mpr hm) hs hv)]
  · rw [askStart_refused (startRefusal_destBusy ((running_iff _).mpr hm) hs hv hd)]
  · rw [askStart_refused (startRefusal_full ((running_iff _).mpr hm) hs hv hd hl)]
  · have clear := startRefusal_clear ((running_iff _).mpr hm) hs hv hd hl
    rw [askStart_started clear]
    have free := addEntry_number_free (a := a) (p := placeAfter a none p) (by rw [placeAfter_entries]; exact hl)
    rw [placeAfter_entries] at free
    refine ⟨_, rfl, free, ?_⟩
    show (placeAfter a none p).mov.entries ++ [newEntry a _ (placeAfter a none p)] = _
    rw [newEntry_placeAfter]
    exact congrArg (· ++ _) (placeAfter_entries a none p)
  · rw [askStart_refused (startRefusal_of_refused h)]
    exact placeAfter_entries a _ p
  · refine ⟨fun n h => ?_, fun h => ?_, fun why hw h => ?_⟩
    · rw [askStart_started (startRefusal_of_started h)]
      exact waiting_leaves ho
    · rw [askStart_refused (startRefusal_of_refused h)]
      exact waiting_sourceEmpty ho
    · rw [askStart_refused (startRefusal_of_refused h)]
      exact waiting_enters ho hw
  · exact (mem_examiners _).mpr (.inl (List.mem_map_of_mem hw))
  · refine (mem_examiners x).mpr (.inr ?_)
    rcases hx with rfl | rfl | rfl | ⟨c, rfl⟩
    · decide
    · decide
    · decide
    · revert c; decide
  · intro told
    have stop : stopSlug m p = told := by
      cases hx : m.slug <;> simp only [stopSlug, told, hx, setStop]
    refine ⟨cutMovement_internal h, fun hk => ⟨fun hp => ?_, fun hp => ?_, fun hp => ?_⟩⟩
    · rw [cutMovement_slug h hk, cutSlug_waiting hp, stop]
    · rw [cutMovement_slug h hk, cutSlug_running hp, stop]
    · rw [cutMovement_slug h hk, cutSlug_stopping hp]

end Sys2Proof.Machine
end

