-- ==== Sys2Proof/Proofs/Times.lean ====
section
/-! SUPPORT. The travel times and the stall of a movement (R23, R28, R34, R89). -/

namespace Sys2Proof.Machine

section
variable {b : Books} {n : Nat} {m : Movement} {p : Part}

/-! ## Travel (R23) -/

theorem travelElapsed_gone (h : findMove n p = none) : travelElapsed n p = p := by
  rw [travelElapsed, h]

theorem travelElapsed_begun (h : findMove n p = some m) (hp : m.phase ≠ .opening) : travelElapsed n p = p := by
  rw [travelElapsed, h]
  exact if_pos hp

theorem travelElapsed_internal (h : findMove n p = some m) (hp : m.phase = .opening) (hk : m.kind ≠ .slug) :
    travelElapsed n p = updMove n (fun x =>
      { x with phase := .running, travelLeft := 0, quiet := 0, lastProgress := p.gate.clock }) p := by
  rw [travelElapsed, h]
  exact (if_neg (Classical.not_not.mpr hp)).trans (if_neg hk)

theorem travelElapsed_slug (h : findMove n p = some m) (hp : m.phase = .opening) (hk : m.kind = .slug) :
    travelElapsed n p = setGo m (updMove n (fun x => { x with phase := .ready, travelLeft := 0 }) p) := by
  rw [travelElapsed, h]
  exact (if_neg (Classical.not_not.mpr hp)).trans (if_pos hk)

theorem setGo_slug {x : SlugParticulars} (h : m.slug = some x) : setGo m p = updUnit x.unit (fun u =>
    { u with outbound := match u.outbound with
        | some (.stop k) => some (.stop k)
        | _ => some .go }) p := by
  rw [setGo, h]
  refine updUnit_congr ?_
  rcases (unitRec p x.unit).outbound with _ | _ | _ <;> rfl

/-! ## Stall (R28) -/

theorem stallTimeout_gone (h : findMove n p = none) : stallTimeout b n p = p := by
  rw [stallTimeout, h]

theorem stallTimeout_spared (h : findMove n p = some m) (hm : m.kind = .slug ∨ m.phase ≠ .running) :
    stallTimeout b n p = p := by
  rw [stallTimeout, h]
  exact if_neg fun ⟨hk, hp⟩ => hm.elim hk (· hp)

theorem stallTimeout_stalls (h : findMove n p = some m) (hk : m.kind ≠ .slug) (hp : m.phase = .running) :
    stallTimeout b n p = stallMove b m p := by
  rw [stallTimeout, h]
  exact if_pos ⟨hk, hp⟩

/-- Where numbers are distinct an entry is found by its number. -/
theorem findMove_of_mem (h : p.mov.distinct) (hm : m ∈ p.mov.entries) : findMove m.number p = some m := by
  match found : findMove m.number p with
  | none => exact absurd (List.find?_eq_none.mp found m hm) (by simp)
  | some x =>
    have hx : x ∈ p.mov.entries := List.mem_of_find?_eq_some found
    exact congrArg some (eq_of_nodup_map h hx hm (number_of_findMove found))

theorem stallQuiet_none (h : p.mov.distinct)
    (hq : ∀ m ∈ p.mov.entries, m.kind ≠ .slug → m.phase = .running → m.quiet ≤ p.mov.stallTime) :
    stallQuiet b p = p := by
  have spared (l : List Movement) (hl : ∀ m ∈ l, m ∈ p.mov.entries ∧ p.mov.stallTime < m.quiet) :
      l.foldl (fun q m => stallTimeout b m.number q) p = p := by
    induction l with
    | nil => rfl
    | cons m l ih =>
      obtain ⟨hm, late⟩ := hl m List.mem_cons_self
      have kept : stallTimeout b m.number p = p := stallTimeout_spared (findMove_of_mem h hm) (Classical.byContradiction fun running => by
        obtain ⟨hk, hp⟩ := not_or.mp running
        exact absurd (hq m hm hk (Classical.not_not.mp hp)) (by omega))
      rw [List.foldl_cons, kept]
      exact ih fun x hx => hl x (List.mem_cons_of_mem _ hx)
  exact spared _ fun m hm => by simpa using hm

theorem stallQuiet_one (h : p.mov.entries = [m]) (hk : m.kind ≠ .slug) (hp : m.phase = .running)
    (hq : p.mov.stallTime < m.quiet) : stallQuiet b p = stallMove b m p := by
  have found : findMove m.number p = some m := by simp [findMove, h]
  have quiet : p.mov.entries.filter (fun m => decide (p.mov.stallTime < m.quiet)) = [m] := by simp [h, hq]
  rw [stallQuiet, quiet]
  exact stallTimeout_stalls found hk hp

/-- The record that a raise leaves says where its frame stands. -/
theorem last_raiseBeforeEnd_depth (b : Books) (r : Raise) (m : Movement) (h : p.ctl.mode.inService = true) :
    (raiseBeforeEnd b r m p).flt.last = some (lastFault r
      (if p.flt.stack.length < 6 then some (p.flt.stack.length + 1) else none) p) := by
  have raised : (raiseBeforeEnd b r m p).flt =
      (raise b { r with interrupted := some m } (setEnding (some m) (removeMove m.number p))).flt := rfl
  rw [raised]
  split
  · next hl => exact congrArg Prod.snd (faultView_raise_pushes (p := setEnding (some m) (removeMove m.number p)) h hl)
  · next hl =>
    have full := faultView_raise_full (b := b) (r := { r with interrupted := some m })
      (p := setEnding (some m) (removeMove m.number p)) h (Nat.not_lt.mp hl)
    exact congrArg Prod.snd full

/-! ## SET MOVEMENT TIMES (R34) -/

theorem inRange_all (lo hi : Nat) (x : Option Nat) : inRange lo hi x = true ↔ ∀ k, x = some k → lo ≤ k ∧ k ≤ hi := by
  cases x <;> simp

theorem movementTimeRanges_iff (i : MovementTimeItems) : movementTimeRanges i = true ↔
    (∀ x, i.stall = some x → 10 ≤ x ∧ x ≤ 900) ∧ (∀ x, i.cellTravel = some x → 1 ≤ x ∧ x ≤ 60) ∧
      (∀ x, i.outfallTravel = some x → 1 ≤ x ∧ x ≤ 60) := by
  simp only [movementTimeRanges, Bool.and_eq_true, inRange_all, and_assoc]

theorem takeSetMovementTimes_bad {i : MovementTimeItems} {q : Plant} (h : movementTimeRanges i = false) :
    takeSetMovementTimes i q = inService (refuse .badValue) q := by
  simp [takeSetMovementTimes, h]

theorem takeSetMovementTimes_applies {i : MovementTimeItems} {q : Plant} (h : movementTimeRanges i = true) :
    takeSetMovementTimes i q = inService (fun r => okay { r with
      part := stallQuiet r.books { r.part with mov := applyMovementTimes i r.part.mov } }) q := by
  simp [takeSetMovementTimes, h]

end

/-- Settles O29: travel, the times, and stalls, each by the entry of its number. -/
theorem movementTimes : Obligations.MovementTimes := by
  refine ⟨⟨fun n s hl => ?_, fun n i s hs => ?_⟩, fun n s hl => ?_⟩
  · have elapsed {p : Part} (e : travelElapsed n s.begun = p) :
        exec (.travelElapsed n) s = .next (s.after s.books p) :=
      (partCommand_live (fun _ p => travelElapsed n p) s hl).trans (congrArg (fun p => Host.Outcome.next (s.after s.books p)) e)
    refine ⟨fun h => elapsed (travelElapsed_gone h), fun m h hp => elapsed (travelElapsed_begun h hp),
      fun m h hp hk => elapsed (travelElapsed_internal h hp hk), fun m x h hp hk hx => ?_⟩
    exact elapsed ((travelElapsed_slug (p := s.begun) h hp hk).trans (setGo_slug hx))
  · intro set
    have applies {p : Part} (h : movementTimeRanges i = true) (e : stallQuiet s.books set = p) :
        exec (.setMovementTimes n i) s = .next (s.answered n 0x0D { status := .ok } p) := by
      refine request_answered hs.1 ((takeSetMovementTimes_applies (q := ⟨s.books, s.begun⟩) h).trans
        ((inService_in _ ⟨s.books, s.begun⟩ hs.2).trans ?_))
      exact congrArg (fun p => okay ⟨s.books, p⟩) e
    refine ⟨movementTimeRanges_iff i, fun h => ?_, fun h => ?_, fun h hd hq => ?_, fun m h he hk hp hq => ?_⟩
    · exact request_told hs.1 ((takeSetMovementTimes_bad (q := ⟨s.books, s.begun⟩) h).trans
        (inService_in _ ⟨s.books, s.begun⟩ hs.2))
    · exact ⟨_, applies h rfl, (reaches_stallQuiet s.books (.refl set)).standing⟩
    · exact applies h (stallQuiet_none (p := set) hd hq)
    · exact applies h (stallQuiet_one (p := set) he hk hp hq)
  · have timed {p : Part} (e : stallTimeout s.books n s.begun = p) :
        exec (.stallTimeout n) s = .next (s.after s.books p) :=
      (partCommand_live (fun b p => stallTimeout b n p) s hl).trans (congrArg (fun p => Host.Outcome.next (s.after s.books p)) e)
    refine ⟨fun h => timed (stallTimeout_gone h), fun m h hm => timed (stallTimeout_spared h hm), fun m h hk hp => ?_⟩
    intro raised
    have number : m.number = n := number_of_findMove h
    subst number
    exact ⟨timed (stallTimeout_stalls h hk hp), fun hm => last_raiseBeforeEnd_depth (p := s.begun) s.books _ m hm⟩

end Sys2Proof.Machine
end

