-- ==== Sys2Proof/Proofs/Quanta.lean ====
section
/-! SUPPORT. The quanta of the meters, their bookings and what is told of them (R9, R19, R25 to R27, R40 to R42, R108,
R145). -/

namespace Sys2Proof.Machine

/-! ## Lots change no movement -/

@[simp] theorem lotNotice_mov (n : Nat) (s : LotState) (r : LotReason) (p : Part) : (lotNotice n s r p).mov = p.mov :=
  notify_mov _ _

@[simp] theorem enterSampling_mov (n : Nat) (r : LotReason) (p : Part) : (enterSampling n r p).mov = p.mov := by
  simp [enterSampling]

@[simp] theorem settleOrSample_mov (n : Nat) (p : Part) : (settleOrSample n p).mov = p.mov := by
  unfold settleOrSample
  split <;> simp

@[simp] theorem sealLot_mov (b : Books) (l : Lot) (r : SealReason) (p : Part) : (sealLot b l r p).mov = p.mov := by
  simp [sealLot]

@[simp] theorem closeLot_mov (l : Lot) (k : EndKind) (p : Part) : (closeLot l k p).mov = p.mov := by
  simp [closeLot, unbindFrames, leaveQueue]

@[simp] theorem dueToSeal_mov (b : Books) (l : Lot) (r : SealReason) (p : Part) : (dueToSeal b l r p).mov = p.mov := by
  unfold dueToSeal
  split
  · rfl
  · split
    · rfl
    · split
      · exact sealLot_mov b l r p
      · split
        · rfl
        · exact closeLot_mov _ _ _
        · rfl

@[simp] theorem sealCheck_mov (b : Books) (n : Nat) (p : Part) : (sealCheck b n p).mov = p.mov := by
  unfold sealCheck
  split
  · rfl
  · split
    · rfl
    · split
      · exact dueToSeal_mov _ _ _ _
      · rfl

@[simp] theorem lotTold_mov (b : Books) (m : Movement) (litres mg : Nat) (p : Part) :
    (lotTold b m litres mg p).mov = p.mov := by
  unfold lotTold
  split
  · rfl
  · split <;> simp

section
variable {b : Books} {m : Movement} {p : Part} {litres mg : Nat}

/-! ## The movement on a meter (R19, R25) -/

theorem meteredBy_iff (meter : Meter) (m : Movement) : m.meteredBy meter = true ↔ match meter with
    | .vesselOutlet v => m.source = .vesselOutlet v ∧ (m.kind = .spill ∨ m.kind = .ret ∨ m.kind = .charge)
    | .cellDrain c => m.source = .cellOutlet c ∧ m.kind = .drain
    | .makeup => m.kind = .fill
    | .outfall => m.kind = .discharge := by
  cases meter <;> simp [Movement.meteredBy, and_comm]

/-! ## What is told of a quantum -/

theorem lotTold_none (h : m.lot = none) : lotTold b m litres mg p = p := by
  rw [lotTold, h]

theorem quantumTold_eq (m : Movement) (litres mg : Nat) (b : Books) (p : Part) :
    quantumTold m litres mg b p = if m.kind = .discharge
      then debitDay litres (lotConc m p) (lotTold b m litres mg (updMove m.number (fun x => { x with
        movedLitres := x.movedLitres + litres, movedMass := x.movedMass + mg, lastProgress := p.gate.clock
        quiet := 0 }) p))
      else lotTold b m litres mg (updMove m.number (fun x => { x with
        movedLitres := x.movedLitres + litres, movedMass := x.movedMass + mg, lastProgress := p.gate.clock
        quiet := 0 }) p) := rfl

theorem standing_debitDay {q : Part} (litres conc : Nat) (h : q.standing = p.standing) :
    (debitDay litres conc q).standing = (debitDay litres conc p).standing :=
  congrArg (debitDay litres conc) h

theorem standing_quantumTold (m : Movement) (litres mg : Nat) (b : Books) (p : Part) :
    (quantumTold m litres mg b p).standing =
      (if m.kind = .discharge then debitDay litres (lotConc m p) p else p).standing := by
  have lot := (settles_lotTold b m litres mg (settles_updMove m.number (fun x => { x with
    movedLitres := x.movedLitres + litres, movedMass := x.movedMass + mg, lastProgress := p.gate.clock
    quiet := 0 }) (fun _ => ⟨rfl, rfl, rfl, rfl⟩) (.refl p))).standing
  rw [quantumTold_eq]
  split
  · exact standing_debitDay _ _ lot
  · exact lot

theorem findMove_quantumTold (h : findMove m.number p = some m) : findMove m.number (quantumTold m litres mg b p) =
    some { m with
      movedLitres := m.movedLitres + litres, movedMass := m.movedMass + mg, lastProgress := p.gate.clock
      quiet := 0 } := by
  have moved := findMove_updMove m.number (fun x => { x with
    movedLitres := x.movedLitres + litres, movedMass := x.movedMass + mg, lastProgress := p.gate.clock
    quiet := 0 }) p (fun _ => rfl)
  rw [h] at moved
  refine (findMove_congr ?_).trans moved
  rw [quantumTold_eq]
  split
  · exact lotTold_mov _ _ _ _ _
  · exact lotTold_mov _ _ _ _ _

/-! ## The booking of a quantum -/

theorem bookedQuantum_eq (m : Movement) (k : Booking) (q : Plant) : bookedQuantum m k q =
    ⟨q.books.book k, if m.kind = .discharge
      then afterIncrement (q.books.book k) m.number (afterBooking q.books (q.books.book k) k.vessels (some m.number) none
        (quantumTold m (k.moves q.books).1 (k.moves q.books).2 (q.books.book k) q.part))
      else afterBooking q.books (q.books.book k) k.vessels (some m.number) none
        (quantumTold m (k.moves q.books).1 (k.moves q.books).2 (q.books.book k) q.part)⟩ := by
  unfold bookedQuantum
  dsimp only
  split <;> rfl

theorem standing_bookedQuantum (m : Movement) (k : Booking) (q : Plant) : (bookedQuantum m k q).part.standing =
    (if m.kind = .discharge then debitDay (k.moves q.books).1 (lotConc m q.part) q.part else q.part).standing := by
  have told := standing_quantumTold m (k.moves q.books).1 (k.moves q.books).2 (q.books.book k) q.part
  rw [bookedQuantum_eq]
  refine Eq.trans ?_ told
  generalize quantumTold m (k.moves q.books).1 (k.moves q.books).2 (q.books.book k) q.part = r
  have booked := reaches_afterBooking q.books (q.books.book k) k.vessels (some m.number) none (.refl r)
  dsimp only
  split
  · exact (reaches_afterIncrement _ _ booked).standing
  · exact booked.standing

theorem meterQuantum_stray {meter : Meter} {q : Plant} (hm : q.part.ctl.mode.inService = true)
    (h : meteredMove meter q.part = none) : meterQuantum meter q = { q with part := strayQuantum meter q.part } := by
  simp [meterQuantum, hm, h]

theorem meterQuantum_books {meter : Meter} {q : Plant} {k : Booking} (hm : q.part.ctl.mode.inService = true)
    (h : meteredMove meter q.part = some m)
    (hk : quantumBooking m (roleVessel .reuse q.part) (min 10 (m.requested - m.movedLitres)) = some k) :
    meterQuantum meter q = bookedQuantum m k q := by
  simp [meterQuantum, hm, h, hk]

/-! ## The seal check (R42) -/

variable {n : Nat} {l : Lot}

theorem inflowInFlight_iff (p : Part) (v : VesselId) :
    inflowInFlight p v = true ↔ ∃ m ∈ p.mov.entries, m.dest = .vesselInlet v := by
  simp [inflowInFlight]

theorem sealCheck_due {k : Nat} (h : findLot n p = some l) (hs : l.state = .filling)
    (hk : (vesselRec p l.vessel).sealVolume = some k) (hv : k ≤ (b.vessel l.vessel).volume) :
    sealCheck b n p = dueToSeal b l .sealVolume p := by
  rw [sealCheck, h]
  dsimp only
  rw [hk]
  exact if_pos ⟨hs, hv⟩

theorem dueToSeal_pending {r : SealReason} (h : l.sealPending.isSome = true) : dueToSeal b l r p = p := if_pos h

theorem dueToSeal_inflow {r : SealReason} (h : l.sealPending = none)
    (hm : ∃ m ∈ p.mov.entries, m.dest = .vesselInlet l.vessel) :
    dueToSeal b l r p = updLot l.number (fun x => { x with sealPending := some r, timer := none }) p :=
  (if_neg (by simp [h])).trans (if_pos ((inflowInFlight_iff _ _).mpr hm))

theorem dueToSeal_seals {r : SealReason} (h : l.sealPending = none)
    (hm : ∀ m ∈ p.mov.entries, m.dest ≠ .vesselInlet l.vessel) (hv : 0 < (b.vessel l.vessel).volume) :
    dueToSeal b l r p = sealLot b l r p :=
  ((if_neg (by simp [h])).trans (if_neg ((not_congr (inflowInFlight_iff _ _)).mpr (by simpa using hm)))).trans (if_pos hv)

theorem sealCheck_spares (h : findLot n p = some l) (hl : l.state ≠ .filling ∨ l.sealPending.isSome = true ∨
    ∀ k, (vesselRec p l.vessel).sealVolume = some k → (b.vessel l.vessel).volume < k) : sealCheck b n p = p := by
  rw [sealCheck, h]
  dsimp only
  split
  · rfl
  · next k hk =>
    split
    · next due =>
      rcases hl with hl | hl | hl
      · exact absurd due.1 hl
      · exact dueToSeal_pending hl
      · exact absurd due.2 (Nat.not_le.mpr (hl k hk))
    · rfl

/-! ## The overflow rule (R9) -/

variable {v : VesselId} {was now : Nat} {spare : Option Nat}

theorem overflowRule_uncapped (h : (vesselRec p v).capacity = none) : overflowRule b v was now spare p = p := by
  rw [overflowRule, h]

theorem overflowRule_capped {k : Nat} (h : (vesselRec p v).capacity = some k) : overflowRule b v was now spare p =
    if hasFrame .vesselOverflow (.vessel v) p then
      if now ≤ k then reportOn .vesselOverflow (.vessel v) .cleared p
      else if was ≤ k then reportOn .vesselOverflow (.vessel v) .present p else p
    else if was ≤ k ∧ k < now then raise b { ftype := .vesselOverflow, subject := .vessel v
                                             interrupted := moveAt p (.vesselInlet v), spare := spare } p
    else p := by
  rw [overflowRule, h]

/-! ## Draws (R108) -/

theorem drawQuantum_books {q : Plant} (hm : q.part.ctl.mode.inService = true) (h : roleVessel .reuse q.part = some v)
    (hv : 0 < (q.books.vessel v).volume) : drawQuantum q =
      ⟨q.books.book (.draw v 10), afterBooking q.books (q.books.book (.draw v 10)) [v] none none q.part⟩ := by
  simp only [drawQuantum, hm, h, Nat.pos_iff_ne_zero.mp hv, bookAndTell, Booking.vessels, Bool.not_true,
    Bool.false_eq_true, if_false]

theorem drawQuantum_stray {q : Plant} (hm : q.part.ctl.mode.inService = true)
    (h : roleVessel .reuse q.part = none ∨ ∃ v, roleVessel .reuse q.part = some v ∧ (q.books.vessel v).volume = 0) :
    drawQuantum q = { q with part := strayDraw q.part } := by
  rcases h with h | ⟨v, h, hv⟩
  · simp [drawQuantum, hm, h]
  · simp [drawQuantum, hm, h, hv]

end

/-- Settles O30: the movement on the meter, its booking, and what follows, function by function. -/
theorem meterQuantaAreBookedOrStray : Obligations.MeterQuantaAreBookedOrStray := by
  refine ⟨fun meter s ⟨hl, hm⟩ => ⟨?_, fun h => ?_, fun m k h hk => ?_⟩, fun m k q => bookedQuantum_eq m k q,
    fun m litres mg b p => rfl, fun b m litres mg p => ⟨lotTold_none, fun n hn => ?_⟩,
    fun b n p l h => ⟨fun k hs hk hv hp => ⟨fun hi => ?_, fun hi hpos => ?_⟩, sealCheck_spares h⟩,
    fun old new vs mv spare p => rfl, fun b v was now spare p => ⟨overflowRule_uncapped, fun k hk => ?_⟩,
    fun m r w => ?_, fun m litres mg b p => findMove_quantumTold, fun s ⟨hl, hm⟩ => ⟨fun v h hv => ?_, fun h => ?_⟩⟩
  · intro metered
    have iff (m : Movement) :
        (m.meteredBy meter && decide (m.phase = .opening ∨ m.phase = .running)) = true ↔ metered m := by
      refine (Bool.and_eq_true_iff.trans (and_congr (meteredBy_iff meter m) decide_eq_true_iff)).trans (and_comm.trans ?_)
      cases meter <;> exact Iff.rfl
    refine ⟨?_, fun m h => ?_⟩
    rotate_left
    · rw [meteredMove] at h
      have passed := List.find?_some h
      exact ⟨List.mem_of_find?_eq_some h, (iff m).mp passed⟩
    rw [meteredMove, List.find?_eq_none]
    exact forall₂_congr fun m _ => not_congr (iff m)
  · refine command_after hl ((meterQuantum_stray (q := ⟨s.books, s.begun⟩) hm h).trans ?_)
    cases meter <;> rfl
  · intro q
    have booked := meterQuantum_books (q := ⟨s.books, s.begun⟩) hm h hk
    refine ⟨command_after hl (booked.trans ?_), standing_bookedQuantum m k ⟨s.books, s.begun⟩⟩
    have books : q.books = s.books.book k := congrArg Plant.books (bookedQuantum_eq m k ⟨s.books, s.begun⟩)
    rw [← books]
  · intro gains
    refine ⟨fun v hk hs => ?_, fun c hk hs => ?_, fun hk => ?_, fun hk => ?_⟩ <;> simp only [lotTold, hn, hk]
    · rw [hs]
    · rw [hs]
  · exact (sealCheck_due h hs hk hv).trans (dueToSeal_inflow hp hi)
  · exact (sealCheck_due h hs hk hv).trans (dueToSeal_seals hp hi hpos)
  · intro frame
    rw [overflowRule_capped hk]
    refine ⟨fun hf hn => ?_, fun hf hw hn => ?_, fun hf hw hn => ?_, fun hw hn => ?_, fun hf hn => ?_⟩
    · rw [if_pos hf, if_pos hn]
    · rw [if_pos hf, if_neg (Nat.not_le.mpr hn), if_pos hw]
    · rw [if_neg (by simp [frame] at hf; simp [hf]), if_pos ⟨hw, hn⟩]
    · have below : ¬ (was ≤ k ∧ k < now) := fun ⟨h, _⟩ => absurd h (Nat.not_le.mpr hw)
      rw [if_neg (Nat.not_le.mpr hn), if_neg (Nat.not_le.mpr hw), if_neg below, ite_self]
    · rw [if_neg (by simp [frame] at hf; simp [hf]), if_neg fun ⟨_, h⟩ => absurd h (Nat.not_lt.mpr hn)]
  · refine ⟨fun a b hk hs hd => ?_, fun a c hk hs hd => ?_, fun c b hk hs hd => ?_, fun a hk hs => ?_,
      fun b hk hr => ?_⟩
    · rcases hk with hk | hk <;> simp only [quantumBooking, hk, hs, hd]
    · simp only [quantumBooking, hk, hs, hd]
    · simp only [quantumBooking, hk, hs, hd]
    · simp only [quantumBooking, hk, hs]
    · simp only [quantumBooking, hk, hr]
  · exact ⟨_, command_after hl (drawQuantum_books (q := ⟨s.books, s.begun⟩) hm h hv),
      (reaches_afterBooking _ _ _ _ _ (.refl s.begun)).standing⟩
  · exact command_after hl (drawQuantum_stray (q := ⟨s.books, s.begun⟩) hm h)

end Sys2Proof.Machine
end

