-- ==== Sys2Proof/Proofs/Lots.lean ====
section
/-! SUPPORT. How lots open, take contributions, clear, are rejected and close (R36 to R41, R48, R49, R51, R52). -/

namespace Sys2Proof.Machine

/-! ## The discharge queue (R49, R142) -/

/-- A lot is placed behind those whose clearance numbers are no greater. -/
theorem insertByClearance_split (x : Nat × Nat) (q : List (Nat × Nat)) : ∃ before after,
    insertByClearance x q = before ++ x :: after ∧ before ++ after = q ∧ (∀ y ∈ before, y.2 ≤ x.2) ∧
      ∀ y, after.head? = some y → x.2 < y.2 := by
  induction q with
  | nil => exact ⟨[], [], rfl, rfl, by simp, by simp⟩
  | cons y q ih =>
    unfold insertByClearance
    split
    · next lt => exact ⟨[], y :: q, rfl, rfl, by simp, fun z hz => Option.some.inj hz ▸ lt⟩
    · next le =>
      obtain ⟨before, after, whole, parts, low, high⟩ := ih
      refine ⟨y :: before, after, by rw [whole]; rfl, by rw [← parts]; rfl, fun z hz => ?_, high⟩
      rcases List.mem_cons.mp hz with rfl | hz
      · exact Nat.not_lt.mp le
      · exact low z hz

theorem mem_insertByClearance_iff (x z : Nat × Nat) (q : List (Nat × Nat)) :
    z ∈ insertByClearance x q ↔ z = x ∨ z ∈ q := by
  obtain ⟨before, after, whole, rfl, -, -⟩ := insertByClearance_split x q
  rw [whole]
  simp only [List.mem_append, List.mem_cons]
  constructor
  · rintro (low | rfl | high)
    · exact .inr (.inl low)
    · exact .inl rfl
    · exact .inr (.inr high)
  · rintro (rfl | low | high)
    · exact .inr (.inl rfl)
    · exact .inl low
    · exact .inr (.inr high)

/-- The queue stays in the order of the clearance numbers. -/
theorem insertByClearance_sorted (x : Nat × Nat) {q : List (Nat × Nat)} (h : q.Pairwise (fun a b => a.2 ≤ b.2)) :
    (insertByClearance x q).Pairwise (fun a b => a.2 ≤ b.2) := by
  induction q with
  | nil => exact List.pairwise_singleton _ _
  | cons y q ih =>
    obtain ⟨first, rest⟩ := List.pairwise_cons.mp h
    unfold insertByClearance
    split
    · next lt =>
      refine List.pairwise_cons.mpr ⟨fun z hz => ?_, h⟩
      rcases List.mem_cons.mp hz with rfl | hz
      · exact Nat.le_of_lt lt
      · exact Nat.le_trans (Nat.le_of_lt lt) (first z hz)
    · next le =>
      refine List.pairwise_cons.mpr ⟨fun z hz => ?_, ih rest⟩
      rcases (mem_insertByClearance_iff x z q).mp hz with rfl | hz
      · exact Nat.not_lt.mp le
      · exact first z hz

section
variable {n : Nat} {l : Lot} {p : Part} {r : LotReason}

theorem joinQueue_lot (n : Nat) (p : Part) : (joinQueue n p).lot = p.lot := by
  unfold joinQueue
  split
  · rfl
  · split <;> rfl

/-! ## Clearing and rejecting (R37, R48, R51) -/

theorem clearLot_lot_first (h : findLot n p = some l) (hc : l.clearanceNo = none) :
    (clearLot n r p).lot = { p.lot with
      nextClearance := p.lot.nextClearance + 1
      lots := p.lot.lots.map (fun x => if x.number = n then { x with
        state := .cleared, timer := none, bindingFrame := none, clearanceNo := some p.lot.nextClearance
        cleared := some p.gate.clock } else x) } := by
  simp only [clearLot, h, hc, joinQueue_lot, lotNotice_lot]
  rfl

theorem clearLot_lot_again (h : findLot n p = some l) (hc : l.clearanceNo ≠ none) :
    (clearLot n r p).lot = { p.lot with
      lots := p.lot.lots.map (fun x => if x.number = n then { x with
        state := .cleared, timer := none, bindingFrame := none } else x) } := by
  obtain ⟨k, hk⟩ := Option.ne_none_iff_exists'.mp hc
  simp only [clearLot, h, hk, joinQueue_lot, lotNotice_lot]
  rfl

theorem clearLot_queue_held (h : findLot n p = some l) (held : l.held = true) :
    (clearLot n r p).gate.queue = p.gate.queue := by
  obtain ⟨lot, link, e⟩ := clearLot_held h held r
  rw [e]

theorem clearLot_queue_free (h : findLot n p = some l) (held : l.held = false) :
    (clearLot n r p).gate.queue = insertByClearance (n, l.clearanceNo.getD p.lot.nextClearance)
      (p.gate.queue.filter (fun x => decide (x.1 ≠ n))) := by
  obtain ⟨q, x, joined, same, found, cleared, heldx, number⟩ := clearLot_joins h r
  have gate := joinQueue_free found cleared (heldx.trans held)
  have begun : q.gate = p.gate := by rw [same]
  rw [joined, gate, number, leaveQueue, begun]
  rfl

theorem rejectLot_queue (h : findLot n p = some l) (why : Option RejectReason) :
    (rejectLot n why r p).gate.queue = p.gate.queue.filter (fun x => decide (x.1 ≠ n)) := by
  cases hr : l.rejectionNo <;> simp [rejectLot, h, hr, leaveQueue, lotNotice]

theorem rejectLot_lot_first (h : findLot n p = some l) (why : Option RejectReason) (hr : l.rejectionNo = none) :
    (rejectLot n why r p).lot = { p.lot with
      nextRejection := p.lot.nextRejection + 1
      lots := p.lot.lots.map (fun x => if x.number = n then { x with
        state := .rejected, timer := none, bindingFrame := none, rejectReason := why
        rejectionNo := some p.lot.nextRejection } else x) } := by
  simp only [rejectLot, h, hr, leaveQueue, lotNotice_lot]
  rfl

theorem rejectLot_lot_again (h : findLot n p = some l) (why : Option RejectReason) (hr : l.rejectionNo ≠ none) :
    (rejectLot n why r p).lot = { p.lot with
      lots := p.lot.lots.map (fun x => if x.number = n then { x with
        state := .rejected, timer := none, bindingFrame := none } else x) } := by
  obtain ⟨k, hk⟩ := Option.ne_none_iff_exists'.mp hr
  simp only [rejectLot, h, hk, leaveQueue, lotNotice_lot]
  rfl

/-! ## Naming and opening (R38) -/

/-- A vessel in which a lot can open. -/
def opensLot (p : Part) (v : VesselId) : Prop :=
  (vesselRec p v).role = .hold ∧ lotOf v p = none ∧ (vesselRec p v).inlet = .opened

theorem opensLot_iff (p : Part) (v : VesselId) : (decide ((vesselRec p v).role = .hold) && (lotOf v p).isNone &&
    decide ((vesselRec p v).inlet = .opened)) = true ↔ opensLot p v := by
  simp [opensLot, and_assoc]

theorem mem_allVessels (v : VesselId) : v ∈ allVessels := by revert v; decide

theorem newLotVessel_none (h : ∀ v, ¬ opensLot p v) : newLotVessel p = none :=
  List.find?_eq_none.mpr fun v _ => (not_congr (opensLot_iff p v)).mpr (h v)

/-- A lot opens in the lowest vessel that can take one. -/
theorem newLotVessel_some {v : VesselId} (hv : opensLot p v) (low : ∀ w, opensLot p w → v ≤ w) :
    newLotVessel p = some v := by
  match found : newLotVessel p with
  | none => exact absurd ((opensLot_iff p v).mpr hv) (List.find?_eq_none.mp found v (mem_allVessels v))
  | some w =>
    have sorted : allVessels.Pairwise (· < ·) := by decide
    rw [newLotVessel] at found
    have opens := List.find?_some found
    have below := le_of_find_sorted sorted found v (mem_allVessels v) ((opensLot_iff p v).mpr hv)
    exact congrArg some (Fin.le_antisymm below (low w ((opensLot_iff p w).mp opens)))

theorem askFilling_new {want : Nat} (h : fillingLot p = none) {v : VesselId} (hv : newLotVessel p = some v) :
    askFilling want p = if capacityOf p v < want then (p, .noSpace)
      else (lotNotice (addLot v .filling (fun l => { l with timer := fillAgeStart p }) p).2 .filling .opened
        (addLot v .filling (fun l => { l with timer := fillAgeStart p }) p).1,
        .named (addLot v .filling (fun l => { l with timer := fillAgeStart p }) p).2 v) := by
  simp only [askFilling, h, hv]

end

/-! ## Contributions (R40) -/

section
variable {src : ContribSource} {litres mg : Nat} {l : List Contribution}

theorem contribute_nothing (hl : litres = 0) (hm : mg = 0) : contribute src litres mg l = l := if_pos ⟨hl, hm⟩

/-- The entries of a source, grown. -/
def grownBy (x : ContribSource) (litres mg : Nat) (l : List Contribution) : List Contribution :=
  l.map (fun c => if c.source = x then ⟨x, c.litres + litres, c.mg + mg⟩ else c)

theorem map_grow (x : ContribSource) (litres mg : Nat) (l : List Contribution) :
    l.map (fun c => if c.source = x then c.grow litres mg else c) = grownBy x litres mg l := by
  refine List.map_congr_left fun c _ => ?_
  split
  · next e => rw [← e]; rfl
  · rfl

theorem contribute_eq (h : 0 < litres ∨ 0 < mg) : contribute src litres mg l =
    if l.any (fun c => decide (c.source = src)) then grownBy src litres mg l
    else if (l.filter (fun c => decide (c.source ≠ .other))).length < 15 then l ++ [⟨src, litres, mg⟩]
    else if l.any (fun c => decide (c.source = .other)) then grownBy .other litres mg l
    else l ++ [⟨.other, litres, mg⟩] := by
  rw [contribute, if_neg (by omega), map_grow, map_grow]

theorem any_source (src : ContribSource) (l : List Contribution) :
    l.any (fun c => decide (c.source = src)) = true ↔ ∃ c ∈ l, c.source = src := by simp

end

/-! ## Closing (R52) -/

theorem closeEmptied_kept {b : Books} {v : VesselId} {l : Lot} {p : Part} (h : lotOf v p = some l)
    (hl : l.state = .filling ∨ 0 < (b.vessel v).volume) : closeEmptied b v p = p := by
  rw [closeEmptied, h]
  exact if_neg fun ⟨hs, hv⟩ => hl.elim hs (by omega)

theorem closeEmptied_closes {b : Books} {v : VesselId} {l : Lot} {p : Part} (h : lotOf v p = some l)
    (hs : l.state ≠ .filling) (hv : (b.vessel v).volume = 0) :
    closeEmptied b v p = reexamineNeeds b (closeLot l (endKindOf l) p) := by
  rw [closeEmptied, h]
  exact if_pos ⟨hs, hv⟩

/-- Settles O31: function by function, from the lot's figures. -/
theorem lotsClearAndAreRejected : Obligations.LotsClearAndAreRejected := by
  refine ⟨fun n l p h => ⟨fun why r => ⟨rejectLot_queue h why, rejectLot_lot_first h why, rejectLot_lot_again h why⟩,
      fun r => ⟨clearLot_lot_first h, clearLot_lot_again h, clearLot_queue_held h, fun held => ?_⟩⟩,
    fun want p => ?_, fun src litres mg l => ⟨contribute_nothing, fun h => ⟨fun there => ?_, fun new room => ?_,
      fun new full => ⟨fun there => ?_, fun none => ?_⟩⟩⟩,
    fun b v l p h => ⟨closeEmptied_kept h, closeEmptied_closes h, fun hd hr => ?_, fun hd hr => ?_, fun hd hr => ?_,
      fun hd hr => ?_⟩,
    fun l kind p => rfl⟩
  · intro k others
    have queue := clearLot_queue_free (r := r) h held
    refine ⟨?_, fun sorted => ?_⟩
    · obtain ⟨before, after, whole, parts, low, high⟩ := insertByClearance_split (n, k) others
      exact ⟨before, after, queue.trans whole, parts, low, high⟩
    · rw [queue]
      exact insertByClearance_sorted (n, k) sorted
  · intro opens n
    refine ⟨fun l h hp => ?_, fun l h hp => ?_, fun h none => ?_, fun v h hv low => ⟨fun small => ?_, fun fits => ?_⟩⟩
    · rw [askFilling, h]
      exact if_pos hp
    · rw [askFilling, h]
      exact if_neg (by simp [hp])
    · simp only [askFilling, h, newLotVessel_none none]
    · exact (askFilling_new h (newLotVessel_some hv low)).trans (if_pos small)
    · exact (askFilling_new h (newLotVessel_some hv low)).trans (if_neg (Nat.not_lt.mpr fits))
  · rw [contribute_eq h, if_pos ((any_source src l).mpr there)]
    rfl
  · rw [contribute_eq h, if_neg ((not_congr (any_source src l)).mpr (by simpa using new)), if_pos room]
  · rw [contribute_eq h, if_neg ((not_congr (any_source src l)).mpr (by simpa using new)), if_neg (Nat.not_lt.mpr full),
      if_pos ((any_source .other l).mpr there)]
    rfl
  · rw [contribute_eq h, if_neg ((not_congr (any_source src l)).mpr (by simpa using new)), if_neg (Nat.not_lt.mpr full),
      if_neg ((not_congr (any_source .other l)).mpr (by simpa using none))]
  · simp [endKindOf, hd, hr]
  · simp [endKindOf, hd, hr]
  · simp [endKindOf, hd, hr]
  · simp [endKindOf, hd, hr]

end Sys2Proof.Machine
end

