-- ==== Sys2Proof/Proofs/LotServices.lean ====
section
/-! SUPPORT. The requests that name a lot, the lot timers, and the verdict (R42 to R48, R54 to R56). -/

namespace Sys2Proof.Machine

/-! ## Requests that name a lot (3.11) -/

section
variable {n kind : Byte} {k : Nat} {s : State} {l : Lot} {p : Part} {r : Reply} {take : Lot → Plant → Plant × Reply}

theorem number_of_findLot {q : Part} (h : findLot k q = some l) : l.number = k := by
  simpa using List.find?_some h

theorem request_noLot (h : s.serves) (hl : findLot k s.part = none) :
    command (request n kind (onLot k take)) s = .next (s.told n kind { status := .noSuch }) := by
  refine request_told h.1 ((inService_in _ ⟨s.books, s.begun⟩ h.2).trans ?_)
  rw [show findLot k s.begun = none from hl]
  rfl

theorem request_onLot (h : s.serves) (hl : findLot k s.part = some l)
    (e : take l ⟨s.books, s.begun⟩ = (⟨s.books, p⟩, r)) :
    command (request n kind (onLot k take)) s = .next (s.answered n kind r p) := by
  refine request_answered h.1 ((inService_in _ ⟨s.books, s.begun⟩ h.2).trans ?_)
  rw [show findLot k s.begun = some l from hl]
  exact e

end

section
variable {b : Books} {k : Nat} {l : Lot} {p : Part} {q : Plant}

/-! ## HOLD LOT, RELEASE LOT, REJECT LOT (R54, R55) -/

theorem holdLotOf_refused (h : l.state = .filling ∨ l.state = .discharging ∨ l.state = .returning) :
    holdLotOf l q = refuse .wrongState q := by
  rcases h with h | h | h <;> rw [holdLotOf, h]

theorem holdLotOf_holds (hf : l.state ≠ .filling) (hd : l.state ≠ .discharging) (hr : l.state ≠ .returning) :
    holdLotOf l q =
      okay { q with part := leaveQueue l.number (updLot l.number (fun x => { x with held := true }) q.part) } := by
  unfold holdLotOf
  split
  · exact absurd ‹_› hf
  · exact absurd ‹_› hd
  · exact absurd ‹_› hr
  all_goals rfl

theorem releaseLotOf_free (h : l.held = false) : releaseLotOf l q = okay q := if_neg (by simp [h])

theorem releaseLotOf_held (h : l.held = true) :
    releaseLotOf l q = okay { q with part := unhold q.books l q.part } := if_pos h

theorem unhold_cleared (h : l.state = .cleared) : unhold b l p = reexamineNeeds b (selectLot b
    (joinQueue l.number (updLot l.number (fun x => { x with held := false }) p))) := by
  simp only [unhold, h, if_true]

/-- A lot that is not CLEARED does not join the queue. -/
theorem joinQueue_other (h : findLot k p = some l) (hs : l.state ≠ .cleared) : joinQueue k p = p := by
  rw [joinQueue, h]
  exact if_neg fun ⟨cleared, _⟩ => hs cleared

theorem unhold_other (h : findLot k p = some l) (hs : l.state ≠ .cleared) :
    unhold b l p = reexamineNeeds b (updLot k (fun x => { x with held := false }) p) := by
  obtain rfl := number_of_findLot h
  have found : findLot l.number (updLot l.number (fun x => { x with held := false }) p) =
      some { l with held := false } := by
    rw [findLot_updLot l.number (fun x => { x with held := false }) p (fun _ => rfl), h]
    rfl
  simp only [unhold, hs, if_false, joinQueue_other found hs]

theorem rejectLotOf_rejects
    (h : l.state = .settling ∨ l.state = .sampling ∨ l.state = .awaitingVerdict ∨ l.state = .cleared) :
    rejectLotOf l q =
      okay { q with part := reexamineNeeds q.books (rejectLot l.number (some .host) .host q.part) } := by
  rcases h with h | h | h | h <;> rw [rejectLotOf, h]

theorem rejectLotOf_cuts (h : l.state = .discharging) :
    rejectLotOf l q = okay { q with part := cutDischarge q.books .reject q.part } := by
  rw [rejectLotOf, h]

theorem rejectLotOf_refused
    (h : l.state = .filling ∨ l.state = .suspended ∨ l.state = .rejected ∨ l.state = .returning) :
    rejectLotOf l q = refuse .wrongState q := by
  rcases h with h | h | h | h <;> rw [rejectLotOf, h]

/-- Settles O32: by the lot of the number and its state. -/
theorem lotRequests : Obligations.LotRequests := by
  refine fun n k s hs => ⟨fun h => ⟨request_noLot hs h, request_noLot hs h, request_noLot hs h, request_noLot hs h⟩,
    fun l h => ?_⟩
  have number : l.number = k := number_of_findLot h
  refine ⟨fun hw => request_onLot hs h (holdLotOf_refused hw), fun hf hd hr => ?_, fun hh => ?_, fun hh hc => ?_,
    fun hh hc => ?_, fun hr => ?_, fun hd => request_onLot hs h (rejectLotOf_cuts hd),
    fun hw => request_onLot hs h (rejectLotOf_refused hw)⟩
  · exact request_onLot hs h (number ▸ holdLotOf_holds hf hd hr)
  · exact request_onLot hs h (releaseLotOf_free hh)
  · refine request_onLot hs h ((releaseLotOf_held hh).trans (congrArg (fun p => okay ⟨s.books, p⟩) ?_))
    exact number ▸ unhold_cleared hc
  · refine request_onLot hs h ((releaseLotOf_held hh).trans (congrArg (fun p => okay ⟨s.books, p⟩) ?_))
    exact unhold_other (p := s.begun) h hc
  · exact request_onLot hs h (number ▸ rejectLotOf_rejects hr)

/-! ## Sealing (R42, R43, R56) -/

theorem sealLotOf_refused (h : l.state ≠ .filling) : sealLotOf l q = refuse .wrongState q := if_pos h

/-- SEAL LOT on a FILLING lot is the seal itself, with its status and, where the lot has closed, the needs told. -/
theorem sealLotOf_filling (h : l.state = .filling) : sealLotOf l q =
    (⟨q.books, if (findLot l.number (dueToSeal q.books l .host q.part)).isNone
        then reexamineNeeds q.books (dueToSeal q.books l .host q.part) else dueToSeal q.books l .host q.part⟩,
      { status := if l.sealPending.isSome || inflowInFlight q.part l.vessel then .started else .ok }) :=
  if_neg (Classical.not_not.mpr h)

/-- A lot stays in the table through an update that keeps numbers. -/
theorem findLot_updLot_isSome {f : Lot → Lot} (hf : ∀ x, (f x).number = x.number) (h : (findLot k p).isSome = true) :
    (findLot k (updLot k f p)).isSome = true := by
  rw [findLot_updLot k f p hf, Option.isSome_map]
  exact h

theorem findLot_sealLot (r : SealReason) (h : findLot l.number p = some l) :
    (findLot l.number (sealLot b l r p)).isSome = true := by
  have settling : (findLot l.number (lotNotice l.number .settling r.toLot (updLot l.number (fun x =>
      { x with state := .settling, sealed := some p.gate.clock, volumeAtSeal := some (b.vessel l.vessel).volume
               massAtSeal := some (b.vessel l.vessel).mass, sealPending := none
               timer := some p.lot.times.settle }) p))).isSome = true := by
    rw [lotNotice, findLot_notify]
    exact findLot_updLot_isSome (fun _ => rfl) (by rw [h]; rfl)
  dsimp only [sealLot, settleOrSample]
  split
  · rw [enterSampling, lotNotice, findLot_notify]
    exact findLot_updLot_isSome (fun _ => rfl) settling
  · exact settling

theorem findLot_closeLot (kind : EndKind) : findLot l.number (closeLot l kind p) = none := by
  rw [closeLot, findLot_notify]
  exact List.find?_eq_none.mpr fun x hx => by simpa using (List.mem_filter.mp hx).2

theorem dueToSeal_still {r : SealReason} (h : l.sealPending = none) (hi : inflowInFlight p l.vessel = false)
    (hv : 0 < (b.vessel l.vessel).volume) : dueToSeal b l r p = sealLot b l r p :=
  ((if_neg (by simp [h])).trans (if_neg (by simp [hi]))).trans (if_pos hv)

theorem dueToSeal_flight {r : SealReason} (h : l.sealPending = none) (hi : inflowInFlight p l.vessel = true) :
    dueToSeal b l r p = updLot l.number (fun x => { x with sealPending := some r, timer := none }) p :=
  (if_neg (by simp [h])).trans (if_pos hi)

theorem dueToSeal_empty_host (h : l.sealPending = none) (hi : inflowInFlight p l.vessel = false)
    (hv : (b.vessel l.vessel).volume = 0) : dueToSeal b l .host p = closeLot l .emptied p :=
  ((if_neg (by simp [h])).trans (if_neg (by simp [hi]))).trans (if_neg (by omega))

theorem dueToSeal_empty_fillAge (h : l.sealPending = none) (hi : inflowInFlight p l.vessel = false)
    (hv : (b.vessel l.vessel).volume = 0) :
    dueToSeal b l .fillAge p = updLot l.number (fun x => { x with timer := fillAgeStart p }) p :=
  ((if_neg (by simp [h])).trans (if_neg (by simp [hi]))).trans (if_neg (by omega))

/-- Where the lot is still open the seal is all that SEAL LOT does. -/
theorem sealLotOf_open {st : Status} {part : Part} (h : l.state = .filling)
    (hf : (if l.sealPending.isSome || inflowInFlight q.part l.vessel then Status.started else .ok) = st)
    (hd : dueToSeal q.books l .host q.part = part) (hp : (findLot l.number part).isSome = true) :
    sealLotOf l q = (⟨q.books, part⟩, { status := st }) := by
  have still : ¬ (findLot l.number part).isNone = true := by
    rw [Option.isNone_iff_eq_none]
    exact Option.isSome_iff_ne_none.mp hp
  rw [sealLotOf_filling h, hd, hf, if_neg still]

theorem sealLotOf_closed {st : Status} {part : Part} (h : l.state = .filling)
    (hf : (if l.sealPending.isSome || inflowInFlight q.part l.vessel then Status.started else .ok) = st)
    (hd : dueToSeal q.books l .host q.part = part) (hp : findLot l.number part = none) :
    sealLotOf l q = (⟨q.books, reexamineNeeds q.books part⟩, { status := st }) := by
  rw [sealLotOf_filling h, hd, hf, if_pos (by rw [hp]; rfl)]

/-! ## The timers (R39, R42, R44 to R46, R58) -/

theorem expiring_none {st : LotState} (h : findLot k p = some l)
    (hl : l.state ≠ st ∨ l.timer = none ∨ p.ctl.mode.running = false) : expiring k st p = none := by
  rw [expiring, h]
  refine if_neg fun ⟨hs, ht, hm⟩ => ?_
  rcases hl with hl | hl | hl
  · exact hl hs
  · simp [hl] at ht
  · simp [hl] at hm

theorem expiring_some {st : LotState} (h : findLot k p = some l) (hs : l.state = st) (ht : l.timer.isSome = true)
    (hm : p.ctl.mode.running = true) : expiring k st p = some l := by
  rw [expiring, h]
  exact if_pos ⟨hs, ht, hm⟩

/-- With a settle time a sealed lot settles. -/
theorem sealLot_lots (b : Books) (l : Lot) (r : SealReason) (p : Part) (h : 0 < p.lot.times.settle) :
    (sealLot b l r p).lot.lots = p.lot.lots.map (fun x => if x.number = l.number then { x with
      state := .settling, sealed := some p.gate.clock, volumeAtSeal := some (b.vessel l.vessel).volume
      massAtSeal := some (b.vessel l.vessel).mass, sealPending := none, timer := some p.lot.times.settle } else x) := by
  dsimp only [sealLot, settleOrSample]
  rw [lotNotice_lot]
  split
  · next none => exact absurd (show p.lot.times.settle = 0 from none) (by omega)
  · rw [lotNotice_lot]
    rfl

/-- Settles O33: by the inflow in flight and the water that the lot holds. -/
theorem lotsSeal : Obligations.LotsSeal := by
  refine ⟨fun n k l s hs h => ?_, fun k l s hl h => ?_, sealLot_lots⟩
  · obtain rfl : l.number = k := number_of_findLot h
    have found : (findLot l.number s.begun).isSome = true := by
      rw [show findLot l.number s.begun = some l from h]
      rfl
    refine ⟨fun hf => request_onLot hs h (sealLotOf_refused hf), fun hf hp => ?_, fun hf hp hi => ?_,
      fun hf hp hi hv => ?_, fun hf hp hi hv => ?_⟩
    · exact request_onLot hs h (sealLotOf_open (q := ⟨s.books, s.begun⟩) hf (by simp [hp]) (dueToSeal_pending hp) found)
    · refine request_onLot hs h (sealLotOf_open (q := ⟨s.books, s.begun⟩) hf ?_ (dueToSeal_flight hp hi)
        (findLot_updLot_isSome (fun _ => rfl) found))
      rw [show inflowInFlight s.begun l.vessel = true from hi, Bool.or_true]
      rfl
    · refine request_onLot hs h (sealLotOf_open (q := ⟨s.books, s.begun⟩) hf ?_ (dueToSeal_still hp hi hv)
        (findLot_sealLot .host h))
      rw [show inflowInFlight s.begun l.vessel = false from hi, hp]
      rfl
    · refine request_onLot hs h (sealLotOf_closed (q := ⟨s.books, s.begun⟩) hf ?_ (dueToSeal_empty_host hp hi hv)
        (findLot_closeLot .emptied))
      rw [show inflowInFlight s.begun l.vessel = false from hi, hp]
      rfl
  · obtain rfl : l.number = k := number_of_findLot h
    have expires {p : Part} (e : fillAgeExpires s.books l.number s.begun = p) :
        exec (.fillAgeExpiry l.number) s = .next (s.after s.books p) :=
      (partCommand_live (fun b p => fillAgeExpires b l.number p) s hl).trans
        (congrArg (fun p => Host.Outcome.next (s.after s.books p)) e)
    refine ⟨fun hn => expires ?_, fun hf ht hp hm => ?_⟩
    · rw [fillAgeExpires, expiring_none (p := s.begun) h hn]
    · have due : fillAgeExpires s.books l.number s.begun = dueToSeal s.books l .fillAge s.begun := by
        rw [fillAgeExpires, expiring_some (p := s.begun) h hf ht hm]
      exact ⟨fun hi => expires (due.trans (dueToSeal_flight hp hi)), fun hi hv => expires (due.trans
        (dueToSeal_still hp hi hv)), fun hi hv => expires (due.trans (dueToSeal_empty_fillAge hp hi hv))⟩

theorem sampleEnds_eq {q : Plant} (h : expiring k .sampling q.part = some l) : sampleEnds k q =
    ⟨q.books.book (.sample l.vessel q.part.lot.times.sampleVolume), afterBooking q.books
      (q.books.book (.sample l.vessel q.part.lot.times.sampleVolume)) [l.vessel] none none
      (sampleTold l (q.books.book (.sample l.vessel q.part.lot.times.sampleVolume)) q.part)⟩ := by
  rw [sampleEnds, h]
  simp only [bookAndTell, Booking.vessels]

theorem sampleTold_empty (h : (b.vessel l.vessel).volume = 0) : sampleTold l b p =
    updLot l.number (fun x => { x with timer := none }) (notify (.sampleReady l.number l.sampleNumber) p) := if_pos h

theorem sampleTold_filled (h : 0 < (b.vessel l.vessel).volume) : sampleTold l b p =
    lotNotice l.number .awaitingVerdict .sampled (updLot l.number (fun x => { x with
      state := .awaitingVerdict, timer := some p.lot.times.verdict })
      (notify (.sampleReady l.number l.sampleNumber) p)) := by
  refine (if_neg (by omega)).trans ?_
  rw [awaitVerdict, notify_lot]

/-- Settles O34: by the state in which a running timer finds the lot. -/
theorem lotTimers : Obligations.LotTimers := by
  intro k l s hl h sampling
  obtain rfl : l.number = k := number_of_findLot h
  have settles {p : Part} (e : settleExpires l.number s.begun = p) :
      exec (.settleExpiry l.number) s = .next (s.after s.books p) :=
    (partCommand_live (fun _ p => settleExpires l.number p) s hl).trans
      (congrArg (fun p => Host.Outcome.next (s.after s.books p)) e)
  have lapses {p : Part} (e : verdictExpires s.books l.number s.begun = p) :
      exec (.verdictExpiry l.number) s = .next (s.after s.books p) :=
    (partCommand_live (fun b p => verdictExpires b l.number p) s hl).trans
      (congrArg (fun p => Host.Outcome.next (s.after s.books p)) e)
  refine ⟨fun hn => ?_, fun hm ht => ⟨fun hs => ?_, fun hs => ?_, fun hs hn => ?_, fun hs hn => ?_⟩⟩
  · have none (st : LotState) : expiring l.number st s.begun = none := expiring_none (p := s.begun) h (.inr hn.symm)
    refine ⟨settles (by rw [settleExpires, none]), command_after hl ?_, lapses (by rw [verdictExpires, none])⟩
    rw [sampleEnds, none]
  · refine settles ?_
    rw [settleExpires, expiring_some (p := s.begun) h hs ht hm]
    rfl
  · intro booked ready
    have ends := sampleEnds_eq (q := ⟨s.books, s.begun⟩) (expiring_some (p := s.begun) h hs ht hm)
    exact ⟨fun hv => command_after hl (ends.trans (congrArg (fun p => (⟨booked, afterBooking s.books booked [l.vessel]
        none none p⟩ : Plant)) (sampleTold_filled hv))),
      fun hv => command_after hl (ends.trans (congrArg (fun p => (⟨booked, afterBooking s.books booked [l.vessel]
        none none p⟩ : Plant)) (sampleTold_empty hv)))⟩
  · refine lapses ?_
    rw [verdictExpires, expiring_some (p := s.begun) h hs ht hm]
    exact if_pos hn
  · refine lapses ?_
    rw [verdictExpires, expiring_some (p := s.begun) h hs ht hm]
    exact if_neg (by omega)

end

end Sys2Proof.Machine
end

