-- ==== Sys2Proof/Proofs/Verdicts.lean ====
section
/-! SUPPORT. The verdict on a lot: its checks in order, and what an applied verdict does (R47, R48). -/

namespace Sys2Proof.Machine

section
variable {i : VerdictItems} {l : Lot} {q : Plant} {b : Books} {p : Part}

/-! ## The checks (R47) -/

theorem verdictRange_iff (i : VerdictItems) :
    verdictRange i = true ↔ (i.sample = 1 ∨ i.sample = 2) ∧ i.conc ≤ 30000 ∧ i.ph ≤ 140 := by
  simp [verdictRange]

/-- A lot past its verdict. -/
theorem past_verdict_iff (h : ¬ (l.state = .filling ∨ l.state = .settling ∨ l.state = .sampling)) :
    l.state ≠ .awaitingVerdict ↔ l.state = .cleared ∨ l.state = .discharging ∨ l.state = .suspended ∨
      l.state = .rejected ∨ l.state = .returning := by
  revert h
  cases l.state <;> simp

theorem verdictRefusal_eq (i : VerdictItems) (l : Lot) (g : Gate) : verdictRefusal i l g =
    if i.sample < l.sampleNumber then some .late
    else if l.state = .filling ∨ l.state = .settling ∨ l.state = .sampling then some .wrongState
    else if l.sampleNumber < i.sample then some .badValue
    else if l.state = .cleared ∨ l.state = .discharging ∨ l.state = .suspended ∨ l.state = .rejected ∨
      l.state = .returning then some .late
    else if g.limits.concLimit = none ∨ g.limits.phBand = none then some .wrongState
    else none := by
  unfold verdictRefusal
  refine ite_of_iff Iff.rfl rfl ?_
  by_cases early : l.state = .filling ∨ l.state = .settling ∨ l.state = .sampling
  · rw [if_pos early, if_pos early]
  · rw [if_neg early, if_neg early]
    exact ite_of_iff Iff.rfl rfl (ite_of_iff (past_verdict_iff early) rfl
      (ite_of_iff (by simp only [Bool.or_eq_true, Option.isNone_iff_eq_none]) rfl rfl))

theorem takeVerdict_bad (hm : q.part.ctl.mode.inService = true) (h : verdictRange i = false) :
    takeVerdict i q = refuse .badValue q := by
  rw [takeVerdict, inService_in _ q hm]
  simp only [h, Bool.not_false, if_true]

theorem takeVerdict_closed (hm : q.part.ctl.mode.inService = true) (h : verdictRange i = true)
    (hc : ∃ c ∈ q.part.lot.closed, c.number = i.lot) : takeVerdict i q = refuse .late q := by
  have late : q.part.lot.closed.any (fun c => decide (c.number = i.lot)) = true := by simpa using hc
  rw [takeVerdict, inService_in _ q hm]
  simp only [h, late, Bool.not_true, Bool.false_eq_true, if_false, if_true]

theorem takeVerdict_none (hm : q.part.ctl.mode.inService = true) (h : verdictRange i = true)
    (hc : ∀ c ∈ q.part.lot.closed, c.number ≠ i.lot) (hl : findLot i.lot q.part = none) :
    takeVerdict i q = refuse .noSuch q := by
  have open_ : q.part.lot.closed.any (fun c => decide (c.number = i.lot)) = false := by simpa using hc
  rw [takeVerdict, inService_in _ q hm]
  simp only [h, open_, hl, Bool.not_true, Bool.false_eq_true, if_false]

theorem takeVerdict_refused {st : Status} (hm : q.part.ctl.mode.inService = true) (h : verdictRange i = true)
    (hc : ∀ c ∈ q.part.lot.closed, c.number ≠ i.lot) (hl : findLot i.lot q.part = some l)
    (hr : verdictRefusal i l q.part.gate = some st) : takeVerdict i q = refuse st q := by
  have open_ : q.part.lot.closed.any (fun c => decide (c.number = i.lot)) = false := by simpa using hc
  rw [takeVerdict, inService_in _ q hm]
  simp only [h, open_, hl, hr, Bool.not_true, Bool.false_eq_true, if_false]

theorem takeVerdict_applies (hm : q.part.ctl.mode.inService = true) (h : verdictRange i = true)
    (hc : ∀ c ∈ q.part.lot.closed, c.number ≠ i.lot) (hl : findLot i.lot q.part = some l)
    (hr : verdictRefusal i l q.part.gate = none) : takeVerdict i q = applyVerdict i l q := by
  have open_ : q.part.lot.closed.any (fun c => decide (c.number = i.lot)) = false := by simpa using hc
  rw [takeVerdict, inService_in _ q hm]
  simp only [h, open_, hl, hr, Bool.not_true, Bool.false_eq_true, if_false]

/-! ## An applied verdict (R48) -/

/-- A lot as its verdict marks it. -/
def markedLot (i : VerdictItems) (x : Lot) : Lot :=
  { x with measuredConc := some i.conc, measuredPh := some i.ph, verdict := some i.result, timer := none }

def marked (i : VerdictItems) (p : Part) : Part := updLot i.lot (markedLot i) p

theorem findLot_marked (h : findLot i.lot p = some l) : findLot i.lot (marked i p) = some (markedLot i l) := by
  rw [marked, findLot_updLot i.lot (markedLot i) p (fun _ => rfl), h]
  rfl

/-- A verdict that clears the lot. -/
def passes (i : VerdictItems) (g : Gate) : Prop :=
  i.result = .pass ∧ concWithin g.limits i.conc = true ∧ phWithin g.limits i.ph = true

theorem applyVerdict_eq (i : VerdictItems) (l : Lot) (q : Plant) : applyVerdict i l q =
    (⟨q.books.book (.massCorrection l.vessel i.conc),
      afterBooking q.books (q.books.book (.massCorrection l.vessel i.conc)) [l.vessel] none none
        (verdictTaken i l (q.books.book (.massCorrection l.vessel i.conc)) q.part)⟩,
      { status := .ok, items := .lotTook (verdictState i q.part.gate) }) := by
  simp only [applyVerdict, bookAndTell, Booking.vessels]

theorem verdictState_passes (h : passes i p.gate) : verdictState i p.gate = .cleared := if_pos h

theorem verdictState_fails (h : ¬ passes i p.gate) : verdictState i p.gate = .rejected := if_neg h

theorem verdictTaken_eq (i : VerdictItems) (l : Lot) (b : Books) (p : Part) : verdictTaken i l b p =
    if i.result = .fail then reexamineNeeds b (rejectLot i.lot (some .lab) .lab (marked i p))
    else if concWithin p.gate.limits i.conc && phWithin p.gate.limits i.ph then
      if l.held then clearLot i.lot .pass (marked i p) else selectLot b (clearLot i.lot .pass (marked i p))
    else reexamineNeeds b (rejectLot i.lot (some .limit) .limit (marked i p)) := rfl

theorem verdictTaken_passes (h : passes i p.gate) : verdictTaken i l b p =
    if l.held then clearLot i.lot .pass (marked i p) else selectLot b (clearLot i.lot .pass (marked i p)) := by
  obtain ⟨pass, conc, ph⟩ := h
  simp [verdictTaken_eq, pass, conc, ph]

theorem verdictTaken_fails (h : ¬ passes i p.gate) : verdictTaken i l b p =
    reexamineNeeds b (rejectLot i.lot (some (if i.result = .fail then .lab else .limit))
      (if i.result = .fail then .lab else .limit) (marked i p)) := by
  by_cases fail : i.result = .fail
  · simp [verdictTaken_eq, fail]
  · have pass : i.result = .pass := by
      revert fail
      cases i.result <;> simp
    have outside : (concWithin p.gate.limits i.conc && phWithin p.gate.limits i.ph) = false := by
      rw [← Bool.not_eq_true, Bool.and_eq_true]
      exact fun within => h ⟨pass, within⟩
    simp [verdictTaken_eq, fail, outside]

theorem clearLot_held_gate {n : Nat} {r : LotReason} (h : findLot n p = some l) (held : l.held = true) :
    (clearLot n r p).gate = p.gate := by
  obtain ⟨lot, link, e⟩ := clearLot_held h held r
  rw [e]

/-- A lot cleared held, on an ordinary HOLD vessel, brings nothing after it. -/
theorem afterBooking_cleared_held {b : Books} (h : findLot i.lot p = some l) (held : l.held = true)
    (role : (vesselRec p l.vessel).role = .hold) (water : 0 < (b.vessel l.vessel).volume)
    (sources : ∀ m ∈ p.mov.entries, sourceVolume b m.source ≠ some 0)
    (frame : hasFrame .vesselOverflow (.vessel l.vessel) p = false) :
    afterBooking b (b.book (.massCorrection l.vessel i.conc)) [l.vessel] none none
      (clearLot i.lot .pass (marked i p)) = clearLot i.lot .pass (marked i p) := by
  obtain ⟨lot, link, e⟩ := clearLot_held (findLot_marked h) held .pass
  refine afterBooking_massCorrection b l.vessel i.conc ?_ water ?_ ?_ <;> rw [e]
  · exact role
  · exact sources
  · exact frame

end

/-- Settles O35: the checks, then the verdict by whether it passes and whether the lot is held. -/
theorem verdictIsCheckedAndApplied : Obligations.VerdictIsCheckedAndApplied := by
  refine ⟨fun n i s hs => ⟨fun h => request_told hs.1 (takeVerdict_bad (q := ⟨s.books, s.begun⟩) hs.2 h),
    fun h hc => request_told hs.1 (takeVerdict_closed (q := ⟨s.books, s.begun⟩) hs.2 h hc),
    fun h hc hl => request_told hs.1 (takeVerdict_none (q := ⟨s.books, s.begun⟩) hs.2 h hc hl),
    fun l h hc hl => ⟨fun st hr => request_told hs.1 (takeVerdict_refused (q := ⟨s.books, s.begun⟩) hs.2 h hc hl hr),
      fun hr => ?_⟩⟩, fun i l g => ⟨verdictRange_iff i, verdictRefusal_eq i l g⟩, fun b v conc => ⟨?_, ?_⟩⟩
  · intro booked mark passed cleared answeredAfter
    have gate : s.begun.gate = s.part.gate := rfl
    have found : findLot i.lot mark = some (markedLot i l) := findLot_marked (p := s.begun) hl
    have applied {p : Part} {st : LotState} (ht : verdictTaken i l booked s.begun = p)
        (hst : verdictState i s.begun.gate = st) : exec (.verdict n i) s = .next (s.after booked
          ((afterBooking s.books booked [l.vessel] none none p).reply n 0x12
            { status := .ok, items := .lotTook st })) := by
      subst ht hst
      exact request_after hs.1 ((takeVerdict_applies (q := ⟨s.books, s.begun⟩) hs.2 h hc hl hr).trans
        (applyVerdict_eq i l ⟨s.books, s.begun⟩))
    refine ⟨fun hp held => ?_, fun hp held => ⟨?_, ?_, fun role water sources frame => ?_⟩, fun hp => ?_⟩
    · refine ⟨applied ((verdictTaken_passes (p := s.begun) hp).trans (if_neg (by simp [held])))
        (verdictState_passes (p := s.begun) hp), ?_⟩
      exact clearLot_free found held .pass
    · exact applied ((verdictTaken_passes (p := s.begun) hp).trans (if_pos held)) (verdictState_passes (p := s.begun) hp)
    · exact clearLot_held_gate found held
    · have kept := afterBooking_cleared_held (i := i) (p := s.begun) hl held role water sources frame
      have cleared_gate : cleared.gate = s.part.gate := clearLot_held_gate found held
      simp only [answeredAfter]
      rw [after_gate, reply_gate]
      exact (congrArg Part.gate kept).trans cleared_gate
    · exact applied (verdictTaken_fails (p := s.begun) hp) (verdictState_fails (p := s.begun) hp)
  · simp [Books.book, Books.vessel, Books.setVessel]
  · simp [Books.book, Books.vessel, Books.setVessel, Int.add_sub_assoc]

end Sys2Proof.Machine
end

