-- ==== Sys2Proof/Proofs/Regulation.lean ====
section
/-! SUPPORT. The regulation requests, and the checks of the marks and of the needs (R101 to R112). -/

namespace Sys2Proof.Machine

section
variable {i : RegulationItems} {p : Part} {q : Plant} {b : Books}

/-! ## SET REGULATION (R101) -/

theorem noSettings_iff (i : RegulationItems) : noSettings i = true ↔ i = {} := decide_eq_true_iff

theorem marksFit_iff (c : Nat) (m : Marks) : marksFit c m = true ↔
    m.reserve < c * m.reuseLow / 8 ∧ c * m.reuseHigh / 8 < c - m.headroom := decide_eq_true_iff

/-- SET REGULATION answers with its status and the unit's state, and applies where both say so. -/
theorem takeSetRegulation_told {st : Status} (h : regulationStatus i q.part = st) (hn : st ≠ .ok ∨ i = {}) :
    takeSetRegulation i q = (q, { status := st, items := .regulation (regulationReport q.part) }) := by
  have kept : ¬ (regulationStatus i q.part = .ok ∧ noSettings i = false) := by
    rintro ⟨ok, some_⟩
    rcases hn with hn | hn
    · exact hn (h.symm.trans ok)
    · rw [(noSettings_iff i).mpr hn] at some_
      cases some_
  rw [takeSetRegulation, h, if_neg (h ▸ kept)]

theorem takeSetRegulation_applies (h : regulationStatus i q.part = .ok) (hi : i ≠ {}) : takeSetRegulation i q =
    ({ q with part := applyRegulation q.books i q.part },
      { status := .ok, items := .regulation (regulationReport q.part) }) := by
  have some_ : noSettings i = false := Bool.eq_false_iff.mpr ((not_congr (noSettings_iff i)).mpr hi)
  rw [takeSetRegulation, h, if_pos ⟨rfl, some_⟩]

theorem regulationStatus_mode (h : p.ctl.mode.inService = false) : regulationStatus i p = .wrongMode := by
  simp [regulationStatus, h]

theorem regulationStatus_invalid (h : p.ctl.mode.inService = true) (hv : regulationValid i p = false) :
    regulationStatus i p = .badValue := by
  simp [regulationStatus, h, hv]

theorem regulationStatus_on (h : p.ctl.mode.inService = true) (hv : regulationValid i p = true)
    (hs : p.reg.switchOn = true) (hi : i ≠ {}) : regulationStatus i p = .wrongState := by
  have some_ : noSettings i = false := Bool.eq_false_iff.mpr ((not_congr (noSettings_iff i)).mpr hi)
  simp [regulationStatus, h, hv, hs, some_]

theorem regulationStatus_ok (h : p.ctl.mode.inService = true) (hv : regulationValid i p = true)
    (hs : p.reg.switchOn = false ∨ i = {}) : regulationStatus i p = .ok := by
  rcases hs with hs | hs
  · simp [regulationStatus, h, hv, hs]
  · simp [regulationStatus, h, hv, (noSettings_iff i).mpr hs]

theorem regulationRanges_iff (i : RegulationItems) : regulationRanges i = true ↔
    (∀ k, i.reuseHigh = some k → 1 ≤ k ∧ k ≤ 7) ∧ (∀ k, i.reuseLow = some k → 1 ≤ k ∧ k ≤ 7) ∧
      (∀ k, i.reserve = some k → k ≤ 60000) ∧ (∀ k, i.headroom = some k → k ≤ 60000) ∧
      (∀ k, i.feedHigh = some k → 1 ≤ k ∧ k ≤ 7) ∧ (∀ k, i.feedLow = some k → 1 ≤ k ∧ k ≤ 7) := by
  simp only [regulationRanges, Bool.and_eq_true, inRange_all, Nat.zero_le, true_and, and_assoc]

theorem marksFit_capacity (p : Part) (m : Marks) : (match roleCapacity .reuse p with
      | none => true
      | some c => marksFit c m) = true ↔
    ∀ c, roleCapacity .reuse p = some c → m.reserve < c * m.reuseLow / 8 ∧ c * m.reuseHigh / 8 < c - m.headroom := by
  cases roleCapacity .reuse p <;> simp [marksFit_iff]

/-! ## REGULATION ON and OFF (R102) -/

theorem takeRegulationOn_on (h : q.part.ctl.mode.inService = true) (hs : q.part.reg.switchOn = true) :
    takeRegulationOn q = okay q := (inService_in _ q h).trans (if_pos hs)

theorem takeRegulationOn_noVessel (h : q.part.ctl.mode.inService = true) (hs : q.part.reg.switchOn = false)
    (hc : roleCapacity .reuse q.part = none) : takeRegulationOn q = refuse .wrongState q := by
  refine (inService_in _ q h).trans ?_
  simp only [hs, hc, Bool.false_eq_true, if_false]

theorem takeRegulationOn_capped {c : Nat} (h : q.part.ctl.mode.inService = true) (hs : q.part.reg.switchOn = false)
    (hc : roleCapacity .reuse q.part = some c) : takeRegulationOn q = if marksFit c q.part.reg.marks
      then okay { q with part := examineReturn q.books (reuseEvaluation q.books
        { q.part with reg := { q.part.reg with switchOn := true } }) }
      else refuse .wrongState q := by
  refine (inService_in _ q h).trans ?_
  simp only [hs, hc, Bool.false_eq_true, if_false]

theorem takeRegulationOff_off (h : q.part.ctl.mode.inService = true) (hs : q.part.reg.switchOn = false) :
    takeRegulationOff q = okay q := (inService_in _ q h).trans (if_neg (by simp [hs]))

theorem takeRegulationOff_on (h : q.part.ctl.mode.inService = true) (hs : q.part.reg.switchOn = true) :
    takeRegulationOff q = okay { q with part := switchOff q.books q.part } := (inService_in _ q h).trans (if_pos hs)

/-- The part once the overflow block of a switch turned off is cleared. -/
def blockFreed (b : Books) (p : Part) : Part :=
  match roleVessel .reuse p with
  | none => p
  | some v => if (vesselRec p v).regBlock then
      notify (.overflow v false (b.vessel v).volume) (updVessel v (fun r => { r with regBlock := false }) p) else p

theorem blockFreed_reg (b : Books) (p : Part) : (blockFreed b p).reg = p.reg := by
  unfold blockFreed
  split
  · rfl
  · split
    · exact notify_reg _ _
    · rfl

theorem switchOff_eq (b : Books) (p : Part) : switchOff b p = setFill .idle none (setSpill .idle none
    (cutNeed b p.reg.fill (cutNeed b p.reg.spill
      (blockFreed b { p with reg := { p.reg with switchOn := false } })))) := by
  have needs := blockFreed_reg b { p with reg := { p.reg with switchOn := false } }
  have stated : switchOff b p = setFill .idle none (setSpill .idle none (cutNeed b
      (blockFreed b { p with reg := { p.reg with switchOn := false } }).reg.fill (cutNeed b
        (blockFreed b { p with reg := { p.reg with switchOn := false } }).reg.spill
          (blockFreed b { p with reg := { p.reg with switchOn := false } })))) := rfl
  rw [stated, needs]

end

/-- Settles O47: the checks in order, and the switch. -/
theorem regulationRequests : Obligations.RegulationRequests := by
  refine ⟨fun n i s hp => ?_, fun i p => ?_, fun n s hs => ?_⟩
  · intro told set
    have refused {st : Status} (h : regulationStatus i s.begun = st) (hn : st ≠ .ok ∨ i = {}) :
        exec (.setRegulation n i) s = told st :=
      request_told hp (takeSetRegulation_told (q := ⟨s.books, s.begun⟩) h hn)
    refine ⟨fun hm => refused (regulationStatus_mode (p := s.begun) hm) (.inl nofun),
      fun hm hv => refused (regulationStatus_invalid (p := s.begun) hm hv) (.inl nofun),
      fun hm hv hi => refused (regulationStatus_ok (p := s.begun) hm hv (.inr hi)) (.inr hi),
      fun hm hi hv hs => refused (regulationStatus_on (p := s.begun) hm hv hs hi) (.inl nofun),
      fun hm hi hv hs => ?_⟩
    refine request_answered hp ((takeSetRegulation_applies (q := ⟨s.books, s.begun⟩)
      (regulationStatus_ok (p := s.begun) hm hv (.inl hs)) hi).trans ?_)
    refine congrArg (fun p => ((⟨s.books, p⟩ : Plant), (⟨.ok, .regulation (regulationReport s.part)⟩ : Reply))) ?_
    by_cases same : s.part.reg.marks.feedHigh = set.reg.marks.feedHigh ∧ s.part.reg.marks.feedLow = set.reg.marks.feedLow
    · exact (if_neg fun h => h.elim (· same.1) (· same.2)).trans (if_pos same).symm
    · exact (if_pos (Classical.not_and_iff_not_or_not.mp same)).trans (if_neg same).symm
  · intro m eighths litres
    have valid : regulationValid i p = true ↔
        (regulationRanges i = true ∧ (m.reuseLow < m.reuseHigh ∧ m.feedLow < m.feedHigh)) ∧
          (match roleCapacity .reuse p with | none => true | some c => marksFit c m) = true :=
      Bool.and_eq_true_iff.trans (and_congr_left' (Bool.and_eq_true_iff.trans (and_congr_right' decide_eq_true_iff)))
    rw [valid, marksFit_capacity, regulationRanges_iff]
    simp only [and_assoc, eighths, litres]
  · intro m off
    have reply {p : Part} {r : Reply} {k : Byte} {take : Plant → Plant × Reply}
        (e : take ⟨s.books, s.begun⟩ = (⟨s.books, p⟩, r)) :
        command (request n k take) s = .next (s.answered n k r p) := request_answered hs.1 e
    refine ⟨fun on => reply (takeRegulationOn_on (q := ⟨s.books, s.begun⟩) hs.2 on),
      fun on hc => reply (takeRegulationOn_noVessel (q := ⟨s.books, s.begun⟩) hs.2 on hc),
      fun c on hc => ⟨fun h => ?_, fun h k => ?_⟩,
      fun on => reply (takeRegulationOff_off (q := ⟨s.books, s.begun⟩) hs.2 on), fun on => ?_⟩
    · exact reply ((takeRegulationOn_capped (q := ⟨s.books, s.begun⟩) hs.2 on hc).trans
        (if_neg ((not_congr (marksFit_iff c m)).mpr h)))
    · exact reply ((takeRegulationOn_capped (q := ⟨s.books, s.begun⟩) hs.2 on hc).trans
        (if_pos ((marksFit_iff c m).mpr ⟨h, k⟩)))
    · intro freed
      have same : blockFreed s.books off = freed := by
        have role : roleVessel .reuse off = roleVessel .reuse s.part := rfl
        cases h : roleVessel .reuse s.part <;> simp only [blockFreed, freed, role, h] <;> rfl
      refine reply ((takeRegulationOff_on (q := ⟨s.books, s.begun⟩) hs.2 on).trans ?_)
      exact congrArg (fun p => okay ⟨s.books, p⟩) ((switchOff_eq s.books s.begun).trans (congrArg (fun p => setFill .idle none
        (setSpill .idle none (cutNeed s.books s.part.reg.fill (cutNeed s.books s.part.reg.spill p)))) same))

end Sys2Proof.Machine
end

