-- ==== Sys2Proof/Proofs/Needs.lean ====
section
/-! SUPPORT. The REUSE evaluation and the needs: the valve, the block, the spill, the fill and the return engine (R103 to
R112). -/

namespace Sys2Proof.Machine

theorem isRunning_iff (n : Need) : n.isRunning = true ↔ ∃ k, n = .running k := by
  cases n <;> simp [Need.isRunning]

theorem isRunning_false {n : Need} (h : ∀ k, n ≠ .running k) : n.isRunning = false :=
  Bool.eq_false_iff.mpr fun e => let ⟨k, hk⟩ := (isRunning_iff n).mp e; h k hk

section
variable {b : Books} {p : Part} {v : VesselId}

/-! ## The marks of REUSE and FEED (R100) -/

theorem reuseHighVolume_eq (h : roleVessel .reuse p = some v) :
    reuseHighVolume p = (vesselRec p v).capacity.getD 0 * p.reg.marks.reuseHigh / 8 := by
  rw [reuseHighVolume, roleCapacity_some h]
  rfl

theorem reuseLowVolume_eq (h : roleVessel .reuse p = some v) :
    reuseLowVolume p = (vesselRec p v).capacity.getD 0 * p.reg.marks.reuseLow / 8 := by
  rw [reuseLowVolume, roleCapacity_some h]
  rfl

theorem admissionLimit_eq (h : roleVessel .feed p = some v) :
    admissionLimit p = (vesselRec p v).capacity.getD 0 * p.reg.marks.feedHigh / 8 := by
  rw [admissionLimit, roleCapacity_some h]
  rfl

/-! ## The evaluation (R103) -/

theorem supplyCheck_sameRoles (b : Books) (p : Part) (r : Role) : roleVessel r (supplyCheck b p) = roleVessel r p := by
  refine roleVessel_congr ?_ r
  unfold supplyCheck
  split
  · rfl
  · dsimp only
    split
    · exact notify_vessels _ _
    · split
      · exact notify_vessels _ _
      · rfl

theorem supplyCheck_switch (b : Books) (p : Part) : (supplyCheck b p).reg.switchOn = p.reg.switchOn := by
  unfold supplyCheck
  split
  · rfl
  · dsimp only
    split
    · rw [notify_reg]
    · split
      · rw [notify_reg]
      · rfl

theorem supplyCheck_flt (b : Books) (p : Part) : (supplyCheck b p).flt = p.flt := by
  unfold supplyCheck
  split
  · rfl
  · dsimp only
    split
    · exact notify_flt _ _
    · split
      · exact notify_flt _ _
      · rfl

theorem actionsInForce_congr {q : Part} (h : q.flt = p.flt) : actionsInForce q = actionsInForce p := by
  unfold actionsInForce
  rw [h]

theorem reuseEvaluation_off (h : roleVessel .reuse p = none ∨ p.reg.switchOn = false) :
    reuseEvaluation b p = supplyCheck b p := by
  have role := supplyCheck_sameRoles b p .reuse
  have switch := supplyCheck_switch b p
  dsimp only [reuseEvaluation]
  rcases h with h | h
  · rw [role, h]
  · rw [switch, h]
    split <;> rfl

theorem reuseEvaluation_on (h : roleVessel .reuse p = some v) (hs : p.reg.switchOn = true) : reuseEvaluation b p =
    if (actionsInForce p).stopRegulation then fillCheck b (spillCheck b (supplyCheck b p))
    else fillEvaluation b v (spillEvaluation b v (blockCheck b v (supplyCheck b p))) := by
  have role := supplyCheck_sameRoles b p .reuse
  have switch := supplyCheck_switch b p
  have actions := actionsInForce_congr (supplyCheck_flt b p)
  dsimp only [reuseEvaluation]
  rw [role, h, switch, hs, actions]
  rfl

theorem spillEvaluation_running {n : Nat} (h : roleVessel .reuse p = some v) (hn : p.reg.spill = .running n) :
    spillEvaluation b v p = if (b.vessel v).volume ≤ (vesselRec p v).capacity.getD 0 * p.reg.marks.reuseHigh / 8
      then cutMovement b n .plain p else p := by
  have running : p.reg.spill.isRunning = true := by rw [hn]; rfl
  have cut : cutNeed b p.reg.spill p = cutMovement b n .plain p := by rw [hn]; rfl
  have empty : spillExcess b p v = 0 ↔
      (b.vessel v).volume ≤ (vesselRec p v).capacity.getD 0 * p.reg.marks.reuseHigh / 8 := by
    rw [spillExcess, reuseHighVolume_eq h]
    exact Nat.sub_eq_zero_iff_le
  rw [spillEvaluation, if_pos running, cut]
  exact ite_of_iff empty rfl rfl

theorem spillEvaluation_idle (h : ∀ n, p.reg.spill ≠ .running n) : spillEvaluation b v p = spillCheck b p :=
  if_neg (by simp [isRunning_false h])

theorem fillEvaluation_running {n : Nat} (h : roleVessel .reuse p = some v) (hn : p.reg.fill = .running n) :
    fillEvaluation b v p = if (vesselRec p v).capacity.getD 0 * p.reg.marks.reuseLow / 8 ≤ (b.vessel v).volume
      then cutMovement b n .plain p else p := by
  have running : p.reg.fill.isRunning = true := by rw [hn]; rfl
  have cut : cutNeed b p.reg.fill p = cutMovement b n .plain p := by rw [hn]; rfl
  have empty : fillShortfall b p v = 0 ↔
      (vesselRec p v).capacity.getD 0 * p.reg.marks.reuseLow / 8 ≤ (b.vessel v).volume := by
    rw [fillShortfall, reuseLowVolume_eq h]
    exact Nat.sub_eq_zero_iff_le
  rw [fillEvaluation, if_pos running, cut]
  exact ite_of_iff empty rfl rfl

theorem fillEvaluation_idle (h : ∀ n, p.reg.fill ≠ .running n) : fillEvaluation b v p = fillCheck b p :=
  if_neg (by simp [isRunning_false h])

/-! ## The valve and the block (R106, R107) -/

theorem supplyCheck_none (h : roleVessel .reuse p = none) :
    supplyCheck b p = { p with reg := { p.reg with supplyOpen := false } } := by
  rw [supplyCheck, h]

theorem supplyCheck_some (h : roleVessel .reuse p = some v) : supplyCheck b p =
    if (b.vessel v).volume ≤ p.reg.marks.reserve ∧ p.reg.supplyOpen = true then
      notify (.reserveLow false (b.vessel v).volume) { p with reg := { p.reg with supplyOpen := false } }
    else if (vesselRec p v).capacity.getD 0 * p.reg.marks.reuseLow / 8 ≤ (b.vessel v).volume ∧
        p.reg.supplyOpen = false then
      notify (.reserveLow true (b.vessel v).volume) { p with reg := { p.reg with supplyOpen := true } }
    else p := by
  rw [← reuseLowVolume_eq h, supplyCheck, h]

theorem blockCheck_eq (h : roleVessel .reuse p = some v) : blockCheck b v p =
    if (vesselRec p v).capacity.getD 0 - p.reg.marks.headroom < (b.vessel v).volume ∧
        (vesselRec p v).regBlock = false then
      notify (.overflow v true (b.vessel v).volume) (updVessel v (fun r => { r with regBlock := true }) p)
    else if (b.vessel v).volume ≤ (vesselRec p v).capacity.getD 0 * p.reg.marks.reuseHigh / 8 ∧
        (vesselRec p v).regBlock = true then
      notify (.overflow v false (b.vessel v).volume) (updVessel v (fun r => { r with regBlock := false }) p)
    else p := by
  rw [← reuseHighVolume_eq h]
  rfl

/-! ## The spill (R104, R109) -/

theorem spillCheck_running (h : ∃ n, p.reg.spill = .running n) : spillCheck b p = p :=
  if_pos ((isRunning_iff _).mpr h)

theorem spillCheck_off (h : ∀ n, p.reg.spill ≠ .running n)
    (hs : p.reg.switchOn = false ∨ roleVessel .reuse p = none) : spillCheck b p = setSpill .idle none p := by
  rw [spillCheck, isRunning_false h]
  rcases hs with hs | hs
  · simp [hs]
  · simp [hs]

/-- What the answer of the Lot Unit makes of a spill. -/
def spillAnswered (b : Books) (v : VesselId) (e : Nat) (a : Part × LotAnswer) : Part :=
  match a.2 with
  | .sealPending => setSpill (.waiting .sealPending) none a.1
  | .noVessel => setSpill (.waiting .noVessel) none a.1
  | .noSpace => setSpill (.waiting .noSpace) none a.1
  | .named lot target => startSpill b v target lot e a.1

/-- What the answer to its start makes of a fill. -/
def fillAnswered (a : Part × StartAnswer) : Part :=
  match a.2 with
  | .started n => setFill (.running n) none a.1
  | .refused why => setFill (.waiting why) (some (.mains, .makeupEntry)) a.1

/-- What the answer to its start makes of a return. -/
def returnAnswered (src : ReturnSource) (lot : Option Nat) (v f : VesselId) (a : Part × StartAnswer) : Part :=
  match a.2 with
  | .refused why => setReturn (.waiting why) (some src) (some (.vesselOutlet v, .vesselInlet f)) a.1
  | .started n =>
    match lot with
    | some k => returnStarts k (setReturn (.running n) (some src) none a.1)
    | none => setReturn (.running n) (some src) none a.1

/-- The excess of REUSE over its high mark, in the figures of its vessel. -/
def reuseExcess (b : Books) (p : Part) (v : VesselId) : Nat :=
  (b.vessel v).volume - (vesselRec p v).capacity.getD 0 * p.reg.marks.reuseHigh / 8

section
variable (h : ∀ n, p.reg.spill ≠ .running n) (hs : p.reg.switchOn = true) (hv : roleVessel .reuse p = some v)
include h hs hv

theorem spillCheck_held (hk : kindHeld p .spill = true) : spillCheck b p = setSpill (.waiting .held) none p := by
  simp [spillCheck, isRunning_false h, hs, hv, hk]

theorem spillCheck_none (hk : kindHeld p .spill = false) (he : reuseExcess b p v = 0) :
    spillCheck b p = setSpill .idle none p := by
  rw [reuseExcess, ← reuseHighVolume_eq hv] at he
  simp [spillCheck, isRunning_false h, hs, hv, hk, spillExcess, he]

theorem spillCheck_stopped (hk : kindHeld p .spill = false) (he : 0 < reuseExcess b p v)
    (ha : (actionsInForce p).stopRegulation = true) : spillCheck b p = setSpill (.waiting .stopped) none p := by
  have excess : spillExcess b p v ≠ 0 := by
    rw [spillExcess, reuseHighVolume_eq hv]
    exact Nat.pos_iff_ne_zero.mp he
  simp [spillCheck, isRunning_false h, hs, hv, hk, excess, ha]

/-- A spill that nothing holds back asks the Lot Unit. -/
theorem spillCheck_asks (hk : kindHeld p .spill = false) (he : 0 < reuseExcess b p v)
    (ha : (actionsInForce p).stopRegulation = false) :
    spillCheck b p = spillAnswered b v (reuseExcess b p v) (askFilling (min (reuseExcess b p v) 100) p) := by
  have same : spillExcess b p v = reuseExcess b p v := by rw [spillExcess, reuseHighVolume_eq hv]; rfl
  have excess : ¬ reuseExcess b p v = 0 := Nat.pos_iff_ne_zero.mp he
  rw [spillCheck, isRunning_false h, hs, hv, hk]
  dsimp only
  rw [same, ha, if_neg Bool.false_ne_true, if_neg Bool.false_ne_true, if_neg excess, if_neg Bool.false_ne_true]
  rfl

end

/-- A spill into a lot that is named (R104). -/
theorem startSpill_disabled {t : VesselId} {lot e : Nat} (h : (vesselRec p t).inlet = .disabled) :
    startSpill b v t lot e p = setSpill (.waiting .disabled) none p := if_pos h

/-- The water that a lot's vessel can take of an excess. -/
def spillWant (b : Books) (p : Part) (t : VesselId) (e : Nat) : Nat :=
  min e ((vesselRec p t).capacity.getD 0 - (b.vessel t).volume - reservedVolume p t)

theorem startSpill_full {t : VesselId} {lot e : Nat} (h : (vesselRec p t).inlet ≠ .disabled)
    (hw : spillWant b p t e = 0) : startSpill b v t lot e p =
      setSpill (.waiting .noSpace) (some (.vesselOutlet v, .vesselInlet t)) p := (if_neg h).trans (if_pos hw)

theorem startSpill_asks {t : VesselId} {lot e : Nat} (h : (vesselRec p t).inlet ≠ .disabled)
    (hw : 0 < spillWant b p t e) {r : Part × StartAnswer}
    (hr : askStart b { kind := .spill, source := .vesselOutlet v, dest := .vesselInlet t
                       requested := spillWant b p t e, lot := some lot } p = r) :
    (∀ n, r.2 = .started n → startSpill b v t lot e p = setSpill (.running n) none r.1) ∧
    (∀ why, r.2 = .refused why → startSpill b v t lot e p =
      setSpill (.waiting why) (some (.vesselOutlet v, .vesselInlet t)) r.1) := by
  have asked : startSpill b v t lot e p = match r.2 with
      | .started n => setSpill (.running n) none r.1
      | .refused why => setSpill (.waiting why) (some (.vesselOutlet v, .vesselInlet t)) r.1 := by
    rw [← hr]
    exact (if_neg h).trans (if_neg (Nat.pos_iff_ne_zero.mp hw))
  exact ⟨fun n e => by rw [asked, e], fun why e => by rw [asked, e]⟩

/-! ## The fill (R105, R109) -/

theorem fillCheck_running (h : ∃ n, p.reg.fill = .running n) : fillCheck b p = p :=
  if_pos ((isRunning_iff _).mpr h)

theorem fillCheck_off (h : ∀ n, p.reg.fill ≠ .running n)
    (hs : p.reg.switchOn = false ∨ roleVessel .reuse p = none) : fillCheck b p = setFill .idle none p := by
  rw [fillCheck, isRunning_false h]
  rcases hs with hs | hs
  · simp [hs]
  · simp [hs]

/-- The shortfall of REUSE below its low mark, in the figures of its vessel. -/
def reuseShort (b : Books) (p : Part) (v : VesselId) : Nat :=
  (vesselRec p v).capacity.getD 0 * p.reg.marks.reuseLow / 8 - (b.vessel v).volume

section
variable (h : ∀ n, p.reg.fill ≠ .running n) (hs : p.reg.switchOn = true) (hv : roleVessel .reuse p = some v)
include h hs hv

theorem fillCheck_eq : fillCheck b p =
    if kindHeld p .fill then setFill (.waiting .held) none p
    else if reuseShort b p v = 0 then setFill .idle none p
    else if (actionsInForce p).stopRegulation then setFill (.waiting .stopped) none p
    else fillAnswered (askStart b
      { kind := .fill, source := .mains, dest := .makeupEntry, requested := reuseShort b p v } p) := by
  have same : fillShortfall b p v = reuseShort b p v := by rw [fillShortfall, reuseLowVolume_eq hv]; rfl
  rw [fillCheck, isRunning_false h, hs, hv]
  dsimp only
  rw [same, if_neg Bool.false_ne_true]
  rfl

end

/-! ## The return engine (R109, R111, R112) -/

/-- The lot of the lowest rejection number of a list. -/
theorem foldl_lowerRejection (ls : List Lot) : ∀ a : Lot,
    (ls.foldl lowerRejection a = a ∨ ls.foldl lowerRejection a ∈ ls) ∧
      ∀ x, x = a ∨ x ∈ ls → (ls.foldl lowerRejection a).rejectionNo.getD 0 ≤ x.rejectionNo.getD 0 := by
  induction ls with
  | nil => intro a; simp
  | cons y ls ih =>
    intro a
    rw [List.foldl_cons]
    obtain ⟨from_, least⟩ := ih (lowerRejection a y)
    have choice : lowerRejection a y = a ∨ lowerRejection a y = y := by
      unfold lowerRejection
      split <;> simp
    have below : (lowerRejection a y).rejectionNo.getD 0 ≤ a.rejectionNo.getD 0 ∧
        (lowerRejection a y).rejectionNo.getD 0 ≤ y.rejectionNo.getD 0 := by
      unfold lowerRejection
      split <;> omega
    have first := least _ (.inl rfl)
    refine ⟨?_, fun x hx => ?_⟩
    · rcases from_ with e | e
      · rcases choice with c | c
        · exact .inl (e.trans c)
        · exact .inr (by rw [e, c]; exact List.mem_cons_self)
      · exact .inr (List.mem_cons_of_mem _ e)
    · rcases hx with rfl | hx
      · exact Nat.le_trans first below.1
      · rcases List.mem_cons.mp hx with rfl | hx
        · exact Nat.le_trans first below.2
        · exact least x (.inr hx)

/-- A lot that the return engine may take. -/
def returnable (p : Part) (l : Lot) : Prop := l ∈ p.lot.lots ∧ l.state = .rejected ∧ l.held = false

theorem mem_returnable {l : Lot} :
    l ∈ p.lot.lots.filter (fun l => decide (l.state = .rejected) && !l.held) ↔ returnable p l := by
  simp [returnable]

theorem firstRejected_some {l : Lot} (h : firstRejected p = some l) :
    returnable p l ∧ ∀ k, returnable p k → l.rejectionNo.getD 0 ≤ k.rejectionNo.getD 0 := by
  unfold firstRejected at h
  split at h
  · cases h
  · next x ls e =>
    obtain ⟨from_, least⟩ := foldl_lowerRejection ls x
    obtain rfl := Option.some.inj h
    refine ⟨mem_returnable.mp ?_, fun k hk => ?_⟩
    · rw [e]
      rcases from_ with f | f
      · rw [f]; exact List.mem_cons_self
      · exact List.mem_cons_of_mem _ f
    · have there := mem_returnable.mpr hk
      rw [e] at there
      exact least k (List.mem_cons.mp there)

theorem firstRejected_none : firstRejected p = none ↔ ∀ l, ¬ returnable p l := by
  unfold firstRejected
  split
  · next e =>
    refine ⟨fun _ l hl => ?_, fun _ => rfl⟩
    have there := mem_returnable.mpr hl
    rw [e] at there
    simp at there
  · next x ls e =>
    have there : returnable p x := mem_returnable.mp (by rw [e]; exact List.mem_cons_self)
    exact ⟨nofun, fun h => absurd there (h x)⟩

theorem findReturnSource_lot {l : Lot} (h : firstRejected p = some l) :
    findReturnSource b p = some (.lot l.number, l.vessel, some l.number) := by
  rw [findReturnSource, h]

theorem findReturnSource_quarantine (h : firstRejected p = none) (hv : roleVessel .quarantine p = some v) :
    findReturnSource b p = if 0 < (b.vessel v).volume then some (.quarantine, v, none) else none := by
  rw [findReturnSource, h]
  dsimp only
  rw [hv]

theorem findReturnSource_none (h : firstRejected p = none) (hv : roleVessel .quarantine p = none) :
    findReturnSource b p = none := by
  rw [findReturnSource, h]
  dsimp only
  rw [hv]

theorem examineReturn_running (h : ∃ n, p.reg.ret = .running n) : examineReturn b p = p :=
  if_pos ((isRunning_iff _).mpr h)

section
variable (h : ∀ n, p.reg.ret ≠ .running n)
include h

theorem examineReturn_held (hk : kindHeld p .ret = true) :
    examineReturn b p = setReturn (.waiting .held) none none p :=
  (if_neg (by simp [isRunning_false h])).trans (if_pos hk)

theorem examineReturn_none (hk : kindHeld p .ret = false) (hf : findReturnSource b p = none) :
    examineReturn b p = setReturn .idle none none p := by
  simp [examineReturn, isRunning_false h, hk, hf]

theorem examineReturn_stopped {src : ReturnSource} {lot : Option Nat} (hk : kindHeld p .ret = false)
    (hf : findReturnSource b p = some (src, v, lot)) (ha : (actionsInForce p).stopRegulation = true) :
    examineReturn b p = setReturn (.waiting .stopped) (some src) none p := by
  simp [examineReturn, isRunning_false h, hk, hf, ha]

theorem examineReturn_starts {src : ReturnSource} {lot : Option Nat} {f : VesselId} (hk : kindHeld p .ret = false)
    (hf : findReturnSource b p = some (src, v, lot)) (ha : (actionsInForce p).stopRegulation = false)
    (hr : roleVessel .feed p = some f) : examineReturn b p = startReturn b f v src lot p := by
  simp [examineReturn, isRunning_false h, hk, hf, ha, hr]

end

/-- The water that FEED has room for. -/
def feedRoom (b : Books) (p : Part) (f : VesselId) : Nat :=
  (vesselRec p f).capacity.getD 0 * p.reg.marks.feedHigh / 8 - (b.vessel f).volume

theorem startReturn_eq {src : ReturnSource} {lot : Option Nat} {f : VesselId} (hr : roleVessel .feed p = some f) :
    startReturn b f v src lot p =
    if portBusy p (.vesselInlet f) then
      setReturn (.waiting .inletBusy) (some src) (some (.vesselOutlet v, .vesselInlet f)) p
    else if feedRoom b p f = 0 then
      setReturn (.waiting .feedFull) (some src) (some (.vesselOutlet v, .vesselInlet f)) p
    else if min (b.vessel v).volume (feedRoom b p f) < min (b.vessel v).volume 50 then
      setReturn (.waiting .tooSmall) (some src) (some (.vesselOutlet v, .vesselInlet f)) p
    else if (vesselRec p f).inlet = .disabled then
      setReturn (.waiting .disabled) (some src) (some (.vesselOutlet v, .vesselInlet f)) p
    else returnAnswered src lot v f (askStart b { kind := .ret, source := .vesselOutlet v, dest := .vesselInlet f
                                                  requested := min (b.vessel v).volume (feedRoom b p f), lot := lot } p) := by
  have room : admissionLimit p - (b.vessel f).volume = feedRoom b p f := by rw [admissionLimit_eq hr]; rfl
  dsimp only [startReturn]
  rw [room]
  rfl

end

/-- Settles O48: evaluation, valve and block, and the three needs, each by its own checks. -/
theorem reuseMarksAct : Obligations.ReuseMarksAct := by
  refine ⟨fun b p => ⟨reuseEvaluation_off, fun v hv hs => ⟨fun ha => ?_, fun ha => ?_⟩⟩, fun b p v hv => ?_,
    fun b p => ⟨supplyCheck_none, fun v hv => ?_⟩, fun b p => ?_, fun b p => ?_, fun b p => ?_⟩
  · exact (reuseEvaluation_on hv hs).trans (if_pos ha)
  · exact (reuseEvaluation_on hv hs).trans (if_neg (by simp [ha]))
  · intro vol high low
    exact ⟨fun n hn => ⟨fun h => (spillEvaluation_running hv hn).trans (if_pos h),
      fun h => (spillEvaluation_running hv hn).trans (if_neg (Nat.not_le.mpr h))⟩, spillEvaluation_idle,
      fun n hn => ⟨fun h => (fillEvaluation_running hv hn).trans (if_pos h),
        fun h => (fillEvaluation_running hv hn).trans (if_neg (Nat.not_le.mpr h))⟩, fillEvaluation_idle⟩
  · intro vol cap
    have supply := supplyCheck_some (b := b) hv
    have block := blockCheck_eq (b := b) hv
    refine ⟨fun ho h => ?_, fun ho h => ?_, fun ho h => ?_, fun ho h => ?_, fun hb h => ?_, fun hb h => ?_, fun hb h => ?_,
      fun hb h => ?_⟩
    · exact supply.trans (if_pos ⟨h, ho⟩)
    · exact supply.trans ((if_neg fun k => absurd k.1 (Nat.not_le.mpr h)).trans (if_neg fun k => by simp [ho] at k))
    · exact supply.trans ((if_neg fun k => by simp [ho] at k).trans (if_pos ⟨h, ho⟩))
    · exact supply.trans ((if_neg fun k => by simp [ho] at k).trans (if_neg fun k => absurd k.1 (Nat.not_le.mpr h)))
    · exact block.trans (if_pos ⟨h, hb⟩)
    · exact block.trans ((if_neg fun k => absurd k.1 (Nat.not_lt.mpr h)).trans (if_neg fun k => by simp [hb] at k))
    · exact block.trans ((if_neg fun k => by simp [hb] at k).trans (if_pos ⟨h, hb⟩))
    · exact block.trans ((if_neg fun k => by simp [hb] at k).trans (if_neg fun k => absurd k.1 (Nat.not_le.mpr h)))
  · intro waits
    refine ⟨spillCheck_running, spillCheck_off, fun v h hs hv => ?_⟩
    intro e asked
    refine ⟨spillCheck_held h hs hv, spillCheck_none h hs hv, spillCheck_stopped h hs hv, fun hk he ha => ?_⟩
    have answered : spillCheck b p = spillAnswered b v e asked := spillCheck_asks h hs hv hk he ha
    refine ⟨fun hw => ?_, fun hw => ?_, fun hw => ?_, fun lot t hw => ?_⟩
    · rw [answered, spillAnswered, hw]
    · rw [answered, spillAnswered, hw]
    · rw [answered, spillAnswered, hw]
    · have named : spillCheck b p = startSpill b v t lot e asked.1 := by rw [answered, spillAnswered, hw]
      intro want ports r
      refine ⟨fun hd => named.trans (startSpill_disabled hd), fun hd hz => named.trans (startSpill_full hd hz),
        fun hd hz => ?_⟩
      obtain ⟨started, refused⟩ := startSpill_asks (b := b) (v := v) (lot := lot) (e := e) hd hz (r := r) rfl
      exact ⟨fun n hn => named.trans (started n hn), fun why hn => named.trans (refused why hn)⟩
  · refine ⟨fillCheck_running, fillCheck_off, fun v h hs hv => ?_⟩
    intro short r
    have eq : fillCheck b p = if kindHeld p .fill then setFill (.waiting .held) none p
        else if short = 0 then setFill .idle none p
        else if (actionsInForce p).stopRegulation then setFill (.waiting .stopped) none p
        else fillAnswered r := fillCheck_eq h hs hv
    refine ⟨fun hk => ?_, fun hk hz => ?_, fun hk hz ha => ?_, fun hk hz ha => ⟨fun n hn => ?_, fun why hn => ?_⟩⟩
    · exact eq.trans (if_pos hk)
    · rw [eq, hk, hz, if_neg Bool.false_ne_true, if_pos rfl]
    · rw [eq, hk, ha, if_neg Bool.false_ne_true, if_neg (Nat.pos_iff_ne_zero.mp hz), if_pos rfl]
    · rw [eq, hk, ha, if_neg Bool.false_ne_true, if_neg (Nat.pos_iff_ne_zero.mp hz), if_neg Bool.false_ne_true,
        fillAnswered, hn]
    · rw [eq, hk, ha, if_neg Bool.false_ne_true, if_neg (Nat.pos_iff_ne_zero.mp hz), if_neg Bool.false_ne_true,
        fillAnswered, hn]
  · intro returns
    refine ⟨fun l => firstRejected_some, firstRejected_none, fun l => findReturnSource_lot,
      fun v => findReturnSource_quarantine, findReturnSource_none, examineReturn_running, fun h =>
      ⟨examineReturn_held h, examineReturn_none h, fun src v lot hk hf => ⟨examineReturn_stopped h hk hf,
        fun f ha hr => ?_⟩⟩⟩
    intro stock room ports waits r
    have eq := (examineReturn_starts h hk hf ha hr).trans (startReturn_eq hr)
    refine ⟨fun hb => ?_, fun hb hz => ?_, fun hb hz hs => ?_, fun hb hz hs => ⟨fun hd => ?_, fun hd => ?_⟩⟩
    · exact eq.trans (if_pos hb)
    · exact eq.trans ((if_neg (by simp [hb])).trans (if_pos hz))
    · exact eq.trans ((if_neg (by simp [hb])).trans ((if_neg (Nat.pos_iff_ne_zero.mp hz)).trans (if_pos hs)))
    · exact eq.trans ((if_neg (by simp [hb])).trans ((if_neg (Nat.pos_iff_ne_zero.mp hz)).trans
        ((if_neg (Nat.not_lt.mpr hs)).trans (if_pos hd))))
    · have asks : examineReturn b p = returnAnswered src lot v f r :=
        eq.trans ((if_neg (by simp [hb])).trans ((if_neg (Nat.pos_iff_ne_zero.mp hz)).trans
          ((if_neg (Nat.not_lt.mpr hs)).trans (if_neg hd))))
      refine ⟨fun why hn => ?_, fun n hn => ?_⟩
      · rw [asks, returnAnswered, hn]
      · rw [asks, returnAnswered, hn]
        cases lot <;> rfl

end Sys2Proof.Machine
end

