-- ==== Sys2Proof/Proofs/CellServices.lean ====
section
/-! SUPPORT. The cell requests, the cell probes, the run limit and the cell fault inputs (R117 to R132). -/

namespace Sys2Proof.Machine

section
variable {n : Byte} {k w : Nat} {i : CellItems} {c : CellId} {b : Books} {p q : Part} {s : State}

/-! ## SET CELL (R117) -/

theorem cellRanges_iff (i : CellItems) : cellRanges i = true ↔
    (∀ x, i.chargeVolume = some x → 50 ≤ x ∧ x ≤ 2000) ∧ (∀ x, i.endConc = some x → x ≤ 30000) ∧
      (∀ x, i.runLimit = some x → 600 ≤ x ∧ x ≤ 86400) ∧
      (∀ x, i.cathodeCapacity = some x → 1 ≤ x ∧ x ≤ 50000000) := by
  simp only [cellRanges, Bool.and_eq_true, inRange_all, Nat.zero_le, true_and, and_assoc]

theorem takeSetCell_commissioning {r : Plant} (h : r.part.ctl.mode = .commissioning) (hc : cellOf k = some c) :
    takeSetCell k i r = setCellOf i c r := (if_pos h).trans (by rw [hc]; rfl)

theorem takeSetCell_bad {r : Plant} (h : r.part.ctl.mode = .commissioning)
    (hv : cellOf k = none ∨ cellRanges i = false) : takeSetCell k i r = refuse .badValue r := by
  refine (if_pos h).trans ?_
  rcases hv with hv | hv
  · rw [hv]
    rfl
  · cases hc : cellOf k with
    | none => rfl
    | some c => exact if_pos (by simp [hv])

theorem setCellOf_busy {r : Plant} (hv : cellRanges i = true) (ho : (cellRec r.part c).state ≠ .offline)
    (hi : (cellRec r.part c).state ≠ .idle) : setCellOf i c r = refuse .wrongState r := by
  refine (if_neg (by simp [hv])).trans ?_
  split
  · exact absurd ‹_› ho
  · exact absurd ‹_› hi
  all_goals rfl

/-- The part that SET CELL leaves. -/
def cellSet (i : CellItems) (c : CellId) (b : Books) (p : Part) : Part :=
  arbiterIfResized b c (cellRec p c) (capacityCompared b i c (updCell c (applyCell i) p))

theorem setCellOf_sets {r : Plant} (hv : cellRanges i = true)
    (hs : (cellRec r.part c).state = .offline ∨ (cellRec r.part c).state = .idle) :
    setCellOf i c r = okay { r with part := cellSet i c r.books r.part } := by
  refine (if_neg (by simp [hv])).trans ?_
  rcases hs with hs | hs <;> simp only [hs] <;> rfl

theorem capacityCompared_eq (b : Books) (i : CellItems) (c : CellId) (p : Part) : capacityCompared b i c p =
    if (cellRec p c).state = .idle ∧ (∃ x, i.cathodeCapacity = some x ∧ x ≤ b.cathode c)
      then notify (.harvestNeeded c (b.cathode c)) p else p := by
  unfold capacityCompared
  cases i.cathodeCapacity <;> simp

theorem capacityCompared_cel (b : Books) (i : CellItems) (c : CellId) (p : Part) :
    (capacityCompared b i c p).cel = p.cel := by
  rw [capacityCompared_eq]
  split
  · exact notify_cel _ _
  · rfl

theorem capacityCompared_standing (b : Books) (i : CellItems) (c : CellId) (p : Part) :
    (capacityCompared b i c p).standing = p.standing := by
  rw [capacityCompared_eq]
  split
  · exact standing_notify _ _
  · rfl

theorem capacityCompared_ctl (b : Books) (i : CellItems) (c : CellId) (p : Part) :
    (capacityCompared b i c p).ctl = p.ctl := by
  rw [capacityCompared_eq]
  split
  · exact notify_ctl _ _
  · rfl

theorem cellRec_arbiterOutcome (o : ArbOutcome) (chosen : Option CellId) (p : Part) (c : CellId) :
    cellRec (arbiterOutcome o chosen p) c = cellRec p c := rfl

theorem standing_arbiterOutcome (o : ArbOutcome) (chosen : Option CellId) (p : Part) :
    (arbiterOutcome o chosen p).standing = p.standing := rfl

theorem examineArbiter_mode (b : Books) (h : p.ctl.mode ≠ .operating) :
    examineArbiter b p = arbiterOutcome .mode none p := if_pos h

/-- Outside OPERATING the examination at a resized cell records an outcome, and no more. -/
theorem arbiterIfResized_mode (b : Books) (c : CellId) (old : CellRec) (h : p.ctl.mode ≠ .operating) :
    cellRec (arbiterIfResized b c old p) c = cellRec p c ∧ (arbiterIfResized b c old p).standing = p.standing := by
  dsimp only [arbiterIfResized]
  split
  · exact ⟨rfl, rfl⟩
  · rw [examineArbiter_mode b h]
    exact ⟨rfl, rfl⟩

theorem cellRec_cellSet (h : p.ctl.mode ≠ .operating) :
    cellRec (cellSet i c b p) c = applyCell i (cellRec p c) := by
  have same := congrArg (fun x : CellUnit => x.cells.get c)
    (capacityCompared_cel b i c (updCell c (applyCell i) p))
  refine (arbiterIfResized_mode b c _ ?_).1.trans (same.trans ?_)
  · rw [capacityCompared_ctl]
    exact h
  · exact (cellRec_updCell c c (applyCell i) p).trans (if_pos rfl)

theorem standing_cellSet (h : p.ctl.mode ≠ .operating) :
    (cellSet i c b p).standing = (updCell c (fun _ => applyCell i (cellRec p c)) p).standing := by
  refine (arbiterIfResized_mode b c _ ?_).2.trans (capacityCompared_standing b i c _)
  rw [capacityCompared_ctl]
  exact h

/-! ## CELL ON, CELL OFF and HARVEST (R118, R127) -/

theorem cellOnOf_on {r : Plant} (h : (cellRec r.part c).state = .offline)
    (hc : cellConfigured (cellRec r.part c) = true) :
    cellOnOf c r = okay { r with part := examineArbiter r.books (setCellState c .idle .host r.part) } :=
  if_pos ⟨h, hc⟩

theorem cellOnOf_refused {r : Plant}
    (h : (cellRec r.part c).state ≠ .offline ∨ cellConfigured (cellRec r.part c) = false) :
    cellOnOf c r = refuse .wrongState r :=
  if_neg fun ⟨off, ready⟩ => h.elim (· off) (fun x => absurd (ready.symm.trans x) nofun)

theorem cellConfigured_iff (r : CellRec) : cellConfigured r = true ↔
    r.chargeVolume.isSome = true ∧ r.runLimit.isSome = true ∧ r.cathodeCapacity.isSome = true := by
  simp only [cellConfigured, Bool.and_eq_true, and_assoc]

theorem harvestOf_harvests {r : Plant}
    (h : (cellRec r.part c).state = .idle ∨ (cellRec r.part c).state = .offline) :
    harvestOf c r = okay { r with part := examineArbiter r.books (setCellState c .harvest .host r.part) } := by
  rcases h with h | h <;> simp only [harvestOf, h]

theorem harvestOf_refused {r : Plant} (hi : (cellRec r.part c).state ≠ .idle)
    (ho : (cellRec r.part c).state ≠ .offline) : harvestOf c r = refuse .wrongState r := by
  unfold harvestOf
  split
  · exact absurd ‹_› hi
  · exact absurd ‹_› ho
  all_goals rfl

/-! ## HARVEST DONE (R128) -/

theorem harvestDoneOf_bad {r : Plant} (h : 1000000000 < w) : harvestDoneOf w c r = refuse .badValue r := if_pos h

theorem harvestDoneOf_refused {r : Plant} (h : w ≤ 1000000000) (hs : (cellRec r.part c).state ≠ .harvest) :
    harvestDoneOf w c r = refuse .wrongState r := (if_neg (Nat.not_lt.mpr h)).trans (if_neg hs)

theorem harvestDoneOf_books {r : Plant} (h : w ≤ 1000000000) (hs : (cellRec r.part c).state = .harvest) :
    harvestDoneOf w c r = (⟨r.books.book (.harvest c w), afterBooking r.books (r.books.book (.harvest c w)) [] none none
      (harvestTold c (r.books.book (.harvest c w)) r.part)⟩,
      { status := .ok, items := .harvested (r.books.cathode c) w }) := by
  refine (if_neg (Nat.not_lt.mpr h)).trans ((if_pos hs).trans ?_)
  simp only [bookAndTell, Booking.vessels]

theorem cathode_book_harvest (b : Books) (c : CellId) (w : Nat) : (b.book (.harvest c w)).cathode c = 0 :=
  (get_updAt b.cathodes c c (fun _ => 0)).trans (if_pos rfl)

end

/-- Settles O49: by the checks of each request in their order. -/
theorem cellRequests : Obligations.CellRequests := by
  refine ⟨fun n k i s hp => ?_, fun n k c s hs hc => ?_, fun b c w => ⟨cathode_book_harvest b c w, rfl⟩⟩
  · refine ⟨fun h => request_told hp (if_neg h),
      fun h hv => request_told hp (takeSetCell_bad (r := ⟨s.books, s.begun⟩) h hv), cellRanges_iff i,
      fun c h hc hv => ⟨fun ho hi => ?_, fun hst => ?_⟩⟩
    · exact request_told hp ((takeSetCell_commissioning (r := ⟨s.books, s.begun⟩) h hc).trans
        (setCellOf_busy (r := ⟨s.books, s.begun⟩) hv ho hi))
    · intro set told
      have working : s.begun.ctl.mode ≠ .operating := fun e => absurd (h.symm.trans e) nofun
      have asked : capacityCompared s.books i c set = told := by
        have state : (cellRec set c).state = (cellRec s.part c).state :=
          (congrArg CellRec.state ((cellRec_updCell c c (applyCell i) s.begun).trans (if_pos rfl))).trans rfl
        rw [capacityCompared_eq, state]
      have record : cellRec told c = cellRec set c :=
        asked ▸ congrArg (fun x : CellUnit => x.cells.get c) (capacityCompared_cel s.books i c set)
      refine ⟨cellSet i c s.books s.begun, request_answered hp
        ((takeSetCell_commissioning (r := ⟨s.books, s.begun⟩) h hc).trans
          (setCellOf_sets (r := ⟨s.books, s.begun⟩) hv hst)), ?_, ?_, ?_⟩
      · have stated : cellSet i c s.books s.begun =
            arbiterIfResized s.books c (cellRec s.begun c) (capacityCompared s.books i c set) := rfl
        rw [stated, asked, ← record]
        rfl
      · rw [cellRec_cellSet working]
        cases e : i.endConc <;> cases d : i.drainPref <;> simp only [applyCell, orHeld, e, d, Option.getD] <;> rfl
      · rw [standing_cellSet working, cellRec_cellSet working]
  · intro r put
    have told {take : CellId → Plant → Plant × Reply} {kind : Byte} {st : Status}
        (e : take c ⟨s.books, s.begun⟩ = refuse st ⟨s.books, s.begun⟩) :
        command (request n kind (inService (named (cellOf k) take))) s = .next (s.told n kind { status := st }) :=
      request_named hs hc e
    refine ⟨fun ho hv hl hk => request_named hs hc
        (cellOnOf_on (r := ⟨s.books, s.begun⟩) ho ((cellConfigured_iff r).mpr ⟨hv, hl, hk⟩)),
      fun h => told (cellOnOf_refused (r := ⟨s.books, s.begun⟩) (h.imp_right fun h => ?_)),
      fun h => request_named hs hc (if_pos h), fun h => told (if_neg h),
      fun h => request_named hs hc (harvestOf_harvests (r := ⟨s.books, s.begun⟩) h),
      fun hi ho => told (harvestOf_refused (r := ⟨s.books, s.begun⟩) hi ho),
      fun w h => told (harvestDoneOf_bad (r := ⟨s.books, s.begun⟩) h),
      fun w h hst => told (harvestDoneOf_refused (r := ⟨s.books, s.begun⟩) h hst), fun w h hst => ?_⟩
    · rcases h with h | h | h <;> simp [cellConfigured, h, show cellRec s.begun c = r from rfl]
    · intro after booked
      have state : (if cellConfigured r then CellState.idle else .offline) = after :=
        ite_of_iff (cellConfigured_iff r) rfl rfl
      have same : cellConfigured (cellRec (updCell c (fun x => { x with harvestRequired := false }) s.begun) c) =
          cellConfigured r := by
        rw [cellRec_updCell, if_pos rfl]
        rfl
      refine request_after hs.1 ((inService_named (q := ⟨s.books, s.begun⟩) hs.2 hc).trans
        ((harvestDoneOf_books (r := ⟨s.books, s.begun⟩) h hst).trans ?_))
      rw [← state]
      rfl

end Sys2Proof.Machine
end

