-- ==== Sys2Proof/Proofs/Probes.lean ====
section
/-! SUPPORT. The cell probes, the run limit and the cell fault inputs (R123, R124, R129). -/

namespace Sys2Proof.Machine

section
variable {c : CellId} {b : Books} {p : Part} {q : Plant} {x : Nat}

theorem updAt_updAt {α : Type} {n : Nat} (xs : Vector α n) (i : Fin n) (f g : α → α) :
    updAt (updAt xs i f) i g = updAt xs i (fun r => g (f r)) := by
  have same : (updAt xs i f).get i = f (xs.get i) := (get_updAt xs i i f).trans (if_pos rfl)
  have stated : updAt (updAt xs i f) i g = (updAt xs i f).set i.1 (g ((updAt xs i f).get i)) i.2 := rfl
  rw [stated, same]
  exact Vector.set_set ..

/-- Two updates of one cell are one. -/
theorem updCell_updCell (c : CellId) (f g : CellRec → CellRec) (p : Part) :
    updCell c g (updCell c f p) = updCell c (fun r => g (f r)) p :=
  congrArg (fun v => ({ p with cel := { p.cel with cells := v } } : Part)) (updAt_updAt p.cel.cells c f g)

theorem cellRec_updCell_same (c : CellId) (f : CellRec → CellRec) (p : Part) :
    cellRec (updCell c f p) c = f (cellRec p c) := (cellRec_updCell c c f p).trans (if_pos rfl)

/-- The part of a cell that enters DRAINING, with its notice (R124). -/
def drains (c : CellId) (r : CellReason) (p : Part) : Part :=
  notify (.cellState c .draining r) (updCell c (fun y => { y with
    state := .draining, rectifier := false, paused := false, runTimer := none }) p)

theorem enterDraining_eq (c : CellId) (r : CellReason) (p : Part) : enterDraining c r p = drains c r p :=
  congrArg (notify _) (updCell_updCell c _ _ p)

/-! ## The checks of a run (R124) -/

/-- The cathode load has reached the capacity set. -/
def cathodeFull (b : Books) (c : CellId) (p : Part) : Prop :=
  ∃ k, (cellRec p c).cathodeCapacity = some k ∧ k ≤ b.cathode c

theorem cathodeFull_iff : (match (cellRec p c).cathodeCapacity with
    | some k => decide (k ≤ b.cathode c)
    | none => false) = true ↔ cathodeFull b c p := by
  unfold cathodeFull
  cases (cellRec p c).cathodeCapacity <;> simp

theorem platingChecks_full (h : cathodeFull b c p) (conc : Option Nat) : platingChecks b c conc p =
    beginDrain b c (notify (.harvestNeeded c (b.cathode c))
      (drains c .cathodeFull (updCell c (fun y => { y with harvestRequired := true }) p))) :=
  (if_pos (cathodeFull_iff.mpr h)).trans
    (congrArg (fun z => beginDrain b c (notify (.harvestNeeded c (b.cathode c)) z)) (enterDraining_eq c _ _))

theorem platingChecks_done (h : ¬ cathodeFull b c p) (hx : x ≤ (cellRec p c).endConc) :
    platingChecks b c (some x) p = beginDrain b c (drains c .endConcentration p) :=
  (if_neg ((not_congr cathodeFull_iff).mpr h)).trans
    ((if_pos (decide_eq_true hx)).trans (congrArg (beginDrain b c) (enterDraining_eq c _ p)))

theorem platingChecks_on (h : ¬ cathodeFull b c p) (hx : (cellRec p c).endConc < x) :
    platingChecks b c (some x) p = p :=
  (if_neg ((not_congr cathodeFull_iff).mpr h)).trans (if_neg (by simpa using hx))

/-! ## A reading (R123) -/

theorem cellRec_recordProbe (c : CellId) (x : Nat) (p : Part) :
    cellRec (recordProbe c x p) c = { cellRec p c with lastProbe := some x } := cellRec_updCell_same c _ p

theorem recordProbe_state (c : CellId) (x : Nat) (p : Part) :
    (cellRec (recordProbe c x p) c).state = (cellRec p c).state :=
  (congrArg CellRec.state (cellRec_recordProbe c x p)).trans rfl

theorem recordProbe_paused (c : CellId) (x : Nat) (p : Part) :
    (cellRec (recordProbe c x p) c).paused = (cellRec p c).paused :=
  (congrArg CellRec.paused (cellRec_recordProbe c x p)).trans rfl

theorem probeReading_high (h : 30000 < x) : probeReading c (some x) q = q := if_pos h

theorem probeReading_out (h : x ≤ 30000) (hm : q.part.ctl.mode.inService = false) :
    probeReading c (some x) q = { q with part := recordProbe c x q.part } :=
  (if_neg (Nat.not_lt.mpr h)).trans (if_neg (by simp [hm]))

theorem probeReading_in (h : x ≤ 30000) (hm : q.part.ctl.mode.inService = true) :
    probeReading c (some x) q = validProbe c x q := (if_neg (Nat.not_lt.mpr h)).trans (if_pos hm)

theorem readingChecked_idle {p' : Part} (h : (cellRec p' c).state ≠ .plating ∨ (cellRec p' c).paused = true) :
    readingChecked c x b p' = p' :=
  if_neg fun ⟨plating, going⟩ => h.elim (· plating) (fun e => absurd (e.symm.trans going) nofun)

theorem readingChecked_going (hs : (cellRec p c).state = .plating) (hp : (cellRec p c).paused = false) :
    readingChecked c x b p = arbiterIfMoved b c .plating (platingChecks b c (some x) p) := if_pos ⟨hs, hp⟩

/-- The reading lowers the liquor's mass. -/
def lowersLiquor (b : Books) (c : CellId) (x : Nat) : Prop := x * (b.liquor c).volume < (b.liquor c).mass

theorem validProbe_records (h : (cellRec q.part c).state ≠ .plating ∨ ¬ lowersLiquor q.books c x) :
    validProbe c x q = ⟨q.books, readingChecked c x q.books (recordProbe c x q.part)⟩ := by
  exact if_neg fun ⟨plating, lower⟩ => h.elim (· ((recordProbe_state c x q.part).symm.trans plating)) (· lower)

theorem validProbe_books (h : (cellRec q.part c).state = .plating) (lower : lowersLiquor q.books c x) :
    validProbe c x q = ⟨q.books.book (.plating c x), afterBooking q.books (q.books.book (.plating c x)) [] none none
      (readingChecked c x (q.books.book (.plating c x)) (recordProbe c x q.part))⟩ := by
  refine (if_pos ⟨(recordProbe_state c x q.part).trans h, lower⟩).trans ?_
  simp only [bookAndTell, Booking.vessels]

theorem liquor_book_plating (h : lowersLiquor b c x) :
    (b.book (.plating c x)).liquor c = ⟨(b.liquor c).volume, x * (b.liquor c).volume⟩ :=
  ((get_updAt b.liquors c c _).trans (if_pos rfl)).trans
    (congrArg (Holding.mk (b.liquor c).volume) (Nat.sub_sub_self (Nat.le_of_lt h)))

theorem cathode_book_plating (b : Books) (c : CellId) (x : Nat) : (b.book (.plating c x)).cathode c =
    b.cathode c + ((b.liquor c).mass - x * (b.liquor c).volume) :=
  (get_updAt b.cathodes c c _).trans (if_pos rfl)

/-! ## The run limit (R122, R124) -/

theorem runLimitExpires_none (h : ¬ p.ctl.mode.inService = true ∨ (cellRec p c).state ≠ .plating ∨
    (cellRec p c).runTimer = none ∨ (cellRec p c).paused = true) : runLimitExpires b c p = p := by
  refine if_neg fun ⟨service, plating, timer, going⟩ => ?_
  rcases h with h | h | h | h
  · exact h service
  · exact h plating
  · rw [h] at timer
    cases timer
  · exact absurd (h.symm.trans going) nofun

theorem runLimitExpires_acts (hm : p.ctl.mode.inService = true) (hs : (cellRec p c).state = .plating)
    (ht : (cellRec p c).runTimer.isSome = true) (hp : (cellRec p c).paused = false) : runLimitExpires b c p =
      examineArbiter b (beginDrain b c (notify (.incompleteRun c (cellRec p c).lastProbe (b.liquor c).volume
        (b.liquor c).mass) (drains c .runLimit p))) :=
  (if_pos ⟨hm, hs, ht, hp⟩).trans (congrArg (fun z => examineArbiter b (beginDrain b c
    (notify (.incompleteRun c (cellRec p c).lastProbe (b.liquor c).volume (b.liquor c).mass) z)))
      (enterDraining_eq c _ p))

/-! ## The fault inputs (R129) -/

theorem cellFaultChanges_same {on : Bool} (h : (cellRec p c).faultInput = on) : cellFaultChanges b c on p = p :=
  if_pos h

/-- The part once the fault input has changed. -/
def faultInputSet (c : CellId) (on : Bool) (p : Part) : Part := updCell c (fun r => { r with faultInput := on }) p

theorem cellFaultChanges_out {on : Bool} (h : (cellRec p c).faultInput = !on)
    (ho : p.ctl.resetHeld = true ∨ p.ctl.mode.inService = false) :
    cellFaultChanges b c on p = faultInputSet c on p := by
  refine (if_neg (by simp [h])).trans (if_pos ?_)
  rcases ho with ho | ho <;> simp [ho]

theorem cellFaultChanges_in {on : Bool} (h : (cellRec p c).faultInput = !on) (hr : p.ctl.resetHeld = false)
    (hm : p.ctl.mode.inService = true) : cellFaultChanges b c on p = if on
      then cellFaultActive b c (faultInputSet c true p)
      else reportOn .cellFault (.cell c) .cleared (faultInputSet c false p) := by
  refine (if_neg (by simp [h])).trans ((if_neg (by simp [hr, hm])).trans ?_)
  cases on <;> rfl

theorem cellMove_congr {p' : Part} (h : p'.mov = p.mov) : cellMove p' c = cellMove p c := by
  unfold cellMove
  rw [h]

end

/-- Settles O50: by the state of the cell, its pause and what the reading lowers. -/
theorem cellReadingsAndLimits : Obligations.CellReadingsAndLimits := by
  refine ⟨fun c s hl => ⟨command_after hl (f := probeReading c none) rfl,
      fun x h => command_after hl (f := probeReading c (some x)) (probeReading_high h), fun x h => ?_⟩,
    fun b c x p => ⟨fun h => platingChecks_full h (some x), platingChecks_done, platingChecks_on⟩,
    fun b c x h => ⟨liquor_book_plating h, cathode_book_plating b c x⟩, fun c s hl => ?_, fun c s => ?_⟩
  · intro read lower
    have state : (cellRec read c).state = (cellRec s.part c).state := recordProbe_state c x s.begun
    have paused : (cellRec read c).paused = (cellRec s.part c).paused := recordProbe_paused c x s.begun
    have valid (hm : s.inService) : probeReading c (some x) ⟨s.books, s.begun⟩ = validProbe c x ⟨s.books, s.begun⟩ :=
      probeReading_in (q := ⟨s.books, s.begun⟩) h hm
    have records (hm : s.inService) (hn : (cellRec s.part c).state ≠ .plating ∨ ¬ lower) :
        exec (.cellProbeReading c (some x)) s = .next (s.after s.books (readingChecked c x s.books read)) :=
      command_after hl ((valid hm).trans (validProbe_records (q := ⟨s.books, s.begun⟩) hn))
    have books (hm : s.inService) (hs : (cellRec s.part c).state = .plating) (hw : lower) :
        exec (.cellProbeReading c (some x)) s = .next (s.after (s.books.book (.plating c x))
          (afterBooking s.books (s.books.book (.plating c x)) [] none none
            (readingChecked c x (s.books.book (.plating c x)) read))) :=
      command_after hl ((valid hm).trans (validProbe_books (q := ⟨s.books, s.begun⟩) hs hw))
    have still (b : Books) (hp : (cellRec s.part c).paused = true) : readingChecked c x b read = read :=
      readingChecked_idle (.inr (paused.trans hp))
    have going (b : Books) (hs : (cellRec s.part c).state = .plating) (hp : (cellRec s.part c).paused = false) :
        readingChecked c x b read = arbiterIfMoved b c .plating (platingChecks b c (some x) read) :=
      readingChecked_going (state.trans hs) (paused.trans hp)
    refine ⟨fun ho => ?_, fun hm hs hp hw => ?_, fun hm hs hp hw => ?_, fun hm hs hp hw => ?_, fun hm hs hp hw => ?_⟩
    · by_cases hm : s.inService
      · have other := ho.resolve_left (Classical.not_not.mpr hm)
        rw [records hm (.inl other), readingChecked_idle (.inl (state ▸ other))]
      · exact command_after hl (probeReading_out (q := ⟨s.books, s.begun⟩) h (Bool.eq_false_iff.mpr hm))
    · rw [records hm (.inr hw), still _ hp]
    · refine (books hm hs hw).trans ?_
      rw [still _ hp]
    · rw [records hm (.inr hw), going _ hs hp]
    · refine (books hm hs hw).trans ?_
      rw [going _ hs hp]
  · intro r
    have live := partCommand_live (fun b p => runLimitExpires b c p) s hl
    have after {p : Part} (e : runLimitExpires s.books c s.begun = p) :
        exec (.runLimitExpiry c) s = .next (s.after s.books p) :=
      live.trans (congrArg (fun p => Host.Outcome.next (s.after s.books p)) e)
    exact ⟨fun h => after (runLimitExpires_none (p := s.begun) h),
      fun hm hs ht hp => after (runLimitExpires_acts (p := s.begun) hm hs ht hp)⟩
  · intro changed
    have after {on : Bool} {p : Part} (e : cellFaultChanges s.books c on s.begun = p) :
        exec (.cellFaultInput c on) s = .next (s.after s.books p) :=
      lineCommand_after (f := fun q => { q with part := cellFaultChanges q.books c on q.part })
        (congrArg (Plant.mk s.books) e)
    have frame : hasFrame .cellFault (.cell c) (changed true) = hasFrame .cellFault (.cell c) s.part :=
      hasFrame_congr rfl
    have found (hw : s.working) (h : (cellRec s.part c).faultInput = false) :
        cellFaultChanges s.books c true s.begun = cellFaultActive s.books c (changed true) :=
      cellFaultChanges_in (p := s.begun) h hw.1 hw.2
    refine ⟨fun on h => after (cellFaultChanges_same (p := s.begun) h),
      fun on h ho => after (cellFaultChanges_out (p := s.begun) h ho),
      fun hw h => after (cellFaultChanges_in (p := s.begun) (on := false) h hw.1 hw.2), fun hw h => ⟨fun hf => ?_, fun hf => ?_⟩⟩
    · exact after ((found hw h).trans (raiseOrReport_framed (frame.trans hf)))
    · refine after ((found hw h).trans ((raiseOrReport_new (frame.trans hf)).trans ?_))
      rfl

end Sys2Proof.Machine
end

