-- ==== Sys2Proof/Proofs/Arbiter.lean ====
section
/-! SUPPORT. The feed-outlet arbiter: its choice, the charge floor and the grant (R119, R120). -/

namespace Sys2Proof.Machine

section
variable {b : Books} {c d : CellId} {f : VesselId} {p : Part}

/-! ## What a cell wants (R119, R129, R172) -/

theorem mem_allCells (c : CellId) : c ∈ allCells := by revert c; decide

theorem allCells_sorted : allCells.Pairwise (· < ·) := by decide

theorem mayCharge_iff : mayCharge b p c = true ↔ (cellRec p c).state = .idle ∧ cellHeld p c = false ∧
    ∃ k, (cellRec p c).cathodeCapacity = some k ∧ b.cathode c < k := by
  unfold mayCharge
  cases (cellRec p c).cathodeCapacity <;> simp [and_assoc]

theorem isWaiting_iff (n : Need) : n.isWaiting = true ↔ ∃ r, n = .waiting r := by
  cases n <;> simp [Need.isWaiting]

theorem wantsRemainder_iff : wantsRemainder p c = true ↔ (cellRec p c).state = .charging ∧
    (∃ r, (cellRec p c).step = .waiting r) ∧ cellHeld p c = false := by
  simp [wantsRemainder, isWaiting_iff, and_assoc]

theorem holdsCell_iff (g : Frame) : g.holdsCell c = true ↔ (g.ftype = .cellFault ∧ g.subject = .cell c) ∨
    (g.actions.stopMovement = true ∧
      ∃ m, g.interrupted = some m ∧ (m.dest = .cellInlet c ∨ m.source = .cellOutlet c)) := by
  unfold Frame.holdsCell Frame.names
  cases g.interrupted <;> simp

theorem cellHeld_iff : cellHeld p c = true ↔ ∃ g ∈ p.flt.stack, (g.ftype = .cellFault ∧ g.subject = .cell c) ∨
    (g.actions.stopMovement = true ∧
      ∃ m, g.interrupted = some m ∧ (m.dest = .cellInlet c ∨ m.source = .cellOutlet c)) := by
  simp only [cellHeld, List.any_eq_true, holdsCell_iff]

theorem chargeFloor_eq (p : Part) : chargeFloor p = (match roleVessel .feed p with
    | some g => (vesselRec p g).capacity.getD 0
    | none => 0) * p.reg.marks.feedLow / 8 := by
  unfold chargeFloor roleCapacity markVolume
  cases roleVessel .feed p <;> rfl

/-! ## The choice (R119) -/

/-- The order in which idle cells are taken: the lower load, and of two equal ones the first. -/
def Before (b : Books) (c d : CellId) : Prop := b.cathode c < b.cathode d ∨ (b.cathode c = b.cathode d ∧ c ≤ d)

theorem Before.refl (b : Books) (c : CellId) : Before b c c := .inr ⟨rfl, Nat.le_refl _⟩

theorem Before.trans {e : CellId} (h : Before b c d) (k : Before b d e) : Before b c e := by
  rcases h with h | ⟨h, le⟩
  · rcases k with k | ⟨k, -⟩
    · exact .inl (Nat.lt_trans h k)
    · exact .inl (k ▸ h)
  · rcases k with k | ⟨k, le'⟩
    · exact .inl (h ▸ k)
    · exact .inr ⟨h.trans k, Nat.le_trans le le'⟩

theorem lowerLoad_before (h : c < d) : Before b (lowerLoad b c d) c ∧ Before b (lowerLoad b c d) d := by
  unfold lowerLoad
  split
  · next lower => exact ⟨.inl lower, .refl b d⟩
  · next lower => exact ⟨.refl b c, (Nat.lt_or_eq_of_le (Nat.not_lt.mp lower)).imp_right fun same => ⟨same, Nat.le_of_lt h⟩⟩

theorem lowerLoad_mem (b : Books) (c d : CellId) : lowerLoad b c d = c ∨ lowerLoad b c d = d := by
  unfold lowerLoad
  split
  · exact .inr rfl
  · exact .inl rfl

/-- The fold over a sorted list ends with one of its cells, and with the first of them in the order. -/
theorem foldl_lowerLoad (b : Books) (l : List CellId) : ∀ c : CellId, (c :: l).Pairwise (· < ·) →
    l.foldl (lowerLoad b) c ∈ c :: l ∧ ∀ d ∈ c :: l, Before b (l.foldl (lowerLoad b) c) d := by
  induction l with
  | nil => exact fun c _ => ⟨List.mem_singleton_self c, fun d hd => List.mem_singleton.mp hd ▸ .refl b c⟩
  | cons x l ih =>
    intro c sorted
    obtain ⟨above, tail⟩ := List.pairwise_cons.mp sorted
    obtain ⟨aboveX, rest⟩ := List.pairwise_cons.mp tail
    have still : (lowerLoad b c x :: l).Pairwise (· < ·) := by
      refine List.pairwise_cons.mpr ⟨fun y hy => ?_, rest⟩
      rcases lowerLoad_mem b c x with e | e <;> rw [e]
      · exact above y (List.mem_cons_of_mem x hy)
      · exact aboveX y hy
    obtain ⟨inside, first⟩ := ih (lowerLoad b c x) still
    obtain ⟨beforeC, beforeX⟩ := lowerLoad_before (b := b) (above x List.mem_cons_self)
    have head := first _ List.mem_cons_self
    refine ⟨?_, fun d hd => ?_⟩
    · rcases List.mem_cons.mp inside with e | hl
      · rw [List.foldl_cons, e]
        rcases lowerLoad_mem b c x with e | e <;> simp [e]
      · exact List.mem_cons_of_mem c (List.mem_cons_of_mem x hl)
    · rcases List.mem_cons.mp hd with rfl | hd
      · exact head.trans beforeC
      · rcases List.mem_cons.mp hd with rfl | hd
        · exact head.trans beforeX
        · exact first d (List.mem_cons_of_mem _ hd)

theorem arbiterChoice_first (h : allCells.find? (wantsRemainder p) = some c) : arbiterChoice b p = some c := by
  rw [arbiterChoice, h]

theorem arbiterChoice_nobody (h : allCells.find? (wantsRemainder p) = none)
    (hf : allCells.filter (mayCharge b p) = []) : arbiterChoice b p = none := by
  simp only [arbiterChoice, h, hf]

theorem arbiterChoice_lowest {cs : List CellId} (h : allCells.find? (wantsRemainder p) = none)
    (hf : allCells.filter (mayCharge b p) = c :: cs) : arbiterChoice b p = some (cs.foldl (lowerLoad b) c) := by
  simp only [arbiterChoice, h, hf]

theorem none_wants (h : allCells.find? (wantsRemainder p) = none) (d : CellId) : wantsRemainder p d = false := by
  simpa using List.find?_eq_none.mp h d (mem_allCells d)

theorem arbiterChoice_none_iff :
    arbiterChoice b p = none ↔ ∀ c, wantsRemainder p c = false ∧ mayCharge b p c = false := by
  cases hw : allCells.find? (wantsRemainder p) with
  | some c =>
    rw [arbiterChoice_first hw]
    exact ⟨nofun, fun h => absurd ((h c).1.symm.trans (List.find?_some hw)) nofun⟩
  | none =>
    cases hf : allCells.filter (mayCharge b p) with
    | nil =>
      rw [arbiterChoice_nobody hw hf]
      exact ⟨fun _ c => ⟨none_wants hw c, by simpa using List.filter_eq_nil_iff.mp hf c (mem_allCells c)⟩, fun _ => rfl⟩
    | cons c cs =>
      rw [arbiterChoice_lowest hw hf]
      have may : mayCharge b p c = true := (List.mem_filter.mp (hf ▸ List.mem_cons_self)).2
      exact ⟨nofun, fun h => absurd ((h c).2.symm.trans may) nofun⟩

theorem arbiterChoice_some (h : arbiterChoice b p = some c) :
    (wantsRemainder p c = true ∧ ∀ d, wantsRemainder p d = true → c ≤ d) ∨
      ((∀ d, wantsRemainder p d = false) ∧ mayCharge b p c = true ∧ ∀ d, mayCharge b p d = true → Before b c d) := by
  cases hw : allCells.find? (wantsRemainder p) with
  | some x =>
    obtain rfl := Option.some.inj ((arbiterChoice_first hw).symm.trans h)
    exact .inl ⟨List.find?_some hw, fun d => le_of_find_sorted allCells_sorted hw d (mem_allCells d)⟩
  | none =>
    cases hf : allCells.filter (mayCharge b p) with
    | nil => exact absurd ((arbiterChoice_nobody hw hf).symm.trans h) nofun
    | cons x xs =>
      obtain rfl := Option.some.inj ((arbiterChoice_lowest hw hf).symm.trans h)
      have sorted : (x :: xs).Pairwise (· < ·) := hf ▸ allCells_sorted.sublist List.filter_sublist
      obtain ⟨inside, first⟩ := foldl_lowerLoad b xs x sorted
      rw [← hf] at inside first
      exact .inr ⟨none_wants hw, (List.mem_filter.mp inside).2,
        fun d hd => first d (List.mem_filter.mpr ⟨mem_allCells d, hd⟩)⟩

/-! ## The examination (R119, R120) -/

theorem examineArbiter_stopped (hm : p.ctl.mode = .operating) (hs : (actionsInForce p).stopCells = true) :
    examineArbiter b p = arbiterOutcome .stopped none p := (if_neg (Classical.not_not.mpr hm)).trans (if_pos hs)

section
variable (hm : p.ctl.mode = .operating) (hs : (actionsInForce p).stopCells = false)
include hm hs

theorem examineArbiter_noFeed (hf : roleVessel .feed p = none) :
    examineArbiter b p = arbiterOutcome .outletBusy none p := by
  refine (if_neg (Classical.not_not.mpr hm)).trans ((if_neg (by simp [hs])).trans ?_)
  rw [hf]

variable (hf : roleVessel .feed p = some f)
include hf

theorem examineArbiter_busy (hb : portBusy p (.vesselOutlet f) = true) :
    examineArbiter b p = arbiterOutcome .outletBusy none p := by
  refine (if_neg (Classical.not_not.mpr hm)).trans ((if_neg (by simp [hs])).trans ?_)
  rw [hf]
  exact if_pos hb

theorem examineArbiter_nobody (hb : portBusy p (.vesselOutlet f) = false) (hc : arbiterChoice b p = none) :
    examineArbiter b p = arbiterOutcome .none none p := by
  refine (if_neg (Classical.not_not.mpr hm)).trans ((if_neg (by simp [hs])).trans ?_)
  rw [hf]
  refine (if_neg (by simp [hb])).trans ?_
  rw [hc]

theorem examineArbiter_chosen (hb : portBusy p (.vesselOutlet f) = false) (hc : arbiterChoice b p = some c) :
    examineArbiter b p =
      if floorAllows b p f (chargeLitres b p c) then grantCharge b f c p else floorRefuses c p := by
  refine (if_neg (Classical.not_not.mpr hm)).trans ((if_neg (by simp [hs])).trans ?_)
  rw [hf]
  refine (if_neg (by simp [hb])).trans ?_
  rw [hc]

end

theorem floorAllows_iff {litres : Nat} :
    floorAllows b p f litres = true ↔ chargeFloor p + litres ≤ (b.vessel f).volume := decide_eq_true_iff

theorem floorRefuses_entries (c : CellId) (p : Part) : (floorRefuses c p).mov.entries = p.mov.entries := by
  dsimp only [floorRefuses]
  split <;> rfl

theorem floorRefuses_outcome (c : CellId) (p : Part) :
    (floorRefuses c p).cel.outcome = some .floor ∧ (floorRefuses c p).cel.chosen = some c := ⟨rfl, rfl⟩

theorem floorRefuses_state (c : CellId) (p : Part) :
    (cellRec (floorRefuses c p) c).state = (cellRec p c).state := by
  dsimp only [floorRefuses]
  split
  · exact (congrArg CellRec.state (cellRec_updCell_same c (fun x => { x with step := .waiting .floor }) p)).trans rfl
  · rfl

/-! ## The grant (R120) -/

/-- What the arbiter asks the Movement Unit for. -/
def chargeAsk (f : VesselId) (c : CellId) (litres : Nat) : StartAsk :=
  { kind := .charge, source := .vesselOutlet f, dest := .cellInlet c, requested := litres, waiter := some (.charge c) }

/-- The part at the ask: an IDLE cell has gone to CHARGING. -/
def granting (c : CellId) (p : Part) : Part :=
  if (cellRec p c).state = .charging then p else setCellState c .charging .grant p

theorem grantCharge_started {n : Nat}
    (h : (askStart b (chargeAsk f c (chargeLitres b p c)) (granting c p)).2 = .started n) : grantCharge b f c p =
      arbiterOutcome .granted (some c) (setStep c (.running n)
        (askStart b (chargeAsk f c (chargeLitres b p c)) (granting c p)).1) := by
  unfold chargeAsk granting at *
  simp only [grantCharge, h]

theorem grantCharge_refused {why : WaitReason}
    (h : (askStart b (chargeAsk f c (chargeLitres b p c)) (granting c p)).2 = .refused why) : grantCharge b f c p =
      arbiterOutcome .granted (some c) (setStep c (.waiting why)
        (askStart b (chargeAsk f c (chargeLitres b p c)) (granting c p)).1) := by
  unfold chargeAsk granting at *
  simp only [grantCharge, h]

theorem setCellState_mov (s : CellState) (r : CellReason) : (setCellState c s r p).mov = p.mov := notify_mov _ _

theorem granting_mov (c : CellId) (p : Part) : (granting c p).mov = p.mov := by
  unfold granting
  split
  · rfl
  · exact setCellState_mov _ _

theorem granting_ctl (c : CellId) (p : Part) : (granting c p).ctl = p.ctl := by
  unfold granting
  split
  · rfl
  · exact notify_ctl _ _

theorem cellRec_setCellState (s : CellState) (r : CellReason) :
    cellRec (setCellState c s r p) c = { cellRec p c with state := s } :=
  (congrArg (fun x : CellUnit => x.cells.get c) (notify_cel _ _)).trans
    (cellRec_updCell_same c (fun x => { x with state := s }) p)

theorem granting_state (c : CellId) (p : Part) : (cellRec (granting c p) c).state = .charging := by
  unfold granting
  split
  · assumption
  · exact (congrArg CellRec.state (cellRec_setCellState _ _)).trans rfl

theorem portBusy_congr {q : Part} {port : Port} (h : q.mov = p.mov) : portBusy q port = portBusy p port := by
  unfold portBusy unended
  rw [h]

theorem placeAfter_cel (a : StartAsk) (r : Option WaitReason) (p : Part) : (placeAfter a r p).cel = p.cel := by
  unfold placeAfter
  split <;> rfl

/-- A charge asked for with both ports free, water at FEED and a place in the table starts. -/
theorem granting_clear (hm : p.ctl.mode = .operating) (hb : portBusy p (.vesselOutlet f) = false) (litres : Nat)
    (hv : 0 < (b.vessel f).volume) (hl : p.mov.entries.length < 12) (hd : portBusy p (.cellInlet c) = false) :
    startRefusal b (chargeAsk f c litres) (granting c p) = none := by
  refine startRefusal_clear ?_ ((portBusy_congr (granting_mov c p)).trans hb)
    (fun e => (Nat.ne_of_gt hv) (Option.some.inj e)) ((portBusy_congr (granting_mov c p)).trans hd) ?_
  · rw [granting_ctl, hm]
    rfl
  · rw [granting_mov]
    exact hl

/-- A grant that starts leaves the cell CHARGING in a running step, and the CHARGE at the end of the table. -/
theorem grantCharge_clear (h : startRefusal b (chargeAsk f c (chargeLitres b p c)) (granting c p) = none) :
    (cellRec (grantCharge b f c p) c).state = .charging ∧ (grantCharge b f c p).cel.outcome = some .granted ∧
      ∃ n, (cellRec (grantCharge b f c p) c).step = .running n ∧ (grantCharge b f c p).mov.entries =
        p.mov.entries ++ [newEntry (chargeAsk f c (chargeLitres b p c)) n (granting c p)] := by
  have e := askStart_started h
  have granted := grantCharge_started (congrArg Prod.snd e)
  rw [e] at granted
  generalize hn : (addEntry (chargeAsk f c (chargeLitres b p c))
    (placeAfter (chargeAsk f c (chargeLitres b p c)) none (granting c p))).2 = n at granted
  have record : cellRec (grantCharge b f c p) c = { cellRec (granting c p) c with step := .running n } := by
    rw [granted, cellRec_arbiterOutcome]
    refine (cellRec_updCell_same c (fun x => { x with step := .running n }) _).trans ?_
    exact congrArg (fun x : CellUnit => { x.cells.get c with step := .running n })
      (placeAfter_cel (chargeAsk f c (chargeLitres b p c)) none (granting c p))
  refine ⟨?_, granted ▸ rfl, n, ?_, ?_⟩
  · rw [record]
    exact granting_state c p
  · rw [record]
  · rw [granted, ← granting_mov c p, ← newEntry_placeAfter none, ← hn]
    exact congrArg (· ++ _) (placeAfter_entries _ none (granting c p))

end

end Sys2Proof.Machine
end

