-- ==== Sys2Proof/Proofs/CellEnds.lean ====
section
/-! SUPPORT. The rectifier, the ends of a CHARGE and of a DRAIN, the abandon step and the drain targets (R121 to R126,
R130, R131). -/

namespace Sys2Proof.Machine

section
variable {b : Books} {c : CellId} {e : Ending} {m : Movement} {p : Part} {v : VesselId}

/-! ## The rectifier (R122) -/

/-- The cell's flags brought to the four conditions. -/
def rectified (c : CellId) (p : Part) : Part :=
  updCell c (fun r => { r with
    rectifier := rectifierWanted p c, paused := decide ((cellRec p c).state = .plating) && !rectifierWanted p c }) p

theorem settleCell_set
    (h : (cellRec p c).state ≠ .plating ∨ (cellRec p c).paused = false ∨ rectifierWanted p c = false) :
    settleCell b c p = rectified c p := by
  refine if_neg ?_
  rcases h with h | h | h <;> simp +contextual [h]

theorem settleCell_resumes (hs : (cellRec p c).state = .plating) (hp : (cellRec p c).paused = true)
    (hw : rectifierWanted p c = true) :
    settleCell b c p = platingChecks b c (cellRec p c).lastProbe (rectified c p) :=
  if_pos (by simp [hs, hp, hw])

/-! ## The end of a CHARGE (R121, R130) -/

theorem chargeEnds_complete : chargeEnds b c .complete p = settleCell b c (notify (.cellState c .plating .charged)
    (updCell c (fun r => { r with
      state := .plating, step := .idle, lastProbe := none, runTimer := r.runLimit, paused := false }) p)) := by
  have one := updCell_updCell c
    (fun x => { x with step := .idle, lastProbe := none, runTimer := x.runLimit, paused := false })
    (fun x => { x with state := .plating }) p
  exact (if_pos rfl).trans (congrArg (fun q => settleCell b c (notify (.cellState c .plating .charged) q)) one)

theorem chargeEnds_short (h : e ≠ .complete) (k : e ≠ .cut .abandon) : chargeEnds b c e p = setStep c (.waiting
    (if cellHeld p c then .held else if p.ctl.mode ≠ .operating then .mode else e.toWait)) p := by
  refine (if_neg h).trans ((if_neg k).trans ?_)
  split
  · rfl
  · split <;> rfl

theorem chargeEnds_abandon : chargeEnds b c (.cut .abandon) p = abandonStep b c p := (if_neg nofun).trans (if_pos rfl)

/-! ## The abandon step (R130) -/

theorem abandonStep_drains (h : (cellRec p c).state = .charging ∨ (cellRec p c).state = .plating)
    (hv : 0 < (b.liquor c).volume) : abandonStep b c p =
      seekDrain b c (leaveWaiting (.charge c) (setStep c .idle (drains c .abandoned p))) := by
  rw [← enterDraining_eq]
  rcases h with h | h <;> simp only [abandonStep, h, hv, if_true]

theorem abandonStep_frees (h : (cellRec p c).state = .charging ∨ (cellRec p c).state = .plating)
    (hv : (b.liquor c).volume = 0) : abandonStep b c p =
      leaveWaiting (.charge c) (notify (.cellState c .idle .abandoned) (updCell c (fun r => { r with
        state := .idle, step := .idle, rectifier := false, paused := false, runTimer := none }) p)) := by
  have one := updCell_updCell c
    (fun x => { x with step := .idle, rectifier := false, paused := false, runTimer := none })
    (fun x => { x with state := .idle }) p
  have free : abandonStep b c p = leaveWaiting (.charge c) (setCellState c .idle .abandoned (updCell c (fun x =>
      { x with step := .idle, rectifier := false, paused := false, runTimer := none }) p)) := by
    rcases h with h | h <;> simp only [abandonStep, h, hv, Nat.lt_irrefl, if_false]
  exact free.trans (congrArg (fun q => leaveWaiting (.charge c) (notify (.cellState c .idle .abandoned) q)) one)

theorem abandonStep_other (h : (cellRec p c).state ≠ .charging) (k : (cellRec p c).state ≠ .plating) :
    abandonStep b c p = p := by
  unfold abandonStep
  dsimp only
  split
  · exact absurd ‹_› h
  · exact absurd ‹_› k
  all_goals rfl

/-! ## The drain targets (R125) -/

theorem drainTestFails_eq (b : Books) (p : Part) (v : VesselId) (liquor : Nat) : drainTestFails b p v liquor =
    if (vesselRec p v).inlet = .disabled then some .disabled
    else if (vesselRec p v).capacity.getD 0 - (b.vessel v).volume - reservedVolume p v < liquor then some .noSpace
    else if portBusy p (.vesselInlet v) = true then some .inletBusy else none := rfl

/-- What a drain asks the Movement Unit for. -/
def drainAsk (b : Books) (c : CellId) (v : VesselId) (lot : Option Nat) : StartAsk :=
  { kind := .drain, source := .cellOutlet c, dest := .vesselInlet v, requested := (b.liquor c).volume, lot := lot
    waiter := some (.drain c) }

theorem startDrain_started {lot : Option Nat} {n : Nat} (h : (askStart b (drainAsk b c v lot) p).2 = .started n) :
    startDrain b c v lot p = setStep c (.running n) (askStart b (drainAsk b c v lot) p).1 := by
  unfold drainAsk at *
  simp only [startDrain, h]

theorem startDrain_refused {lot : Option Nat} {why : WaitReason}
    (h : (askStart b (drainAsk b c v lot) p).2 = .refused why) : startDrain b c v lot p =
      drainWaits c why (some (.cellOutlet c, .vesselInlet v)) (askStart b (drainAsk b c v lot) p).1 := by
  unfold drainAsk at *
  simp only [startDrain, h]

theorem drainToQuarantine_none (h : roleVessel .quarantine p = none) :
    drainToQuarantine b c p = drainWaits c .disabled none p := by
  rw [drainToQuarantine, h]

theorem drainToQuarantine_fails {why : WaitReason} (h : roleVessel .quarantine p = some v)
    (hf : drainTestFails b p v (b.liquor c).volume = some why) :
    drainToQuarantine b c p = drainWaits c why (some (.cellOutlet c, .vesselInlet v)) p := by
  simp only [drainToQuarantine, h, hf]

theorem drainToQuarantine_starts (h : roleVessel .quarantine p = some v)
    (hf : drainTestFails b p v (b.liquor c).volume = none) :
    drainToQuarantine b c p = startDrain b c v none p := by
  simp only [drainToQuarantine, h, hf]

theorem walkDrain_quarantine (h : (cellRec p c).drainPref = .quarantineOnly ∨ p.ctl.mode = .lockdown) :
    walkDrain b c p = drainToQuarantine b c p :=
  if_pos (by rcases h with h | h <;> simp [h])

section
variable (h : ¬ ((cellRec p c).drainPref = .quarantineOnly ∨ p.ctl.mode = .lockdown))
include h

theorem walkDrain_other (ha : ∀ lot v, (askFilling (b.liquor c).volume p).2 ≠ .named lot v) :
    walkDrain b c p = drainToQuarantine b c (askFilling (b.liquor c).volume p).1 := by
  refine (if_neg (by simpa using h)).trans ?_
  cases e : (askFilling (b.liquor c).volume p).2 with
  | named lot v => exact absurd e (ha lot v)
  | sealPending | noVessel | noSpace => simp only [e]

theorem walkDrain_named {lot : Nat} (ha : (askFilling (b.liquor c).volume p).2 = .named lot v) :
    walkDrain b c p =
      if (drainTestFails b (askFilling (b.liquor c).volume p).1 v (b.liquor c).volume).isSome
        then drainToQuarantine b c (askFilling (b.liquor c).volume p).1
        else startDrain b c v (some lot) (askFilling (b.liquor c).volume p).1 := by
  refine (if_neg (by simpa using h)).trans ?_
  simp only [ha]

end

theorem seekDrain_other (h : (cellRec p c).state ≠ .draining ∨ ∃ n, (cellRec p c).step = .running n) :
    seekDrain b c p = p := if_pos (h.imp_right (isRunning_iff _).mpr)

theorem seekDrain_draining (h : (cellRec p c).state = .draining) (hn : ∀ n, (cellRec p c).step ≠ .running n) :
    seekDrain b c p = if cellHeld p c then drainWaits c .held none p else drainInMode c (walkDrain b c p) := by
  refine if_neg ?_
  simp [h, isRunning_false hn]

theorem walkDrain_ctl (b : Books) (c : CellId) (p : Part) : (walkDrain b c p).ctl = p.ctl :=
  (settles_walkDrain b c (.refl p)).ctl

theorem drainInMode_walk : drainInMode c (walkDrain b c p) = if p.ctl.mode.running then walkDrain b c p
    else updCell c (fun x => { x with step := .waiting .mode }) (walkDrain b c p) := by
  rw [drainInMode, walkDrain_ctl]
  rfl

/-! ## The end of a DRAIN (R126) -/

theorem finishDrain_eq (c : CellId) (p : Part) : finishDrain c p = leaveWaiting (.drain c)
    (notify (.cellState c (if (cellRec p c).harvestRequired then .harvest else .idle) .drained) (updCell c (fun x =>
      { x with state := if (cellRec p c).harvestRequired then .harvest else .idle
               harvestRequired := false, step := .idle }) p)) := by
  have one := updCell_updCell c (fun x => { x with harvestRequired := false, step := .idle })
    (fun x => { x with state := if (cellRec p c).harvestRequired then .harvest else .idle }) p
  exact congrArg (fun q => leaveWaiting (.drain c)
    (notify (.cellState c (if (cellRec p c).harvestRequired then .harvest else .idle) .drained) q)) one

theorem drainEnds_empty (h : (b.liquor c).volume = 0) :
    drainEnds b m c e p = inflowEnds b m.lot (finishDrain c p) :=
  congrArg (inflowEnds b m.lot) (if_pos h)

theorem drainEnds_left (h : 0 < (b.liquor c).volume) : drainEnds b m c e p = inflowEnds b m.lot (drainWaits c
    (if cellHeld p c then .held else if p.ctl.mode.running = false then .mode else e.toWait) none p) := by
  refine congrArg (inflowEnds b m.lot) ((if_neg (Nat.ne_of_gt h)).trans ?_)
  cases cellHeld p c <;> cases p.ctl.mode.running <;> rfl

end

/-- Settles O51: by the branches of the examination, of the ends and of the walk. -/
theorem arbiterExamination : Obligations.ArbiterExamination := by
  refine ⟨fun b p => ⟨examineArbiter_mode b, examineArbiter_stopped, examineArbiter_noFeed, chargeFloor_eq p,
      fun c => ⟨mayCharge_iff, wantsRemainder_iff, cellHeld_iff⟩, fun f hm hs hf => ⟨examineArbiter_busy hm hs hf,
        examineArbiter_nobody hm hs hf, fun c hb hc => ?_⟩, fun c => arbiterChoice_some, arbiterChoice_none_iff⟩,
    fun b c p => ?_, fun b c p => ?_, fun b m c e p => ⟨fun h => ?_, fun h => ?_⟩⟩
  · intro litres
    have chosen := examineArbiter_chosen hm hs hf hb hc
    have refuses (h : (b.vessel f).volume < chargeFloor p + litres) : examineArbiter b p = floorRefuses c p :=
      chosen.trans (if_neg ((not_congr floorAllows_iff).mpr (Nat.not_le.mpr h)))
    have grants (h : chargeFloor p + litres ≤ (b.vessel f).volume) : examineArbiter b p = grantCharge b f c p :=
      chosen.trans (if_pos (floorAllows_iff.mpr h))
    refine ⟨fun h => ?_, ?_, fun h hv hl hd => ?_⟩
    · rw [refuses h]
      exact ⟨floorRefuses_entries c p, rfl, rfl, floorRefuses_state c p⟩
    · intro asks r left ended
      exact ⟨refuses, fun h => ⟨fun n hn => (grants h).trans (grantCharge_started hn),
        fun why hw => (grants h).trans (grantCharge_refused hw)⟩⟩
    · rw [grants h]
      obtain ⟨state, outcome, n, step, entries⟩ := grantCharge_clear (granting_clear hm hb (chargeLitres b p c) hv hl hd)
      exact ⟨state, outcome, n, _, step, entries, rfl, rfl, rfl, rfl, rfl, rfl⟩
  · intro wanted set
    have same : rectifierWanted p c = wanted p := by
      simp only [rectifierWanted, wanted, Bool.decide_and]
    have settled : rectified c p = set := by
      simp only [rectified, set, same]
    refine ⟨fun h => (settleCell_set (same ▸ h)).trans settled,
      fun hs hp hw => (settleCell_resumes hs hp (same.trans hw)).trans (congrArg _ settled), chargeEnds_complete,
      fun e he ha => ?_, chargeEnds_abandon, fun h => ⟨abandonStep_drains h, abandonStep_frees h⟩, abandonStep_other⟩
    intro why
    have reason : (if cellHeld p c then WaitReason.held else if p.ctl.mode ≠ .operating then .mode else e.toWait) =
        why := by
      cases e <;> rfl
    exact (chargeEnds_short he ha).trans (congrArg (fun w => setStep c (.waiting w) p) reason)
  · intro liquor fails waits drainsTo toQuarantine asked walked
    have starts (v : VesselId) (lot : Option Nat) (q : Part) : startDrain b c v lot q = drainsTo v lot q := by
      simp only [drainsTo]
      split
      · next n h => exact startDrain_started h
      · next why h => exact startDrain_refused h
    have quarantine (q : Part) : drainToQuarantine b c q = toQuarantine q := by
      simp only [toQuarantine]
      split
      · next h => exact drainToQuarantine_none h
      · next v h =>
        split
        · next why hf => exact drainToQuarantine_fails h hf
        · next hf => exact (drainToQuarantine_starts h hf).trans (starts v none q)
    have walk : walkDrain b c p = walked := by
      simp only [walked]
      split
      · next h => exact (walkDrain_quarantine h).trans (quarantine p)
      · next h =>
        split
        · next lot v ha =>
          refine (walkDrain_named h ha).trans ?_
          split
          · next hf => exact (quarantine _).trans (if_neg (Option.isSome_iff_ne_none.mp hf)).symm
          · next hf => exact (starts v (some lot) _).trans (if_pos (Option.not_isSome_iff_eq_none.mp hf)).symm
        · next ha => exact (walkDrain_other h ha).trans (quarantine _)
    refine ⟨seekDrain_other, fun h hn => ⟨fun held => (seekDrain_draining h hn).trans (if_pos held), fun free => ?_⟩⟩
    rw [← walk]
    exact ⟨walkDrain_ctl b c p, (seekDrain_draining h hn).trans ((if_neg (by simp [free])).trans drainInMode_walk)⟩
  · exact (drainEnds_empty h).trans (congrArg (inflowEnds b m.lot) (finishDrain_eq c p))
  · intro why
    have reason : (if cellHeld p c then WaitReason.held else if p.ctl.mode.running = false then .mode else e.toWait) =
        why := by
      cases e <;> rfl
    exact (drainEnds_left h).trans (congrArg (fun w => inflowEnds b m.lot (drainWaits c w none p)) reason)

end Sys2Proof.Machine
end

