-- ==== Sys2Proof/Proofs/GateSettings.lean ====
section
/-! SUPPORT. SET CLOCK, SET WINDOWS and SET LIMITS (R134 to R138). -/

namespace Sys2Proof.Machine

section
variable {b : Books} {i : LimitItems} {l : Limits} {p : Part} {q : Plant} {t : Nat} {w1 w2 : Option Window}

/-! ## SET CLOCK (R134) -/

theorem takeSetClock_bad (h : q.part.ctl.mode.inService = true) (ht : 86399 < t) :
    takeSetClock t q = refuse .badValue q := (inService_in _ q h).trans (if_pos ht)

theorem takeSetClock_busy (h : q.part.ctl.mode.inService = true) (ht : t ≤ 86399)
    (hm : q.part.ctl.mode = .operating) (hg : q.part.gate.state = .running) :
    takeSetClock t q = refuse .busy q :=
  (inService_in _ q h).trans ((if_neg (Nat.not_lt.mpr ht)).trans (if_pos ⟨hm, hg⟩))

theorem takeSetClock_sets (h : q.part.ctl.mode.inService = true) (ht : t ≤ 86399)
    (hn : ¬ (q.part.ctl.mode = .operating ∧ q.part.gate.state = .running)) :
    takeSetClock t q = okay { q with part := jumpClock q.books t q.part } :=
  (inService_in _ q h).trans ((if_neg (Nat.not_lt.mpr ht)).trans (if_neg hn))

/-- The part with the clock at `t`. -/
def clockAt (t : Nat) (p : Part) : Part := { p with gate := { p.gate with clock := some t } }

theorem jumpClock_into (h : inWindow p.gate = false) (k : inWindow (clockAt t p).gate = true) :
    jumpClock b t p = selectLot b (recomputeGate .clock (clockAt t p)) := if_pos (by rw [h]; exact k)

theorem jumpClock_other (h : inWindow p.gate = true ∨ inWindow (clockAt t p).gate = false) :
    jumpClock b t p = recomputeGate .clock (clockAt t p) := by
  refine if_neg fun e => ?_
  obtain ⟨was, now⟩ := Bool.and_eq_true_iff.mp e
  rcases h with h | h
  · rw [h] at was
    cases was
  · exact absurd (h.symm.trans now) nofun

/-! ## SET WINDOWS (R135, R136) -/

theorem windowRanges_iff (w1 w2 : Option Window) : (w1.all windowRange && w2.all windowRange) = true ↔
    ∀ w, w1 = some w ∨ w2 = some w → w.start ≤ 1439 ∧ w.stop ≤ 1440 := by
  simp only [Bool.and_eq_true, Option.all_eq_true, windowRange, decide_eq_true_eq]
  exact ⟨fun ⟨first, second⟩ w hw => hw.elim (first w) (second w),
    fun h => ⟨fun w hw => h w (.inl hw), fun w hw => h w (.inr hw)⟩⟩

/-- The part with the windows of the request. -/
def windowsSet (w1 w2 : Option Window) (p : Part) : Part :=
  { p with gate := { p.gate with w1 := w1.getD p.gate.w1, w2 := w2.getD p.gate.w2 } }

theorem takeSetWindows_bad (h : q.part.ctl.mode.inService = true)
    (hr : ¬ ∀ w, w1 = some w ∨ w2 = some w → w.start ≤ 1439 ∧ w.stop ≤ 1440) :
    takeSetWindows w1 w2 q = refuse .badValue q :=
  (inService_in _ q h).trans (if_neg ((not_congr (windowRanges_iff w1 w2)).mpr hr))

theorem takeSetWindows_sets (h : q.part.ctl.mode.inService = true)
    (hr : ∀ w, w1 = some w ∨ w2 = some w → w.start ≤ 1439 ∧ w.stop ≤ 1440) : takeSetWindows w1 w2 q =
      okay { q with part := compareWindows q.books (inWindow q.part.gate) (windowsSet w1 w2 q.part) } := by
  exact (inService_in _ q h).trans ((if_pos ((windowRanges_iff w1 w2).mpr hr)).trans rfl)

/-! ## SET LIMITS (R137, R138) -/

theorem pair_all {α β : Type} (P : α → β → Prop) {x : α} {y : β} : (∀ a b, (x, y) = (a, b) → P a b) ↔ P x y :=
  ⟨fun h => h x y rfl, fun h _ _ e => (Prod.mk.inj e).1 ▸ (Prod.mk.inj e).2 ▸ h⟩

theorem limitRanges_iff (i : LimitItems) : limitRanges i = true ↔
    (∀ x, i.massAllowance = some x → x ≤ 1000000000) ∧ (∀ x, i.volumeAllowance = some x → x ≤ 10000000) ∧
      (∀ x, i.concLimit = some x → x ≤ 5000) ∧ (∀ lo hi, i.phBand = some (lo, hi) → lo ≤ 140 ∧ hi ≤ 140) ∧
      (∀ x, i.floor = some x → x ≤ 1000000000) ∧ (∀ x, i.persistence = some x → x ≤ 120) ∧
      (∀ x, i.dayBoundary = some x → x ≤ 1439) := by
  rcases band : i.phBand with _ | ⟨lo, hi⟩
  · simp [limitRanges, band, and_assoc]
  · simp only [limitRanges, band, Bool.and_eq_true, inRange_all, Nat.zero_le, true_and, and_assoc, decide_eq_true_eq,
      Option.some.injEq, pair_all (fun lo hi => lo ≤ 140 ∧ hi ≤ 140)]

theorem applyLimits_eq (i : LimitItems) (l : Limits) : applyLimits i l =
    { massAllowance := i.massAllowance.or l.massAllowance
      volumeAllowance := i.volumeAllowance.or l.volumeAllowance
      concLimit := i.concLimit.or l.concLimit, phBand := i.phBand.or l.phBand
      floor := i.floor.getD l.floor, floorEnable := i.floorEnable.getD l.floorEnable
      persistence := i.persistence.getD l.persistence
      dayBoundary := i.dayBoundary.getD l.dayBoundary } := rfl

theorem limitRelations_iff (l : Limits) : limitRelations l = true ↔
    (∀ lo hi, l.phBand = some (lo, hi) → lo < hi) ∧ (∀ a, l.massAllowance = some a → l.floor ≤ a) := by
  refine Bool.and_eq_true_iff.trans (and_congr ?_ ?_)
  · rcases l.phBand with _ | ⟨lo, hi⟩
    · simp
    · simp only [decide_eq_true_eq, Option.some.injEq, pair_all (fun lo hi => lo < hi)]
  · cases l.massAllowance <;> simp

theorem carriesFour_iff (i : LimitItems) : carriesFour i = true ↔ i.massAllowance.isSome = true ∧
    i.volumeAllowance.isSome = true ∧ i.concLimit.isSome = true ∧ i.phBand.isSome = true := by
  simp only [carriesFour, Bool.and_eq_true, and_assoc]

theorem limitsValid_iff (i : LimitItems) (l : Limits) : limitsValid i l = true ↔ limitRanges i = true ∧
    (∀ lo hi, (applyLimits i l).phBand = some (lo, hi) → lo < hi) ∧
      (∀ a, (applyLimits i l).massAllowance = some a → (applyLimits i l).floor ≤ a) ∧
      (limitsSet l = true ∨ (i.massAllowance.isSome = true ∧ i.volumeAllowance.isSome = true ∧
        i.concLimit.isSome = true ∧ i.phBand.isSome = true)) := by
  simp only [limitsValid, Bool.and_eq_true, Bool.or_eq_true, limitRelations_iff, carriesFour_iff, and_assoc]

theorem takeSetLimits_bad (h : q.part.ctl.mode.inService = true)
    (hv : limitsValid i q.part.gate.limits ≠ true) : takeSetLimits i q = refuse .badValue q :=
  (inService_in _ q h).trans (if_neg hv)

theorem takeSetLimits_sets (h : q.part.ctl.mode.inService = true)
    (hv : limitsValid i q.part.gate.limits = true) :
    takeSetLimits i q = okay { q with part := newLimits q.books i q.part } :=
  (inService_in _ q h).trans (if_pos hv)

/-- The mass allowance less today's mass is not below the floor. -/
theorem floorReached_false (g : Gate) : floorReached g = false ↔
    g.limits.massAllowance.all (fun a => decide (g.limits.floor + g.todayMass ≤ a)) = true := by
  unfold floorReached
  cases g.limits.massAllowance with
  | none => simp
  | some a =>
    simp only [decide_eq_false_iff_not, Option.all_some, decide_eq_true_eq]
    omega

/-- The part with the limits of the request. -/
def limitsHeld (i : LimitItems) (p : Part) : Part :=
  { p with gate := { p.gate with limits := applyLimits i p.gate.limits } }

theorem newLimits_eq (b : Books) (i : LimitItems) (p : Part) : newLimits b i p = selectLot b
    (if (limitsHeld i p).gate.limits.floorEnable = false ∨ (limitsHeld i p).gate.limits.massAllowance.all
        (fun a => decide ((limitsHeld i p).gate.limits.floor + p.gate.todayMass ≤ a)) = true
      then reportType .allowanceFloor .cleared (limitsHeld i p) else limitsHeld i p) := by
  refine congrArg (selectLot b) (ite_of_iff ?_ rfl rfl)
  rw [Bool.or_eq_true, Bool.not_eq_true', Bool.not_eq_true']
  exact or_congr_right (floorReached_false _)

end

/-- Settles O52: the checks of each request, and the comparison of the time of day with the windows. -/
theorem gateSettings : Obligations.GateSettings := by
  refine ⟨fun n t s hs => ?_, fun n w1 w2 s hs => ?_, fun n i s hs => ?_⟩
  · intro set
    refine ⟨fun h => request_told hs.1 (takeSetClock_bad (q := ⟨s.books, s.begun⟩) hs.2 h),
      fun h hm hg => request_told hs.1 (takeSetClock_busy (q := ⟨s.books, s.begun⟩) hs.2 h hm hg), fun h hn => ?_⟩
    have sets := takeSetClock_sets (q := ⟨s.books, s.begun⟩) hs.2 h hn
    exact ⟨fun was now => request_answered hs.1 (sets.trans (congrArg (fun p => okay ⟨s.books, p⟩)
        (jumpClock_into (p := s.begun) was now))),
      fun other => request_answered hs.1 (sets.trans (congrArg (fun p => okay ⟨s.books, p⟩)
        (jumpClock_other (p := s.begun) other)))⟩
  · intro ranged set
    refine ⟨fun h => request_told hs.1 (takeSetWindows_bad (q := ⟨s.books, s.begun⟩) hs.2 h), fun h => ?_⟩
    refine request_answered hs.1 ((takeSetWindows_sets (q := ⟨s.books, s.begun⟩) hs.2 h).trans ?_)
    refine congrArg (fun p => okay ⟨s.books, p⟩) ?_
    show compareWindows s.books (inWindow s.part.gate) set = _
    unfold compareWindows
    cases inWindow s.part.gate <;> cases inWindow set.gate <;> rfl
  · intro set l old
    refine ⟨limitRanges_iff i, applyLimits_eq i old, ?_⟩
    intro valid
    have checked : limitsValid i s.begun.gate.limits = true ↔ valid := limitsValid_iff i old
    exact ⟨fun h => request_told hs.1 (takeSetLimits_bad (q := ⟨s.books, s.begun⟩) hs.2 ((not_congr checked).mpr h)),
      fun h => request_answered hs.1 ((takeSetLimits_sets (q := ⟨s.books, s.begun⟩) hs.2 (checked.mpr h)).trans
        (congrArg (fun p => okay ⟨s.books, p⟩) (newLimits_eq s.books i s.begun)))⟩

end Sys2Proof.Machine
end

