-- ==== Sys2Proof/Proofs/Ticks.lean ====
section
/-! SUPPORT. The one-second tick: the timers, the windows and the day boundary (R133, R135, R139). -/

namespace Sys2Proof.Machine

section
variable {b : Books} {p q : Part} {t : Nat}

/-- Every running timer a second on. -/
def secondOn (p : Part) : Part :=
  if p.ctl.mode.running then secondRunning (if p.ctl.mode.inService then secondInService p else p)
  else if p.ctl.mode.inService then secondInService p else p

/-- A tick moves no setting, total or clock of the gate. -/
theorem secondOn_gate (p : Part) : inWindow (secondOn p).gate = inWindow p.gate ∧ (secondOn p).gate.clock = p.gate.clock ∧
    (secondOn p).gate.limits = p.gate.limits ∧ (secondOn p).gate.todayVolume = p.gate.todayVolume ∧
    (secondOn p).gate.todayMass = p.gate.todayMass := by
  unfold secondOn
  cases p.ctl.mode <;> exact ⟨rfl, rfl, rfl, rfl, rfl⟩

/-- The second of the lots and of the aging, from the lots and sources of another part that has the same. -/
theorem secondRunning_eq (hl : p.lot = q.lot) (hs : p.src = q.src) : secondRunning p = { p with
    lot := { q.lot with lots := q.lot.lots.map (fun l => { l with timer := l.timer.map (fun k => k - 1) }) }
    src := { q.src with agingLeft := q.src.agingLeft - 1 } } := by
  rw [← hl, ← hs]
  exact Eq.refl (secondRunning p)

theorem tick_unset (h : p.gate.clock = none) : tick b p = secondOn p := by
  have clock := (secondOn_gate p).2.1.trans h
  have stated : tick b p = match (secondOn p).gate.clock with
    | none => secondOn p
    | some t => advanceClock b t (secondOn p) := rfl
  rw [stated, clock]

theorem tick_set (h : p.gate.clock = some t) : tick b p = advanceClock b t (secondOn p) := by
  have clock := (secondOn_gate p).2.1.trans h
  have stated : tick b p = match (secondOn p).gate.clock with
    | none => secondOn p
    | some t => advanceClock b t (secondOn p) := rfl
  rw [stated, clock]

/-- The second after the time of day `t`. -/
def nextSecond (t : Nat) : Nat := if t < 86399 then t + 1 else 0

/-- The part with its clock a second on and the windows compared. -/
def windowsTold (b : Books) (t : Nat) (p : Part) : Part :=
  compareWindows b (inWindow p.gate) (clockAt (nextSecond t) p)

/-- What the windows bring changes no limit and no total. -/
theorem windowsTold_gate (b : Books) (t : Nat) (p : Part) : (windowsTold b t p).gate.limits = p.gate.limits ∧
    (windowsTold b t p).gate.todayVolume = p.gate.todayVolume ∧
    (windowsTold b t p).gate.todayMass = p.gate.todayMass := by
  have same := congrArg Part.gate (settles_compareWindows b (inWindow p.gate) (.refl (clockAt (nextSecond t) p))).standing
  exact ⟨(congrArg Gate.limits same).trans rfl, (congrArg Gate.todayVolume same).trans rfl,
    (congrArg Gate.todayMass same).trans rfl⟩

theorem advanceClock_within (h : nextSecond t ≠ p.gate.limits.dayBoundary * 60) :
    advanceClock b t p = windowsTold b t p :=
  if_neg fun e => h (e.trans (congrArg (fun l : Limits => l.dayBoundary * 60) (windowsTold_gate b t p).1))

theorem advanceClock_rolls (h : nextSecond t = p.gate.limits.dayBoundary * 60) :
    advanceClock b t p = rollDay b (nextSecond t) (windowsTold b t p) :=
  if_pos (h.trans (congrArg (fun l : Limits => l.dayBoundary * 60) (windowsTold_gate b t p).1.symm))

theorem compareWindows_eq (b : Books) (was : Bool) (p : Part) : compareWindows b was p = match was, inWindow p.gate with
    | false, true => selectLot b (recomputeGate .windowOpen p)
    | true, false => recomputeGate .windowEnd (cutDischarge b .windowEnd p)
    | _, _ => p := by
  unfold compareWindows
  cases was <;> cases inWindow p.gate <;> rfl

end

/-- Settles O54: by the clock, and by the day boundary. -/
theorem clockTick : Obligations.ClockTick := by
  intro s hl timed ran
  have live := partCommand_live tick s hl
  have seconds : secondOn s.begun = ran := by
    have lots : timed.lot = s.part.lot := by
      dsimp only [timed]
      split <;> rfl
    have sources : timed.src = s.part.src := by
      dsimp only [timed]
      split <;> rfl
    have stated : secondOn s.begun = if s.part.ctl.mode.running then secondRunning timed else timed := rfl
    exact stated.trans (ite_of_iff Iff.rfl (secondRunning_eq lots sources) rfl)
  obtain ⟨window, clock, limits, volume, mass⟩ := secondOn_gate s.begun
  refine ⟨fun h => live.trans (congrArg (fun p => Host.Outcome.next (s.after s.books p))
    ((tick_unset (p := s.begun) h).trans seconds)), fun t h => ?_⟩
  intro now set bounded
  have told : windowsTold s.books t (secondOn s.begun) = bounded := by
    have stated : windowsTold s.books t (secondOn s.begun) =
        compareWindows s.books (inWindow (secondOn s.begun).gate) (clockAt now (secondOn s.begun)) := rfl
    rw [stated, window, seconds]
    exact compareWindows_eq s.books (inWindow s.part.gate) set
  have boundary : (secondOn s.begun).gate.limits.dayBoundary * 60 = s.part.gate.limits.dayBoundary * 60 :=
    congrArg (fun l : Limits => l.dayBoundary * 60) limits
  refine ⟨fun hb => live.trans (congrArg (fun p => Host.Outcome.next (s.after s.books p)) ?_), fun hb => ?_⟩
  · exact (tick_set (p := s.begun) h).trans ((advanceClock_within (boundary ▸ hb)).trans told)
  · intro rolled
    refine live.trans (congrArg (fun p => Host.Outcome.next (s.after s.books p)) ?_)
    refine (tick_set (p := s.begun) h).trans ((advanceClock_rolls (hb.trans boundary.symm)).trans ?_)
    obtain ⟨limits', volume', mass'⟩ := windowsTold_gate s.books t (secondOn s.begun)
    rw [told] at limits' volume' mass' ⊢
    simp only [rollDay, rolled, limits'.trans limits, volume'.trans volume, mass'.trans mass]
    rfl

end Sys2Proof.Machine
end

