-- ==== Sys2Proof/Proofs/Outfall.lean ====
section
/-! SUPPORT. The outfall probes, their persistence timers and their silence (R149 to R151). -/

namespace Sys2Proof.Machine

section
variable {b : Books} {ft : FaultType} {p : Part} {x : Nat} {bad : Bool} {timer : Option Nat} {m : Movement} {lot : Nat}

/-! ## What a reading beyond its limit raises (R150, R151) -/

theorem raiseDischarge_moving (hm : dischargeMove p = some m) (hl : m.lot = some lot) : raiseDischarge b ft p =
    raiseOrReport b { ftype := ft, subject := .discharge m.number lot, interrupted := some m } p := by
  have subject : dischargeSubject m = .discharge m.number lot := by rw [dischargeSubject, hl]; rfl
  simp only [raiseDischarge, hm, subject]

theorem immediate_quiet (h : bad = false ∨ timer.isSome = true ∨ 0 < p.gate.limits.persistence ∨
    p.gate.state ≠ .running) : immediate b ft bad timer p = p := by
  refine if_neg ?_
  rcases h with h | h | h | h
  · simp [h]
  · simp [Option.isNone_eq_false_iff.mpr h]
  · simp [(Nat.ne_of_gt h)]
  · simp [h]

theorem immediate_raises (hk : p.gate.limits.persistence = 0) (hs : p.gate.state = .running) :
    immediate b ft true none p = raiseDischarge b ft p := if_pos (by simp [hk, hs])

/-- The timer after a reading, where one runs or the persistence starts one. -/
theorem nextTimer_eq {within : Bool} {k : Nat} {t : Option Nat} (h : 0 < k ∨ t.isSome = true ∨ within = true) :
    nextTimer (!within) k t = if within then none else t.or (some k) := by
  cases within with
  | true => rfl
  | false =>
    cases t with
    | some _ => rfl
    | none =>
      have positive : k ≠ 0 := Nat.ne_of_gt (h.resolve_right (by simp))
      simp [nextTimer, positive]

theorem conditionOf_not (within : Bool) : conditionOf (!within) = if within then .cleared else .present := by
  cases within <;> rfl

/-- The two reports that a valid reading makes. -/
def readingReports (pr : Probe) (ft : FaultType) (within : Bool) (p : Part) : Part :=
  reportType ft (if within then .cleared else .present) (reportOn .probeFailure (.probe pr) .cleared p)

theorem selectIfNew_some {old : Option Nat} (h : old.isSome = true) : selectIfNew b old p = p :=
  if_neg (by simp [Option.isNone_eq_false_iff.mpr h])

theorem selectIfNew_eq (b : Books) (old : Option Nat) (p : Part) :
    selectIfNew b old p = if old.isSome then p else selectLot b p := by
  cases old <;> rfl

/-! ## The silver probe (R150) -/

/-- The part with the reading, its timer at `timer`. -/
def silverAt (x : Nat) (timer : Option Nat) (p : Part) : Part :=
  { p with gate := { p.gate with silver := some x, silverQuiet := 0, silverTimer := timer } }

theorem validSilver_eq {stored : Part} (h : storeSilver x (!concWithin p.gate.limits x) p = stored) :
    validSilver b x p = selectIfNew b p.gate.silver (immediate b .outfallExcursion (!concWithin p.gate.limits x)
      p.gate.silverTimer (readingReports .silver .outfallExcursion (concWithin p.gate.limits x) stored)) := by
  rw [← h, readingReports, ← conditionOf_not]
  rfl

theorem storeSilver_still (h : p.gate.state ≠ .running) : storeSilver x bad p = silverAt x p.gate.silverTimer p := by
  rw [storeSilver, if_neg h]
  rfl

theorem storeSilver_running (h : p.gate.state = .running) : storeSilver x bad p =
    silverAt x (nextTimer bad p.gate.limits.persistence p.gate.silverTimer) p := by
  rw [storeSilver, if_pos h]
  rfl

theorem validSilver_still (h : p.gate.state ≠ .running) : validSilver b x p = selectIfNew b p.gate.silver
    (readingReports .silver .outfallExcursion (concWithin p.gate.limits x) (silverAt x p.gate.silverTimer p)) := by
  exact (validSilver_eq (storeSilver_still h)).trans
    (congrArg (selectIfNew b p.gate.silver) (immediate_quiet (.inr (.inr (.inr h)))))

theorem validSilver_raises (hr : p.gate.silver.isSome = true) (hs : p.gate.state = .running)
    (hk : p.gate.limits.persistence = 0) (hw : concWithin p.gate.limits x = false) (ht : p.gate.silverTimer = none) :
    validSilver b x p = raiseDischarge b .outfallExcursion
      (readingReports .silver .outfallExcursion false (silverAt x p.gate.silverTimer p)) := by
  have stored : storeSilver x (!concWithin p.gate.limits x) p = silverAt x p.gate.silverTimer p := by
    rw [storeSilver_running hs, hw, hk, ht]
    rfl
  rw [validSilver_eq stored, selectIfNew_some hr, hw, ht]
  exact immediate_raises hk hs

theorem validSilver_timed (hr : p.gate.silver.isSome = true) (hs : p.gate.state = .running)
    (h : 0 < p.gate.limits.persistence ∨ p.gate.silverTimer.isSome = true ∨ concWithin p.gate.limits x = true) :
    validSilver b x p = readingReports .silver .outfallExcursion (concWithin p.gate.limits x)
      (silverAt x (if concWithin p.gate.limits x then none
        else p.gate.silverTimer.or (some p.gate.limits.persistence)) p) := by
  have stored := storeSilver_running (x := x) (bad := !concWithin p.gate.limits x) hs
  rw [nextTimer_eq h] at stored
  rw [validSilver_eq stored, selectIfNew_some hr, immediate_quiet]
  rcases h with h | h | h
  · exact .inr (.inr (.inl h))
  · exact .inr (.inl h)
  · exact .inl (by rw [h]; rfl)

/-! ## The pH probe (R151) -/

/-- The part with the reading, its timer at `timer`. -/
def phAt (x : Nat) (timer : Option Nat) (p : Part) : Part :=
  { p with gate := { p.gate with ph := some x, phQuiet := 0, phTimer := timer } }

theorem validPh_eq {stored : Part} (h : storePh x (!phWithin p.gate.limits x) p = stored) :
    validPh b x p = selectIfNew b p.gate.ph (immediate b .outfallPh (!phWithin p.gate.limits x)
      p.gate.phTimer (readingReports .ph .outfallPh (phWithin p.gate.limits x) stored)) := by
  rw [← h, readingReports, ← conditionOf_not]
  rfl

theorem storePh_still (h : p.gate.state ≠ .running) : storePh x bad p = phAt x p.gate.phTimer p := by
  rw [storePh, if_neg h]
  rfl

theorem storePh_running (h : p.gate.state = .running) :
    storePh x bad p = phAt x (nextTimer bad p.gate.limits.persistence p.gate.phTimer) p := by
  rw [storePh, if_pos h]
  rfl

theorem validPh_still (h : p.gate.state ≠ .running) : validPh b x p = selectIfNew b p.gate.ph
    (readingReports .ph .outfallPh (phWithin p.gate.limits x) (phAt x p.gate.phTimer p)) := by
  exact (validPh_eq (storePh_still h)).trans
    (congrArg (selectIfNew b p.gate.ph) (immediate_quiet (.inr (.inr (.inr h)))))

theorem validPh_raises (hr : p.gate.ph.isSome = true) (hs : p.gate.state = .running)
    (hk : p.gate.limits.persistence = 0) (hw : phWithin p.gate.limits x = false) (ht : p.gate.phTimer = none) :
    validPh b x p = raiseDischarge b .outfallPh
      (readingReports .ph .outfallPh false (phAt x p.gate.phTimer p)) := by
  have stored : storePh x (!phWithin p.gate.limits x) p = phAt x p.gate.phTimer p := by
    rw [storePh_running hs, hw, hk, ht]
    rfl
  rw [validPh_eq stored, selectIfNew_some hr, hw, ht]
  exact immediate_raises hk hs

theorem validPh_timed (hr : p.gate.ph.isSome = true) (hs : p.gate.state = .running)
    (h : 0 < p.gate.limits.persistence ∨ p.gate.phTimer.isSome = true ∨ phWithin p.gate.limits x = true) :
    validPh b x p = readingReports .ph .outfallPh (phWithin p.gate.limits x)
      (phAt x (if phWithin p.gate.limits x then none
        else p.gate.phTimer.or (some p.gate.limits.persistence)) p) := by
  have stored := storePh_running (x := x) (bad := !phWithin p.gate.limits x) hs
  rw [nextTimer_eq h] at stored
  rw [validPh_eq stored, selectIfNew_some hr, immediate_quiet]
  rcases h with h | h | h
  · exact .inr (.inr (.inl h))
  · exact .inr (.inl h)
  · exact .inl (by rw [h]; rfl)

/-! ## Readings in service (R149) -/

theorem validReading_in {top : Nat} (h : x ≤ top) : validReading top (some x) = some x := if_pos h

theorem validReading_out {top : Nat} {r : Option Nat} (h : r = none ∨ ∃ x, r = some x ∧ top < x) :
    validReading top r = none := by
  rcases h with rfl | ⟨x, rfl, h⟩
  · rfl
  · exact if_neg (Nat.not_le.mpr h)

/-- The three modes in service. -/
theorem inService_cases {m : Mode} (h : m.inService = true) :
    m = .commissioning ∨ m = .operating ∨ m = .lockdown := by
  cases m with
  | starting | failed => cases h
  | commissioning => exact .inl rfl
  | operating => exact .inr (.inl rfl)
  | lockdown => exact .inr (.inr rfl)

section
variable (hm : p.ctl.mode.inService = true)
include hm

theorem silverReading_valid {r : Option Nat} (h : validReading 30000 r = some x) :
    silverReading b r p = validSilver b x p := by
  rcases inService_cases hm with e | e | e <;> simp only [silverReading, e, h]

theorem silverReading_fails {r : Option Nat} (h : validReading 30000 r = none) :
    silverReading b r p = probeFails b .silver (breakSilence .silver p) := by
  rcases inService_cases hm with e | e | e <;> simp only [silverReading, e, h]

theorem phReading_valid {r : Option Nat} (h : validReading 140 r = some x) : phReading b r p = validPh b x p := by
  rcases inService_cases hm with e | e | e <;> simp only [phReading, e, h]

theorem phReading_fails {r : Option Nat} (h : validReading 140 r = none) :
    phReading b r p = probeFails b .ph (breakSilence .ph p) := by
  rcases inService_cases hm with e | e | e <;> simp only [phReading, e, h]

end

end

/-- Settles O55: by the gate's state, the timer and the limit; the two probes alike. -/
theorem outfallProbes : Obligations.OutfallProbes := by
  refine ⟨fun s hw => ?_, fun s hl => ?_⟩
  · have hm : s.begun.ctl.mode.inService = true := hw.2
    have silver {r : Option Nat} {p : Part} (e : silverReading s.books r s.begun = p) :
        exec (.outfallSilverReading r) s = .next (s.after s.books p) :=
      (partCommand_live (fun b p => silverReading b r p) s hw.1).trans
        (congrArg (fun p => Host.Outcome.next (s.after s.books p)) e)
    have ph {r : Option Nat} {p : Part} (e : phReading s.books r s.begun = p) :
        exec (.outfallPhReading r) s = .next (s.after s.books p) :=
      (partCommand_live (fun b p => phReading b r p) s hw.1).trans
        (congrArg (fun p => Host.Outcome.next (s.after s.books p)) e)
    have silent {pr : Probe} : exec (.probeSilenceTimeout pr) s =
        .next (s.after s.books (probeFails s.books pr s.begun)) :=
      (partCommand_live (fun b p => probeSilent b pr p) s hw.1).trans
        (congrArg (fun p => Host.Outcome.next (s.after s.books p)) (if_pos hm))
    refine ⟨fun x hx hs => ?_, fun x m lot hx hr hs hk hc ht hd hlot => ?_, fun x hx hr hs h => ?_,
      fun x hx hs => ?_, fun x m lot hx hr hs hk hc ht hd hlot => ?_, fun x hx hr hs h => ?_,
      silent, silent, fun r h => silver (silverReading_fails hm (validReading_out h)),
      fun r h => ph (phReading_fails hm (validReading_out h))⟩
    · refine silver ((silverReading_valid hm (validReading_in hx)).trans ((validSilver_still (p := s.begun) hs).trans ?_))
      exact selectIfNew_eq _ _ _
    · refine silver ((silverReading_valid hm (validReading_in hx)).trans
        ((validSilver_raises (p := s.begun) hr hs hk hc ht).trans ?_))
      exact raiseDischarge_moving hd hlot
    · exact silver ((silverReading_valid hm (validReading_in hx)).trans (validSilver_timed (p := s.begun) hr hs h))
    · refine ph ((phReading_valid hm (validReading_in hx)).trans ((validPh_still (p := s.begun) hs).trans ?_))
      exact selectIfNew_eq _ _ _
    · refine ph ((phReading_valid hm (validReading_in hx)).trans
        ((validPh_raises (p := s.begun) hr hs hk hc ht).trans ?_))
      exact raiseDischarge_moving hd hlot
    · exact ph ((phReading_valid hm (validReading_in hx)).trans (validPh_timed (p := s.begun) hr hs h))
  · have silver {p : Part} (e : excursionExpires s.books s.begun = p) :
        exec .excursionExpiry s = .next (s.after s.books p) :=
      (partCommand_live excursionExpires s hl).trans (congrArg (fun p => Host.Outcome.next (s.after s.books p)) e)
    have ph {p : Part} (e : phExpires s.books s.begun = p) :
        exec .phPersistenceExpiry s = .next (s.after s.books p) :=
      (partCommand_live phExpires s hl).trans (congrArg (fun p => Host.Outcome.next (s.after s.books p)) e)
    have still {t : Option Nat} (h : t = none) : ¬ t.isSome = true := by simp [h]
    exact ⟨fun h => silver (if_neg (still h)), fun h => ph (if_neg (still h)),
      fun m lot h hd hlot => silver ((if_pos h).trans (raiseDischarge_moving hd hlot)),
      fun m lot h hd hlot => ph ((if_pos h).trans (raiseDischarge_moving hd hlot))⟩

end Sys2Proof.Machine
end

