-- ==== Sys2Proof/Proofs/Selections.lean ====
section
/-! SUPPORT. The gate state, the selection, the checks after an increment and the end of a DISCHARGE (R140 to R148). -/

namespace Sys2Proof.Machine

section
variable {b : Books} {g : Gate} {l : Lot} {m : Movement} {n left : Nat} {p q : Part}

/-! ## The gate state (R140) -/

theorem dischargeMove_isSome (p : Part) :
    (dischargeMove p).isSome = true ↔ ∃ m ∈ p.mov.entries, m.kind = .discharge := by
  simp [dischargeMove]

theorem gateStateOf_eq (p : Part) : gateStateOf p =
    if p.ctl.mode.running = false ∨ inWindow p.gate = false then .shut
    else if p.ctl.mode = .lockdown ∨ (actionsInForce p).shutOutfall = true then .barred
    else if (∃ m ∈ p.mov.entries, m.kind = .discharge) then .running
    else .open_ := by
  refine ite_of_iff ?_ rfl (ite_of_iff ?_ rfl (ite_of_iff (dischargeMove_isSome p) rfl rfl))
  · simp
  · simp

/-- The gate is OPEN where it may discharge and no DISCHARGE is in the table. -/
theorem gateStateOf_open (h : gateStateOf p = .open_) : p.ctl.mode.running = true ∧ inWindow p.gate = true ∧
    p.ctl.mode ≠ .lockdown ∧ (actionsInForce p).shutOutfall ≠ true := by
  rw [gateStateOf_eq] at h
  split at h
  · cases h
  next shut =>
    split at h
    · cases h
    next barred =>
      obtain ⟨running, window⟩ := not_or.mp shut
      obtain ⟨mode, outfall⟩ := not_or.mp barred
      exact ⟨Bool.not_eq_false _ ▸ running, Bool.not_eq_false _ ▸ window, mode, outfall⟩

theorem gateStateOf_running (hr : p.ctl.mode.running = true) (hw : inWindow p.gate = true)
    (hm : p.ctl.mode ≠ .lockdown) (hs : (actionsInForce p).shutOutfall ≠ true)
    (hd : ∃ m ∈ p.mov.entries, m.kind = .discharge) : gateStateOf p = .running := by
  rw [gateStateOf_eq, if_neg (by simp [hr, hw]), if_neg (by simp [hm, hs]), if_pos hd]

theorem recomputeGate_gate (r : GateReason) (p : Part) :
    (recomputeGate r p).gate = { p.gate with state := gateStateOf p } := by
  dsimp only [recomputeGate]
  split
  · next same => rw [same]
  · exact notify_gate _ _

theorem recomputeGate_mov (r : GateReason) (p : Part) : (recomputeGate r p).mov = p.mov := by
  dsimp only [recomputeGate]
  split
  · rfl
  · exact notify_mov _ _

theorem recomputeGate_lot (r : GateReason) (p : Part) : (recomputeGate r p).lot = p.lot := by
  dsimp only [recomputeGate]
  split
  · rfl
  · exact notify_lot _ _

/-! ## Which lot fits (R143, R144) -/

theorem lotFits_iff : lotFits b g l = true ↔ ∃ conc ph limit lo hi mass volume,
    l.measuredConc = some conc ∧ g.limits.concLimit = some limit ∧ conc ≤ limit ∧
    l.measuredPh = some ph ∧ g.limits.phBand = some (lo, hi) ∧ lo ≤ ph ∧ ph ≤ hi ∧
    g.limits.massAllowance = some mass ∧ g.limits.volumeAllowance = some volume ∧
    let headroom := (mass : Int) - g.todayMass - (if g.limits.floorEnable then (g.limits.floor : Int) else 0)
    0 < headroom ∧ (((b.vessel l.vessel).volume * conc : Nat) : Int) ≤ headroom ∧
      ((b.vessel l.vessel).volume : Int) ≤ (volume : Int) - g.todayVolume := by
  rcases hc : l.measuredConc with _ | conc
  · simp [lotFits, hc]
  rcases hp : l.measuredPh with _ | ph
  · simp [lotFits, hp]
  rcases hk : g.limits.concLimit with _ | limit
  · simp [lotFits, hc, concWithin, hk]
  rcases hb : g.limits.phBand with _ | ⟨lo, hi⟩
  · simp [lotFits, hp, phWithin, hb]
  rcases ha : g.limits.massAllowance with _ | mass
  · simp [lotFits, massHeadroom, ha]
  rcases hv : g.limits.volumeAllowance with _ | volume
  · simp [lotFits, volumeHeadroom, hv]
  simp [lotFits, concWithin, phWithin, massHeadroom, volumeHeadroom, remainingMass, hc, hp, hk, hb, ha, hv, and_assoc]

/-- The first image that passes a test, and what stands before it. -/
theorem find_filterMap_some {α β : Type} {f : α → Option β} {P : β → Bool} {y : β} : ∀ {l : List α},
    (l.filterMap f).find? P = some y → ∃ before x after, l = before ++ x :: after ∧ f x = some y ∧ P y = true ∧
      ∀ z ∈ before, ∀ k, f z = some k → P k = false
  | [], h => nomatch h
  | x :: l, h => by
    cases hx : f x with
    | none =>
      rw [List.filterMap_cons_none hx] at h
      obtain ⟨before, w, after, rfl, image, passes, low⟩ := find_filterMap_some h
      refine ⟨x :: before, w, after, rfl, image, passes, fun z hz k hk => ?_⟩
      rcases List.mem_cons.mp hz with rfl | hz
      · exact absurd (hx.symm.trans hk) nofun
      · exact low z hz k hk
    | some w =>
      rw [List.filterMap_cons_some hx, List.find?_cons] at h
      cases hw : P w with
      | true =>
        rw [hw] at h
        obtain rfl := Option.some.inj h
        exact ⟨[], x, l, rfl, hx, hw, nofun⟩
      | false =>
        rw [hw] at h
        obtain ⟨before, v, after, rfl, image, passes, low⟩ := find_filterMap_some h
        refine ⟨x :: before, v, after, rfl, image, passes, fun z hz k hk => ?_⟩
        rcases List.mem_cons.mp hz with rfl | hz
        · exact Option.some.inj (hx.symm.trans hk) ▸ hw
        · exact low z hz k hk

theorem firstFit_some (h : firstFit b p = some l) : ∃ before x after, p.gate.queue = before ++ x :: after ∧
    findLot x.1 p = some l ∧ lotFits b p.gate l = true ∧
    ∀ y ∈ before, ∀ k, findLot y.1 p = some k → lotFits b p.gate k = false :=
  find_filterMap_some (f := fun x : Nat × Nat => findLot x.1 p) h

theorem firstFit_none_iff : firstFit b p = none ↔
    ∀ y ∈ p.gate.queue, ∀ k, findLot y.1 p = some k → lotFits b p.gate k = false := by
  simp only [firstFit, List.find?_eq_none, List.mem_filterMap, Bool.not_eq_true]
  exact ⟨fun h y hy k hk => h k ⟨y, hy, hk⟩, fun h k ⟨y, hy, hk⟩ => h y hy k hk⟩

/-! ## The selection (R144) -/

theorem selectLot_shut (h : p.gate.state ≠ .open_ ∨ gateStateOf p ≠ .open_) :
    selectLot b p = leaveWaiting .discharge p := by
  refine if_pos ?_
  rcases h with h | h <;> simp [gateOpen, h]

section
variable (ho : p.gate.state = .open_) (hs : gateStateOf p = .open_)
include ho hs

theorem selectLot_blind (h : p.gate.silver = none ∨ p.gate.ph = none) :
    selectLot b p = selectionOutcome .probe (leaveWaiting .discharge p) := by
  refine (if_neg (by simp [gateOpen, ho, hs])).trans (if_pos ?_)
  rcases h with h | h <;> simp [h]

variable (hv : p.gate.silver.isSome = true) (hp : p.gate.ph.isSome = true)
include hv hp

/-- With the gate open and both probes read, the selection goes on to the frames and the queue. -/
theorem selectLot_sighted : selectLot b p =
    if kindHeld p .discharge then selectionOutcome .held (leaveWaiting .discharge p)
    else if p.gate.queue.isEmpty then selectionOutcome .noLot (leaveWaiting .discharge p)
    else match firstFit b p with
      | none => selectionOutcome .noFit (leaveWaiting .discharge p)
      | some l => startDischarge b l p :=
  (if_neg (by simp [gateOpen, ho, hs])).trans
    (if_neg (by simp [Option.isNone_eq_false_iff.mpr hv, Option.isNone_eq_false_iff.mpr hp]))

theorem selectLot_held (hk : kindHeld p .discharge = true) :
    selectLot b p = selectionOutcome .held (leaveWaiting .discharge p) :=
  (selectLot_sighted ho hs hv hp).trans (if_pos hk)

theorem selectLot_noLot (hk : kindHeld p .discharge = false) (hq : p.gate.queue = []) :
    selectLot b p = selectionOutcome .noLot (leaveWaiting .discharge p) :=
  (selectLot_sighted ho hs hv hp).trans ((if_neg (by simp [hk])).trans (if_pos (by simp [hq])))

theorem selectLot_noFit (hk : kindHeld p .discharge = false) (hq : p.gate.queue ≠ []) (hf : firstFit b p = none) :
    selectLot b p = selectionOutcome .noFit (leaveWaiting .discharge p) := by
  refine (selectLot_sighted ho hs hv hp).trans ((if_neg (by simp [hk])).trans ((if_neg (by simp [hq])).trans ?_))
  rw [hf]

theorem selectLot_fits (hk : kindHeld p .discharge = false) (hq : p.gate.queue ≠ []) (hf : firstFit b p = some l) :
    selectLot b p = startDischarge b l p := by
  refine (selectLot_sighted ho hs hv hp).trans ((if_neg (by simp [hk])).trans ((if_neg (by simp [hq])).trans ?_))
  rw [hf]

end

/-! ## The start of a DISCHARGE (R144) -/

/-- What the gate asks the Movement Unit for. -/
def dischargeAsk (b : Books) (l : Lot) : StartAsk :=
  { kind := .discharge, source := .vesselOutlet l.vessel, dest := .outfall
    requested := (b.vessel l.vessel).volume, lot := some l.number, waiter := some .discharge }

theorem startDischarge_refused {why : WaitReason} (h : (askStart b (dischargeAsk b l) p).2 = .refused why) :
    startDischarge b l p = selectionOutcome (.refused why) (askStart b (dischargeAsk b l) p).1 := by
  unfold dischargeAsk at *
  simp only [startDischarge, h]

theorem startDischarge_started (h : (askStart b (dischargeAsk b l) p).2 = .started n) : startDischarge b l p =
    selectionOutcome .started (recomputeGate .dischargeStart
      (dischargeStarts l.number (askStart b (dischargeAsk b l) p).1)) := by
  unfold dischargeAsk at *
  simp only [startDischarge, h]

/-- A refusal touches the waiting list alone. -/
theorem placeAfter_waits (a : StartAsk) (r : Option WaitReason) (p : Part) :
    (placeAfter a r p).lot = p.lot ∧ (placeAfter a r p).gate = p.gate ∧ (placeAfter a r p).flt = p.flt := by
  unfold placeAfter
  split <;> exact ⟨rfl, rfl, rfl⟩

theorem askStart_refused_lot {a : StartAsk} {why : WaitReason} (h : (askStart b a p).2 = .refused why) :
    (askStart b a p).1.lot = p.lot ∧ (askStart b a p).1.gate = p.gate := by
  rw [askStart_refused (startRefusal_of_refused h)]
  obtain ⟨lots, gate, -⟩ := placeAfter_waits a (some why) p
  exact ⟨lots, gate⟩

/-- The part once the DISCHARGE of a lot is in the table, before the gate is recomputed. -/
def discharging (b : Books) (l : Lot) (p : Part) : Part :=
  dischargeStarts l.number (addEntry (dischargeAsk b l) (leaveWaiting .discharge p)).1

theorem discharging_mov (b : Books) (l : Lot) (p : Part) : ∃ n, (discharging b l p).mov.entries =
    p.mov.entries ++ [newEntry (dischargeAsk b l) n (leaveWaiting .discharge p)] :=
  ⟨_, congrArg MovementUnit.entries ((notify_mov _ _).trans rfl)⟩

theorem discharging_gate (b : Books) (l : Lot) (p : Part) : (discharging b l p).gate =
    { p.gate with queue := p.gate.queue.filter (fun x => decide (x.1 ≠ l.number)) } := by
  have gate : (lotNotice l.number .discharging .dischargeStart (updLot l.number (fun x => { x with state := .discharging })
      (addEntry (dischargeAsk b l) (leaveWaiting .discharge p)).1)).gate = p.gate := notify_gate _ _
  exact congrArg (fun g : Gate => { g with queue := g.queue.filter (fun x => decide (x.1 ≠ l.number)) }) gate

theorem discharging_lots (b : Books) (l : Lot) (p : Part) : (discharging b l p).lot.lots =
    p.lot.lots.map (fun x => if x.number = l.number then { x with state := .discharging } else x) :=
  congrArg LotUnit.lots ((notify_lot _ _).trans rfl)

theorem discharging_running (h : gateStateOf p = .open_) : gateStateOf (discharging b l p) = .running := by
  obtain ⟨running, window, mode, outfall⟩ := gateStateOf_open h
  have ctl : (discharging b l p).ctl = p.ctl := notify_ctl _ _
  have frames : (discharging b l p).flt = p.flt := notify_flt _ _
  obtain ⟨n, entries⟩ := discharging_mov b l p
  refine gateStateOf_running (ctl ▸ running) ?_ (ctl ▸ mode) ?_
    ⟨newEntry (dischargeAsk b l) n (leaveWaiting .discharge p), ?_, rfl⟩
  · rw [discharging_gate]
    exact window
  · rw [actionsInForce_congr frames]
    exact outfall
  · rw [entries]
    exact List.mem_append_right _ (List.mem_singleton_self _)

theorem startDischarge_clear (h : startRefusal b (dischargeAsk b l) p = none) : startDischarge b l p =
    selectionOutcome .started (recomputeGate .dischargeStart (discharging b l p)) := by
  have e := askStart_started h
  rw [startDischarge_started (congrArg Prod.snd e), e]
  rfl

theorem startDischarge_gate (h : startRefusal b (dischargeAsk b l) p = none) : (startDischarge b l p).gate =
    { p.gate with queue := p.gate.queue.filter (fun x => decide (x.1 ≠ l.number))
                  state := gateStateOf (discharging b l p), outcome := some .started } := by
  have gate := recomputeGate_gate .dischargeStart (discharging b l p)
  rw [discharging_gate] at gate
  rw [startDischarge_clear h]
  exact congrArg (fun g : Gate => { g with outcome := some .started }) gate

/-! ## The checks after an increment (R146, R147) -/

/-- The day's mass stands so high that the allowance less it is below the floor. -/
def FloorShort (g : Gate) : Prop :=
  ∃ a, g.limits.massAllowance = some a ∧ (a : Int) - g.todayMass < g.limits.floor

/-- The day's mass has used the allowance. -/
def MassSpent (g : Gate) : Prop := ∃ a, g.limits.massAllowance = some a ∧ a ≤ g.todayMass

/-- The next quantum could pass the volume allowance. -/
def VolumeTight (g : Gate) (left : Nat) : Prop := ∃ v, g.limits.volumeAllowance = some v ∧
  (v : Int) - g.todayVolume < 10 ∧ (v : Int) - g.todayVolume < left

theorem floorReached_iff (g : Gate) : floorReached g = true ↔ FloorShort g := by
  unfold floorReached FloorShort
  cases g.limits.massAllowance <;> simp

theorem massSpent_iff (g : Gate) : (match g.limits.massAllowance with
    | some a => decide (a ≤ g.todayMass)
    | none => false) = true ↔ MassSpent g := by
  unfold MassSpent
  cases g.limits.massAllowance <;> simp

theorem volumeTight_iff (g : Gate) (left : Nat) : (match volumeHeadroom g with
    | some h => decide (h < 10 ∧ h < (left : Int))
    | none => false) = true ↔ VolumeTight g left := by
  unfold volumeHeadroom VolumeTight
  cases g.limits.volumeAllowance <;> simp

theorem incrementCheck_floor (he : g.limits.floorEnable = true) (h : FloorShort g) :
    incrementCheck g left = .floor := if_pos (by simp [he, (floorReached_iff g).mpr h])

theorem incrementCheck_spent (he : g.limits.floorEnable = false) (h : MassSpent g) :
    incrementCheck g left = .pause := by
  refine (if_neg (by simp [he])).trans (if_pos ?_)
  rw [he]
  exact (massSpent_iff g).mpr h

section
variable (hf : ¬ (g.limits.floorEnable = true ∧ FloorShort g)) (hs : ¬ (g.limits.floorEnable = false ∧ MassSpent g))
include hf hs

/-- Neither of the two checks on the mass applies. -/
theorem incrementCheck_volume {answer : IncrementCheck}
    (h : (if (match volumeHeadroom g with
      | some h => decide (h < 10 ∧ h < (left : Int))
      | none => false) = true then IncrementCheck.pause else .none) = answer) : incrementCheck g left = answer := by
  refine (if_neg fun e => hf ?_).trans ((if_neg fun e => hs ?_).trans h)
  · obtain ⟨enabled, reached⟩ := Bool.and_eq_true_iff.mp e
    exact ⟨enabled, (floorReached_iff g).mp reached⟩
  · obtain ⟨disabled, spent⟩ := Bool.and_eq_true_iff.mp e
    exact ⟨Bool.not_eq_true' _ ▸ disabled, (massSpent_iff g).mp spent⟩

theorem incrementCheck_tight (h : VolumeTight g left) : incrementCheck g left = .pause :=
  incrementCheck_volume hf hs (if_pos ((volumeTight_iff g left).mpr h))

theorem incrementCheck_none (h : ¬ VolumeTight g left) : incrementCheck g left = .none :=
  incrementCheck_volume hf hs (if_neg ((not_congr (volumeTight_iff g left)).mpr h))

end

theorem afterIncrement_gone (h : findMove n p = none) : afterIncrement b n p = p := by
  rw [afterIncrement, h]

section
variable (h : findMove n p = some m)
include h

theorem afterIncrement_none (hc : incrementCheck p.gate ((sourceVolume b m.source).getD 0) = .none) :
    afterIncrement b n p = p := by
  simp only [afterIncrement, h, hc]

theorem afterIncrement_pause (hc : incrementCheck p.gate ((sourceVolume b m.source).getD 0) = .pause) :
    afterIncrement b n p = cutDischarge b .pause p := by
  simp only [afterIncrement, h, hc, pauseDischarge]

theorem afterIncrement_floor (hc : incrementCheck p.gate ((sourceVolume b m.source).getD 0) = .floor) :
    afterIncrement b n p = floorReachedAt b m p := by
  simp only [afterIncrement, h, hc]

end

theorem floorReachedAt_stands (h : ∃ f ∈ p.flt.stack, f.ftype = .allowanceFloor) :
    floorReachedAt b m p = cutDischarge b .pause (reportType .allowanceFloor .present p) :=
  congrArg (cutDischarge b .pause) (if_pos (by simpa using h))

theorem floorReachedAt_new {lot : Nat} (h : ¬ ∃ f ∈ p.flt.stack, f.ftype = .allowanceFloor) (hl : m.lot = some lot) :
    floorReachedAt b m p = cutDischarge b .pause (raise b
      { ftype := .allowanceFloor, subject := .discharge m.number lot, interrupted := some m
        spare := if p.flt.stack.length < 6 then none else some m.number } p) := by
  have subject : dischargeSubject m = .discharge m.number lot := by rw [dischargeSubject, hl]; rfl
  have spare : (if 6 ≤ p.flt.stack.length then some m.number else none) =
      if p.flt.stack.length < 6 then none else some m.number := by
    split <;> split <;> first | rfl | omega
  refine congrArg (cutDischarge b .pause) ((if_neg (by simpa using h)).trans ?_)
  rw [subject, spare]

/-! ## The end of a DISCHARGE (R148) -/

theorem dischargeEnds_lot {e : Ending} (hm : m.lot = some n) (h : findLot n p = some l) :
    dischargeEnds m e p = recomputeGate (dischargeReason e (dischargedLot n e p)) (stopPersistence (dischargedLot n e p)) := by
  obtain rfl := number_of_findLot h
  simp only [dischargeEnds, hm, Option.bind_some, h]

theorem dischargeEnds_closed {e : Ending} (h : m.lot.bind (fun n => findLot n p) = none) :
    dischargeEnds m e p = recomputeGate (dischargeReason e p) (stopPersistence p) := by
  simp only [dischargeEnds, h]

theorem ownerTold_discharge {e : Ending} (h : m.kind = .discharge) : ownerTold b m e p = dischargeEnds m e p := by
  rw [ownerTold, h]

end

/-- Settles O53: by the checks of the selection, of the increment and of the end in their orders. -/
theorem gateSelection : Obligations.GateSelection := by
  refine ⟨gateStateOf_eq, fun b g l => lotFits_iff, fun b p => ⟨fun h => ?_, fun ho hs => ⟨fun h => ?_, fun hv hp => ?_⟩⟩,
    fun b p l => firstFit_some, fun b p => firstFit_none_iff, fun g left => ⟨incrementCheck_floor, incrementCheck_spent,
      fun hf hs => ⟨incrementCheck_tight hf hs, incrementCheck_none hf hs⟩⟩,
    fun b n p => ⟨afterIncrement_gone, fun m h => ⟨afterIncrement_none h, afterIncrement_pause h,
      fun hc stands => (afterIncrement_floor h hc).trans (floorReachedAt_stands stands),
      fun lot hc stands hl => (afterIncrement_floor h hc).trans (floorReachedAt_new stands hl)⟩⟩,
    fun m k q h => if_pos h,
    fun n p => ⟨rfl, rfl, rfl, rfl, rfl, rfl, rfl, fun d => ⟨rfl, rfl, rfl⟩, rfl⟩,
    fun b m e p h => ⟨fun n l hm hl => ⟨_, (ownerTold_discharge h).trans (dischargeEnds_lot hm hl)⟩,
      fun gone => ⟨_, (ownerTold_discharge h).trans (dischargeEnds_closed (Option.bind_eq_none_iff.mpr gone))⟩⟩⟩
  · rw [selectLot_shut h]
    exact ⟨rfl, rfl⟩
  · rw [selectLot_blind ho hs h]
    rfl
  · refine ⟨fun hk => ?_, fun hk hq => ?_, fun hk hq hf => ?_, fun l hk hq hf => ?_, fun l hk hq hf hr hb hl hd hn => ?_⟩
    · rw [selectLot_held ho hs hv hp hk]
      rfl
    · rw [selectLot_noLot ho hs hv hp hk hq]
      rfl
    · rw [selectLot_noFit ho hs hv hp hk hq hf]
      rfl
    · have fits := selectLot_fits ho hs hv hp hk hq hf
      intro r
      refine ⟨fun why h => ⟨fits.trans (startDischarge_refused h), askStart_refused_lot h⟩, fun n h => ?_⟩
      have clear : startRefusal b (dischargeAsk b l) p = none := startRefusal_of_started h
      refine ⟨fits.trans (startDischarge_started h), ?_, ?_⟩
      · rw [fits, startDischarge_gate clear]
        exact discharging_running hs
      · rw [fits, startDischarge_clear clear]
        exact (congrArg LotUnit.lots (recomputeGate_lot _ _)).trans (discharging_lots b l p)
    · have clear : startRefusal b (dischargeAsk b l) p = none :=
        startRefusal_clear hr hb (fun e => (Nat.ne_of_gt hl) (Option.some.inj e)) hd hn
      rw [selectLot_fits ho hs hv hp hk hq hf]
      obtain ⟨n, entries⟩ := discharging_mov b l p
      refine ⟨?_, ?_, newEntry (dischargeAsk b l) n (leaveWaiting .discharge p), ?_, rfl, rfl, rfl, rfl, rfl⟩
      · rw [startDischarge_gate clear]
      · rw [startDischarge_gate clear]
      · rw [startDischarge_clear clear]
        exact (congrArg MovementUnit.entries (recomputeGate_mov _ _)).trans entries

end Sys2Proof.Machine
end

