-- ==== Sys2Proof/Proofs/Pushes.lean ====
section
/-! SUPPORT. The actions in force, pushes, their actions and the owners they hold (R164 to R172). -/

namespace Sys2Proof.Machine

section
variable {b : Books} {cause : LockdownCause} {depth : Nat} {f : Frame} {m : Movement} {old : ActionSet} {p q : Part}
  {r : Raise} {spare : Option Nat}

/-! ## The actions in force (R170) -/

/-- An action that unions take from either set is in a fold of unions where the start or a frame has it. -/
theorem foldl_unionActions {g : ActionSet → Bool} (hg : ∀ x y, g (unionActions x y) = (g x || g y)) :
    ∀ (l : List Frame) (a : ActionSet), g (l.foldl (fun a f => unionActions a f.actions) a) = true ↔
      g a = true ∨ ∃ f ∈ l, g f.actions = true
  | [], a => by simp
  | f :: l, a => by
    rw [List.foldl_cons, foldl_unionActions hg l, hg]
    simp [or_assoc]

theorem actionsInForce_iff {g : ActionSet → Bool} (hg : ∀ x y, g (unionActions x y) = (g x || g y)) (p : Part) :
    g (actionsInForce p) = true ↔ g p.flt.leaving = true ∨ ∃ f ∈ p.flt.stack, g f.actions = true :=
  foldl_unionActions hg _ _

/-! ## The frame of a raise (R165, R167) -/

theorem newFrame_loaded (hm : p.ctl.mode ≠ .commissioning) (hl : (p.flt.table.get r.ftype.row).loaded = true) :
    (newFrame r p).actions = (p.flt.table.get r.ftype.row).actions ∧
      (newFrame r p).policy = (p.flt.table.get r.ftype.row).policy ∧
      (newFrame r p).hold = if (p.flt.table.get r.ftype.row).policy = .auto
        then some (p.flt.table.get r.ftype.row).hold else none := by
  have own : takesDefault r.ftype p = false := by simp [takesDefault, hm, hl]
  simp only [newFrame, own, Bool.false_eq_true, if_false, and_self]

theorem newFrame_default (h : p.ctl.mode = .commissioning ∨ (p.flt.table.get r.ftype.row).loaded = false) :
    (newFrame r p).actions = ⟨true, true, true, true, true, true, false⟩ ∧ (newFrame r p).policy = .manual ∧
      (newFrame r p).hold = none := by
  have dflt : takesDefault r.ftype p = true := by
    rcases h with h | h <;> simp [takesDefault, h]
  simp [newFrame, dflt, defaultActions]

theorem atPush_cleared_iff (t : FaultType) : t.atPush = .cleared ↔ t = .flowStall ∨ t = .slugTimeout := by
  cases t <;> simp [FaultType.atPush]

theorem newFrame_cleared (h : r.ftype = .flowStall ∨ r.ftype = .slugTimeout) :
    (newFrame r p).condition = .cleared ∧ (newFrame r p).clearedTime = some p.gate.clock ∧
      (newFrame r p).holdLeft = (newFrame r p).hold := by
  have cleared := (atPush_cleared_iff r.ftype).mpr h
  simp [newFrame, cleared]

theorem newFrame_present (h : ¬ (r.ftype = .flowStall ∨ r.ftype = .slugTimeout)) :
    (newFrame r p).condition = .present ∧ (newFrame r p).clearedTime = none ∧ (newFrame r p).holdLeft = none := by
  have present : r.ftype.atPush = .present := by
    cases e : r.ftype.atPush with
    | present => rfl
    | cleared => exact absurd ((atPush_cleared_iff r.ftype).mp e) h
  simp [newFrame, present]

/-! ## The entry to LOCKDOWN (R168, R177) -/

theorem enterLockdown_operating (h : p.ctl.mode = .operating) : enterLockdown b cause spare p =
    blocksLockdown b (notify (.lockdown cause) (generalCut b .general spare
      { p with ctl := { p.ctl with mode := .lockdown } })) := if_pos h

theorem enterLockdown_other (h : p.ctl.mode ≠ .operating) : enterLockdown b cause spare p = p := if_neg h

theorem enterLockdown_ctl (b : Books) (cause : LockdownCause) (spare : Option Nat) (h : p.ctl.mode = .operating) :
    (enterLockdown b cause spare p).ctl = { p.ctl with mode := .lockdown } := by
  rw [enterLockdown_operating h]
  exact (settles_blocksLockdown b (settles_notify _ (settles_generalCut b _ _ (.refl
    { p with ctl := { p.ctl with mode := .lockdown } })))).ctl

/-! ## The actions of a push (R171) -/

/-- The cuts and the announcement, before LOCKDOWN. -/
def pushSteps (b : Books) (f : Frame) (depth : Nat) (spare : Option Nat) (old : ActionSet) (p : Part) : Part :=
  announcePush b f old (applyStopMovement b f depth spare (applyShutOutfall b f depth p))

theorem pushSteps_ctl : (pushSteps b f depth spare old p).ctl = p.ctl :=
  (settles_announcePush b f old (settles_applyStopMovement b f depth spare
    (settles_applyShutOutfall b f depth (.refl p)))).ctl

theorem applyActions_calm (h : f.actions.lockdown = false) :
    applyActions b f depth spare old p = pushSteps b f depth spare old p := if_neg (by simp [h])

theorem applyActions_lockdown (h : f.actions.lockdown = true) : applyActions b f depth spare old p =
    enterLockdown b (.action depth f.ftype) spare (pushSteps b f depth spare old p) := if_pos h

theorem applyActions_mode : (applyActions b f depth spare old p).ctl.mode =
    if p.ctl.mode = .operating ∧ f.actions.lockdown = true then .lockdown else p.ctl.mode := by
  have same := congrArg Control.mode (pushSteps_ctl (b := b) (f := f) (depth := depth) (spare := spare) (old := old)
    (p := p))
  by_cases hl : f.actions.lockdown = true
  · rw [applyActions_lockdown hl]
    by_cases hm : p.ctl.mode = .operating
    · rw [if_pos ⟨hm, hl⟩, enterLockdown_ctl _ _ _ (same.trans hm)]
    · rw [if_neg (fun h => hm h.1), enterLockdown_other (same ▸ hm)]
      exact same
  · rw [if_neg (fun h => hl h.2), applyActions_calm (Bool.eq_false_iff.mpr hl)]
    exact same

theorem applyShutOutfall_none (h : f.actions.shutOutfall = false ∨ dischargeMove p = none) :
    applyShutOutfall b f depth p = p := by
  unfold applyShutOutfall
  split
  · next shut moving =>
    rcases h with h | h
    · exact absurd (h.symm.trans shut) nofun
    · exact absurd (h.symm.trans moving) nofun
  · rfl

theorem applyShutOutfall_cuts (h : f.actions.shutOutfall = true) (hm : dischargeMove p = some m) :
    applyShutOutfall b f depth p = cutMovement b m.number (.frame (boundTo f depth m)) p := by
  simp only [applyShutOutfall, h, hm]

theorem applyStopMovement_none (h : f.actions.stopMovement = false ∨ f.interrupted = none) :
    applyStopMovement b f depth spare p = p := by
  unfold applyStopMovement
  split
  · next stop moving =>
    rcases h with h | h
    · exact absurd (h.symm.trans stop) nofun
    · exact absurd (h.symm.trans moving) nofun
  · rfl

theorem applyStopMovement_some (h : f.actions.stopMovement = true) (hm : f.interrupted = some m) :
    applyStopMovement b f depth spare p =
      if some m.number = spare then p else cutMovement b m.number (.frame (boundTo f depth m)) p := by
  simp only [applyStopMovement, h, hm]

theorem applyStopMovement_spared (h : f.actions.stopMovement = true) (hm : f.interrupted = some m)
    (hs : some m.number = spare ∨ findMove m.number p = none) : applyStopMovement b f depth spare p = p := by
  rw [applyStopMovement_some h hm]
  split
  · rfl
  · next other => exact cutMovement_gone (hs.resolve_left other)

/-! ## The announcement of a push (R171 step 3) -/

theorem holdsAnyCell_iff (f : Frame) : f.holdsAnyCell = true ↔ ∃ c, f.holdsCell c = true := by
  simp [Frame.holdsAnyCell, mem_allCells]

/-- A change of an action from one set to the next. -/
theorem became_iff (new was : Bool) : (new && !was) = true ↔ new = true ∧ was = false := by
  cases new <;> cases was <;> decide

/-- The blocks told of a push, before the arbiter. -/
def pushTold (b : Books) (f : Frame) (old : ActionSet) (p : Part) : Part :=
  let new := actionsInForce p
  let shut := if new.shutOutfall = true ∧ old.shutOutfall = false then recomputeGate .shutOutfall p else p
  let held := holdOwners f (settleCells b shut)
  if new.stopRegulation = true ∧ old.stopRegulation = false then reexamineNeeds b held else held

theorem announcePush_eq : announcePush b f old p = if actionsInForce p ≠ old ∨ (∃ c, f.holdsCell c = true)
    then examineArbiter b (pushTold b f old p) else pushTold b f old p := by
  have told : announcePush b f old p = if (decide (actionsInForce p ≠ old) || f.holdsAnyCell) = true
      then examineArbiter b (pushTold b f old p) else pushTold b f old p := by
    simp only [announcePush, pushTold, became_iff]
  refine told.trans (ite_of_iff ?_ rfl rfl)
  rw [Bool.or_eq_true, decide_eq_true_eq, holdsAnyCell_iff]

/-! ## The owners that a frame holds (R130, R172) -/

theorem holdCell_skips {c : CellId} (h : f.holdsCell c = false ∨ (cellRec p c).step.isRunning = true) :
    holdCell f c p = p := by
  refine if_neg ?_
  rcases h with h | h <;> simp [h]

theorem holdCell_tells {c : CellId} (h : ¬ (f.holdsCell c = false ∨ (cellRec p c).step.isRunning = true)) :
    holdCell f c p = match (cellRec p c).state with
      | .charging => setStep c (.waiting .held) p
      | .draining => drainWaits c .held none p
      | _ => p := by
  refine (if_pos (by simpa using h)).trans ?_
  cases (cellRec p c).state <;> rfl

theorem held_iff (holds running : Bool) : (holds && !running) = true ↔ holds = true ∧ running = false :=
  became_iff holds running

theorem holdOwners_eq (f : Frame) (p : Part) {cells spilled filled : Part}
    (hc : allCells.foldl (fun q c => holdCell f c q) p = cells)
    (hs : (if f.holdsKind .spill = true ∧ cells.reg.spill.isRunning = false
      then setSpill (.waiting .held) none cells else cells) = spilled)
    (hf : (if f.holdsKind .fill = true ∧ spilled.reg.fill.isRunning = false
      then setFill (.waiting .held) none spilled else spilled) = filled) :
    holdOwners f p = if f.holdsKind .ret = true ∧ filled.reg.ret.isRunning = false
      then setReturn (.waiting .held) none none filled else filled := by
  subst hc hs hf
  simp only [holdOwners, held_iff]

/-! ## Pushes and raises not stacked (R167, R168) -/

/-- The part with the frame of a raise on its stack and in its record, the notice sent. -/
def pushed (r : Raise) (p : Part) : Part :=
  notify (.fault (p.flt.stack.length + 1) r.ftype r.subject (newFrame r p).actions (newFrame r p).policy (newFrame r p).time)
    { p with flt := { p.flt with
        stack := p.flt.stack ++ [newFrame r p], last := some (lastFault r (some (p.flt.stack.length + 1)) p) } }

theorem raise_pushes (h : p.ctl.mode.inService = true) (hl : p.flt.stack.length < 6) : raise b r p =
    applyActions b (newFrame r p) (p.flt.stack.length + 1) r.spare (actionsInForce p) (pushed r p) :=
  (if_neg (by simp [h])).trans (if_pos hl)

theorem pushed_ctl : (pushed r p).ctl = p.ctl := notify_ctl _ _

/-- The part that a raise with six frames on the stack records. -/
def unstacked (r : Raise) (p : Part) : Part :=
  notify (.faultNotStacked r.ftype r.subject p.gate.clock)
    { p with flt := { p.flt with last := some (lastFault r none p) } }

theorem raise_full (h : p.ctl.mode.inService = true) (hl : 6 ≤ p.flt.stack.length) :
    raise b r p = enterLockdown b .fullStack r.spare (unstacked r p) :=
  (if_neg (by simp [h])).trans (if_neg (Nat.not_lt.mpr hl))

theorem unstacked_ctl : (unstacked r p).ctl = p.ctl := notify_ctl _ _

/-! ## Condition reports (R169) -/

theorem setCondition_same {c : Condition} (now : Stamp) (h : f.condition = c) : f.setCondition c now = f := by
  subst h
  unfold Frame.setCondition
  cases f.condition <;> rfl

theorem setCondition_present (now : Stamp) (h : f.condition = .cleared) : f.setCondition .present now =
    { f with condition := .present, clearedTime := none, holdLeft := none } := by
  simp only [Frame.setCondition, h]

theorem setCondition_cleared (now : Stamp) (h : f.condition = .present) : f.setCondition .cleared now =
    { f with condition := .cleared, clearedTime := some now, holdLeft := f.hold } := by
  simp only [Frame.setCondition, h]

/-- A frame is in one of two conditions. -/
theorem condition_of_ne {c d : Condition} (h : c ≠ d) : (d = .present ∧ c = .cleared) ∨ (d = .cleared ∧ c = .present) := by
  revert h
  cases c <;> cases d <;> simp

end

/-- Settles O58: by the frame of the raise, the room on the stack, and the steps of a push. -/
theorem faultPushes : Obligations.FaultPushes := by
  refine ⟨⟨fun p => ?_, fun r p => ?_⟩, ⟨fun b r p => ?_, fun t x c p => ?_, fun b f depth spare old p => ?_⟩, fun f p => ?_⟩
  · exact ⟨actionsInForce_iff (g := ActionSet.shutOutfall) (fun _ _ => rfl) p,
      actionsInForce_iff (g := ActionSet.stopIntake) (fun _ _ => rfl) p,
      actionsInForce_iff (g := ActionSet.quarantineIntake) (fun _ _ => rfl) p,
      actionsInForce_iff (g := ActionSet.stopCells) (fun _ _ => rfl) p,
      actionsInForce_iff (g := ActionSet.stopMovement) (fun _ _ => rfl) p,
      actionsInForce_iff (g := ActionSet.stopRegulation) (fun _ _ => rfl) p,
      actionsInForce_iff (g := ActionSet.lockdown) (fun _ _ => rfl) p⟩
  · exact ⟨rfl, rfl, rfl, rfl, rfl, newFrame_loaded, newFrame_default, newFrame_cleared, newFrame_present⟩
  · refine ⟨raise_outOfService, fun h hl => ?_, fun h hl => ⟨fun hm => ?_, fun hm => ?_⟩⟩
    · have view := faultView_raise_pushes (b := b) (r := r) h (Nat.lt_of_succ_le hl)
      refine ⟨raise_pushes h (Nat.lt_of_succ_le hl), (congrArg Prod.fst view).trans (by simp),
        congrArg Prod.snd view, ?_⟩
      rw [raise_pushes h (Nat.lt_of_succ_le hl), applyActions_mode, pushed_ctl]
    · exact (raise_full h (Nat.le_of_lt_succ hl)).trans (enterLockdown_other (by rw [unstacked_ctl]; exact hm))
    · have full := raise_full (b := b) (r := r) h (Nat.le_of_lt_succ hl)
      have view := faultView_raise_full (b := b) (r := r) h (Nat.le_of_lt_succ hl)
      refine ⟨full, ?_, congrArg Prod.snd view, congrArg Prod.fst view⟩
      rw [full, enterLockdown_ctl _ _ _ (by rw [unstacked_ctl]; exact hm)]
  · intro reported
    refine congrArg (fun l => ({ p with flt := { p.flt with stack := l } } : Part)) (List.map_congr_left fun f _ => ?_)
    by_cases hn : f.ftype = t ∧ f.subject = x
    · by_cases hc : f.condition = c
      · refine (if_pos (decide_eq_true hn)).trans ((setCondition_same _ hc).trans (if_neg fun h => h.2.2 hc).symm)
      · refine (if_pos (decide_eq_true hn)).trans (Eq.trans ?_ (if_pos ⟨hn.1, hn.2, hc⟩).symm)
        rcases condition_of_ne hc with ⟨rfl, e⟩ | ⟨rfl, e⟩
        · exact setCondition_present _ e
        · exact setCondition_cleared _ e
    · exact (if_neg (by simpa [Frame.names] using hn)).trans (if_neg fun h => hn ⟨h.1, h.2.1⟩).symm
  · intro bound cut
    have frame (m : Movement) : boundTo f depth m = bound m := by
      simp only [boundTo, bound]
      cases f.subject <;> rfl
    refine ⟨applyShutOutfall_none, fun m h hm => (applyShutOutfall_cuts h hm).trans ?_, applyStopMovement_none,
      fun m h hm => ⟨applyStopMovement_spared h hm, fun hs => ?_⟩, applyActions_calm, applyActions_lockdown, ?_⟩
    · rw [frame]
    · rw [applyStopMovement_some h hm, if_neg hs, frame]
    · exact ⟨fun h => announcePush_eq.trans (if_pos h),
        fun h hc => announcePush_eq.trans (if_neg fun k => k.elim (fun new => new h)
          fun ⟨c, held⟩ => absurd ((hc c).symm.trans held) nofun)⟩
  · intro tells cells spilled filled
    have one (q : Part) (c : CellId) : holdCell f c q = tells q c := by
      by_cases h : f.holdsCell c = false ∨ (cellRec q c).step.isRunning = true
      · exact (holdCell_skips h).trans (if_pos h).symm
      · refine (holdCell_tells h).trans (Eq.trans ?_ (if_neg h).symm)
        cases (cellRec q c).state <;> rfl
    refine holdOwners_eq f p (cells := cells) (spilled := spilled) (filled := filled) ?_ rfl rfl
    exact congrArg (fun g => allCells.foldl g p) (funext fun q => funext fun c => one q c)

end Sys2Proof.Machine
end

