-- ==== Sys2Proof/Proofs/Pops.lean ====
section
/-! SUPPORT. Pops and their chains, the fault requests, the AUTO hold, LOCKDOWN and RELEASE (R174 to R179). -/

namespace Sys2Proof.Machine

section
variable {b : Books} {depth : Nat} {f : Frame} {below : List Frame} {old : ActionSet} {p q : Part} {way : PopWay}

/-! ## One pop (R176 steps 1 to 5) -/

/-- The part after the steps of a pop of `f`, with `below` left on the stack. -/
def afterPop (b : Books) (way : PopWay) (f : Frame) (below : List Frame) (p : Part) : Part :=
  let owners := popOwners b way f { p with flt := { p.flt with stack := below, leaving := f.actions } }
  popReexamine b (notify (.faultPopped (below.length + 1) f.ftype f.subject way)
    (announcePop b f (actionsInForce p) { owners with flt := { owners.flt with leaving := p.flt.leaving } }))

theorem popOnce_empty (h : p.flt.stack = []) : popOnce b way p = p := by
  have top : p.flt.stack.getLast? = none := by rw [h]; rfl
  simp only [popOnce, top]

theorem popOnce_top (h : p.flt.stack = below ++ [f]) : popOnce b way p = afterPop b way f below p := by
  have top : p.flt.stack.getLast? = some f := by simp [h]
  have rest : p.flt.stack.dropLast = below := by rw [h, List.dropLast_concat]
  have depth : p.flt.stack.length = below.length + 1 := by rw [h, List.length_append]; rfl
  have stated : popOnce b way p = popReexamine b (notify (.faultPopped p.flt.stack.length f.ftype f.subject way)
      (announcePop b f (actionsInForce p) (popSteps b way f p))) := by
    simp only [popOnce, top]
  rw [stated, popSteps, rest, depth]
  rfl

theorem settles_afterPop (b : Books) (way : PopWay) (f : Frame) (below : List Frame) (p : Part) :
    Settles { p with flt := { p.flt with stack := below } } (afterPop b way f below p) :=
  settles_popReexamine b (settles_notify _ (settles_announcePop b f _ (settles_setLeaving p.flt.leaving
    (settles_popOwners b way f (.refl { p with flt := { p.flt with stack := below, leaving := f.actions } })))))

/-- The frames of a stack with its top taken away, as they were pushed. -/
theorem popOnce_frames (b : Books) (way : PopWay) (p : Part) :
    (popOnce b way p).flt.stack.map Frame.fixed = (p.flt.stack.map Frame.fixed).dropLast := by
  rcases List.eq_nil_or_concat p.flt.stack with h | ⟨below, f, h⟩
  · rw [popOnce_empty h, h]
    rfl
  · rw [popOnce_top (h.trans (List.concat_eq_append ..)), h, List.concat_eq_append, List.map_append,
      List.map_singleton, List.dropLast_concat]
    exact (settles_afterPop b way f below p).stack

theorem popOnce_keeps (b : Books) (way : PopWay) (p : Part) :
    (popOnce b way p).ctl = p.ctl ∧ (popOnce b way p).flt.last = p.flt.last := by
  rcases List.eq_nil_or_concat p.flt.stack with h | ⟨below, f, h⟩
  · rw [popOnce_empty h]
    exact ⟨rfl, rfl⟩
  · rw [popOnce_top (h.trans (List.concat_eq_append ..))]
    have settled := settles_afterPop b way f below p
    exact ⟨settled.ctl, settled.last⟩

theorem popOnce_length (b : Books) (way : PopWay) (p : Part) :
    (popOnce b way p).flt.stack.length = p.flt.stack.length - 1 := by
  simpa using congrArg List.length (popOnce_frames b way p)

/-! ## Chains of pops (R176 step 6, R178) -/

theorem topPops_iff (p : Part) : topPops p = true ↔ ∃ f, p.flt.stack.getLast? = some f ∧ f.policy = .auto ∧
    f.condition = .cleared ∧ f.holdLeft = some 0 := by
  unfold topPops
  cases p.flt.stack.getLast? <;> simp

theorem topPops_empty (h : p.flt.stack = []) : topPops p = false :=
  Bool.eq_false_iff.mpr fun e => by
    obtain ⟨f, top, -⟩ := (topPops_iff p).mp e
    simp [h] at top

/-- The policy of the top frame is as it was pushed. -/
theorem topPops_manual {l : List Frame} (h : p.flt.stack.map Frame.fixed = l.map Frame.fixed)
    (hm : ∀ x, l.getLast? = some x → x.policy = .manual) : topPops p = false := by
  refine Bool.eq_false_iff.mpr fun e => ?_
  obtain ⟨f, top, auto, -⟩ := (topPops_iff p).mp e
  have tops : (l.getLast?).map Frame.fixed = some f.fixed := by
    rw [← List.getLast?_map, ← h, List.getLast?_map, top]
    rfl
  obtain ⟨x, hx, same⟩ := Option.map_eq_some_iff.mp tops
  have policy : x.policy = f.policy := (congrArg Frame.policy same).trans rfl
  rw [hm x hx, auto] at policy
  cases policy

theorem autoPops_still (k : Nat) (h : topPops p = false) : autoPops b k p = p := by
  cases k with
  | zero => rfl
  | succ k => exact if_neg (by simp [h])

theorem autoPops_succ (b : Books) (k : Nat) (p : Part) :
    autoPops b (k + 1) p = if topPops p = true then autoPops b k (popOnce b .auto p) else p := rfl

theorem autoPops_keeps (b : Books) (k : Nat) : ∀ p : Part,
    (autoPops b k p).ctl = p.ctl ∧ (autoPops b k p).flt.last = p.flt.last := by
  induction k with
  | zero => exact fun _ => ⟨rfl, rfl⟩
  | succ k ih =>
    intro p
    rw [autoPops_succ]
    split
    · obtain ⟨ctl, last⟩ := popOnce_keeps b .auto p
      exact ⟨(ih _).1.trans ctl, (ih _).2.trans last⟩
    · exact ⟨rfl, rfl⟩

/-- A chain leaves the bottom of the stack. -/
theorem autoPops_frames (b : Books) (k : Nat) : ∀ p : Part,
    (autoPops b k p).flt.stack.map Frame.fixed <+: p.flt.stack.map Frame.fixed := by
  induction k with
  | zero => exact fun p => List.prefix_rfl
  | succ k ih =>
    intro p
    rw [autoPops_succ]
    split
    · exact (ih _).trans (popOnce_frames b .auto p ▸ List.dropLast_prefix _)
    · exact List.prefix_rfl

/-- A chain with fuel for the whole stack stops at a frame that stays. -/
theorem topPops_autoPops (b : Books) (k : Nat) : ∀ p : Part, p.flt.stack.length ≤ k →
    topPops (autoPops b k p) = false := by
  induction k with
  | zero => exact fun p h => topPops_empty (List.eq_nil_of_length_eq_zero (Nat.le_zero.mp h))
  | succ k ih =>
    intro p h
    rw [autoPops_succ]
    split
    · exact ih _ (by rw [popOnce_length]; omega)
    · next stays => exact Bool.eq_false_iff.mpr stays

theorem popFrame_top (h : p.flt.stack = below ++ [f]) :
    popFrame b way p = autoPops b 6 (afterPop b way f below p) := by
  rw [popFrame, popOnce_top h]

theorem popFrame_keeps (b : Books) (way : PopWay) (p : Part) :
    (popFrame b way p).ctl = p.ctl ∧ (popFrame b way p).flt.last = p.flt.last := by
  obtain ⟨ctl, last⟩ := autoPops_keeps b 6 (popOnce b way p)
  obtain ⟨ctl', last'⟩ := popOnce_keeps b way p
  exact ⟨ctl.trans ctl', last.trans last'⟩

theorem popFrame_frames (h : p.flt.stack = below ++ [f]) : ∃ k, k ≤ below.length ∧
    (popFrame b way p).flt.stack.map Frame.fixed = (below.take k).map Frame.fixed := by
  have front := autoPops_frames b 6 (afterPop b way f below p)
  rw [(settles_afterPop b way f below p).stack] at front
  rw [popFrame_top h, List.prefix_iff_eq_take.mp front, ← List.map_take]
  exact ⟨_, by simpa using front.length_le, rfl⟩

/-! ## The requests (R174, R175) -/

theorem onTopFrame_range {take : Frame → Plant → Plant × Reply} {r : Plant} (h : ¬ (1 ≤ depth ∧ depth ≤ 6)) :
    onTopFrame depth take r = refuse .badValue r := if_pos (by omega)

theorem frameAt_none (hd : 1 ≤ depth) (h : p.flt.stack.length < depth) : frameAt depth p = none :=
  (if_neg (by omega)).trans (List.getElem?_eq_none (by omega))

theorem frameAt_middle {above : List Frame} (h : p.flt.stack = below ++ f :: above) (hd : depth = below.length + 1) :
    frameAt depth p = some f := by
  subst hd
  refine (if_neg (by omega)).trans ?_
  simp [h]

section
variable {take : Frame → Plant → Plant × Reply} {r : Plant} (hd : 1 ≤ depth) (h6 : depth ≤ 6)
include hd h6

theorem onTopFrame_absent (h : r.part.flt.stack.length < depth) : onTopFrame depth take r = refuse .noSuch r := by
  refine (if_neg (by omega)).trans ?_
  rw [frameAt_none hd h]

theorem onTopFrame_under (h : depth < r.part.flt.stack.length) : onTopFrame depth take r = refuse .notTop r := by
  refine (if_neg (by omega)).trans ?_
  have there : frameAt depth r.part = some (r.part.flt.stack[depth - 1]) :=
    (if_neg (by omega)).trans (List.getElem?_eq_getElem (by omega))
  rw [there]
  exact if_neg (by omega)

end

theorem onTopFrame_top {take : Frame → Plant → Plant × Reply} {r : Plant} (h : r.part.flt.stack = below ++ [f])
    (hd : depth = below.length + 1) (h6 : depth ≤ 6) : onTopFrame depth take r = take f r := by
  refine (if_neg (by omega)).trans ?_
  rw [frameAt_middle h hd]
  exact if_pos (by rw [h, hd]; simp)

/-! ## The owners of a popped frame (R50, R130, R176 step 2) -/

theorem popCell_free {c : CellId} (h : f.holdsCell c = false) : popCell b way f c p = p := if_neg (by simp [h])

theorem popCell_abandon {c : CellId} (h : f.holdsCell c = true) :
    popCell b .abandon f c p = takeUpStep b c (abandonCell b c p) := if_pos h

theorem popCell_resume {c : CellId} (h : f.holdsCell c = true) (hw : way ≠ .abandon) :
    popCell b way f c p = takeUpStep b c p := by
  refine (if_pos h).trans ?_
  cases way with
  | abandon => exact absurd rfl hw
  | resume | auto => rfl

theorem held_reexamineSpill (held : Bool) : (if held = true then reexamineSpill b p else p) =
    if held = true ∧ p.reg.spill.isWaiting = true then spillCheck b p else p := by
  cases held with
  | true => exact (if_pos rfl).trans (ite_of_iff (and_iff_right rfl).symm rfl rfl)
  | false => exact (if_neg nofun).trans (if_neg fun h => nomatch h.1).symm

theorem held_reexamineFill (held : Bool) : (if held = true then reexamineFill b p else p) =
    if held = true ∧ p.reg.fill.isWaiting = true then fillCheck b p else p := by
  cases held with
  | true => exact (if_pos rfl).trans (ite_of_iff (and_iff_right rfl).symm rfl rfl)
  | false => exact (if_neg nofun).trans (if_neg fun h => nomatch h.1).symm

theorem popOwners_eq {owners spilled filled returned : Part}
    (hc : allCells.foldl (fun q c => popCell b way f c q) (popLot way f p) = owners)
    (hs : (if f.holdsKind .spill = true ∧ owners.reg.spill.isWaiting = true then spillCheck b owners else owners) = spilled)
    (hf : (if f.holdsKind .fill = true ∧ spilled.reg.fill.isWaiting = true then fillCheck b spilled else spilled) = filled)
    (hr : (if f.holdsKind .ret = true then examineReturn b filled else filled) = returned) :
    popOwners b way f p = if f.holdsKind .discharge = true then selectLot b returned else returned := by
  subst hc hs hf hr
  dsimp only [popOwners]
  rw [held_reexamineSpill, held_reexamineFill]

/-! ## The announcement of a pop (R176 step 3) -/

/-- The blocks told of a pop, before the arbiter. -/
def popTold (b : Books) (old : ActionSet) (p : Part) : Part :=
  let new := actionsInForce p
  let opened := if old.shutOutfall = true ∧ new.shutOutfall = false then recomputeGate .shutOutfall p else p
  let settled := settleCells b opened
  if old.stopRegulation = true ∧ new.stopRegulation = false
    then examineReturn b (reuseEvaluation b settled) else settled

theorem announcePop_eq : announcePop b f old p = if actionsInForce p ≠ old ∨ (∃ c, f.holdsCell c = true)
    then examineArbiter b (popTold b old p) else popTold b old p := by
  have told : announcePop b f old p = if (decide (actionsInForce p ≠ old) || f.holdsAnyCell) = true
      then examineArbiter b (popTold b old p) else popTold b old p := by
    simp only [announcePop, popTold, became_iff]
  refine told.trans (ite_of_iff ?_ rfl rfl)
  rw [Bool.or_eq_true, decide_eq_true_eq, holdsAnyCell_iff]

theorem holdsKind_iff (f : Frame) (k : MoveKind) : f.holdsKind k = true ↔ f.actions.stopMovement = true ∧
    ∃ m, f.interrupted = some m ∧ m.kind = k := by
  unfold Frame.holdsKind
  cases f.interrupted <;> simp

/-! ## The AUTO hold (R178) -/

theorem autoHoldExpires_none (h : ¬ p.ctl.mode.inService = true ∨ ∀ f, frameAt depth p = some f →
    ¬ (f.policy = .auto ∧ f.condition = .cleared ∧ f.holdLeft.isSome = true)) : autoHoldExpires b depth p = p := by
  unfold autoHoldExpires
  split
  · rfl
  · next f found =>
    exact if_neg fun ⟨service, holds⟩ => h.elim (· service) (fun none_ => none_ f found holds)

/-- The part with the hold of the frame above `below` run out. -/
def holdRunOut (below : List Frame) (f : Frame) (above : List Frame) (p : Part) : Part :=
  { p with flt := { p.flt with stack := below ++ { f with holdLeft := some 0 } :: above } }

theorem modify_middle {α : Type} (g : α → α) (x : α) (above : List α) :
    ∀ below : List α, (below ++ x :: above).modify below.length g = below ++ g x :: above
  | [] => rfl
  | y :: below => congrArg (y :: ·) (modify_middle g x above below)

theorem autoHoldExpires_holds {above : List Frame} (hm : p.ctl.mode.inService = true)
    (hs : p.flt.stack = below ++ f :: above) (hd : depth = below.length + 1)
    (h : f.policy = .auto ∧ f.condition = .cleared ∧ f.holdLeft.isSome = true) : autoHoldExpires b depth p =
      if above = [] then popFrame b .auto (holdRunOut below f above p) else holdRunOut below f above p := by
  have found := frameAt_middle hs hd
  have stack : p.flt.stack.modify (depth - 1) (fun x => { x with holdLeft := some 0 }) =
      below ++ { f with holdLeft := some 0 } :: above := by
    rw [hs, hd]
    exact modify_middle _ f above below
  have stated : autoHoldExpires b depth p = if depth = (p.flt.stack.modify (depth - 1)
      (fun x => { x with holdLeft := some 0 })).length
        then popFrame b .auto { p with flt := { p.flt with
          stack := p.flt.stack.modify (depth - 1) (fun x => { x with holdLeft := some 0 }) } }
        else { p with flt := { p.flt with
          stack := p.flt.stack.modify (depth - 1) (fun x => { x with holdLeft := some 0 }) } } := by
    unfold autoHoldExpires
    rw [found]
    exact if_pos ⟨hm, h⟩
  rw [stated, stack]
  refine ite_of_iff ?_ rfl rfl
  rw [hd, List.length_append, List.length_cons]
  refine ⟨fun e => List.eq_nil_of_length_eq_zero (by omega), fun e => by rw [e]; rfl⟩

end

/-- Settles O59: by the place of the depth, the steps of a pop, and the fuel of the chain. -/
theorem faultPops : Obligations.FaultPops := by
  refine ⟨fun n depth s hs => ?_, fun b way p below f h => ?_, fun b way p => ?_, fun b way f p => ?_,
    fun b f old p => ?_, fun f c k => ⟨holdsCell_iff f, holdsKind_iff f k⟩, fun depth s hl => ?_⟩
  · have told {kind : Byte} {take : Plant → Plant × Reply} {r : Reply}
        (e : take ⟨s.books, s.begun⟩ = (⟨s.books, s.begun⟩, r)) :
        command (request n kind (inService take)) s = .next (s.told n kind r) := request_inService hs e
    refine ⟨fun h => ⟨told (onTopFrame_range h), told (onTopFrame_range h)⟩,
      fun h1 h6 h => ⟨told (onTopFrame_absent (r := ⟨s.books, s.begun⟩) h1 h6 h),
        told (onTopFrame_absent (r := ⟨s.books, s.begun⟩) h1 h6 h)⟩,
      fun h1 h6 h => ⟨told (onTopFrame_under (r := ⟨s.books, s.begun⟩) h1 h6 h),
        told (onTopFrame_under (r := ⟨s.books, s.begun⟩) h1 h6 h)⟩, fun below f h hd h6 => ?_⟩
    have top {take : Frame → Plant → Plant × Reply} :
        onTopFrame depth take ⟨s.books, s.begun⟩ = take f ⟨s.books, s.begun⟩ :=
      onTopFrame_top (r := ⟨s.books, s.begun⟩) h hd h6
    intro ok
    exact ⟨fun hc => told (top.trans (if_neg (by simp [hc]))), fun hc => request_inService hs (top.trans (if_pos hc)),
      request_inService hs top⟩
  · intro owners popped
    have top : popFrame b way p = autoPops b 6 popped := popFrame_top h
    have settled : Settles { p with flt := { p.flt with stack := below } } popped := settles_afterPop b way f below p
    have frames := settled.stack
    obtain ⟨ctl, last⟩ := popFrame_keeps b way p
    exact ⟨frames, ctl, last, fun stays => top.trans (autoPops_still 6 stays), top,
      fun manual => top.trans (autoPops_still 6 (topPops_manual frames manual))⟩
  · exact ⟨topPops_iff p, rfl, fun k => autoPops_succ b k p,
      fun h => topPops_autoPops b 6 _ (by rw [popOnce_length]; omega)⟩
  · intro ends takes cell spilled filled returned owners
    have lot : popLot way f p = ends p := by
      simp only [popLot, ends]
      cases f.lot <;> cases way <;> rfl
    have one (q : Part) (c : CellId) : popCell b way f c q = cell q c := by
      by_cases h : f.holdsCell c = false
      · exact (popCell_free h).trans (if_pos h).symm
      · refine Eq.trans ?_ (if_neg h).symm
        have holds : f.holdsCell c = true := Bool.not_eq_false _ ▸ h
        cases way with
        | abandon =>
          refine (popCell_abandon holds).trans (congrArg (takeUpStep b c) ?_)
          unfold abandonCell
          cases (cellRec q c).state <;> cases cellMove q c <;> rfl
        | resume | auto => exact popCell_resume holds nofun
    have folded : allCells.foldl (fun q c => popCell b way f c q) (popLot way f p) = allCells.foldl cell (ends p) := by
      rw [lot]
      exact congrArg (fun g => allCells.foldl g (ends p)) (funext fun q => funext fun c => one q c)
    exact popOwners_eq folded rfl rfl rfl
  · exact ⟨fun h => announcePop_eq.trans (if_pos h),
      fun h hc => announcePop_eq.trans (if_neg fun k => k.elim (fun new => new h)
        fun ⟨c, held⟩ => absurd ((hc c).symm.trans held) nofun), rfl⟩
  · intro holds
    have after {p : Part} (e : autoHoldExpires s.books depth s.begun = p) :
        exec (.autoHoldExpiry depth) s = .next (s.after s.books p) :=
      (partCommand_live (fun b p => autoHoldExpires b depth p) s hl).trans
        (congrArg (fun p => Host.Outcome.next (s.after s.books p)) e)
    refine ⟨fun h => after (autoHoldExpires_none (p := s.begun) h), fun below f above hm hst hd hh => ?_⟩
    have expires := autoHoldExpires_holds (b := s.books) (p := s.begun) hm hst hd hh
    intro ran
    refine ⟨fun h => after (expires.trans (if_neg h)), fun h => ?_⟩
    have alone : ran.flt.stack = below ++ [{ f with holdLeft := some 0 }] := by
      rw [show ran.flt.stack = below ++ { f with holdLeft := some 0 } :: above from rfl, h]
    exact ⟨_, after (expires.trans (if_pos h)), rfl, (popFrame_keeps _ _ _).1, popFrame_frames alone⟩

/-! ## LOCKDOWN and RELEASE (R177, R179) -/

/-- An empty stack and calm changes leave the Fault Unit as it was. -/
theorem flt_of_settles {p q : Part} (h : Settles p q) (he : p.flt.stack = []) : q.flt = p.flt := by
  have stack : q.flt.stack = p.flt.stack := by
    have frames := h.stack
    rw [he] at frames ⊢
    exact List.map_eq_nil_iff.mp frames
  have table : q.flt.table = p.flt.table := 
    show q.standing.flt.table = p.standing.flt.table by rw [h.standing]
  have last := h.last
  have leaving := h.leaving
  cases hp : p.flt
  cases hq : q.flt
  simp_all

theorem takeLockdown_operating {q : Plant} (h : q.part.ctl.mode = .operating) :
    takeLockdown q = okay { q with part := enterLockdown q.books .host none q.part } := by
  rw [takeLockdown, h]

theorem takeLockdown_lockdown {q : Plant} (h : q.part.ctl.mode = .lockdown) : takeLockdown q = okay q := by
  rw [takeLockdown, h]

theorem takeLockdown_refused {q : Plant} (ho : q.part.ctl.mode ≠ .operating) (hl : q.part.ctl.mode ≠ .lockdown) :
    takeLockdown q = refuse .wrongMode q := by
  unfold takeLockdown
  split
  · exact absurd ‹_› ho
  · exact absurd ‹_› hl
  all_goals rfl

theorem takeRelease_free {q : Plant} (h : q.part.ctl.mode = .lockdown) (he : q.part.flt.stack = []) :
    takeRelease q = okay { q with part := releasePlant q.books q.part } :=
  (if_pos h).trans (if_pos (by simp [he]))

theorem takeRelease_framed {q : Plant} (h : q.part.ctl.mode = .lockdown) (he : q.part.flt.stack ≠ []) :
    takeRelease q = (q, { status := .wrongState, items := .topDepth q.part.flt.stack.length }) :=
  (if_pos h).trans (if_neg (by simpa using he))

/-- Settles O60: by the mode, and for RELEASE by the stack. -/
theorem lockdownAndRelease : Obligations.LockdownAndRelease := by
  refine ⟨fun b p => ⟨rfl, rfl, rfl, rfl, rfl, rfl⟩, fun n s hp => ⟨fun h => ?_,
    fun h => request_told hp (takeLockdown_lockdown (q := ⟨s.books, s.begun⟩) h),
    fun ho hl => request_told hp (takeLockdown_refused (q := ⟨s.books, s.begun⟩) ho hl), fun h he => ?_,
    fun h he => request_told hp (takeRelease_framed (q := ⟨s.books, s.begun⟩) h he),
    fun h => request_told hp (if_neg h)⟩⟩
  · have view := faultView_enterLockdown s.books .host none s.begun
    exact ⟨_, request_answered hp (takeLockdown_operating (q := ⟨s.books, s.begun⟩) h),
      enterLockdown_operating (p := s.begun) h, enterLockdown_ctl (p := s.begun) _ _ _ h,
      congrArg Prod.snd view, congrArg Prod.fst view⟩
  · have settled := settles_blocksOperating s.books (settles_notify .released
      (.refl { s.begun with ctl := { s.part.ctl with mode := .operating } }))
    exact ⟨_, request_answered hp (takeRelease_free (q := ⟨s.books, s.begun⟩) h he), rfl, settled.ctl,
      (flt_of_settles (p := { s.begun with ctl := { s.part.ctl with mode := .operating } }) settled he).trans rfl⟩

end Sys2Proof.Machine
end

