-- ==== Sys2Proof/Proofs/SelfTests.lean ====
section
/-! SUPPORT. The end of the self-test, and the cell fault inputs found ACTIVE (R129, R184, R190). -/

namespace Sys2Proof.Machine

section
variable {b : Books} {c : CellId} {p q : Part}

/-! ## What stands read back -/

theorem cellStanding_of_standing (h : q.standing = p.standing) (c : CellId) :
    (cellRec q c).standing = (cellRec p c).standing := by
  have cells : q.cel.cells.map CellRec.standing = p.cel.cells.map CellRec.standing :=
    congrArg (fun x : Part => x.cel.cells) h
  have entry (x : Part) : (x.cel.cells.map CellRec.standing).get c = (cellRec x c).standing :=
    Vector.getElem_map CellRec.standing (xs := x.cel.cells) c.2
  rw [← entry, ← entry, cells]

theorem faultInput_of_standing (h : q.standing = p.standing) (c : CellId) :
    (cellRec q c).faultInput = (cellRec p c).faultInput :=
  show (cellRec q c).standing.faultInput = (cellRec p c).standing.faultInput by rw [cellStanding_of_standing h c]

/-! ## Cell fault inputs found ACTIVE (R129, R190) -/

theorem fixed_reportOn (t : FaultType) (x : Subject) (k : Condition) (p : Part) :
    (reportOn t x k p).flt.stack.map Frame.fixed = p.flt.stack.map Frame.fixed :=
  (settles_reportOn t x k (.refl p)).stack

/-- The raise of an ACTIVE cell fault input. -/
def cellRaise (c : CellId) (p : Part) : Raise :=
  { ftype := .cellFault, subject := .cell c, interrupted := cellMove p c }

/-- What the part finds at one cell. -/
def cellFound (b : Books) (p : Part) (c : CellId) : Part :=
  if (cellRec p c).faultInput then cellFaultActive b c p else p

theorem cellFaultsFound_eq (b : Books) (p : Part) : cellFaultsFound b p = allCells.foldl (cellFound b) p := rfl

theorem reaches_cellFound (b : Books) (p : Part) (c : CellId) : Reaches p (cellFound b p c) := by
  unfold cellFound
  split
  · exact reaches_cellFaultActive b c (.refl p)
  · exact .refl p

/-- Frames that stand stay, the stack grows by the frame of this cell at most, and a stack that is not full has it. -/
theorem cellFound_frames (hm : p.ctl.mode.inService = true) : ∃ new : List Frame,
    (cellFound b p c).flt.stack.map Frame.fixed = p.flt.stack.map Frame.fixed ++ new ∧ new.length ≤ 1 ∧
    (∀ f ∈ new, f.ftype = .cellFault ∧ f.subject = .cell c) ∧
    ((cellRec p c).faultInput = true → (cellFound b p c).flt.stack.length < 6 →
      hasFrame .cellFault (.cell c) (cellFound b p c) = true) := by
  by_cases hi : (cellRec p c).faultInput = true
  · have found : cellFound b p c = cellFaultActive b c p := if_pos hi
    rw [found]
    cases hf : hasFrame .cellFault (.cell c) p with
    | true =>
      have same : cellFaultActive b c p = reportOn .cellFault (.cell c) .present p :=
        raiseOrReport_framed (r := cellRaise c p) hf
      have fixed := fixed_reportOn .cellFault (.cell c) .present p
      rw [same]
      exact ⟨[], by simpa using fixed, by simp, by simp, fun _ _ => (hasFrame_of_fixed _ _ fixed).trans hf⟩
    | false =>
      have raised : cellFaultActive b c p = raise b (cellRaise c p) p := raiseOrReport_new (r := cellRaise c p) hf
      rw [raised]
      by_cases hl : p.flt.stack.length < 6
      · have pushed := congrArg Prod.fst (faultView_raise_pushes (b := b) (r := cellRaise c p) hm hl)
        refine ⟨[(newFrame (cellRaise c p) p).fixed], pushed, Nat.le_refl _, ?_, fun _ _ => ?_⟩
        · exact fun f hf => List.mem_singleton.mp hf ▸ ⟨rfl, rfl⟩
        · rw [hasFrame_eq_fixed, show (raise b (cellRaise c p) p).flt.stack.map Frame.fixed = _ from pushed, List.any_append]
          exact Bool.or_eq_true_iff.mpr (.inr (by simp [Frame.names, Frame.fixed, newFrame, cellRaise]))
      · have full : (raise b (cellRaise c p) p).flt.stack.map Frame.fixed = p.flt.stack.map Frame.fixed :=
          congrArg Prod.fst (faultView_raise_full (b := b) (r := cellRaise c p) hm (Nat.le_of_not_lt hl))
        have length : (raise b (cellRaise c p) p).flt.stack.length = p.flt.stack.length := by
          simpa using congrArg List.length full
        exact ⟨[], by simpa using full, by simp, by simp, fun _ room => absurd (length ▸ room) hl⟩
  · have still : cellFound b p c = p := if_neg hi
    rw [still]
    exact ⟨[], by simp, by simp, by simp, fun on => absurd on hi⟩

/-- The same along a list of cells. -/
theorem foldl_cellFound_frames (l : List CellId) : ∀ p : Part, p.ctl.mode = .commissioning → ∃ new : List Frame,
    (l.foldl (cellFound b) p).flt.stack.map Frame.fixed = p.flt.stack.map Frame.fixed ++ new ∧ new.length ≤ l.length ∧
    (∀ f ∈ new, ∃ c, f.ftype = .cellFault ∧ f.subject = .cell c) ∧
    (∀ c ∈ l, (cellRec p c).faultInput = true → (l.foldl (cellFound b) p).flt.stack.length < 6 →
      hasFrame .cellFault (.cell c) (l.foldl (cellFound b) p) = true) := by
  induction l with
  | nil => exact fun p _ => ⟨[], by simp, Nat.le_refl _, by simp, by simp⟩
  | cons c l ih =>
    intro p hm
    have reached := reaches_cellFound b p c
    have mode : (cellFound b p c).ctl.mode = .commissioning := by
      rw [reached.ctl_eq (by simp [hm])]
      exact hm
    obtain ⟨one, frames, short, cells, has⟩ := cellFound_frames (b := b) (c := c) (p := p) (by rw [hm]; rfl)
    obtain ⟨rest, frames', short', cells', has'⟩ := ih (cellFound b p c) mode
    rw [List.foldl_cons]
    refine ⟨one ++ rest, by rw [frames', frames, List.append_assoc], ?_, ?_, fun d hd on room => ?_⟩
    · rw [List.length_append, List.length_cons]
      omega
    · intro f hf
      rcases List.mem_append.mp hf with hf | hf
      · exact ⟨c, cells f hf⟩
      · exact cells' f hf
    · have longer := congrArg List.length frames'
      simp only [List.length_map, List.length_append] at longer
      rcases List.mem_cons.mp hd with rfl | hd
      · have there := has on (by omega)
        rw [hasFrame_eq_fixed] at there ⊢
        rw [frames', List.any_append, there, Bool.true_or]
      · exact has' d hd ((faultInput_of_standing reached.standing d).trans on) room

theorem cellFaultsFound_frames (hm : p.ctl.mode = .commissioning) (hc : (cellRec p c).faultInput = true)
    (h : (cellFaultsFound b p).flt.stack.length < 6) : hasFrame .cellFault (.cell c) (cellFaultsFound b p) = true := by
  obtain ⟨-, -, -, -, has⟩ := foldl_cellFound_frames (b := b) allCells p hm
  exact has c (mem_allCells c) hc h

/-- With no input ACTIVE nothing is found. -/
theorem cellFaultsFound_none (h : ∀ c, (cellRec p c).faultInput = false) : cellFaultsFound b p = p := by
  rw [cellFaultsFound_eq]
  have still (l : List CellId) : l.foldl (cellFound b) p = p := by
    induction l with
    | nil => rfl
    | cons c l ih => rw [List.foldl_cons, show cellFound b p c = p from if_neg (by simp [h c]), ih]
  exact still allCells

/-! ## The end of the self-test (R184) -/

/-- The part with the result, the lines and the mode, before START. -/
def selfTested (failed : SelfTest) (inputs : Vector Bool 24) (faults : Vector Bool 4) (m : Mode) (p : Part) : Part :=
  recordLines inputs faults { p with ctl := { p.ctl with selfTest := failed, mode := m } }

section
variable {failed : SelfTest} {inputs : Vector Bool 24} {faults : Vector Bool 4} {m : Mode}

theorem cellRec_recordLines (c : CellId) :
    cellRec (recordLines inputs faults p) c = { cellRec p c with faultInput := faults.get c } :=
  Vector.getElem_zipWith c.2

/-- The examination of the arbiter at an entry to FAILED or COMMISSIONING. -/
def started (failed : SelfTest) (inputs : Vector Bool 24) (faults : Vector Bool 4) (m : Mode) (p : Part) : Part :=
  arbiterOutcome .mode none (notify (.start p.ctl.lastStart failed m) (selfTested failed inputs faults m p))

theorem examine_started (hm : m ≠ .operating) :
    examineArbiter b (notify (.start p.ctl.lastStart failed m) (selfTested failed inputs faults m p)) =
      started failed inputs faults m p :=
  examineArbiter_mode b (by rw [notify_ctl]; exact hm)

theorem selfTestEnds_failed (h : p.ctl.mode = .starting) (hf : failed ≠ {}) :
    selfTestEnds failed inputs faults b p = started failed inputs faults .failed p := by
  refine (if_neg (Classical.not_not.mpr h)).trans ?_
  rw [if_neg hf]
  exact (if_neg nofun).trans (examine_started nofun)

theorem selfTestEnds_passed (h : p.ctl.mode = .starting) :
    selfTestEnds {} inputs faults b p = cellFaultsFound b (clearManual (started {} inputs faults .commissioning p)) := by
  refine (if_neg (Classical.not_not.mpr h)).trans ?_
  rw [if_pos rfl]
  exact (if_pos rfl).trans (congrArg (fun q => cellFaultsFound b (clearManual q)) (examine_started nofun))

theorem started_ctl : (started failed inputs faults m p).ctl = { p.ctl with selfTest := failed, mode := m } :=
  notify_ctl _ _

theorem started_standing :
    (started failed inputs faults m p).standing = (selfTested failed inputs faults m p).standing := standing_notify _ _

theorem started_faultInput (c : CellId) :
    (cellRec (started failed inputs faults m p) c).faultInput = faults.get c :=
  (faultInput_of_standing started_standing c).trans ((congrArg CellRec.faultInput (cellRec_recordLines c)).trans rfl)

theorem standing_clearManual (h : q.standing = p.standing) :
    (clearManual q).standing = (clearManual p).standing := congrArg clearManual h

end

end

/-- Settles O11: by the result; in COMMISSIONING by what the cell fault inputs raise. -/
theorem selfTestEndEntersItsMode : Obligations.SelfTestEndEntersItsMode := by
  intro failed inputs faults s hl hm
  have after {p : Part} (e : selfTestEnds failed inputs faults s.books s.begun = p) :
      exec (.selfTestEnd failed inputs faults) s = .next (s.after s.books p) :=
    (partCommand_live (fun b p => selfTestEnds failed inputs faults b p) s hl).trans
      (congrArg (fun p => Host.Outcome.next (s.after s.books p)) e)
  refine ⟨fun hf => after (selfTestEnds_failed (p := s.begun) hm hf), ?_, ?_⟩
  · rintro rfl none_
    refine after ((selfTestEnds_passed (p := s.begun) hm).trans (cellFaultsFound_none fun c => ?_))
    exact (started_faultInput (p := s.begun) c).trans (none_ c)
  · rintro rfl
    refine ⟨_, after (selfTestEnds_passed (p := s.begun) hm), ?_⟩
    generalize hq : clearManual (started {} inputs faults .commissioning s.begun) = q
    have ctl : q.ctl = { s.part.ctl with
        selfTest := {}, mode := .commissioning, manual := Vector.replicate 51 none } := by
      rw [← hq]
      exact congrArg (fun x : Control => { x with manual := Vector.replicate 51 none }) started_ctl
    have mode : q.ctl.mode = .commissioning := by rw [ctl]
    have standing : q.standing = (clearManual (selfTested {} inputs faults .commissioning s.begun)).standing := by
      rw [← hq]
      exact standing_clearManual started_standing
    have stack : q.flt.stack = s.part.flt.stack := by
      rw [← hq]
      exact congrArg FaultUnit.stack ((notify_flt _ _).trans rfl)
    have input (c : CellId) : (cellRec q c).faultInput = faults.get c := by
      rw [← hq]
      exact started_faultInput (p := s.begun) c
    have reached := reaches_cellFaultsFound s.books (.refl q)
    refine ⟨(reached.ctl_eq (by simp [mode])).trans ctl, ?_, fun c => ?_, reached.standing.trans standing,
      fun empty c on => ?_⟩
    · exact congrArg (fun x : Part => x.pat.inputs) (reached.standing.trans standing)
    · exact (faultInput_of_standing reached.standing c).trans (input c)
    · refine cellFaultsFound_frames mode ((input c).trans on) ?_
      obtain ⟨new, frames, short, -⟩ := foldl_cellFound_frames (b := s.books) allCells q mode
      have length := congrArg List.length frames
      rw [stack, empty] at length
      simp only [List.map_nil, List.nil_append, List.length_map] at length
      exact Nat.lt_of_le_of_lt (length ▸ short) (by decide)

end Sys2Proof.Machine
end

