-- ==== Sys2Proof/Proofs/Forms.lean ====
section
/-! SUPPORT. The form of the tables (R18, R20, R53, R61, R62, R167, R194, R197): what a change of the part keeps of it.
Every single change of the cascades keeps it, so every cascade does; a setting touches none of the tables. -/

namespace Sys2Proof.Machine

/-- A change from `p` to `q` that keeps every law of the tables' form. -/
structure Lawful (p q : Part) : Prop where
  bounded : p.bounded → q.bounded
  distinct : p.bounded → p.mov.distinct → q.mov.distinct
  slugs : p.mov.slugsFromSumps → q.mov.slugsFromSumps
  apart : p.mov.portsApart → q.mov.portsApart
  order : p.src.inTagOrder → q.src.inTagOrder
  leaving : p.flt.leaving = {} → q.flt.leaving = {}
  ending : p.mov.ending = none → q.mov.ending = none

/-- A lawful change that takes no place of the request buffer. -/
structure InForm (p q : Part) : Prop extends Lawful p q where
  places : q.link.placesHeld ≤ p.link.placesHeld

/-- What the laws of the form speak of. -/
def form (p : Part) : List Movement × Option Movement × List Frame × ActionSet × List SourceEntry × List ClosedLot × Nat ×
    List Notice :=
  (p.mov.entries, p.mov.ending, p.flt.stack, p.flt.leaving, p.src.entries, p.lot.closed, p.link.placesHeld, p.link.queue)

section
variable {p q r : Part}

theorem Lawful.refl (p : Part) : Lawful p p := ⟨id, fun _ => id, id, id, id, id, id⟩

theorem InForm.refl (p : Part) : InForm p p := ⟨.refl p, Nat.le_refl _⟩

theorem Lawful.trans (h : Lawful p q) (k : Lawful q r) : Lawful p r where
  bounded := k.bounded ∘ h.bounded
  distinct b d := k.distinct (h.bounded b) (h.distinct b d)
  slugs := k.slugs ∘ h.slugs
  apart := k.apart ∘ h.apart
  order := k.order ∘ h.order
  leaving := k.leaving ∘ h.leaving
  ending := k.ending ∘ h.ending

theorem InForm.trans (h : InForm p q) (k : InForm q r) : InForm p r :=
  ⟨h.toLawful.trans k.toLawful, Nat.le_trans k.places h.places⟩

/-- A part with the same tables is in the same form. -/
theorem InForm.of_form (h : form q = form p) : InForm p q := by
  simp only [form, Prod.mk.injEq] at h
  obtain ⟨entries, ending, stack, leaving, sources, closed, places, queue⟩ := h
  refine ⟨⟨?_, ?_, ?_, ?_, ?_, ?_, ?_⟩, Nat.le_of_eq places⟩
  · rintro ⟨⟨hp, hq⟩, hf, hm, hs, hl⟩
    refine ⟨⟨places ▸ hp, queue ▸ hq⟩, ?_, ?_, ?_, ?_⟩
    · rw [FaultUnit.bounded, stack]
      exact hf
    · rw [MovementUnit.bounded, entries]
      exact hm
    · rw [SourceTable.bounded, sources]
      exact hs
    · rw [LotUnit.bounded, closed]
      exact hl
  · exact fun _ h => by rw [MovementUnit.distinct, entries]; exact h
  · exact fun h => by rw [MovementUnit.slugsFromSumps, entries]; exact h
  · exact fun h => by rw [MovementUnit.portsApart, entries]; exact h
  · exact fun h => by rw [SourceTable.inTagOrder, sources]; exact h
  · exact fun h => leaving.trans h
  · exact fun h => ending.trans h

/-! ## Single changes -/

theorem queue_notify_length (n : NoticeBody) (h : p.link.queue.length ≤ 32) : (notify n p).link.queue.length ≤ 32 := by
  by_cases room : p.link.queue.length < 32
  · rw [notify_joins room]
    simp only [List.length_append, List.length_singleton]
    omega
  · rw [notify_dropped (Nat.le_of_not_lt room)]
    exact h

theorem placesHeld_notify (n : NoticeBody) (p : Part) : (notify n p).link.placesHeld = p.link.placesHeld := by
  simp only [Link.placesHeld, notify_buffer, notify_behind]

theorem inForm_notify (n : NoticeBody) (p : Part) : InForm p (notify n p) where
  places := Nat.le_of_eq (placesHeld_notify n p)
  bounded := by
    rintro ⟨⟨hp, hq⟩, hf, hm, hs, hl⟩
    exact ⟨⟨placesHeld_notify n p ▸ hp, queue_notify_length n hq⟩, by rw [FaultUnit.bounded, notify_flt]; exact hf,
      by rw [MovementUnit.bounded, notify_mov]; exact hm, by rw [SourceTable.bounded, notify_src]; exact hs,
      by rw [LotUnit.bounded, notify_lot]; exact hl⟩
  distinct _ h := by rw [notify_mov]; exact h
  slugs h := by rw [notify_mov]; exact h
  apart h := by rw [notify_mov]; exact h
  order h := by rw [notify_src]; exact h
  leaving h := by rw [notify_flt]; exact h
  ending h := by rw [notify_mov]; exact h

/-- A change of the movements alone. -/
theorem inForm_mov {m : MovementUnit} (hb : p.mov.bounded → m.bounded) (hd : p.mov.bounded → p.mov.distinct → m.distinct)
    (hs : p.mov.slugsFromSumps → m.slugsFromSumps) (ha : p.mov.portsApart → m.portsApart)
    (he : m.ending = p.mov.ending) : InForm p { p with mov := m } where
  bounded := fun ⟨hl, hf, hm, hr, hc⟩ => ⟨hl, hf, hb hm, hr, hc⟩
  distinct := fun ⟨_, _, hm, _⟩ d => hd hm d
  slugs := hs
  apart := ha
  order := id
  leaving := id
  ending := fun h => he.trans h
  places := Nat.le_refl _

theorem inForm_start {a : StartAsk} (h : Calm p (addEntry a p).1) (hl : p.mov.entries.length < 12) :
    InForm p (addEntry a p).1 := by
  refine inForm_mov (fun _ => ?_) (fun _ d => ?_) h.slugsFromSumps h.portsApart rfl
  · simp only [MovementUnit.bounded, List.length_append, List.length_singleton]
    omega
  · have free := addEntry_number_free (a := a) hl
    refine List.nodup_append.mpr ?_ |> (by simpa [MovementUnit.distinct] using ·)
    refine ⟨d, List.pairwise_singleton _ _, fun x hx y hy e => ?_⟩
    obtain ⟨m, hm, rfl⟩ := List.mem_map.mp hx
    exact free m hm (e.trans (List.mem_singleton.mp hy))

theorem map_number_updMove (n : Nat) {f : Movement → Movement} (h : ∀ m, (f m).number = m.number) (p : Part) :
    (updMove n f p).mov.entries.map Movement.number = p.mov.entries.map Movement.number := by
  simp only [updMove, List.map_map]
  refine List.map_congr_left fun m _ => ?_
  simp only [Function.comp_apply]
  split
  · exact h m
  · rfl

theorem length_addClosed (c : ClosedLot) {l : List ClosedLot} (h : l.length ≤ 16) : (addClosed c l).length ≤ 16 := by
  unfold addClosed
  split
  · simp only [List.length_append, List.length_singleton]
    omega
  · simp only [List.length_append, List.length_tail, List.length_singleton]
    omega

theorem inForm_unlot (l : List Lot) (c : ClosedLot) (p : Part) :
    InForm p { p with lot := { p.lot with lots := l, closed := addClosed c p.lot.closed } } where
  bounded := fun ⟨hl, hf, hm, hs, hc⟩ => ⟨hl, hf, hm, hs, length_addClosed c hc⟩
  distinct _ := id
  slugs := id
  apart := id
  order := id
  leaving := id
  ending := id
  places := Nat.le_refl _

/-- A change of the stack alone. -/
theorem inForm_stack {l : List Frame} (h : p.flt.stack.length ≤ 6 → l.length ≤ 6) :
    InForm p { p with flt := { p.flt with stack := l } } where
  bounded := fun ⟨hl, hf, hm, hs, hc⟩ => ⟨hl, h hf, hm, hs, hc⟩
  distinct _ := id
  slugs := id
  apart := id
  order := id
  leaving := id
  ending := id
  places := Nat.le_refl _

/-! ## Cascades -/

theorem Calm.inForm (h : Calm p q) : InForm p q := by
  have slugs := h.slugsFromSumps
  have apart := h.portsApart
  cases h with
  | notice n => exact inForm_notify n p
  | start a _ hs hm hl ha => exact inForm_start (.start a p hs hm hl ha) hl
  | move n f _ hf =>
    refine inForm_mov (fun hb => ?_) (fun _ d => ?_) slugs apart rfl
    · simpa [MovementUnit.bounded] using hb
    · have numbers := map_number_updMove n (fun m => (hf m).1) p
      exact (show ((updMove n f p).mov.entries.map Movement.number).Nodup from numbers ▸ d)
  | unmove n =>
    exact inForm_mov (fun hb => Nat.le_trans (List.length_filter_le _ _) hb)
      (fun _ d => d.sublist (List.filter_sublist.map _)) slugs apart rfl
  | unlot n c => exact inForm_unlot _ c p
  | frames l _ hl =>
    have same : l.length = p.flt.stack.length := by simpa using congrArg List.length hl
    exact inForm_stack fun h => Nat.le_trans (Nat.le_of_eq same) h
  | _ => exact .of_form rfl

theorem Settles.inForm (h : Settles p q) : InForm p q := by
  induction h with
  | refl => exact .refl p
  | step _ k ih => exact ih.trans k.inForm

theorem Change.inForm (h : Change p q) : InForm p q := by
  cases h with
  | calm h => exact h.inForm
  | push f _ _ hl => exact inForm_stack fun _ => by simp only [List.length_append, List.length_singleton]; omega
  | pop =>
    refine inForm_stack fun h => ?_
    rw [List.length_dropLast]
    omega
  | _ => exact .of_form rfl

theorem Reaches.inForm (h : Reaches p q) : InForm p q := by
  induction h with
  | refl => exact .refl p
  | step _ k ih => exact ih.trans k.inForm

/-- A change followed by a cascade. -/
theorem InForm.settles (h : InForm p q) (k : Settles q r) : InForm p r := h.trans k.inForm

theorem InForm.reaches (h : InForm p q) (k : Reaches q r) : InForm p r := h.trans k.inForm

/-! ## The transmitter (R196) -/

theorem inForm_link {l : Link} (hp : l.placesHeld ≤ p.link.placesHeld) (hq : l.queue.length ≤ p.link.queue.length) :
    InForm p { p with link := l } where
  bounded := fun ⟨⟨hl, hn⟩, hf, hm, hs, hc⟩ => ⟨⟨Nat.le_trans hp hl, Nat.le_trans hq hn⟩, hf, hm, hs, hc⟩
  distinct _ := id
  slugs := id
  apart := id
  order := id
  leaving := id
  ending := id
  places := hp

theorem pump_behind (p : Part) : (pump p).link.behind = p.link.behind := by
  unfold pump beginFrame
  repeat' split
  all_goals rfl

theorem inForm_pump (p : Part) : InForm p (pump p) := by
  rw [pump_link]
  refine inForm_link ?_ ?_
  · simp only [Link.placesHeld, pump_buffer, pump_behind]
    exact Nat.le_refl _
  · rcases pump_queue p with h | h
    · exact Nat.le_of_eq (congrArg List.length h)
    · exact h ▸ (List.length_tail ▸ Nat.sub_le _ _)

end

end Sys2Proof.Machine
end

