-- ==== Sys2Proof/Proofs/TableForms.lean ====
section
/-! SUPPORT. The form of the tables through the changes that are no part of a cascade: the Source Table's, a second of
the timers, the link's, and a booking with all that follows it. -/

namespace Sys2Proof.Machine

variable {p q r : Part}

theorem Lawful.inForm (h : Lawful p q) (k : InForm q r) : Lawful p r := h.trans k.toLawful

theorem inForm_ite {c : Prop} [Decidable c] (h : InForm p q) (k : InForm p r) : InForm p (if c then q else r) := by
  split
  · exact h
  · exact k

/-! ## The Source Table (R61, R62) -/

theorem tagKey_injective : Function.Injective tagKey := by
  rintro ⟨line, kind, index⟩ ⟨line', kind', index'⟩ h
  cases kind <;> cases kind' <;> simp [tagKey, Fin.ext_iff] at h ⊢ <;> omega

theorem inForm_src {t : SourceTable} (hb : p.src.bounded → t.bounded) (ho : p.src.inTagOrder → t.inTagOrder) :
    InForm p { p with src := t } where
  bounded := fun ⟨hl, hf, hm, hs, hc⟩ => ⟨hl, hf, hm, hb hs, hc⟩
  distinct _ := id
  slugs := id
  apart := id
  order := ho
  leaving := id
  ending := id
  places := Nat.le_refl _

theorem inForm_updSource (t : Tag) {f : SourceEntry → SourceEntry} (h : ∀ e, (f e).tag = e.tag) (p : Part) :
    InForm p (updSource t f p) := by
  have tags : ∀ e : SourceEntry, (if e.tag = t then f e else e).tag = e.tag := fun e => by
    split
    · exact h e
    · rfl
  refine inForm_src (fun hb => by simpa [SourceTable.bounded] using hb) fun ho => ?_
  exact List.pairwise_map.mpr (ho.imp fun lt => by rw [tags, tags]; exact lt)

theorem inForm_dropSource (t : Tag) (p : Part) : InForm p (dropSource t p) :=
  inForm_src (fun hb => Nat.le_trans (List.length_filter_le _ _) hb) fun ho => List.Pairwise.filter _ ho

theorem length_insertByTag (x : SourceEntry) (l : List SourceEntry) : (insertByTag x l).length = l.length + 1 := by
  induction l with
  | nil => rfl
  | cons y ys ih =>
    rw [insertByTag]
    split
    · rfl
    · rw [List.length_cons, ih, List.length_cons]

theorem mem_insertByTag {x e : SourceEntry} {l : List SourceEntry} : e ∈ insertByTag x l ↔ e = x ∨ e ∈ l := by
  induction l with
  | nil => simp [insertByTag]
  | cons y ys ih =>
    rw [insertByTag]
    split
    · simp
    · rw [List.mem_cons, ih, List.mem_cons, or_left_comm]

/-- An entry with a tag of its own is put in its place. -/
theorem insertByTag_sorted {x : SourceEntry} {l : List SourceEntry} (fresh : ∀ e ∈ l, e.tag ≠ x.tag)
    (h : l.Pairwise (fun y z => tagKey y.tag < tagKey z.tag)) :
    (insertByTag x l).Pairwise (fun y z => tagKey y.tag < tagKey z.tag) := by
  induction l with
  | nil => exact List.pairwise_singleton _ _
  | cons y ys ih =>
    obtain ⟨first, rest⟩ := List.pairwise_cons.mp h
    rw [insertByTag]
    split
    · next lt =>
      refine List.pairwise_cons.mpr ⟨fun z hz => ?_, h⟩
      rcases List.mem_cons.mp hz with rfl | hz
      · exact lt
      · exact Nat.lt_trans lt (first z hz)
    · next ge =>
      have after : tagKey y.tag < tagKey x.tag := by
        have differ : tagKey y.tag ≠ tagKey x.tag := fun same => fresh y (by simp) (tagKey_injective same)
        omega
      refine List.pairwise_cons.mpr ⟨fun z hz => ?_, ih (fun e he => fresh e (List.mem_cons_of_mem _ he)) rest⟩
      rcases mem_insertByTag.mp hz with rfl | hz
      · exact after
      · exact first z hz

theorem inForm_addSource {x : SourceEntry} (new : findSource x.tag p = none) (room : p.src.entries.length < 64) :
    InForm p (addSource x p) := by
  refine inForm_src (fun _ => ?_) fun ho => insertByTag_sorted (fun e he => ?_) ho
  · show (insertByTag x p.src.entries).length ≤ 64
    rw [length_insertByTag]
    omega
  · simpa using List.find?_eq_none.mp new e he

theorem inForm_classNotice (t : Tag) (old : Option WaterClass) (new : WaterClass) (p : Part) :
    InForm p (classNotice t old new p) := by
  unfold classNotice
  split
  · exact .refl p
  · split
    · exact .refl p
    · exact inForm_notify _ p

theorem inForm_refreshEntry (e : SourceEntry) (u : UnitId) (cls : WaterClass) (p : Part) :
    InForm p (refreshEntry e u cls p) := by
  have noted := (inForm_updSource e.tag (f := fun x => { x with origin := .learned true, cls := some cls, unit := u })
    (fun _ => rfl) p).trans (inForm_classNotice e.tag e.cls cls _)
  dsimp only [refreshEntry]
  split
  · exact noted
  · exact noted.trans (inForm_notify _ _)

theorem inForm_reportFull (t : Tag) (u : UnitId) (p : Part) : InForm p (reportFull t u p) := by
  unfold reportFull
  split
  · exact .refl p
  · exact .trans (q := { p with src := { p.src with fullReported := true } }) (.of_form rfl) (inForm_notify _ _)

theorem inForm_offerUnknown {t : Tag} (u : UnitId) (cls : WaterClass) (new : findSource t p = none) :
    InForm p (offerUnknown t u cls p).1 := by
  unfold offerUnknown
  split
  · exact .refl p
  · split
    · next room => exact (inForm_addSource (by exact new) room).trans (inForm_notify _ _)
    · exact inForm_reportFull t u p

theorem inForm_classifyOffer (t : Tag) (u : UnitId) (conc : Nat) (p : Part) : InForm p (classifyOffer t u conc p).1 := by
  dsimp only [classifyOffer]
  split
  · next new => exact inForm_offerUnknown u _ new
  · split
    · split
      · exact inForm_refreshEntry _ u _ p
      · exact .refl p
    · split
      · exact .refl p
      · exact (inForm_updSource t (f := fun x => { x with cls := some (classOf p.fld.settings conc) }) (fun _ => rfl) p).trans
          (inForm_classNotice _ _ _ _)

theorem inForm_sourceBooked (t : Tag) (conc litres mg : Nat) (p : Part) : InForm p (sourceBooked t conc litres mg p) :=
  inForm_updSource t (fun _ => by rfl) p

theorem inForm_ageEntry (e : SourceEntry) (p : Part) : InForm p (ageEntry e p) := by
  unfold ageEntry
  split
  · exact .refl p
  · exact inForm_updSource e.tag (fun _ => by rfl) p
  · exact (inForm_dropSource e.tag p).trans (inForm_notify _ _)

theorem inForm_foldl {α : Type} {f : Part → α → Part} (h : ∀ q x, InForm q (f q x)) (l : List α) (p : Part) :
    InForm p (l.foldl f p) := by
  induction l generalizing p with
  | nil => exact .refl p
  | cons x xs ih => exact (h p x).trans (ih _)

theorem inForm_agingExpires (p : Part) : InForm p (agingExpires p) := by
  unfold agingExpires
  split
  · exact (inForm_foldl (fun q e => inForm_ageEntry e q) _ p).trans (.of_form rfl)
  · exact .refl p

/-! ## A second (R133) -/

/-- A change of each movement that leaves what it is and where it runs. -/
theorem inForm_mapMoves {f : Movement → Movement}
    (h : ∀ m, (f m).number = m.number ∧ (f m).kind = m.kind ∧ (f m).source = m.source ∧ (f m).dest = m.dest)
    (p : Part) : InForm p { p with mov := { p.mov with entries := p.mov.entries.map f } } := by
  refine inForm_mov (fun hb => by simpa [MovementUnit.bounded] using hb) (fun _ d => ?_) (fun hs => ?_) (fun ha => ?_) rfl
  · have numbers : Movement.number ∘ f = Movement.number := funext fun m => (h m).1
    simpa [MovementUnit.distinct, numbers] using d
  · intro x hx hk
    obtain ⟨y, hy, rfl⟩ := List.mem_map.mp hx
    obtain ⟨_, kind, source, _⟩ := h y
    exact (congrArg Port.isSump source).trans (hs y hy (kind.symm.trans hk))
  · refine List.pairwise_map.mpr (ha.imp fun {x y} apart => ?_)
    obtain ⟨_, _, source, dest⟩ := h x
    obtain ⟨_, _, source', dest'⟩ := h y
    rw [Movement.apart, source, dest, source', dest']
    exact apart

theorem inForm_secondInService (p : Part) : InForm p (secondInService p) := by
  have moved := inForm_mapMoves (f := Movement.second) (fun _ => ⟨rfl, rfl, rfl, rfl⟩) p
  have held := inForm_stack (p := { p with mov := { p.mov with entries := p.mov.entries.map Movement.second } })
    (l := p.flt.stack.map Frame.second) (fun hl => by simpa using hl)
  exact (moved.trans held).trans (.of_form rfl)

theorem inForm_rollDay (b : Books) (now : Nat) (p : Part) : InForm p (rollDay b now p) := by
  refine .settles ?_ (settles_selectLot b (settles_reportType .allowanceFloor .cleared (.refl _)))
  exact (inForm_notify _ p).trans (.of_form rfl)

theorem inForm_advanceClock (b : Books) (t : Nat) (p : Part) : InForm p (advanceClock b t p) := by
  have compared : ∀ now, InForm p (compareWindows b (inWindow p.gate) { p with gate := { p.gate with clock := some now } }) :=
    fun now => .settles (.of_form (by rfl)) (settles_compareWindows b (inWindow p.gate) (.refl _))
  exact inForm_ite ((compared _).trans (inForm_rollDay b _ _)) (compared _)

theorem inForm_secondOn (p : Part) : InForm p (secondOn p) := by
  have second := inForm_secondInService p
  exact inForm_ite (.trans (inForm_ite second (.refl p)) (.of_form rfl)) (inForm_ite second (.refl p))

theorem inForm_tick (b : Books) (p : Part) : InForm p (tick b p) := by
  rcases clock : p.gate.clock with _ | t
  · rw [tick_unset clock]
    exact inForm_secondOn p
  · rw [tick_set clock]
    exact (inForm_secondOn p).trans (inForm_advanceClock b t _)

end Sys2Proof.Machine
end

