-- ==== Sys2Proof/Proofs/TakeForms.lean ====
section
/-! SUPPORT. The form of the tables through the requests: what each owner does keeps it, and the request buffer takes a
reply only where it has a place (R194). -/

namespace Sys2Proof.Machine

/-- The owner of a request keeps the tables in form and takes no place of the buffer. -/
def KeepsForm (take : Plant → Plant × Reply) : Prop := ∀ q, InForm q.part (take q).1.part

theorem KeepsForm.inService {take : Plant → Plant × Reply} (h : KeepsForm take) : KeepsForm (inService take) := by
  intro q
  unfold Machine.inService
  split
  · exact h q
  · exact .refl _

theorem KeepsForm.named {α : Type} {thing : Option α} {take : α → Plant → Plant × Reply} (h : ∀ x, KeepsForm (take x)) :
    KeepsForm (named thing take) := by
  intro q
  cases thing with
  | none => exact .refl _
  | some x => exact h x q

theorem KeepsForm.onLot {n : Nat} {take : Lot → Plant → Plant × Reply} (h : ∀ l, KeepsForm (take l)) :
    KeepsForm (onLot n take) := by
  refine KeepsForm.inService fun q => ?_
  split
  · exact .refl _
  · exact h _ q

theorem KeepsForm.onTopFrame {depth : Nat} {take : Frame → Plant → Plant × Reply} (h : ∀ f, KeepsForm (take f)) :
    KeepsForm (onTopFrame depth take) := by
  intro q
  unfold Machine.onTopFrame
  split
  · exact .refl _
  · split
    · exact .refl _
    · split
      · exact h _ q
      · exact .refl _

section
variable {b : Books} {p q : Part}

/-- A booking and all that follows it. -/
theorem inForm_bookAndTell (k : Booking) (mv spare : Option Nat) {told : Books → Part → Part} {q : Plant}
    (h : InForm p (told (q.books.book k) q.part)) : InForm p (bookAndTell k mv spare told q).part :=
  h.reaches (reaches_afterBooking q.books (q.books.book k) k.vessels mv spare (.refl _))

/-! ## The general requests (chapter 11) -/

theorem inForm_ctl (c : Control) (p : Part) : InForm p { p with ctl := c } := .of_form rfl

theorem inForm_modeTaken (m : Mode) (p : Part) : InForm p (clearManual (setMode m p)) := .of_form rfl

theorem inForm_enterOperating (b : Books) (p : Part) : InForm p (enterOperating b p) :=
  (inForm_modeTaken .operating p).settles (settles_blocksEnter b (settles_notify (.mode .commissioning .operating .host)
    (.refl _)))

theorem keepsForm_takeEnterOperating : KeepsForm takeEnterOperating := by
  intro q
  unfold takeEnterOperating
  split
  · exact .refl _
  · exact .refl _
  · exact .refl _
  · exact .refl _
  · split
    · dsimp only [okay_fst]
      exact inForm_enterOperating q.books q.part
    · exact .refl _

theorem inForm_enterCommissioning (b : Books) (p : Part) : InForm p (enterCommissioning b p) :=
  (inForm_modeTaken .commissioning p).settles (settles_examineArbiter b (settles_seekDrains b (settles_recomputeGate .mode
    (settles_settleCells b (settles_chargesWaitMode (settles_generalCut b .general none (settles_notify
      (.mode .operating .commissioning .host) (.refl _))))))))

theorem keepsForm_takeEnterCommissioning : KeepsForm takeEnterCommissioning := by
  intro q
  unfold takeEnterCommissioning
  split
  · exact .refl _
  · exact .refl _
  · exact .refl _
  · exact .refl _
  · dsimp only [okay_fst]
    exact inForm_enterCommissioning q.books q.part

theorem keepsForm_takeManualOutput (i : ManualItems) : KeepsForm (takeManualOutput i) := by
  intro q
  unfold takeManualOutput
  split
  · exact .refl _
  · split
    · exact .refl _
    · exact inForm_ctl _ q.part

theorem inForm_restarting (b : Bool) (p : Part) : InForm p { p with link := { p.link with restarting := b } } :=
  inForm_link (p := p) (l := { p.link with restarting := b }) (Nat.le_refl _) (Nat.le_refl _)

theorem keepsForm_takeRestart : KeepsForm takeRestart := by
  intro q
  unfold takeRestart
  split
  · exact .refl _
  · exact inForm_restarting true q.part

/-! ## Vessels, movements and lots (chapters 1 to 3) -/

theorem inForm_switch (on : Bool) (p : Part) : InForm p { p with reg := { p.reg with switchOn := on } } := .of_form rfl

theorem inForm_regulationEnds (p : Part) : InForm p (regulationEnds p) := by
  unfold regulationEnds
  split
  · exact (inForm_switch false p).settles (settles_setFill .idle none (settles_setSpill .idle none
      (settles_notify .regulationOff (.refl _))))
  · exact .refl _

theorem inForm_updVessel (v : VesselId) (f : VesselRec → VesselRec) (p : Part) : InForm p (updVessel v f p) := .of_form rfl

theorem inForm_reuseLeaves (old : Option VesselId) (p : Part) : InForm p (reuseLeaves old p) := by
  cases old with
  | none => exact inForm_regulationEnds p
  | some v => exact (inForm_updVessel v _ p).trans (inForm_regulationEnds _)

theorem inForm_vesselTold (b : Books) (v : VesselId) (old p : Part) : InForm p (vesselTold b v old p) :=
  inForm_ite ((inForm_reuseLeaves _ p).settles (settles_supplyCheck b (.refl _)))
    (inForm_ite (inForm_regulationEnds p) (.refl p))

theorem keepsForm_setVesselOf (i : VesselItems) (v : VesselId) : KeepsForm (setVesselOf i v) := by
  intro q
  dsimp only [setVesselOf]
  split
  · exact .refl _
  · split
    · exact .refl _
    · exact ((inForm_updVessel v (applyVessel i) q.part).trans (inForm_vesselTold q.books v q.part _)).settles
        (settles_vesselChanged q.books v q.part _)

theorem keepsForm_adoptLevelOf (v : VesselId) : KeepsForm (adoptLevelOf v) := by
  intro q
  dsimp only [adoptLevelOf]
  split
  · exact .refl _
  · split
    · exact .refl _
    · split
      · exact .refl _
      · exact inForm_bookAndTell _ _ _ 
          ((inForm_updVessel v _ q.part).settles (settles_openAdopted v _ (settles_reportOn _ _ _ (.refl _))))

theorem keepsForm_takeAdoptLevel (n : Nat) : KeepsForm (takeAdoptLevel n) := by
  intro q
  unfold takeAdoptLevel
  split
  · exact KeepsForm.named keepsForm_adoptLevelOf q
  · exact .refl _

theorem keepsForm_takeReadMovements (clear : Bool) : KeepsForm (takeReadMovements clear) := by
  refine KeepsForm.inService fun q => ?_
  cases clear <;> exact .of_form rfl

theorem keepsForm_takeSetMovementTimes (i : MovementTimeItems) : KeepsForm (takeSetMovementTimes i) := by
  refine KeepsForm.inService fun q => ?_
  dsimp only
  split
  · exact .reaches (.of_form (by rfl)) (reaches_stallQuiet q.books (.refl _))
  · exact .refl _

theorem keepsForm_sealLotOf (l : Lot) : KeepsForm (sealLotOf l) := by
  intro q
  dsimp only [sealLotOf]
  split
  · exact .refl _
  · have sealed := settles_dueToSeal q.books l .host (.refl q.part)
    exact inForm_ite (settles_reexamineNeeds q.books sealed).inForm sealed.inForm

theorem keepsForm_holdLotOf (l : Lot) : KeepsForm (holdLotOf l) := by
  intro q
  unfold holdLotOf
  split
  · exact .refl _
  · exact .refl _
  · exact .refl _
  all_goals exact .of_form rfl

theorem keepsForm_releaseLotOf (l : Lot) : KeepsForm (releaseLotOf l) := by
  intro q
  unfold releaseLotOf
  split
  · exact (settles_unhold q.books l (.refl _)).inForm
  · exact .refl _

theorem keepsForm_rejectLotOf (l : Lot) : KeepsForm (rejectLotOf l) := by
  intro q
  have rejected := (settles_reexamineNeeds q.books (settles_rejectLot l.number (some .host) .host (.refl q.part))).inForm
  unfold rejectLotOf
  split
  · exact rejected
  · exact rejected
  · exact rejected
  · exact rejected
  · exact (settles_cutDischarge q.books .reject (.refl _)).inForm
  all_goals exact .refl _

theorem keepsForm_takeVerdict (i : VerdictItems) : KeepsForm (takeVerdict i) := by
  refine KeepsForm.inService fun q => ?_
  split
  · exact .refl _
  · split
    · exact .refl _
    · split
      · exact .refl _
      · split
        · exact .refl _
        · exact inForm_bookAndTell _ _ _ (settles_verdictTaken i _ _ (.refl _)).inForm

theorem keepsForm_readLotOf (l : Option Lot) : KeepsForm (readLotOf l) := by
  intro q
  cases l <;> exact .refl _

theorem keepsForm_takeReadLot (n : Nat) (byVessel : Bool) : KeepsForm (takeReadLot n byVessel) := by
  refine KeepsForm.inService fun q => ?_
  split
  · exact KeepsForm.named (fun v x => keepsForm_readLotOf (lotOf v x.part) x) q
  · exact keepsForm_readLotOf _ q

theorem keepsForm_takeSetLotTimes (i : LotTimeItems) : KeepsForm (takeSetLotTimes i) := by
  refine KeepsForm.inService fun q => ?_
  dsimp only
  split
  · exact .of_form rfl
  · exact .refl _

/-! ## Sources and the Field Link (chapters 4 and 5) -/

theorem keepsForm_setSourceTo (t : Tag) (i : SourceItems) (u : UnitId) : KeepsForm (setSourceTo t i u) := by
  intro q
  unfold setSourceTo
  split
  · exact inForm_updSource t (f := bindStatic u i) (fun _ => rfl) q.part
  · next new =>
    split
    · exact .refl _
    · next room => exact inForm_addSource new (Nat.lt_of_not_le room)

theorem keepsForm_removeSourceOf (t : Tag) : KeepsForm (removeSourceOf t) := by
  intro q
  unfold removeSourceOf
  split
  · exact .refl _
  · exact inForm_dropSource t q.part

theorem keepsForm_iterate (e : Option SourceEntry) (atEnd : Option Tag) : KeepsForm (iterate e atEnd) := by
  intro q
  cases e <;> exact .of_form rfl

theorem keepsForm_takeReadSourceNext : KeepsForm takeReadSourceNext := by
  refine KeepsForm.inService fun q => ?_
  split
  · exact .refl _
  · exact keepsForm_iterate _ _ q

theorem keepsForm_takeSetAging (period : Nat) (pol : UnknownPolicy) : KeepsForm (takeSetAging period pol) := by
  refine KeepsForm.inService fun q => ?_
  dsimp only
  split
  · exact .of_form rfl
  · exact .refl _

theorem inForm_roundOver (p : Part) : InForm p (roundOver p) := inForm_ite (.refl p) (.of_form rfl)

theorem inForm_endTurn (p : Part) : InForm p (endTurn p) := .of_form rfl

theorem inForm_unitDisabled (u : UnitId) (was : UnitRec) (p : Part) : InForm p (unitDisabled u was p) := by
  have told : InForm p (if was.presence = .silent then reportOn .unitSilent (.unit u) .cleared p else p) :=
    inForm_ite (settles_reportOn _ _ _ (.refl p)).inForm (.refl p)
  have ended := told.trans (inForm_roundOver _)
  dsimp only [unitDisabled]
  split
  · exact inForm_ite (ended.trans (inForm_endTurn _)) ended
  · exact ended

theorem inForm_updUnit (u : UnitId) (f : UnitRec → UnitRec) (p : Part) : InForm p (updUnit u f p) := .of_form rfl

theorem keepsForm_setUnitOf (enabled learning : Option Bool) (u : UnitId) : KeepsForm (setUnitOf enabled learning u) := by
  intro q
  dsimp only [setUnitOf]
  split
  · exact .refl _
  · exact inForm_ite ((inForm_updUnit u _ q.part).trans (inForm_unitDisabled u _ _)) (inForm_updUnit u _ q.part)

theorem keepsForm_readUnitOf (clear : Bool) (u : UnitId) : KeepsForm (readUnitOf clear u) := by
  intro q
  cases clear <;> exact .of_form rfl

theorem keepsForm_takeSetRouting (i : RoutingItems) : KeepsForm (takeSetRouting i) := by
  refine KeepsForm.inService fun q => ?_
  dsimp only
  split
  · exact .of_form rfl
  · exact .refl _

/-! ## Regulation, cells and the gate (chapters 6 to 8) -/

theorem inForm_reg (r : RegUnit) (p : Part) : InForm p { p with reg := r } := .of_form rfl

theorem inForm_gate (g : Gate) (p : Part) : InForm p { p with gate := g } := .of_form rfl

theorem inForm_updCell (c : CellId) (f : CellRec → CellRec) (p : Part) : InForm p (updCell c f p) := .of_form rfl

theorem inForm_updPattern (k : PatternId) (f : PatternRec → PatternRec) (p : Part) : InForm p (updPattern k f p) :=
  .of_form rfl

theorem inForm_applyRegulation (b : Books) (i : RegulationItems) (p : Part) : InForm p (applyRegulation b i p) := by
  have marked := (inForm_reg { p.reg with marks := applyMarks i p.reg.marks } p).settles
    (settles_reexamineNeeds b (.refl _))
  exact inForm_ite (marked.settles (settles_examineArbiter b (.refl _))) marked

theorem keepsForm_takeSetRegulation (i : RegulationItems) : KeepsForm (takeSetRegulation i) := fun q =>
  inForm_ite (inForm_applyRegulation q.books i q.part) (.refl q.part)

theorem keepsForm_takeRegulationOn : KeepsForm takeRegulationOn := by
  refine KeepsForm.inService fun q => ?_
  dsimp only
  split
  · exact .refl _
  · split
    · exact .refl _
    · split
      · exact (inForm_switch true q.part).settles (settles_examineReturn q.books (settles_reuseEvaluation q.books (.refl _)))
      · exact .refl _

/-- The regulation block of the REUSE vessel clears at REGULATION OFF (R102). -/
theorem inForm_blockClears (b : Books) (p : Part) : InForm p (match roleVessel .reuse p with
    | none => p
    | some v => if (vesselRec p v).regBlock then
        notify (.overflow v false (b.vessel v).volume) (updVessel v (fun r => { r with regBlock := false }) p)
      else p) := by
  split
  · exact .refl p
  · exact inForm_ite ((inForm_updVessel _ _ p).trans (inForm_notify _ _)) (.refl p)

theorem inForm_switchOff (b : Books) (p : Part) : InForm p (switchOff b p) := by
  have cleared := (inForm_switch false p).trans (inForm_blockClears b _)
  exact cleared.settles (settles_setFill .idle none (settles_setSpill .idle none (settles_cutNeed b _
    (settles_cutNeed b _ (.refl _)))))

theorem keepsForm_takeRegulationOff : KeepsForm takeRegulationOff := by
  refine KeepsForm.inService fun q => ?_
  split
  · exact inForm_switchOff q.books q.part
  · exact .refl _

theorem keepsForm_setCellOf (i : CellItems) (c : CellId) : KeepsForm (setCellOf i c) := by
  intro q
  have set := (inForm_updCell c (applyCell i) q.part).settles (settles_arbiterIfResized q.books c (cellRec q.part c)
    (settles_capacityCompared q.books i c (.refl _)))
  unfold setCellOf
  split
  · exact .refl _
  · split
    · exact set
    · exact set
    all_goals exact .refl _

theorem keepsForm_takeSetCell (n : Nat) (i : CellItems) : KeepsForm (takeSetCell n i) := by
  intro q
  unfold takeSetCell
  split
  · exact KeepsForm.named (keepsForm_setCellOf i) q
  · exact .refl _

/-- A cell whose state a host changes, and the arbiter that is then examined (R118, R119, R127). -/
theorem inForm_cellSet (b : Books) (c : CellId) (s : CellState) (p : Part) :
    InForm p (examineArbiter b (setCellState c s .host p)) :=
  (settles_examineArbiter b (settles_setCellState c s .host (.refl p))).inForm

theorem keepsForm_cellOnOf (c : CellId) : KeepsForm (cellOnOf c) := by
  intro q
  dsimp only [cellOnOf]
  split
  · exact inForm_cellSet q.books c .idle q.part
  · exact .refl _

theorem keepsForm_cellOffOf (c : CellId) : KeepsForm (cellOffOf c) := by
  intro q
  unfold cellOffOf
  split
  · exact inForm_cellSet q.books c .offline q.part
  · exact .refl _

theorem keepsForm_harvestOf (c : CellId) : KeepsForm (harvestOf c) := by
  intro q
  have harvested := inForm_cellSet q.books c .harvest q.part
  unfold harvestOf
  split
  · exact harvested
  · exact harvested
  all_goals exact .refl _

theorem keepsForm_harvestDoneOf (weighed : Nat) (c : CellId) : KeepsForm (harvestDoneOf weighed c) := by
  intro q
  unfold harvestDoneOf
  split
  · exact .refl _
  · split
    · exact inForm_bookAndTell _ _ _ (settles_harvestTold c _ (.refl _)).inForm
    · exact .refl _

theorem keepsForm_takeSetWindows (w1 w2 : Option Window) : KeepsForm (takeSetWindows w1 w2) := by
  refine KeepsForm.inService fun q => ?_
  dsimp only
  split
  · exact (inForm_gate _ q.part).settles (settles_compareWindows q.books _ (.refl _))
  · exact .refl _

theorem inForm_newLimits (b : Books) (i : LimitItems) (p : Part) : InForm p (newLimits b i p) := by
  have set := inForm_gate { p.gate with limits := applyLimits i p.gate.limits } p
  exact (set.trans (inForm_ite (settles_reportType .allowanceFloor .cleared (.refl _)).inForm (.refl _))).settles
    (settles_selectLot b (.refl _))

theorem keepsForm_takeSetLimits (i : LimitItems) : KeepsForm (takeSetLimits i) := by
  refine KeepsForm.inService fun q => ?_
  split
  · exact inForm_newLimits q.books i q.part
  · exact .refl _

theorem inForm_jumpClock (b : Books) (t : Nat) (p : Part) : InForm p (jumpClock b t p) := by
  have set := inForm_gate { p.gate with clock := some t } p
  exact inForm_ite (set.settles (settles_windowOpens b .clock (.refl _)))
    (set.settles (settles_recomputeGate .clock (.refl _)))

theorem keepsForm_takeSetClock (t : Nat) : KeepsForm (takeSetClock t) := by
  refine KeepsForm.inService fun q => ?_
  split
  · exact .refl _
  · split
    · exact .refl _
    · exact inForm_jumpClock q.books t q.part

/-! ## Patterns and faults (chapters 9 and 10) -/

theorem keepsForm_setPatternOf (i : PatternItems) (k : PatternId) : KeepsForm (setPatternOf i k) := by
  intro q
  unfold setPatternOf
  split
  · exact .refl _
  · split
    · exact .refl _
    · exact inForm_updPattern k _ q.part

theorem keepsForm_patternOnOf (k : PatternId) : KeepsForm (patternOnOf k) := by
  intro q
  dsimp only [patternOnOf]
  split
  · exact .refl _
  · split
    · exact .refl _
    · exact (inForm_updPattern k _ q.part).reaches (reaches_evaluatePattern q.books none k (.refl _))

theorem keepsForm_patternOffOf (k : PatternId) : KeepsForm (patternOffOf k) := by
  intro q
  dsimp only [patternOffOf]
  split
  · exact .refl _
  · exact .refl _
  · exact inForm_updPattern k _ q.part
  · exact .refl _

theorem keepsForm_alarmTakeOf (k : PatternId) : KeepsForm (alarmTakeOf k) := by
  intro q
  unfold alarmTakeOf
  split
  · exact inForm_updPattern k _ q.part
  · exact .refl _
  · exact .refl _

theorem inForm_clearAlarm (b : Books) (k : PatternId) (p : Part) : InForm p (clearAlarm b k p) :=
  (inForm_updPattern k PatternRec.arm p).reaches (reaches_evaluatePattern b none k
    (settles_reportOn (.interlock k) (.pattern k) .cleared (.refl _)).reaches)

theorem keepsForm_alarmClearOf (k : PatternId) : KeepsForm (alarmClearOf k) := by
  intro q
  unfold alarmClearOf
  split
  · exact inForm_clearAlarm q.books k q.part
  · exact .refl _
  · exact .refl _

theorem keepsForm_setResponseOf (i : ResponseItems) (row : Fin 16) : KeepsForm (setResponseOf i row) := by
  intro q
  unfold setResponseOf
  split
  · exact .of_form rfl
  · exact .refl _

theorem keepsForm_takeSetFaultResponse (code : Nat) (i : ResponseItems) : KeepsForm (takeSetFaultResponse code i) := by
  intro q
  unfold takeSetFaultResponse
  split
  · exact KeepsForm.named (keepsForm_setResponseOf i) q
  · exact .refl _

theorem keepsForm_popAnswer (way : PopWay) (f : Frame) : KeepsForm (popAnswer way f) := fun q =>
  (reaches_popFrame q.books way (.refl q.part)).inForm

theorem keepsForm_resumeTop (f : Frame) :
    KeepsForm (fun r => if f.condition = .cleared then popAnswer .resume f r else refuse .wrongState r) := by
  intro q
  dsimp only
  split
  · exact keepsForm_popAnswer .resume f q
  · exact .refl _

theorem keepsForm_takeLockdown : KeepsForm takeLockdown := by
  intro q
  unfold takeLockdown
  split
  · dsimp only [okay_fst]
    exact (reaches_enterLockdown q.books .host none (.refl q.part)).inForm
  all_goals exact .refl _

theorem inForm_releasePlant (b : Books) (p : Part) : InForm p (releasePlant b p) :=
  (inForm_ctl { p.ctl with mode := .operating } p).settles (settles_blocksOperating b (settles_notify .released (.refl _)))

theorem keepsForm_takeRelease : KeepsForm takeRelease := by
  intro q
  unfold takeRelease
  split
  · split
    · dsimp only [okay_fst]
      exact inForm_releasePlant q.books q.part
    · exact .refl _
  · exact .refl _

end

end Sys2Proof.Machine
end

