-- ==== Sys2Proof/Proofs/ServeForms.lean ====
section
/-! SUPPORT. The form of the tables through the taking of a request and through the receiver (R193, R194): a request finds
at most three places held, so its reply, or its wait behind a RESTART, is the fourth at the most. -/

namespace Sys2Proof.Machine

/-- A change of the link that keeps within the places of the buffer, and leaves the queue no longer. -/
theorem lawful_link {p : Part} {l : Link} (hp : l.placesHeld ≤ 4) (hq : l.queue.length ≤ p.link.queue.length) :
    Lawful p { p with link := l } where
  bounded := fun ⟨⟨_, hn⟩, hf, hm, hs, hc⟩ => ⟨⟨hp, Nat.le_trans hq hn⟩, hf, hm, hs, hc⟩
  distinct _ := id
  slugs := id
  apart := id
  order := id
  leaving := id
  ending := id

theorem lawful_waitBehind {p : Part} (h : p.link.placesHeld < 4) : Lawful p (waitBehind p) := by
  refine lawful_link (p := p) (l := { p.link with behind := p.link.behind + 1 }) ?_ (Nat.le_refl _)
  simp only [Link.placesHeld] at h ⊢
  omega

theorem lawful_reply {p : Part} (n kind : Byte) (r : Reply) (h : p.link.placesHeld < 4) :
    Lawful p (p.reply n kind r) := by
  refine lawful_link (p := p) (l := { p.link with buffer := p.link.buffer ++ [⟨n, kind, r⟩] }) ?_ (Nat.le_refl _)
  simp only [Link.placesHeld, List.length_append, List.length_singleton] at h ⊢
  omega

theorem lawful_request (n kind : Byte) {take : Plant → Plant × Reply} (h : KeepsForm take) (q : Plant) :
    Lawful q.part (request n kind take q).part := by
  unfold request
  split
  · exact .refl _
  · next free =>
    have room := Nat.lt_of_not_le free
    split
    · exact lawful_waitBehind room
    · exact (h q).toLawful.trans (lawful_reply n kind (take q).2 (Nat.lt_of_le_of_lt (h q).places room))

theorem keepsForm_told {reply : Plant → Reply} : KeepsForm (fun q => (q, reply q)) := fun _ => .refl _

/-- Every request keeps the tables in form. -/
theorem lawful_serve (n : Byte) (r : Request) (q : Plant) : Lawful q.part (serve n r q).part := by
  cases r with
  | identify | status => exact lawful_request n _ keepsForm_told q
  | restart => exact lawful_request n _ keepsForm_takeRestart q
  | enterOperating => exact lawful_request n _ keepsForm_takeEnterOperating q
  | enterCommissioning => exact lawful_request n _ keepsForm_takeEnterCommissioning q
  | manualOutput i => exact lawful_request n _ (keepsForm_takeManualOutput i) q
  | readInputs => exact lawful_request n _ (KeepsForm.inService fun q => inForm_ctl _ q.part) q
  | readAccounts | readClosedLots | readGate | readFaults =>
    exact lawful_request n _ keepsForm_told.inService q
  | readVessel | readCell | readPattern =>
    exact lawful_request n _ (KeepsForm.named fun _ => keepsForm_told).inService q
  | setVessel v i => exact lawful_request n _ (KeepsForm.named (keepsForm_setVesselOf i)).inService q
  | adoptLevel v => exact lawful_request n _ (keepsForm_takeAdoptLevel v) q
  | readMovements clear => exact lawful_request n _ (keepsForm_takeReadMovements clear) q
  | setMovementTimes i => exact lawful_request n _ (keepsForm_takeSetMovementTimes i) q
  | sealLot l => exact lawful_request n _ (KeepsForm.onLot keepsForm_sealLotOf) q
  | holdLot l => exact lawful_request n _ (KeepsForm.onLot keepsForm_holdLotOf) q
  | releaseLot l => exact lawful_request n _ (KeepsForm.onLot keepsForm_releaseLotOf) q
  | rejectLot l => exact lawful_request n _ (KeepsForm.onLot keepsForm_rejectLotOf) q
  | verdict i => exact lawful_request n _ (keepsForm_takeVerdict i) q
  | readLot l byVessel => exact lawful_request n _ (keepsForm_takeReadLot l byVessel) q
  | setLotTimes i => exact lawful_request n _ (keepsForm_takeSetLotTimes i) q
  | setSource tag i =>
    exact lawful_request n _ (KeepsForm.named fun t => KeepsForm.named (keepsForm_setSourceTo t i)).inService q
  | removeSource tag => exact lawful_request n _ (KeepsForm.named keepsForm_removeSourceOf).inService q
  | readSourceFirst => exact lawful_request n _ (KeepsForm.inService fun r => keepsForm_iterate _ none r) q
  | readSourceNext => exact lawful_request n _ keepsForm_takeReadSourceNext q
  | setAging period policy => exact lawful_request n _ (keepsForm_takeSetAging period policy) q
  | setUnit u enabled learning =>
    exact lawful_request n _ (KeepsForm.named (keepsForm_setUnitOf enabled learning)).inService q
  | readUnit u clear => exact lawful_request n _ (KeepsForm.named (keepsForm_readUnitOf clear)).inService q
  | setRouting i => exact lawful_request n _ (keepsForm_takeSetRouting i) q
  | setRegulation i => exact lawful_request n _ (keepsForm_takeSetRegulation i) q
  | regulationOn => exact lawful_request n _ keepsForm_takeRegulationOn q
  | regulationOff => exact lawful_request n _ keepsForm_takeRegulationOff q
  | setCell c i => exact lawful_request n _ (keepsForm_takeSetCell c i) q
  | cellOn c => exact lawful_request n _ (KeepsForm.named keepsForm_cellOnOf).inService q
  | cellOff c => exact lawful_request n _ (KeepsForm.named keepsForm_cellOffOf).inService q
  | harvest c => exact lawful_request n _ (KeepsForm.named keepsForm_harvestOf).inService q
  | harvestDone c w => exact lawful_request n _ (KeepsForm.named (keepsForm_harvestDoneOf w)).inService q
  | setWindows w1 w2 => exact lawful_request n _ (keepsForm_takeSetWindows w1 w2) q
  | setLimits i => exact lawful_request n _ (keepsForm_takeSetLimits i) q
  | setClock t => exact lawful_request n _ (keepsForm_takeSetClock t) q
  | setPattern k i => exact lawful_request n _ (KeepsForm.named (keepsForm_setPatternOf i)).inService q
  | patternOn k => exact lawful_request n _ (KeepsForm.named keepsForm_patternOnOf).inService q
  | patternOff k => exact lawful_request n _ (KeepsForm.named keepsForm_patternOffOf).inService q
  | alarmTake k => exact lawful_request n _ (KeepsForm.named keepsForm_alarmTakeOf).inService q
  | alarmClear k => exact lawful_request n _ (KeepsForm.named keepsForm_alarmClearOf).inService q
  | setFaultResponse code i => exact lawful_request n _ (keepsForm_takeSetFaultResponse code i) q
  | resume depth => exact lawful_request n _ (KeepsForm.onTopFrame keepsForm_resumeTop).inService q
  | abandon depth => exact lawful_request n _ (KeepsForm.onTopFrame (keepsForm_popAnswer .abandon)).inService q
  | lockdown => exact lawful_request n _ keepsForm_takeLockdown q
  | release => exact lawful_request n _ keepsForm_takeRelease q

theorem lawful_acceptFrame (f : RawFrame) (q : Plant) : Lawful q.part (acceptFrame f q).part := by
  unfold acceptFrame
  split
  · exact lawful_request _ _ keepsForm_told q
  · exact lawful_request _ _ keepsForm_told q
  · exact lawful_request _ _ keepsForm_told q
  · exact lawful_serve _ _ q

theorem lawful_foldl {α : Type} {f : Plant → α → Plant} (h : ∀ q x, Lawful q.part (f q x).part) (l : List α) (q : Plant) :
    Lawful q.part (l.foldl f q).part := by
  induction l generalizing q with
  | nil => exact .refl _
  | cons x xs ih => exact (h q x).trans (ih _)

/-- The part with the bytes that the receiver holds. -/
def collected (bytes : List Byte) (p : Part) : Part := { p with link := { p.link with rx := bytes } }

theorem inForm_collected (bytes : List Byte) (p : Part) : InForm p (collected bytes p) := .of_form rfl

theorem lawful_receive (bytes : List Byte) (q : Plant) : Lawful q.part (receive bytes q).part :=
  (inForm_collected (scan (q.part.link.rx ++ bytes).length (q.part.link.rx ++ bytes)).2 q.part).toLawful.trans
    (lawful_foldl (fun x f => lawful_acceptFrame f x) _ ⟨q.books, collected _ q.part⟩)

end Sys2Proof.Machine
end

