-- ==== Sys2Proof/Proofs/EventForms.lean ====
section
/-! SUPPORT. The form of the tables through the events of the Field Link, the meters, the probes and the timers. -/

namespace Sys2Proof.Machine

section
variable {b : Books} {p q : Part}

/-! ## The Field Link (chapter 5) -/

theorem inForm_giveTurn (p : Part) : InForm p (giveTurn p) := by
  unfold giveTurn
  split
  · exact .refl p
  · split
    · exact .refl p
    · exact .of_form rfl

theorem inForm_withdrawGrant (b : Books) (sent : FieldMessage) (p : Part) : InForm p (withdrawGrant b sent p) :=
  (settles_withdrawGrant b sent (.refl p)).inForm

theorem inForm_becomeSilent (b : Books) (u : UnitId) (p : Part) : InForm p (becomeSilent b u p) :=
  (inForm_updUnit u _ p).reaches (reaches_silentSlug b u (settles_notify _ (.refl _)).reaches)

theorem inForm_missTurn (b : Books) (t : Turn) (p : Part) : InForm p (missTurn b t p) := by
  have counted := (inForm_endTurn p).trans (inForm_updUnit t.unit
    (fun r => { r with missed := min 255 ((unitRec p t.unit).missed + 1) }) _)
  exact (inForm_ite (counted.trans (inForm_becomeSilent b t.unit _)) counted).trans (inForm_withdrawGrant b t.sent _)

theorem inForm_replyTimeout (b : Books) (p : Part) : InForm p (replyTimeout b p) := by
  unfold replyTimeout
  split
  · exact .refl p
  · exact inForm_missTurn b _ p

theorem inForm_answered (u : UnitId) (p : Part) : InForm p (answered u p) :=
  (inForm_updUnit u _ p).settles (settles_answered u p)

theorem inForm_delivered (u : UnitId) (sent : FieldMessage) (go : Bool) (p : Part) :
    InForm p (deliver u sent go (answered u p)) :=
  (inForm_answered u p).settles (settles_deliver u sent go (.refl _))

theorem inForm_idleAnswer (t : Turn) (p : Part) : InForm p (idleAnswer t p) :=
  (inForm_delivered t.unit t.sent true p).trans (inForm_endTurn _)

theorem inForm_routeOffer (b : Books) (u : UnitId) (o : Offer) (p : Part) : InForm p (routeOffer b u o p).1 := by
  unfold routeOffer
  split
  · exact .refl p
  · split
    · exact .refl p
    · split
      · have classified := fun t => inForm_classifyOffer t u o.conc p
        dsimp only
        split
        · exact classified _
        · exact classified _
        · exact (classified _).settles (settles_routeContinue b _ _ _ _ (.refl _))
      · exact .refl p

theorem inForm_offerAnswer (b : Books) (t : Turn) (o : Offer) (p : Part) : InForm p (offerAnswer b t o p) := by
  have routed := ((inForm_delivered t.unit t.sent false p).trans (inForm_updUnit t.unit
    (fun r => { r with lastOffer := some o }) _)).trans (inForm_routeOffer b t.unit o _)
  exact routed.trans (.of_form rfl)

theorem inForm_admitSlug (m : Movement) (x : SlugParticulars) (v : VesselId) (litres mg : Nat) (q : Plant) :
    InForm q.part (admitSlug m x v litres mg q).part := by
  rw [admitSlug_eq]
  exact (reaches_admittedPart m x v litres mg q).inForm.trans (inForm_sourceBooked _ _ _ _ _)

theorem inForm_stopTimeout (n : Nat) (p : Part) : InForm p (stopTimeout n p) := (settles_stopTimeout n (.refl p)).inForm

theorem inForm_bookDone (m : Movement) (x : SlugParticulars) (v : VesselId) (litres : Nat) (mass : Option Nat)
    (q : Plant) : InForm q.part (bookDone m x v litres mass q).part := by
  have admitted := (inForm_stopTimeout m.number q.part).trans (inForm_admitSlug m x v litres (doneMass litres mass x.conc)
    ⟨q.books, stopTimeout m.number q.part⟩)
  exact admitted.settles (settles_clearOutboundFor x m.number (settles_endMovement _ m .complete
    (settles_overDelivery m x v litres (.refl _))))

theorem inForm_lateReport (u : UnitId) (p : Part) : InForm p (lateReport u p) := inForm_updUnit u _ p

theorem inForm_readyDelivered (u : UnitId) (m : Movement) (p : Part) : InForm p (readyDelivered u m p) :=
  (settles_readyDelivered u m (.refl p)).inForm

theorem inForm_takeDone (u : UnitId) (tag : RawTag) (litres : Nat) (mass : Option Nat) (q : Plant) :
    InForm q.part (takeDone u tag litres mass q).part := by
  unfold takeDone
  split
  · exact inForm_lateReport u q.part
  · next m _ =>
    split
    · split
      · exact (inForm_readyDelivered u m q.part).trans (inForm_bookDone m _ _ litres mass ⟨q.books, _⟩)
      · exact inForm_lateReport u q.part
    · exact inForm_lateReport u q.part

theorem inForm_doneAnswer (t : Turn) (tag : RawTag) (litres : Nat) (mass : Option Nat) (q : Plant) :
    InForm q.part (doneAnswer t tag litres mass q).part :=
  ((inForm_delivered t.unit t.sent (doneForSlug q.part t.unit tag) q.part).trans (inForm_endTurn _)).trans
    (inForm_takeDone t.unit tag litres mass ⟨q.books, _⟩)

theorem inForm_fieldAnswer (a : FieldAnswer) (q : Plant) : InForm q.part (fieldAnswer a q).part := by
  unfold fieldAnswer
  split
  · exact .refl _
  · next t _ =>
    split
    · exact inForm_idleAnswer t q.part
    · exact inForm_offerAnswer q.books t _ q.part
    · exact inForm_doneAnswer t _ _ _ q
    · exact inForm_missTurn q.books t q.part
    · exact inForm_missTurn q.books t q.part

theorem inForm_answerOfBytes (bytes : List Byte) (q : Plant) : InForm q.part (answerOfBytes bytes q).part := by
  unfold answerOfBytes
  split
  · exact .refl _
  · next t _ =>
    split
    · exact inForm_missTurn q.books t q.part
    · exact inForm_fieldAnswer _ q

theorem inForm_bookByLevel (m : Movement) (x : SlugParticulars) (v : VesselId) (q : Plant) :
    InForm q.part (bookByLevel m x v q).part :=
  (inForm_stopTimeout m.number q.part).trans (inForm_admitSlug m x v _ _ ⟨q.books, stopTimeout m.number q.part⟩)

theorem inForm_slugTimesOut (m : Movement) (x : SlugParticulars) (v : VesselId) (q : Plant) :
    InForm q.part (slugTimesOut m x v q).part :=
  ((inForm_bookByLevel m x v q).reaches (reaches_raiseBeforeEnd _ _ m (.refl _))).settles
    (settles_setStop _ _ (settles_movementEnded _ m (.cut .plain) (.refl _)))

theorem inForm_transferTimeout (n : Nat) (q : Plant) : InForm q.part (transferTimeout n q).part := by
  unfold transferTimeout
  split
  · exact .refl _
  · split
    · exact inForm_slugTimesOut _ _ _ q
    · exact .refl _

/-! ## The meters (R25, R27, R108) -/

theorem inForm_strayQuantum (meter : Meter) (p : Part) : InForm p (strayQuantum meter p) := by
  cases meter <;> exact .of_form rfl

theorem inForm_debitDay (litres conc : Nat) (p : Part) : InForm p (debitDay litres conc p) := .of_form rfl

theorem inForm_quantumTold (m : Movement) (litres mg : Nat) (b : Books) (p : Part) :
    InForm p (quantumTold m litres mg b p) := by
  have told := (settles_lotTold b m litres mg (settles_updMove m.number (fun x =>
    { x with movedLitres := x.movedLitres + litres, movedMass := x.movedMass + mg, lastProgress := p.gate.clock, quiet := 0 })
    (fun _ => ⟨rfl, rfl, rfl, rfl⟩) (.refl p))).inForm
  exact inForm_ite (told.trans (inForm_debitDay litres _ _)) told

theorem inForm_bookedQuantum (m : Movement) (k : Booking) (q : Plant) : InForm q.part (bookedQuantum m k q).part := by
  have told := inForm_quantumTold m (k.moves q.books).1 (k.moves q.books).2 (q.books.book k) q.part
  rw [bookedQuantum_eq]
  refine told.trans ?_
  generalize quantumTold m (k.moves q.books).1 (k.moves q.books).2 (q.books.book k) q.part = r
  have booked := reaches_afterBooking q.books (q.books.book k) k.vessels (some m.number) none (.refl r)
  exact inForm_ite (reaches_afterIncrement _ m.number booked).inForm booked.inForm

theorem inForm_meterQuantum (meter : Meter) (q : Plant) : InForm q.part (meterQuantum meter q).part := by
  unfold meterQuantum
  split
  · exact .refl _
  · split
    · exact inForm_strayQuantum meter q.part
    · split
      · exact inForm_strayQuantum meter q.part
      · exact inForm_bookedQuantum _ _ q

theorem inForm_strayDraw (p : Part) : InForm p (strayDraw p) := .of_form rfl

theorem inForm_drawQuantum (q : Plant) : InForm q.part (drawQuantum q).part := by
  unfold drawQuantum
  split
  · exact .refl _
  · split
    · exact inForm_strayDraw q.part
    · split
      · exact inForm_strayDraw q.part
      · exact inForm_bookAndTell _ none none (.refl _)

/-! ## Readings, probes and timers (chapters 1, 3, 7 and 8) -/

theorem inForm_levelReading (b : Books) (v : VesselId) (reading : Option Nat) (p : Part) :
    InForm p (levelReading b v reading p) := by
  cases reading with
  | none => exact .refl p
  | some n =>
    have read := inForm_updVessel v (fun r => { r with lastLevel := some n }) p
    exact inForm_ite (.refl p) (inForm_ite (read.reaches (reaches_crossCheck b v n (.refl _))) read)

theorem inForm_sampleEnds (n : Nat) (q : Plant) : InForm q.part (sampleEnds n q).part := by
  unfold sampleEnds
  split
  · exact .refl _
  · exact inForm_bookAndTell _ none none (settles_sampleTold _ _ (.refl _)).inForm

theorem inForm_validProbe (c : CellId) (conc : Nat) (q : Plant) : InForm q.part (validProbe c conc q).part := by
  have recorded := inForm_updCell c (fun r => { r with lastProbe := some conc }) q.part
  dsimp only [validProbe]
  split
  · exact recorded.trans (inForm_bookAndTell (q := ⟨q.books, recordProbe c conc q.part⟩) _ none none
      (settles_readingChecked c conc _ (.refl _)).inForm)
  · exact recorded.settles (settles_readingChecked c conc _ (.refl _))

theorem inForm_probeReading (c : CellId) (reading : Option Nat) (q : Plant) :
    InForm q.part (probeReading c reading q).part := by
  unfold probeReading
  split
  · exact .refl _
  · split
    · exact .refl _
    · split
      · exact inForm_validProbe c _ q
      · exact inForm_updCell c _ q.part

theorem inForm_cellFaultChanges (b : Books) (c : CellId) (active : Bool) (p : Part) :
    InForm p (cellFaultChanges b c active p) := by
  have recorded := inForm_updCell c (fun r => { r with faultInput := active }) p
  exact inForm_ite (.refl p) (inForm_ite recorded (inForm_ite (recorded.reaches (reaches_cellFaultActive b c (.refl _)))
    (recorded.settles (settles_reportOn _ _ _ (.refl _)))))

theorem inForm_losesReading (pr : Probe) (p : Part) : InForm p (losesReading pr p) := by
  cases pr <;> exact inForm_gate _ p

theorem inForm_probeFails (b : Books) (pr : Probe) (p : Part) : InForm p (probeFails b pr p) :=
  ((inForm_losesReading pr p).reaches (reaches_raiseOrReport b _ (.refl _))).settles (settles_cutDischarge b .plain (.refl _))

theorem inForm_breakSilence (pr : Probe) (p : Part) : InForm p (breakSilence pr p) := by
  cases pr <;> exact inForm_gate _ p

theorem inForm_selectIfNew (b : Books) (old : Option Nat) (p : Part) : InForm p (selectIfNew b old p) :=
  (settles_selectIfNew b old (.refl p)).inForm

theorem inForm_validSilver (b : Books) (n : Nat) (p : Part) : InForm p (validSilver b n p) := by
  have told := (inForm_gate (storeSilver n (!concWithin p.gate.limits n) p).gate p).settles
    (settles_reportType .outfallExcursion (conditionOf (!concWithin p.gate.limits n))
      (settles_reportOn .probeFailure (.probe .silver) .cleared (.refl _)))
  exact (told.reaches (reaches_immediate b .outfallExcursion _ p.gate.silverTimer (.refl _))).trans
    (inForm_selectIfNew b p.gate.silver _)

theorem inForm_validPh (b : Books) (n : Nat) (p : Part) : InForm p (validPh b n p) := by
  have told := (inForm_gate (storePh n (!phWithin p.gate.limits n) p).gate p).settles
    (settles_reportType .outfallPh (conditionOf (!phWithin p.gate.limits n))
      (settles_reportOn .probeFailure (.probe .ph) .cleared (.refl _)))
  exact (told.reaches (reaches_immediate b .outfallPh _ p.gate.phTimer (.refl _))).trans
    (inForm_selectIfNew b p.gate.ph _)

theorem inForm_silverReading (b : Books) (r : Option Nat) (p : Part) : InForm p (silverReading b r p) := by
  have failed := (inForm_breakSilence .silver p).trans (inForm_probeFails b .silver _)
  unfold silverReading
  split
  · exact .refl p
  · exact inForm_gate _ p
  · exact inForm_validSilver b _ p
  · exact inForm_validSilver b _ p
  · exact inForm_validSilver b _ p
  · exact failed
  · exact failed
  · exact failed

theorem inForm_phReading (b : Books) (r : Option Nat) (p : Part) : InForm p (phReading b r p) := by
  have failed := (inForm_breakSilence .ph p).trans (inForm_probeFails b .ph _)
  unfold phReading
  split
  · exact .refl p
  · exact inForm_gate _ p
  · exact inForm_validPh b _ p
  · exact inForm_validPh b _ p
  · exact inForm_validPh b _ p
  · exact failed
  · exact failed
  · exact failed

theorem inForm_probeSilent (b : Books) (pr : Probe) (p : Part) : InForm p (probeSilent b pr p) :=
  inForm_ite (inForm_probeFails b pr p) (.refl p)

theorem inForm_excursionExpires (b : Books) (p : Part) : InForm p (excursionExpires b p) :=
  inForm_ite ((inForm_gate _ p).reaches (reaches_raiseDischarge b _ (.refl _))) (.refl p)

theorem inForm_phExpires (b : Books) (p : Part) : InForm p (phExpires b p) :=
  inForm_ite ((inForm_gate _ p).reaches (reaches_raiseDischarge b _ (.refl _))) (.refl p)

theorem inForm_inputChanges (b : Books) (i : InputId) (high : Bool) (p : Part) : InForm p (inputChanges b i high p) := by
  have recorded : InForm p (recordInput i high p) := .of_form rfl
  exact inForm_ite (.refl p) (inForm_ite (recorded.reaches (reaches_evaluateAll b _ (.refl _))) recorded)

end

end Sys2Proof.Machine
end

