-- ==== Sys2Proof/Proofs/StepForms.lean ====
section
/-! SUPPORT. The form of the tables through the restarts, the resets and the self-test, and so through every command: no
table outgrows its places, and each keeps its own law (R18, R20, R53, R61, R62, R167, R194, R197). -/

namespace Sys2Proof.Machine

section
variable {b : Books} {p q : Part}

/-! ## The restart (R190, R191) -/

theorem inForm_emptyLink (p : Part) : InForm p (emptyLink p) :=
  inForm_link (p := p) (l := (emptyLink p).link) (Nat.zero_le _) (Nat.zero_le _)

theorem inForm_restartBegins (p : Part) : InForm p (restartBegins p) := by
  have started := (((inForm_ctl { p.ctl with lastStart := .warm } p).trans (inForm_emptyLink _)).trans
    (inForm_notify (.start .warm p.ctl.selfTest .commissioning) _)).trans (inForm_modeTaken .commissioning _)
  exact inForm_ite (started.trans (inForm_notify _ _)) started

theorem inForm_endMovement (b : Books) (m : Movement) (e : Ending) (p : Part) : InForm p (endMovement b m e p) :=
  (settles_endMovement b m e (.refl p)).inForm

theorem inForm_restartSlug (m : Movement) (q : Plant) : InForm q.part (restartSlug m q).part := by
  unfold restartSlug
  split
  · exact (inForm_bookByLevel m _ _ q).trans (inForm_endMovement _ m _ _)
  · exact (inForm_bookByLevel m _ _ q).trans (inForm_endMovement _ m _ _)
  · exact inForm_endMovement _ m _ _

theorem inForm_restartCut (n : Nat) (q : Plant) : InForm q.part (restartCut n q).part := by
  unfold restartCut
  split
  · exact .refl _
  · split
    · exact inForm_restartSlug _ q
    · exact inForm_endMovement _ _ _ _

theorem inForm_plantFoldl {α : Type} {f : Plant → α → Plant} (h : ∀ q x, InForm q.part (f q x).part) (l : List α)
    (q : Plant) : InForm q.part (l.foldl f q).part := by
  induction l generalizing q with
  | nil => exact .refl _
  | cons x xs ih => exact (h q x).trans (ih _)

theorem inForm_noWaiting (p : Part) : InForm p { p with mov := { p.mov with waiting := [] } } := .of_form rfl

theorem inForm_restartCuts (q : Plant) : InForm q.part (restartCuts q).part :=
  (inForm_plantFoldl (fun x n => inForm_restartCut n x) _ q).trans (inForm_noWaiting _)

theorem inForm_restartTables (p : Part) : InForm p (restartTables p) := .of_form rfl

theorem inForm_armAll (p : Part) : InForm p (armAll p) := .of_form rfl

theorem inForm_settleCells (b : Books) (p : Part) : InForm p (settleCells b p) := (settles_settleCells b (.refl p)).inForm

theorem inForm_recomputeGate (r : GateReason) (p : Part) : InForm p (recomputeGate r p) :=
  (settles_recomputeGate r (.refl p)).inForm

theorem inForm_restartBlocks (b : Books) (p : Part) : InForm p (restartBlocks b p) := by
  have emptied := inForm_stack (p := p) (l := []) (fun _ => Nat.zero_le _)
  have lots := emptied.trans (inForm_foldl (fun q l => (settles_restartLot l (.refl q)).inForm) p.lot.lots _)
  have cells := (lots.trans (inForm_restartTables _)).trans (inForm_settleCells b _)
  exact (cells.trans (inForm_armAll _)).trans (inForm_recomputeGate .mode _)

theorem inForm_restartRaises (b : Books) (p : Part) : InForm p (restartRaises b p) :=
  (reaches_restartRaises b (.refl p)).inForm

theorem inForm_warmRestart (q : Plant) : InForm q.part (warmRestart q).part := by
  have cuts := (inForm_restartBegins q.part).trans (inForm_restartCuts ⟨q.books, restartBegins q.part⟩)
  dsimp only [warmRestart]
  exact (cuts.trans (inForm_restartBlocks _ _)).trans (inForm_restartRaises _ _)

theorem inForm_restartSelfTest (p : Part) : InForm p (restartSelfTest p) :=
  (inForm_ctl { p.ctl with mode := .starting, lastStart := .warm } p).trans (inForm_emptyLink _)

theorem inForm_restartPlant (q : Plant) : InForm q.part (restartPlant q).part := by
  unfold restartPlant
  split
  · exact .refl _
  · exact inForm_restartSelfTest q.part
  · exact inForm_warmRestart q
  · exact inForm_warmRestart q
  · exact inForm_warmRestart q

theorem inForm_frameEnds (p : Part) : InForm p (frameEnds p) := by
  unfold frameEnds
  split
  · exact .refl p
  · refine inForm_link ?_ (Nat.le_refl _)
    simp only [Link.placesHeld]
    split
    · rw [List.length_tail]
      omega
    · exact Nat.le_refl _

theorem inForm_endRestarting (p : Part) : InForm p (endRestarting p) :=
  inForm_link (p := p) (l := (endRestarting p).link) (Nat.add_le_add_left (Nat.zero_le _) _) (Nat.le_refl _)

theorem inForm_transmitEnds (q : Plant) : InForm q.part (transmitEnds q).part := by
  have ended := inForm_frameEnds q.part
  dsimp only [transmitEnds]
  split
  · exact (ended.trans (inForm_endRestarting _)).trans (inForm_restartPlant ⟨q.books, _⟩)
  · exact ended

/-! ## The lines and the self-test (R183, R184) -/

theorem inForm_restartLineActive (q : Plant) : InForm q.part (restartLineActive q).part := by
  have active := inForm_ctl { q.part.ctl with restartLine := true } q.part
  unfold restartLineActive
  split
  · exact .refl _
  · dsimp only
    split
    · exact active
    · exact active.trans (inForm_restartPlant ⟨q.books, _⟩)

theorem inForm_assertReset (q : Plant) : InForm q.part (assertReset q).part := .of_form rfl

theorem inForm_recordLines (inputs : Vector Bool 24) (faults : Vector Bool 4) (p : Part) :
    InForm p (recordLines inputs faults p) := .of_form rfl

theorem inForm_clearManual (p : Part) : InForm p (clearManual p) := .of_form rfl

theorem inForm_selfTestEnds (failed : SelfTest) (inputs : Vector Bool 24) (faults : Vector Bool 4) (b : Books)
    (p : Part) : InForm p (selfTestEnds failed inputs faults b p) := by
  have recorded : ∀ mode, InForm p (examineArbiter b (notify (.start p.ctl.lastStart failed mode)
      (recordLines inputs faults { p with ctl := { p.ctl with selfTest := failed, mode := mode } }))) := fun mode =>
    ((inForm_ctl _ p).trans (inForm_recordLines inputs faults _)).settles
      (settles_examineArbiter b (settles_notify _ (.refl _)))
  dsimp only [selfTestEnds]
  split
  · exact .refl p
  · split
    · exact ((recorded _).trans (inForm_clearManual _)).reaches (reaches_cellFaultsFound b (.refl _))
    · exact recorded _

/-- A cold reset leaves the tables empty. -/
theorem lawful_coldReset (q : Plant) : Lawful q.part (coldReset q).part where
  bounded _ := ⟨⟨Nat.zero_le _, Nat.zero_le _⟩, Nat.zero_le _, Nat.zero_le _, Nat.zero_le _, Nat.zero_le _⟩
  distinct _ _ := List.nodup_nil
  slugs _ := fun _ hx => absurd hx List.not_mem_nil
  apart _ := List.Pairwise.nil
  order _ := List.Pairwise.nil
  leaving _ := rfl
  ending _ := rfl

/-! ## Every command -/

theorem lawful_lineCommand {f : Plant → Plant} {s t : State} (h : lineCommand f s = .next t)
    (hf : ∀ q, Lawful q.part (f q).part) : Lawful s.part t.part := by
  rw [lineCommand_next] at h
  cases h
  exact ((InForm.of_form (p := s.part) (q := s.begun) rfl).toLawful.trans (hf ⟨s.books, s.begun⟩)).inForm (inForm_pump _)

theorem lawful_command {f : Plant → Plant} {s t : State} (h : command f s = .next t)
    (hf : ∀ q, Lawful q.part (f q).part) : Lawful s.part t.part := by
  refine lawful_lineCommand h fun q => ?_
  split
  · exact .refl _
  · exact hf q

theorem lawful_partCommand {f : Books → Part → Part} {s t : State} (h : partCommand f s = .next t)
    (hf : ∀ b p, InForm p (f b p)) : Lawful s.part t.part := lawful_command h fun q => (hf q.books q.part).toLawful

theorem exec_lawful {c : Instr} {s t : State} (h : exec c s = .next t) : Lawful s.part t.part := by
  cases hr : requestOf c with
  | some nr =>
    obtain ⟨n, r⟩ := nr
    rw [exec_of_requestOf hr] at h
    exact lawful_command h (lawful_serve n r)
  | none =>
    cases c with
    | coldReset => exact lawful_lineCommand h lawful_coldReset
    | supervisoryFrameAccepted bytes | supervisoryFrameDiscarded bytes => exact lawful_command h (lawful_receive bytes)
    | transmitComplete => exact lawful_command h fun q => (inForm_transmitEnds q).toLawful
    | restartLine => exact lawful_lineCommand h fun q => (inForm_restartLineActive q).toLawful
    | resetAssert => exact lawful_lineCommand h fun q => (inForm_assertReset q).toLawful
    | restartLineInactive => exact lawful_lineCommand h fun q => (inForm_ctl _ q.part).toLawful
    | cellFaultInput c active =>
      exact lawful_lineCommand (f := fun q => ⟨q.books, cellFaultChanges q.books c active q.part⟩) h fun q =>
        (inForm_cellFaultChanges q.books c active q.part).toLawful
    | inputChange i high =>
      exact lawful_lineCommand (f := fun q => ⟨q.books, inputChanges q.books i high q.part⟩) h fun q =>
        (inForm_inputChanges q.books i high q.part).toLawful
    | fieldAnswerInvalid bytes => exact lawful_command h fun q => (inForm_answerOfBytes bytes q).toLawful
    | unitIdle | unitOffer | unitDone => exact lawful_command h fun q => (inForm_fieldAnswer _ q).toLawful
    | transferTimeout mv => exact lawful_command h fun q => (inForm_transferTimeout mv q).toLawful
    | meterQuantum meter => exact lawful_command h fun q => (inForm_meterQuantum meter q).toLawful
    | reuseDrawQuantum => exact lawful_command h fun q => (inForm_drawQuantum q).toLawful
    | sampleEnd lot => exact lawful_command h fun q => (inForm_sampleEnds lot q).toLawful
    | cellProbeReading c reading => exact lawful_command h fun q => (inForm_probeReading c reading q).toLawful
    | receiveGapTimeout =>
      exact lawful_partCommand (f := fun _ p => dropCollected p) h fun _ p => inForm_collected [] p
    | selfTestEnd failed inputs faults => exact lawful_partCommand h (inForm_selfTestEnds failed inputs faults)
    | fieldTurn =>
      exact lawful_partCommand (f := fun _ p => giveTurn p) h fun _ p => inForm_giveTurn p
    | fieldReplyTimeout => exact lawful_partCommand h inForm_replyTimeout
    | travelElapsed mv =>
      exact lawful_partCommand (f := fun _ p => travelElapsed mv p) h fun _ p => (settles_travelElapsed mv (.refl p)).inForm
    | stallTimeout mv =>
      exact lawful_partCommand (f := fun b p => stallTimeout b mv p) h fun b p => (reaches_stallTimeout b mv (.refl p)).inForm
    | levelReading v reading =>
      exact lawful_partCommand (f := fun b p => levelReading b v reading p) h fun b p => inForm_levelReading b v reading p
    | fillAgeExpiry lot =>
      exact lawful_partCommand (f := fun b p => fillAgeExpires b lot p) h fun b p => (settles_fillAgeExpires b lot (.refl p)).inForm
    | settleExpiry lot =>
      exact lawful_partCommand (f := fun _ p => settleExpires lot p) h fun _ p => (settles_settleExpires lot (.refl p)).inForm
    | verdictExpiry lot =>
      exact lawful_partCommand (f := fun b p => verdictExpires b lot p) h fun b p => (settles_verdictExpires b lot (.refl p)).inForm
    | agingExpiry =>
      exact lawful_partCommand (f := fun _ p => agingExpires p) h fun _ p => inForm_agingExpires p
    | runLimitExpiry c =>
      exact lawful_partCommand (f := fun b p => runLimitExpires b c p) h fun b p => (settles_runLimitExpires b c (.refl p)).inForm
    | clockTick => exact lawful_partCommand h inForm_tick
    | outfallSilverReading reading =>
      exact lawful_partCommand (f := fun b p => silverReading b reading p) h fun b p => inForm_silverReading b reading p
    | outfallPhReading reading =>
      exact lawful_partCommand (f := fun b p => phReading b reading p) h fun b p => inForm_phReading b reading p
    | probeSilenceTimeout pr =>
      exact lawful_partCommand (f := fun b p => probeSilent b pr p) h fun b p => inForm_probeSilent b pr p
    | excursionExpiry => exact lawful_partCommand h inForm_excursionExpires
    | phPersistenceExpiry => exact lawful_partCommand h inForm_phExpires
    | autoHoldExpiry depth =>
      exact lawful_partCommand (f := fun b p => autoHoldExpires b depth p) h fun b p => (reaches_autoHoldExpires b depth (.refl p)).inForm
    | _ => cases hr

theorem step_lawful {s t : State} (h : step s = .next t) : Lawful s.part t.part := by
  unfold step at h
  split at h
  · cases h
    exact .refl _
  · next c rest _ => exact exec_lawful (s := { s with pending := rest }) h

end

/-- Settles O5: every step is a lawful change of the tables. -/
theorem tablesStayInForm : Obligations.TablesStayInForm :=
  ⟨⟨fun _ _ hs h => (step_lawful h).bounded hs, fun _ _ hb hs h => (step_lawful h).distinct hb hs,
    fun _ _ hs h => (step_lawful h).slugs hs, fun _ _ hs h => (step_lawful h).apart hs⟩,
    fun _ _ hs h => (step_lawful h).order hs, fun _ _ hs h => (step_lawful h).leaving hs,
    fun _ _ hs h => (step_lawful h).ending hs⟩

end Sys2Proof.Machine
end

