-- ==== Sys2Proof/Proofs/Ebbs.lean ====
section
/-! SUPPORT. What the consequences of an event do to the Movement Table in COMMISSIONING, where no movement starts (R21): an
entry leaves it, unless it is a SLUG under way, and a SLUG in RUNNING may be stopped (R30). Nothing else changes there. -/

namespace Sys2Proof.Machine

/-! ## Entries -/

/-- A SLUG whose GO was delivered: in RUNNING or STOPPING. -/
def Movement.underWay (m : Movement) : Prop := m.kind = .slug ∧ (m.phase = .running ∨ m.phase = .stopping)

/-- A SLUG in STOPPING. -/
def Movement.winding (m : Movement) : Prop := m.kind = .slug ∧ m.phase = .stopping

/-- The entry told to stop. -/
def Movement.stop (m : Movement) : Movement := { m with phase := .stopping }

/-- An entry as it was, or a SLUG stopped that ran. -/
def Wound (m m' : Movement) : Prop := m' = m ∨ (m.kind = .slug ∧ m.phase = .running ∧ m' = m.stop)

section
variable {m m' m'' : Movement}

theorem Wound.refl (m : Movement) : Wound m m := .inl rfl

theorem Wound.number (h : Wound m m') : m'.number = m.number := by
  rcases h with rfl | ⟨_, _, rfl⟩ <;> rfl

theorem Wound.kind (h : Wound m m') : m'.kind = m.kind := by
  rcases h with rfl | ⟨_, _, rfl⟩ <;> rfl

theorem Wound.source (h : Wound m m') : m'.source = m.source := by
  rcases h with rfl | ⟨_, _, rfl⟩ <;> rfl

theorem Wound.trans (h : Wound m m') (k : Wound m' m'') : Wound m m'' := by
  rcases h with rfl | ⟨slug, running, rfl⟩
  · exact k
  · rcases k with rfl | ⟨_, stopped, _⟩
    · exact .inr ⟨slug, running, rfl⟩
    · exact absurd stopped nofun

theorem Wound.underWay (h : Wound m m') (k : m.underWay) : m'.underWay := by
  rcases h with rfl | ⟨slug, _, rfl⟩
  · exact k
  · exact ⟨slug, .inr rfl⟩

theorem Wound.winding (h : Wound m m') (k : m.winding) : m'.winding := by
  rcases h with rfl | ⟨slug, _, rfl⟩
  · exact k
  · exact ⟨slug, rfl⟩

end

/-- A table that has ebbed: what is left comes from what was there, and no SLUG under way is missing. -/
structure Ebb (l l' : List Movement) : Prop where
  distinct : (l.map Movement.number).Nodup → (l'.map Movement.number).Nodup
  comes : ∀ m' ∈ l', ∃ m ∈ l, Wound m m'
  stays : ∀ m ∈ l, m.underWay → ∃ m' ∈ l', Wound m m'

section
variable {l l' l'' : List Movement}

theorem Ebb.refl (l : List Movement) : Ebb l l := ⟨id, fun m hm => ⟨m, hm, .refl m⟩, fun m hm _ => ⟨m, hm, .refl m⟩⟩

theorem Ebb.trans (h : Ebb l l') (k : Ebb l' l'') : Ebb l l'' where
  distinct := k.distinct ∘ h.distinct
  comes x hx := by
    obtain ⟨y, hy, later⟩ := k.comes x hx
    obtain ⟨z, hz, sooner⟩ := h.comes y hy
    exact ⟨z, hz, sooner.trans later⟩
  stays x hx under := by
    obtain ⟨y, hy, sooner⟩ := h.stays x hx under
    obtain ⟨z, hz, later⟩ := k.stays y hy (sooner.underWay under)
    exact ⟨z, hz, sooner.trans later⟩

/-- Entries leave that are no SLUGs under way. -/
theorem Ebb.filter {keep : Movement → Bool} (h : ∀ m ∈ l, m.underWay → keep m = true) : Ebb l (l.filter keep) where
  distinct d := d.sublist (List.filter_sublist.map _)
  comes m hm := ⟨m, (List.mem_filter.mp hm).1, .refl m⟩
  stays m hm under := ⟨m, List.mem_filter.mpr ⟨hm, h m hm under⟩, .refl m⟩

/-- SLUGs that run are stopped. -/
theorem Ebb.map {f : Movement → Movement} (h : ∀ m ∈ l, Wound m (f m)) : Ebb l (l.map f) where
  distinct d := by
    have numbers : (l.map f).map Movement.number = l.map Movement.number := by
      rw [List.map_map]
      exact List.map_congr_left fun m hm => (h m hm).number
    rwa [numbers]
  comes m' hm := by
    obtain ⟨m, old, rfl⟩ := List.mem_map.mp hm
    exact ⟨m, old, h m old⟩
  stays m hm _ := ⟨f m, List.mem_map_of_mem hm, h m hm⟩

end

/-! ## Parts -/

/-- A part in COMMISSIONING after consequences that began with the part `a`. -/
structure Ebbs (a p : Part) : Prop where
  ctl : p.ctl = a.ctl
  mode : p.ctl.mode = .commissioning
  distinct : p.mov.distinct
  ebb : Ebb a.mov.entries p.mov.entries

section
variable {a p q : Part}

theorem Ebbs.refl (hm : a.ctl.mode = .commissioning) (hd : a.mov.distinct) : Ebbs a a := ⟨rfl, hm, hd, .refl _⟩

theorem Ebbs.step (h : Ebbs a p) (c : q.ctl = p.ctl) (e : Ebb p.mov.entries q.mov.entries) : Ebbs a q :=
  ⟨c.trans h.ctl, (congrArg Control.mode c).trans h.mode, e.distinct h.distinct, h.ebb.trans e⟩

theorem Ebbs.trans (h : Ebbs a p) (k : Ebbs p q) : Ebbs a q := h.step k.ctl k.ebb

/-- A change of anything but the mode and the entries. -/
theorem Ebbs.keep (h : Ebbs a p) (c : q.ctl = p.ctl) (e : q.mov.entries = p.mov.entries) : Ebbs a q :=
  h.step c (e ▸ .refl _)

theorem Ebbs.notify (n : NoticeBody) (h : Ebbs a p) : Ebbs a (notify n p) :=
  h.keep (notify_ctl n p) (congrArg MovementUnit.entries (notify_mov n p))

/-- A cascade that leaves the entries alone. -/
theorem Ebbs.settled (h : Ebbs a p) (k : Settles p q) (e : q.mov.entries = p.mov.entries) : Ebbs a q := h.keep k.ctl e

theorem Ebbs.sumps (h : Ebbs a p) (hs : a.mov.slugsFromSumps) : p.mov.slugsFromSumps := fun x hx kind => by
  obtain ⟨y, hy, wound⟩ := h.ebb.comes x hx
  rw [wound.source]
  exact hs y hy (wound.kind.symm.trans kind)

/-- Two entries of a table do not have the same number. -/
theorem eq_of_number {x y : Movement} (hd : p.mov.distinct) (hx : x ∈ p.mov.entries) (hy : y ∈ p.mov.entries)
    (h : x.number = y.number) : x = y := eq_of_nodup_map hd hx hy h

theorem Ebbs.foldl {α : Type} {f : Part → α → Part} (k : ∀ {q} (x : α), Ebbs a q → Ebbs a (f q x)) (l : List α)
    (h : Ebbs a p) : Ebbs a (l.foldl f p) := by
  induction l generalizing p with
  | nil => exact h
  | cons x xs ih => exact ih (k x h)

end

end Sys2Proof.Machine
end

