-- ==== Sys2Proof/Proofs/EbbOwners.lean ====
section
/-! SUPPORT. In COMMISSIONING the owners of movements, told that one has ended, leave the Movement Table as it is: lots,
needs, cells, the arbiter and the gate settle, and no start is granted. -/

namespace Sys2Proof.Machine

section
variable {a p : Part} {b : Books}

/-! ## Lots (chapter 3) -/

theorem ebbs_lotNotice (n : Nat) (s : LotState) (r : LotReason) (h : Ebbs a p) : Ebbs a (lotNotice n s r p) := h.notify _

theorem ebbs_leaveQueue (n : Nat) (h : Ebbs a p) : Ebbs a (leaveQueue n p) := h.keep rfl rfl

theorem ebbs_joinQueue (n : Nat) (h : Ebbs a p) : Ebbs a (joinQueue n p) := by
  unfold joinQueue
  split
  · exact h
  · split
    · exact h.keep rfl rfl
    · exact h

theorem ebbs_askFilling (want : Nat) (h : Ebbs a p) : Ebbs a (askFilling want p).1 := by
  unfold askFilling
  split
  · split
    · exact h
    · exact h
  · split
    · exact h
    · split
      · exact h
      · exact (h.keep (by rfl) (by rfl)).notify _

theorem ebbs_sealLot (l : Lot) (r : SealReason) (h : Ebbs a p) : Ebbs a (sealLot b l r p) :=
  h.settled (settles_sealLot b l r (.refl p)) (congrArg MovementUnit.entries (sealLot_mov b l r p))

theorem ebbs_closeLot (l : Lot) (k : EndKind) (h : Ebbs a p) : Ebbs a (closeLot l k p) :=
  h.settled (settles_closeLot l k (.refl p)) (congrArg MovementUnit.entries (closeLot_mov l k p))

theorem ebbs_sealCheck (n : Nat) (h : Ebbs a p) : Ebbs a (sealCheck b n p) :=
  h.settled (settles_sealCheck b n (.refl p)) (congrArg MovementUnit.entries (sealCheck_mov b n p))

theorem ebbs_inflowEnds (lot : Option Nat) (h : Ebbs a p) : Ebbs a (inflowEnds b lot p) := by
  unfold inflowEnds
  split
  · exact h
  · split
    · exact h
    · split
      · exact ebbs_sealLot _ _ h
      · exact (h.keep (by rfl) (by rfl)).notify _

theorem ebbs_clearLot (n : Nat) (r : LotReason) (h : Ebbs a p) : Ebbs a (clearLot n r p) := by
  dsimp only [clearLot]
  split
  · exact h
  · split
    · exact ebbs_joinQueue n (ebbs_lotNotice n .cleared r (h.keep rfl rfl))
    · exact ebbs_joinQueue n (ebbs_lotNotice n .cleared r (h.keep rfl rfl))

theorem ebbs_rejectLot (n : Nat) (why : Option RejectReason) (r : LotReason) (h : Ebbs a p) :
    Ebbs a (rejectLot n why r p) := by
  dsimp only [rejectLot]
  split
  · exact h
  · split
    · exact ebbs_leaveQueue n (ebbs_lotNotice n .rejected r (h.keep rfl rfl))
    · exact ebbs_leaveQueue n (ebbs_lotNotice n .rejected r (h.keep rfl rfl))

theorem ebbs_suspendLot (n depth : Nat) (h : Ebbs a p) : Ebbs a (suspendLot n depth p) :=
  ebbs_lotNotice n .suspended .fault (h.keep rfl rfl)

theorem ebbs_returnStarts (n : Nat) (h : Ebbs a p) : Ebbs a (returnStarts n p) :=
  ebbs_lotNotice n .returning .returnStart (h.keep rfl rfl)

/-! ## The gate and the arbiter -/

theorem ebbs_askStart (s : StartAsk) (h : Ebbs a p) : Ebbs a (askStart b s p).1 := by
  have idle : p.ctl.mode.running = false := congrArg Mode.running h.mode
  rw [askStart_refused (startRefusal_mode idle)]
  exact h.keep (placeAfter_ctl _ _ p) (placeAfter_entries _ _ p)

theorem ebbs_recomputeGate (r : GateReason) (h : Ebbs a p) : Ebbs a (recomputeGate r p) :=
  h.settled (settles_recomputeGate r (.refl p)) (congrArg MovementUnit.entries (recomputeGate_mov r p))

theorem gateStateOf_commissioning (h : p.ctl.mode = .commissioning) : gateStateOf p = .shut := by
  unfold gateStateOf
  rw [h]
  rfl

theorem ebbs_selectLot (h : Ebbs a p) : Ebbs a (selectLot b p) := by
  have shut : gateStateOf p ≠ .open_ := gateStateOf_commissioning h.mode ▸ nofun
  rw [selectLot_shut (.inr shut)]
  exact h.keep rfl rfl

theorem ebbs_examineArbiter (h : Ebbs a p) : Ebbs a (examineArbiter b p) := by
  rw [examineArbiter_mode b (h.mode ▸ nofun)]
  exact h.keep rfl rfl

/-! ## Needs (chapter 6) -/

theorem ebbs_settlePlace (o : WaitOwner) (n : Need) (ports : Option (Port × Port)) (h : Ebbs a p) :
    Ebbs a (settlePlace o n ports p) := by
  cases n <;> exact h.keep rfl rfl

theorem ebbs_setSpill (n : Need) (ports : Option (Port × Port)) (h : Ebbs a p) : Ebbs a (setSpill n ports p) :=
  ebbs_settlePlace .spill n ports (h.keep rfl rfl)

theorem ebbs_setFill (n : Need) (ports : Option (Port × Port)) (h : Ebbs a p) : Ebbs a (setFill n ports p) :=
  ebbs_settlePlace .fill n ports (h.keep rfl rfl)

theorem ebbs_setReturn (n : Need) (src : Option ReturnSource) (ports : Option (Port × Port)) (h : Ebbs a p) :
    Ebbs a (setReturn n src ports p) := by
  cases n <;> exact h.keep rfl rfl

theorem ebbs_startSpill (reuse target : VesselId) (lot e : Nat) (h : Ebbs a p) :
    Ebbs a (startSpill b reuse target lot e p) := by
  dsimp only [startSpill]
  split
  · exact ebbs_setSpill _ none h
  · split
    · exact ebbs_setSpill _ _ h
    · split
      · exact ebbs_setSpill _ none (ebbs_askStart _ h)
      · exact ebbs_setSpill _ _ (ebbs_askStart _ h)

theorem ebbs_spillCheck (h : Ebbs a p) : Ebbs a (spillCheck b p) := by
  dsimp only [spillCheck]
  split
  · exact h
  · split
    · split
      · exact ebbs_setSpill _ none h
      · split
        · exact ebbs_setSpill _ none h
        · split
          · exact ebbs_setSpill _ none h
          · split
            · exact ebbs_setSpill _ none (ebbs_askFilling _ h)
            · exact ebbs_setSpill _ none (ebbs_askFilling _ h)
            · exact ebbs_setSpill _ none (ebbs_askFilling _ h)
            · exact ebbs_startSpill _ _ _ _ (ebbs_askFilling _ h)
    · exact ebbs_setSpill _ none h

theorem ebbs_fillCheck (h : Ebbs a p) : Ebbs a (fillCheck b p) := by
  dsimp only [fillCheck]
  split
  · exact h
  · split
    · split
      · exact ebbs_setFill _ none h
      · split
        · exact ebbs_setFill _ none h
        · split
          · exact ebbs_setFill _ none h
          · split
            · exact ebbs_setFill _ none (ebbs_askStart _ h)
            · exact ebbs_setFill _ _ (ebbs_askStart _ h)
    · exact ebbs_setFill _ none h

theorem ebbs_reexamineSpill (h : Ebbs a p) : Ebbs a (reexamineSpill b p) := by
  unfold reexamineSpill
  split
  · exact ebbs_spillCheck h
  · exact h

theorem ebbs_reexamineFill (h : Ebbs a p) : Ebbs a (reexamineFill b p) := by
  unfold reexamineFill
  split
  · exact ebbs_fillCheck h
  · exact h

theorem ebbs_startReturn (feed v : VesselId) (src : ReturnSource) (lot : Option Nat) (h : Ebbs a p) :
    Ebbs a (startReturn b feed v src lot p) := by
  dsimp only [startReturn]
  split
  · exact ebbs_setReturn _ _ _ h
  · split
    · exact ebbs_setReturn _ _ _ h
    · split
      · exact ebbs_setReturn _ _ _ h
      · split
        · exact ebbs_setReturn _ _ _ h
        · split
          · exact ebbs_setReturn _ _ _ (ebbs_askStart _ h)
          · split
            · exact ebbs_returnStarts _ (ebbs_setReturn _ _ _ (ebbs_askStart _ h))
            · exact ebbs_setReturn _ _ _ (ebbs_askStart _ h)

theorem ebbs_examineReturn (h : Ebbs a p) : Ebbs a (examineReturn b p) := by
  unfold examineReturn
  split
  · exact h
  · split
    · exact ebbs_setReturn _ _ _ h
    · split
      · exact ebbs_setReturn _ _ _ h
      · split
        · exact ebbs_setReturn _ _ _ h
        · split
          · exact ebbs_setReturn _ _ _ h
          · exact ebbs_startReturn _ _ _ _ h

theorem ebbs_reexamineNeeds (h : Ebbs a p) : Ebbs a (reexamineNeeds b p) :=
  ebbs_examineReturn (ebbs_reexamineFill (ebbs_reexamineSpill h))

theorem ebbs_supplyCheck (h : Ebbs a p) : Ebbs a (supplyCheck b p) := by
  dsimp only [supplyCheck]
  split
  · exact h.keep rfl rfl
  · split
    · exact (h.keep (by rfl) (by rfl)).notify _
    · split
      · exact (h.keep (by rfl) (by rfl)).notify _
      · exact h

theorem ebbs_blockCheck (v : VesselId) (h : Ebbs a p) : Ebbs a (blockCheck b v p) := by
  dsimp only [blockCheck]
  split
  · exact (h.keep (by rfl) (by rfl)).notify _
  · split
    · exact (h.keep (by rfl) (by rfl)).notify _
    · exact h

/-! ## Cells (chapter 7) -/

theorem ebbs_updCell (c : CellId) (f : CellRec → CellRec) (h : Ebbs a p) : Ebbs a (updCell c f p) := h.keep rfl rfl

theorem ebbs_setCellState (c : CellId) (s : CellState) (r : CellReason) (h : Ebbs a p) :
    Ebbs a (setCellState c s r p) := (ebbs_updCell c _ h).notify _

theorem ebbs_setStep (c : CellId) (n : Need) (h : Ebbs a p) : Ebbs a (setStep c n p) := ebbs_updCell c _ h

theorem ebbs_drainWaits (c : CellId) (r : WaitReason) (ports : Option (Port × Port)) (h : Ebbs a p) :
    Ebbs a (drainWaits c r ports p) := h.keep rfl rfl

theorem ebbs_finishDrain (c : CellId) (h : Ebbs a p) : Ebbs a (finishDrain c p) :=
  (ebbs_setCellState c _ _ (ebbs_updCell c _ h)).keep rfl rfl

theorem ebbs_startDrain (c : CellId) (v : VesselId) (lot : Option Nat) (h : Ebbs a p) :
    Ebbs a (startDrain b c v lot p) := by
  dsimp only [startDrain]
  split
  · exact ebbs_setStep c _ (ebbs_askStart _ h)
  · exact ebbs_drainWaits c _ _ (ebbs_askStart _ h)

theorem ebbs_drainToQuarantine (c : CellId) (h : Ebbs a p) : Ebbs a (drainToQuarantine b c p) := by
  unfold drainToQuarantine
  split
  · exact ebbs_drainWaits c _ _ h
  · split
    · exact ebbs_drainWaits c _ _ h
    · exact ebbs_startDrain c _ none h

theorem ebbs_walkDrain (c : CellId) (h : Ebbs a p) : Ebbs a (walkDrain b c p) := by
  have asked := ebbs_askFilling (b.liquor c).volume h
  dsimp only [walkDrain]
  split
  · exact ebbs_drainToQuarantine c h
  · split
    · split
      · exact ebbs_drainToQuarantine c asked
      · exact ebbs_startDrain c _ _ asked
    · exact ebbs_drainToQuarantine c asked
    · exact ebbs_drainToQuarantine c asked
    · exact ebbs_drainToQuarantine c asked

theorem ebbs_drainInMode (c : CellId) (h : Ebbs a p) : Ebbs a (drainInMode c p) := by
  unfold drainInMode
  split
  · exact h
  · exact ebbs_setStep c _ h

theorem ebbs_seekDrain (c : CellId) (h : Ebbs a p) : Ebbs a (seekDrain b c p) := by
  dsimp only [seekDrain]
  split
  · exact h
  · split
    · exact ebbs_drainWaits c _ _ h
    · exact ebbs_drainInMode c (ebbs_walkDrain c h)

theorem ebbs_seekDrains (h : Ebbs a p) : Ebbs a (seekDrains b p) := h.foldl (fun c k => ebbs_seekDrain c k) _

theorem ebbs_enterDraining (c : CellId) (r : CellReason) (h : Ebbs a p) : Ebbs a (enterDraining c r p) :=
  ebbs_setCellState c _ _ (ebbs_updCell c _ h)

theorem rectifierWanted_commissioning (c : CellId) (h : p.ctl.mode = .commissioning) : rectifierWanted p c = false := by
  have stopped : decide (p.ctl.mode = .operating) = false := by simp [h]
  simp only [rectifierWanted, stopped, Bool.and_false, Bool.false_and]

theorem ebbs_settleCell (c : CellId) (h : Ebbs a p) : Ebbs a (settleCell b c p) := by
  rw [settleCell_set (.inr (.inr (rectifierWanted_commissioning c h.mode)))]
  exact ebbs_updCell c _ h

theorem ebbs_settleCells (h : Ebbs a p) : Ebbs a (settleCells b p) := h.foldl (fun c k => ebbs_settleCell c k) _

theorem ebbs_abandonStep (c : CellId) (h : Ebbs a p) : Ebbs a (abandonStep b c p) := by
  have abandoned : Ebbs a (if 0 < (b.liquor c).volume then
      seekDrain b c (leaveWaiting (.charge c) (setStep c .idle (enterDraining c .abandoned p)))
    else leaveWaiting (.charge c) (setCellState c .idle .abandoned (updCell c (fun x =>
      { x with step := .idle, rectifier := false, paused := false, runTimer := none }) p))) := by
    split
    · exact ebbs_seekDrain c ((ebbs_setStep c _ (ebbs_enterDraining c _ h)).keep rfl rfl)
    · exact (ebbs_setCellState c _ _ (ebbs_updCell c _ h)).keep rfl rfl
  dsimp only [abandonStep]
  split
  · exact abandoned
  · exact abandoned
  all_goals exact h

theorem ebbs_chargesWaitMode (h : Ebbs a p) : Ebbs a (chargesWaitMode p) := by
  refine h.foldl (fun c k => ?_) _
  dsimp only
  split
  · exact ebbs_setStep c _ k
  · exact k

/-! ## The owners' reports and the waiting owners (R32) -/

theorem ebbs_slugEnds (m : Movement) (h : Ebbs a p) : Ebbs a (slugEnds b m p) := by
  dsimp only [slugEnds]
  split
  · exact ebbs_inflowEnds m.lot h
  · exact ebbs_inflowEnds m.lot (h.keep rfl rfl)

theorem ebbs_spillEnds (m : Movement) (h : Ebbs a p) : Ebbs a (spillEnds b m p) :=
  ebbs_spillCheck (ebbs_setSpill .idle none (ebbs_inflowEnds m.lot h))

theorem ebbs_fillEnds (h : Ebbs a p) : Ebbs a (fillEnds b p) := ebbs_fillCheck (ebbs_setFill .idle none h)

theorem ebbs_returnedLot (lot : Option Nat) (e : Ending) (h : Ebbs a p) : Ebbs a (returnedLot lot e p) := by
  cases lot with
  | none => exact h
  | some n => exact ebbs_rejectLot n none _ h

theorem ebbs_returnEnds (m : Movement) (e : Ending) (h : Ebbs a p) : Ebbs a (returnEnds b m e p) :=
  ebbs_examineReturn (ebbs_setReturn .idle none none (ebbs_returnedLot m.lot e h))

theorem ebbs_chargeEnds (c : CellId) (e : Ending) (h : Ebbs a p) : Ebbs a (chargeEnds b c e p) := by
  unfold chargeEnds
  split
  · exact ebbs_settleCell c (ebbs_setCellState c _ _ (ebbs_updCell c _ h))
  · split
    · exact ebbs_abandonStep c h
    · split
      · exact ebbs_setStep c _ h
      · split
        · exact ebbs_setStep c _ h
        · exact ebbs_setStep c _ h

theorem ebbs_drainEnds (m : Movement) (c : CellId) (e : Ending) (h : Ebbs a p) : Ebbs a (drainEnds b m c e p) := by
  dsimp only [drainEnds]
  refine ebbs_inflowEnds m.lot ?_
  split
  · exact ebbs_finishDrain c h
  · split
    · exact ebbs_drainWaits c _ _ h
    · split
      · exact ebbs_drainWaits c _ _ h
      · exact ebbs_drainWaits c _ _ h

theorem ebbs_dischargedLot (n : Nat) (e : Ending) (h : Ebbs a p) : Ebbs a (dischargedLot n e p) := by
  unfold dischargedLot
  split
  · exact ebbs_clearLot n _ h
  · exact ebbs_suspendLot n _ h
  · exact ebbs_clearLot n _ h
  · exact ebbs_suspendLot n _ h
  · exact ebbs_clearLot n _ h
  · exact ebbs_clearLot n _ h
  · exact ebbs_rejectLot n _ _ h
  all_goals exact ebbs_clearLot n _ h

theorem ebbs_dischargeEnds (m : Movement) (e : Ending) (h : Ebbs a p) : Ebbs a (dischargeEnds m e p) := by
  dsimp only [dischargeEnds]
  split
  · exact ebbs_recomputeGate _ (h.keep rfl rfl)
  · exact ebbs_recomputeGate _ ((ebbs_dischargedLot _ e h).keep rfl rfl)

theorem ebbs_ownerTold (m : Movement) (e : Ending) (h : Ebbs a p) : Ebbs a (ownerTold b m e p) := by
  unfold ownerTold
  split
  · exact ebbs_slugEnds m h
  · exact ebbs_spillEnds m h
  · exact ebbs_fillEnds h
  · exact ebbs_returnEnds m e h
  · split
    · exact ebbs_chargeEnds _ e h
    all_goals exact h
  · split
    · exact ebbs_drainEnds m _ e h
    all_goals exact h
  · exact ebbs_dischargeEnds m e h

theorem ebbs_reexamine (x : Examiner) (h : Ebbs a p) : Ebbs a (reexamine b x p) := by
  cases x with
  | spill => exact ebbs_reexamineSpill h
  | fill => exact ebbs_reexamineFill h
  | returnEngine => exact ebbs_examineReturn h
  | arbiter => exact ebbs_examineArbiter h
  | drain c => exact ebbs_seekDrain c h
  | gate => exact ebbs_selectLot h

theorem ebbs_movementEnded (m : Movement) (e : Ending) (h : Ebbs a p) : Ebbs a (movementEnded b m e p) :=
  (ebbs_ownerTold m e h).foldl (fun x k => ebbs_reexamine x k) _

end

end Sys2Proof.Machine
end

