-- ==== Sys2Proof/Proofs/EbbCuts.lean ====
section
/-! SUPPORT. Ends and cuts in COMMISSIONING (R29 to R32): an end takes its entry out, a cut ends a movement or stops a SLUG
that runs, and after the general cut no movement is left but SLUGs in STOPPING. -/

namespace Sys2Proof.Machine

section
variable {a p : Part} {b : Books}

/-- The end of a movement ebbs from the table without its entry. -/
theorem ebbs_ended (m : Movement) (e : Ending) (hm : p.ctl.mode = .commissioning) (hd : p.mov.distinct) :
    Ebbs (removeMove m.number p) (endMovement b m e p) :=
  ebbs_movementEnded m e (.refl hm (hd.sublist (List.filter_sublist.map _)))

/-- The end of a movement that is no SLUG under way. -/
theorem ebbs_endMovement {m : Movement} (e : Ending) (hm : m ∈ p.mov.entries) (hu : ¬ m.underWay) (h : Ebbs a p) :
    Ebbs a (endMovement b m e p) := by
  refine .trans (h.step (q := removeMove m.number p) rfl (.filter fun x hx under => ?_)) (ebbs_ended m e h.mode h.distinct)
  have other : x.number ≠ m.number := fun same => hu (eq_of_number h.distinct hx hm same ▸ under)
  simpa using other

theorem ebbs_stopSlug (m : Movement) (h : Ebbs a p) : Ebbs a (stopSlug m p) := by
  unfold stopSlug
  split
  · exact h
  · exact h.keep rfl rfl

theorem stopSlug_mov (m : Movement) (p : Part) : (stopSlug m p).mov = p.mov := by
  unfold stopSlug
  split <;> rfl

theorem ebbs_stopped {m : Movement} (hm : m ∈ p.mov.entries) (hk : m.kind = .slug) (hp : m.phase = .running)
    (h : Ebbs a p) : Ebbs a (updMove m.number (fun x => { x with phase := .stopping }) p) := by
  refine h.step rfl (.map fun x hx => ?_)
  split
  · next same =>
    obtain rfl := eq_of_number h.distinct hx hm same
    exact .inr ⟨hk, hp, rfl⟩
  · exact .refl x

theorem ebbs_cutSlug {m : Movement} (why : CutWhy) (hm : m ∈ p.mov.entries) (hk : m.kind = .slug) (h : Ebbs a p) :
    Ebbs a (cutSlug b m why p) := by
  have told := ebbs_stopSlug m h
  have still : m ∈ (stopSlug m p).mov.entries := by rwa [stopSlug_mov]
  rcases phase : m.phase with _ | _ | _ | _ <;> simp only [cutSlug, phase]
  · exact ebbs_endMovement _ still (by simp [Movement.underWay, phase]) told
  · exact ebbs_endMovement _ still (by simp [Movement.underWay, phase]) told
  · exact ebbs_stopped still hk phase told
  · exact h

theorem ebbs_cutMovement (n : Nat) (why : CutWhy) (h : Ebbs a p) : Ebbs a (cutMovement b n why p) := by
  unfold cutMovement
  split
  · exact h
  · next m found =>
    have hm : m ∈ p.mov.entries := List.mem_of_find?_eq_some found
    split
    · next slug => exact ebbs_cutSlug why hm slug h
    · next other => exact ebbs_endMovement _ hm (fun under => other under.1) h

theorem ebbs_cutNeed (n : Need) (h : Ebbs a p) : Ebbs a (cutNeed b n p) := by
  cases n with
  | running mv => exact ebbs_cutMovement mv .plain h
  | idle | waiting => exact h

theorem ebbs_generalCut (why : CutWhy) (spare : Option Nat) (h : Ebbs a p) : Ebbs a (generalCut b why spare p) :=
  h.foldl (fun n k => ebbs_cutMovement n why k) _

/-! ## The general cut (R31) -/

/-- Every entry of a number is a SLUG in STOPPING. -/
def windingAt (n : Nat) (p : Part) : Prop := ∀ m ∈ p.mov.entries, m.number = n → m.winding

theorem windingAt.ebbs {n : Nat} {q : Part} (w : windingAt n p) (h : Ebbs p q) : windingAt n q := fun x hx same => by
  obtain ⟨y, hy, wound⟩ := h.ebb.comes x hx
  exact wound.winding (w y hy (wound.number.symm.trans same))

theorem windingAt_endMovement (m : Movement) (e : Ending) (hm : p.ctl.mode = .commissioning) (hd : p.mov.distinct) :
    windingAt m.number (endMovement b m e p) := by
  refine windingAt.ebbs (p := removeMove m.number p) (fun x hx same => ?_) (ebbs_ended m e hm hd)
  have other := (List.mem_filter.mp hx).2
  exact absurd same (by simpa using other)

theorem windingAt_stopped {m : Movement} (hm : m ∈ p.mov.entries) (slug : m.kind = .slug) (hd : p.mov.distinct) :
    windingAt m.number (updMove m.number (fun x => { x with phase := .stopping }) p) := by
  intro x hx same
  obtain ⟨y, hy, rfl⟩ := List.mem_map.mp hx
  by_cases this : y.number = m.number
  · obtain rfl := eq_of_number hd hy hm this
    rw [if_pos rfl]
    exact ⟨slug, rfl⟩
  · rw [if_neg this] at same
    exact absurd same this

/-- The cut of a movement leaves nothing of its number but a SLUG in STOPPING. -/
theorem windingAt_cutMovement (n : Nat) (why : CutWhy) (hm : p.ctl.mode = .commissioning) (hd : p.mov.distinct) :
    windingAt n (cutMovement b n why p) := by
  rcases found : findMove n p with _ | m
  · rw [cutMovement, found]
    exact fun x hx same => absurd same (by simpa using List.find?_eq_none.mp found x hx)
  · obtain rfl : m.number = n := number_of_findMove found
    have told := ebbs_stopSlug m (.refl hm hd)
    by_cases slug : m.kind = .slug
    · rw [cutMovement, found]
      simp only [slug, if_true]
      rcases phase : m.phase with _ | _ | _ | _ <;> simp only [cutSlug, phase]
      · exact windingAt_endMovement m _ told.mode told.distinct
      · exact windingAt_endMovement m _ told.mode told.distinct
      · exact windingAt_stopped (stopSlug_mov m p ▸ List.mem_of_find?_eq_some found) slug told.distinct
      · intro x hx same
        rw [eq_of_number hd hx (List.mem_of_find?_eq_some found) same]
        exact ⟨slug, phase⟩
    · rw [cutMovement, found]
      simp only [slug, if_false]
      exact windingAt_endMovement m _ hm hd

theorem windingAt_cuts {why : CutWhy} {n : Nat} (numbers : List Nat) (h : Ebbs a p) (w : n ∈ numbers ∨ windingAt n p) :
    windingAt n (numbers.foldl (fun q k => cutMovement b k why q) p) := by
  induction numbers generalizing p with
  | nil => exact w.resolve_left List.not_mem_nil
  | cons k ks ih =>
    have cut := ebbs_cutMovement (b := b) k why (.refl h.mode h.distinct)
    refine ih (h.trans cut) ?_
    rcases w with w | w
    · rcases List.mem_cons.mp w with rfl | later
      · exact .inr (windingAt_cutMovement n why h.mode h.distinct)
      · exact .inl later
    · exact .inr (w.ebbs cut)

/-- Every entry is a SLUG in STOPPING. -/
def allWinding (p : Part) : Prop := ∀ m ∈ p.mov.entries, m.winding

theorem allWinding.ebbs {q : Part} (w : allWinding p) (h : Ebbs p q) : allWinding q := fun x hx => by
  obtain ⟨y, hy, wound⟩ := h.ebb.comes x hx
  exact wound.winding (w y hy)

theorem allWinding_generalCut (why : CutWhy) (hm : p.ctl.mode = .commissioning) (hd : p.mov.distinct) :
    allWinding (generalCut b why none p) := by
  intro x hx
  obtain ⟨y, hy, wound⟩ := (ebbs_generalCut (b := b) why none (.refl hm hd)).ebb.comes x hx
  have cut : y.number ∈ (p.mov.entries.map Movement.number).filter (fun n => decide (some n ≠ none)) :=
    List.mem_filter.mpr ⟨List.mem_map_of_mem hy, rfl⟩
  exact windingAt_cuts _ (.refl hm hd) (.inl cut) x hx wound.number

end

end Sys2Proof.Machine
end

