-- ==== Sys2Proof/Proofs/Commissioning.lean ====
section
/-! SUPPORT. ENTER OPERATING and ENTER COMMISSIONING: the prerequisites, the refusals, and the work that the blocks take up
or leave (R188, R189). -/

namespace Sys2Proof.Machine

/-! ## The prerequisites (R188) -/

theorem rolesMet_iff (p : Part) : rolesMet p = true ↔
    roleCount .feed p = 1 ∧ roleCount .quarantine p = 1 ∧ roleCount .reuse p ≤ 1 ∧ 1 ≤ roleCount .hold p ∧
      ∀ v, (vesselRec p v).role ≠ .unused → (vesselRec p v).capacity.isSome = true := by
  have every : ∀ v : VesselId, v ∈ allVessels := by decide
  simp only [rolesMet, Bool.and_eq_true, decide_eq_true_eq, List.all_eq_true, Bool.or_eq_true, and_assoc]
  refine and_congr_right fun _ => and_congr_right fun _ => and_congr_right fun _ => and_congr_right fun _ => ?_
  exact ⟨fun h v used => (h v (every v)).resolve_left used, fun h v _ => Classical.or_iff_not_imp_left.mpr (h v)⟩

theorem notAdopted_iff (p : Part) : (notAdopted p).isEmpty = true ↔
    ∀ v, (vesselRec p v).role ≠ .unused → (vesselRec p v).adopted = true := by
  have every : ∀ v : VesselId, v ∈ allVessels := by decide
  simp only [notAdopted, List.isEmpty_iff, List.filter_eq_nil_iff, Bool.and_eq_true, decide_eq_true_eq,
    Bool.not_eq_true', not_and, Bool.not_eq_false]
  exact ⟨fun h v => h v (every v), fun h v _ => h v⟩

theorem notLoaded_iff (p : Part) : (notLoaded p).isEmpty = true ↔ ∀ r : Fin 16, (p.flt.table.get r).loaded = true := by
  simp only [notLoaded, List.isEmpty_iff, List.map_eq_nil_iff, List.filter_eq_nil_iff, Bool.not_eq_true',
    Bool.not_eq_false]
  constructor
  · intro h r
    have here : ((p.flt.table.get r, r.1) : Response × Nat) ∈ p.flt.table.toList.zipIdx :=
      List.mk_mem_zipIdx_iff_getElem?.mpr (by simp [Vector.get])
    exact h _ here
  · intro h x hx
    obtain ⟨i, hi, same⟩ := List.getElem_of_mem (List.fst_mem_of_mem_zipIdx hx)
    rw [← same]
    have bound : i < 16 := by simpa using hi
    simpa [Vector.get] using h ⟨i, bound⟩

theorem limitsSet_iff (l : Limits) : limitsSet l = true ↔
    l.massAllowance.isSome = true ∧ l.volumeAllowance.isSome = true ∧ l.concLimit.isSome = true ∧
      l.phBand.isSome = true := by
  simp only [limitsSet, Bool.and_eq_true, and_assoc]

theorem unitEnabled_iff (p : Part) : allUnits.any (fun u => (unitRec p u).enabled) = true ↔
    ∃ u, (unitRec p u).enabled = true := by
  have every : ∀ u : UnitId, u ∈ allUnits := by decide
  rw [List.any_eq_true]
  exact ⟨fun ⟨u, _, h⟩ => ⟨u, h⟩, fun ⟨u, h⟩ => ⟨u, every u, h⟩⟩

theorem missingItems_isEmpty_iff (p : Part) : (missingItems p).isEmpty = true ↔
    p.gate.clock.isSome = true ∧ rolesMet p = true ∧ (notAdopted p).isEmpty = true ∧ (notLoaded p).isEmpty = true ∧
      limitsSet p.gate.limits = true ∧ allUnits.any (fun u => (unitRec p u).enabled) = true ∧
      p.flt.stack.isEmpty = true := by
  simp only [MissingReport.isEmpty, missingItems, Bool.not_eq_true', Bool.or_eq_false_iff, Bool.not_eq_false',
    Option.isNone_eq_false_iff, and_assoc]

/-! ## The requests -/

section
variable {n : Byte} {s : State} {q : Plant}

theorem takeEnterOperating_again (h : q.part.ctl.mode = .operating) : takeEnterOperating q = okay q := by
  rw [takeEnterOperating, h]

theorem takeEnterOperating_refused (h : q.part.ctl.mode = .starting ∨ q.part.ctl.mode = .failed ∨
    q.part.ctl.mode = .lockdown) : takeEnterOperating q = refuse .wrongMode q := by
  rcases h with h | h | h <;> rw [takeEnterOperating, h]

theorem takeEnterOperating_missing (h : q.part.ctl.mode = .commissioning) (hi : (missingItems q.part).isEmpty = false) :
    takeEnterOperating q = (q, { status := .wrongState, items := .missing (missingItems q.part) }) := by
  rw [takeEnterOperating, h]
  exact if_neg (by simp [hi])

theorem takeEnterOperating_enters (h : q.part.ctl.mode = .commissioning) (hi : (missingItems q.part).isEmpty = true) :
    takeEnterOperating q = okay ⟨q.books, enterOperating q.books q.part⟩ := by
  rw [takeEnterOperating, h]
  exact if_pos hi

theorem takeEnterCommissioning_again (h : q.part.ctl.mode = .commissioning) : takeEnterCommissioning q = okay q := by
  rw [takeEnterCommissioning, h]

theorem takeEnterCommissioning_refused (h : q.part.ctl.mode = .starting ∨ q.part.ctl.mode = .failed ∨
    q.part.ctl.mode = .lockdown) : takeEnterCommissioning q = refuse .wrongMode q := by
  rcases h with h | h | h <;> rw [takeEnterCommissioning, h]

theorem takeEnterCommissioning_enters (h : q.part.ctl.mode = .operating) :
    takeEnterCommissioning q = okay ⟨q.books, enterCommissioning q.books q.part⟩ := by
  rw [takeEnterCommissioning, h]

/-! ## The entries (R188, R189) -/

/-- The part as Mode Control takes a mode at a host's request. -/
def modeEntered (old new : Mode) (p : Part) : Part := notify (.mode old new .host) (clearManual (setMode new p))

theorem ctl_modeEntered (old new : Mode) (p : Part) :
    (modeEntered old new p).ctl = { p.ctl with mode := new, manual := Vector.replicate 51 none } := notify_ctl _ _

theorem standing_modeEntered (old new : Mode) (p : Part) :
    (modeEntered old new p).standing = (clearManual p).standing := standing_notify _ _

theorem modeEntered_mov (old new : Mode) (p : Part) : (modeEntered old new p).mov = p.mov := notify_mov _ _

theorem settles_enterOperating (b : Books) (p : Part) :
    Settles (modeEntered .commissioning .operating p) (enterOperating b p) := settles_blocksEnter b (.refl _)

theorem settles_enterCommissioning (b : Books) (p : Part) :
    Settles (modeEntered .operating .commissioning p) (enterCommissioning b p) :=
  settles_examineArbiter b (settles_seekDrains b (settles_recomputeGate .mode (settles_settleCells b
    (settles_chargesWaitMode (settles_generalCut b .general none (.refl _))))))

/-- What the blocks do once the general cut is made takes no entry but a SLUG's back. -/
theorem allWinding_enterCommissioning {p : Part} (b : Books) (hd : p.mov.distinct) : allWinding (enterCommissioning b p) := by
  have mode : (modeEntered .operating .commissioning p).ctl.mode = .commissioning := by rw [ctl_modeEntered]
  have distinct : (modeEntered .operating .commissioning p).mov.distinct := by
    rw [MovementUnit.distinct, modeEntered_mov]
    exact hd
  have cut := ebbs_generalCut (b := b) .general none (.refl mode distinct)
  have later := ebbs_examineArbiter (b := b) (ebbs_seekDrains (b := b) (ebbs_recomputeGate .mode (ebbs_settleCells (b := b)
    (ebbs_chargesWaitMode (.refl cut.mode cut.distinct)))))
  exact (allWinding_generalCut .general mode distinct).ebbs later

end

/-- Settles O14: each entry settles from the part as Mode Control takes the mode, and in COMMISSIONING nothing that follows the
general cut brings an entry back. -/
theorem operatingAndCommissioning : Obligations.OperatingAndCommissioning := by
  refine ⟨fun n s h => ⟨fun hm => request_told h (takeEnterOperating_again (q := ⟨s.books, s.begun⟩) hm),
    fun hm => request_told h (takeEnterOperating_refused (q := ⟨s.books, s.begun⟩) hm),
    fun hm hi => request_told h (takeEnterOperating_missing (q := ⟨s.books, s.begun⟩) hm hi), fun hm hi => ?_⟩,
    fun p => ?_, fun n s h => ⟨fun hm => request_told h (takeEnterCommissioning_again (q := ⟨s.books, s.begun⟩) hm),
    fun hm => request_told h (takeEnterCommissioning_refused (q := ⟨s.books, s.begun⟩) hm), fun hm hd => ?_⟩⟩
  · have entered := settles_enterOperating s.books s.begun
    intro e _ _
    exact ⟨enterOperating s.books s.begun, request_answered h (takeEnterOperating_enters (q := ⟨s.books, s.begun⟩) hm hi), rfl,
      entered.ctl.trans (ctl_modeEntered _ _ _), entered.standing.trans (standing_modeEntered _ _ _)⟩
  · rw [missingItems_isEmpty_iff, rolesMet_iff, notAdopted_iff, notLoaded_iff, limitsSet_iff, unitEnabled_iff,
      List.isEmpty_iff]
  · have entered := settles_enterCommissioning s.books s.begun
    intro e _
    exact ⟨enterCommissioning s.books s.begun, request_answered h (takeEnterCommissioning_enters (q := ⟨s.books, s.begun⟩) hm), rfl,
      entered.ctl.trans (ctl_modeEntered _ _ _), allWinding_enterCommissioning s.books hd,
      entered.standing.trans (standing_modeEntered _ _ _)⟩

end Sys2Proof.Machine
end

