-- ==== Sys2Proof/Proofs/EbbBookings.lean ====
section
/-! SUPPORT. Raises and bookings in COMMISSIONING: what a frame cuts and what a booking completes leaves every SLUG under way
in the table, since no SLUG comes from a holder that can be empty (2.2, R26, R167). -/

namespace Sys2Proof.Machine

section
variable {a p : Part} {b : Books}

/-! ## Raises (R167 to R172) -/

theorem ebbs_applyShutOutfall (f : Frame) (depth : Nat) (h : Ebbs a p) : Ebbs a (applyShutOutfall b f depth p) := by
  unfold applyShutOutfall
  split
  · exact ebbs_cutMovement _ _ h
  · exact h

theorem ebbs_applyStopMovement (f : Frame) (depth : Nat) (spare : Option Nat) (h : Ebbs a p) :
    Ebbs a (applyStopMovement b f depth spare p) := by
  unfold applyStopMovement
  split
  · split
    · exact h
    · exact ebbs_cutMovement _ _ h
  · exact h

theorem ebbs_holdCell (f : Frame) (c : CellId) (h : Ebbs a p) : Ebbs a (holdCell f c p) := by
  dsimp only [holdCell]
  split
  · split
    · exact ebbs_setStep c _ h
    · exact ebbs_drainWaits c _ _ h
    all_goals exact h
  · exact h

theorem ebbs_ite {q r : Part} {c : Prop} [Decidable c] (h : Ebbs a q) (k : Ebbs a r) : Ebbs a (if c then q else r) := by
  split
  · exact h
  · exact k

theorem ebbs_holdOwners (f : Frame) (h : Ebbs a p) : Ebbs a (holdOwners f p) := by
  have spilled : ∀ q, Ebbs a q → Ebbs a (if f.holdsKind .spill && !q.reg.spill.isRunning then
      setSpill (.waiting .held) none q else q) := fun q k => ebbs_ite (ebbs_setSpill _ none k) k
  have filled : ∀ q, Ebbs a q → Ebbs a (if f.holdsKind .fill && !q.reg.fill.isRunning then
      setFill (.waiting .held) none q else q) := fun q k => ebbs_ite (ebbs_setFill _ none k) k
  have returned : ∀ q, Ebbs a q → Ebbs a (if f.holdsKind .ret && !q.reg.ret.isRunning then
      setReturn (.waiting .held) none none q else q) := fun q k => ebbs_ite (ebbs_setReturn _ none none k) k
  exact returned _ (filled _ (spilled _ (h.foldl (fun c k => ebbs_holdCell f c k) allCells)))

theorem ebbs_announcePush (f : Frame) (old : ActionSet) (h : Ebbs a p) : Ebbs a (announcePush b f old p) := by
  have needs : ∀ c : Bool, ∀ q, Ebbs a q → Ebbs a (if c then reexamineNeeds b q else q) := fun c q k =>
    ebbs_ite (ebbs_reexamineNeeds k) k
  have arbiter : ∀ c : Bool, ∀ q, Ebbs a q → Ebbs a (if c then examineArbiter b q else q) := fun c q k =>
    ebbs_ite (ebbs_examineArbiter k) k
  exact arbiter _ _ (needs _ _ (ebbs_holdOwners f (ebbs_settleCells (ebbs_ite (ebbs_recomputeGate _ h) h))))

theorem ebbs_enterLockdown (cause : LockdownCause) (spare : Option Nat) (h : Ebbs a p) :
    Ebbs a (enterLockdown b cause spare p) := by
  rw [enterLockdown_other (h.mode ▸ nofun)]
  exact h

theorem ebbs_applyActions (f : Frame) (depth : Nat) (spare : Option Nat) (old : ActionSet) (h : Ebbs a p) :
    Ebbs a (applyActions b f depth spare old p) := by
  have announced := ebbs_announcePush (b := b) f old (ebbs_applyStopMovement (b := b) f depth spare
    (ebbs_applyShutOutfall (b := b) f depth h))
  exact ebbs_ite (ebbs_enterLockdown _ spare announced) announced

theorem ebbs_raise (r : Raise) (h : Ebbs a p) : Ebbs a (raise b r p) := by
  have recorded : ∀ d, Ebbs a (recordFault r d p) := fun _ => h.keep rfl rfl
  unfold raise
  split
  · exact h
  · split
    · exact ebbs_applyActions _ _ _ _ (.notify _ (h.keep rfl rfl))
    · exact ebbs_enterLockdown _ _ ((recorded none).notify _)

theorem ebbs_raiseOrReport (r : Raise) (h : Ebbs a p) : Ebbs a (raiseOrReport b r p) := by
  unfold raiseOrReport
  split
  · exact h.keep rfl rfl
  · exact ebbs_raise r h

/-! ## Bookings (R8, R9, R26) -/

theorem ebbs_closeEmptied (v : VesselId) (h : Ebbs a p) : Ebbs a (closeEmptied b v p) := by
  unfold closeEmptied
  split
  · exact h
  · split
    · exact ebbs_reexamineNeeds (ebbs_closeLot _ _ h)
    · exact h

theorem ebbs_overflowRule (v : VesselId) (old new : Nat) (spare : Option Nat) (h : Ebbs a p) :
    Ebbs a (overflowRule b v old new spare p) := by
  have reported : ∀ c, Ebbs a (reportOn .vesselOverflow (.vessel v) c p) := fun _ => h.keep rfl rfl
  unfold overflowRule
  split
  · exact h
  · split
    · split
      · exact reported .cleared
      · split
        · exact reported .present
        · exact h
    · split
      · exact ebbs_raise _ h
      · exact h

/-- A SLUG comes from no holder. -/
theorem notUnderWay_of_holder {m : Movement} (hs : p.mov.slugsFromSumps) (hm : m ∈ p.mov.entries)
    (hv : sourceVolume b m.source = some 0) : ¬ m.underWay := fun under => by
  have sump := hs m hm under.1
  generalize m.source = port at hv sump
  cases port <;> simp [sourceVolume, Port.isSump] at hv sump

/-- The end of a movement whose source stands at 0, where it is still in the table. -/
def completed (b : Books) (q : Part) (m : Movement) : Part :=
  match findMove m.number q with
  | some x => endMovement b x .complete q
  | none => q

theorem completeEmptied_eq (b : Books) (p : Part) : completeEmptied b p =
    (p.mov.entries.filter (fun m => decide (sourceVolume b m.source = some 0))).foldl (completed b) p := rfl

theorem ebbs_completed {q : Part} {m : Movement} (hd : p.mov.distinct) (hs : p.mov.slugsFromSumps)
    (hm : m ∈ p.mov.entries) (hv : sourceVolume b m.source = some 0) (k : Ebbs p q) : Ebbs p (completed b q m) := by
  unfold completed
  split
  · next x found =>
    have hx : x ∈ q.mov.entries := List.mem_of_find?_eq_some found
    obtain ⟨y, hy, wound⟩ := k.ebb.comes x hx
    obtain rfl := eq_of_number hd hy hm (wound.number.symm.trans (number_of_findMove found))
    exact ebbs_endMovement .complete hx (notUnderWay_of_holder (b := b) (k.sumps hs) hx (wound.source ▸ hv)) k
  · exact k

theorem ebbs_foldl_completed (hd : p.mov.distinct) (hs : p.mov.slugsFromSumps) (l : List Movement)
    (hl : ∀ m ∈ l, m ∈ p.mov.entries ∧ sourceVolume b m.source = some 0) {q : Part} (k : Ebbs p q) :
    Ebbs p (l.foldl (completed b) q) := by
  induction l generalizing q with
  | nil => exact k
  | cons m ms ih =>
    obtain ⟨hm, hv⟩ := hl m List.mem_cons_self
    exact ih (fun x hx => hl x (List.mem_cons_of_mem _ hx)) (ebbs_completed hd hs hm hv k)

theorem ebbs_completeEmptied (hs : a.mov.slugsFromSumps) (h : Ebbs a p) : Ebbs a (completeEmptied b p) := by
  rw [completeEmptied_eq]
  refine h.trans (ebbs_foldl_completed h.distinct (h.sumps hs) _ (fun m hm => ?_) (.refl h.mode h.distinct))
  obtain ⟨here, emptied⟩ := List.mem_filter.mp hm
  exact ⟨here, by simpa using emptied⟩

theorem ebbs_evaluation (v : VesselId) (h : Ebbs a p) : Ebbs a (fillEvaluation b v (spillEvaluation b v p)) := by
  have spill : Ebbs a (spillEvaluation b v p) :=
    ebbs_ite (ebbs_ite (ebbs_cutNeed _ h) h) (ebbs_spillCheck h)
  exact ebbs_ite (ebbs_ite (ebbs_cutNeed _ spill) spill) (ebbs_fillCheck spill)

theorem ebbs_reuseEvaluation (h : Ebbs a p) : Ebbs a (reuseEvaluation b p) := by
  have supplied := ebbs_supplyCheck (b := b) h
  dsimp only [reuseEvaluation]
  split
  · exact supplied
  · split
    · exact supplied
    · split
      · exact ebbs_fillCheck (ebbs_spillCheck supplied)
      · exact ebbs_evaluation _ (ebbs_blockCheck _ supplied)

theorem ebbs_marksTold (changed : List VesselId) (h : Ebbs a p) : Ebbs a (marksTold b changed p) := by
  have reuse : Ebbs a (match roleVessel .reuse p with
      | some v => if changed.contains v then reuseEvaluation b p else p
      | none => p) := by
    split
    · exact ebbs_ite (ebbs_reuseEvaluation h) h
    · exact h
  dsimp only [marksTold]
  split
  · exact ebbs_ite (ebbs_examineReturn (ebbs_examineArbiter reuse)) reuse
  · exact reuse

theorem ebbs_unmoved (h : Ebbs a p) : Ebbs a (completeMoved b none p) := h

/-- What follows a booking that moves no movement of the table on. -/
theorem ebbs_afterBooking (old new : Books) (vs : List VesselId) (spare : Option Nat) (hs : a.mov.slugsFromSumps)
    (h : Ebbs a p) : Ebbs a (afterBooking old new vs none spare p) := by
  have closed := h.foldl (fun v k => ebbs_closeEmptied (b := new) v k) vs
  have ruled := closed.foldl (fun v k => ebbs_overflowRule (b := new) v (old.vessel v).volume (new.vessel v).volume
    spare k) vs
  exact ebbs_marksTold _ (ebbs_unmoved (ebbs_completeEmptied hs ruled))

theorem ebbs_sourceBooked (t : Tag) (conc litres mg : Nat) (h : Ebbs a p) : Ebbs a (sourceBooked t conc litres mg p) :=
  h.keep rfl rfl

theorem ebbs_admitSlug {a : Part} (m : Movement) (x : SlugParticulars) (v : VesselId) (litres mg : Nat) {q : Plant}
    (hs : a.mov.slugsFromSumps) (h : Ebbs a q.part) : Ebbs a (admitSlug m x v litres mg q).part := by
  have told : Ebbs a (slugTold m x litres mg (q.books.book (.admission v litres mg)) q.part) := by
    unfold slugTold
    split
    · exact h
    · exact ebbs_sealCheck _ (h.keep rfl rfl)
  have admitted : Ebbs a (admittedPart m x v litres mg q) := ebbs_afterBooking _ _ [v] (some m.number) hs told
  rw [admitSlug_eq]
  exact ebbs_sourceBooked _ _ _ _ admitted

end

end Sys2Proof.Machine
end

