-- ==== Sys2Proof/Proofs/RestartCuts.lean ====
section
/-! SUPPORT. Step 3 of a warm restart (R31, R190): every movement is ended, in table order, and each SLUG under way is booked
by the level difference of its destination, whatever the consequences of the ends before it were. -/

namespace Sys2Proof.Machine

section
variable {p q r : Part} {m m' : Movement}

theorem vesselStanding_of_standing (h : q.standing = p.standing) (v : VesselId) :
    (vesselRec q v).standing = (vesselRec p v).standing := by
  have vessels : q.vessels.map VesselRec.standing = p.vessels.map VesselRec.standing := congrArg Part.vessels h
  have entry (x : Part) : (x.vessels.map VesselRec.standing).get v = (vesselRec x v).standing :=
    Vector.getElem_map VesselRec.standing (xs := x.vessels) v.2
  rw [← entry, ← entry, vessels]

theorem lastLevel_of_standing (h : q.standing = p.standing) (v : VesselId) :
    (vesselRec q v).lastLevel = (vesselRec p v).lastLevel :=
  show (vesselRec q v).standing.lastLevel = (vesselRec p v).standing.lastLevel by rw [vesselStanding_of_standing h v]

/-! ## What a restart books -/

/-- The slug, the vessel and the litres that a restart books for a movement: none but for a SLUG under way. -/
def restartBooking (p : Part) (m : Movement) : Option (SlugParticulars × VesselId × Nat) :=
  match m.kind, m.phase, m.slug, m.dest with
  | .slug, .running, some x, .vesselInlet v | .slug, .stopping, some x, .vesselInlet v => some (x, v, litresByLevel x v p)
  | _, _, _, _ => none

theorem restartBooking_underWay {x : SlugParticulars} {v : VesselId} (h : m.underWay) (hx : m.slug = some x)
    (hd : m.dest = .vesselInlet v) : restartBooking p m = some (x, v, litresByLevel x v p) := by
  obtain ⟨kind, phase | phase⟩ := h
  · simp only [restartBooking, kind, phase, hx, hd]
  · simp only [restartBooking, kind, phase, hx, hd]

theorem restartBooking_none (h : ¬ (m.underWay ∧ m.slug.isSome = true ∧ m.destVessel.isSome = true)) :
    restartBooking p m = none := by
  unfold restartBooking
  split
  · next x v kind phase slug dest => exact absurd ⟨⟨kind, .inl phase⟩, by simp [slug], by simp [Movement.destVessel, dest]⟩ h
  · next x v kind phase slug dest => exact absurd ⟨⟨kind, .inr phase⟩, by simp [slug], by simp [Movement.destVessel, dest]⟩ h
  · rfl

theorem dest_of_destVessel {v : VesselId} (h : m.destVessel = some v) : m.dest = .vesselInlet v := by
  cases dest : m.dest <;> simp_all [Movement.destVessel]

theorem restartBooking_some {x : SlugParticulars} {v : VesselId} {litres : Nat}
    (h : restartBooking p m = some (x, v, litres)) :
    m.underWay ∧ m.slug = some x ∧ m.dest = .vesselInlet v ∧ litres = litresByLevel x v p := by
  by_cases booked : m.underWay ∧ m.slug.isSome = true ∧ m.destVessel.isSome = true
  · obtain ⟨under, slug, dest⟩ := booked
    obtain ⟨y, hy⟩ := Option.isSome_iff_exists.mp slug
    obtain ⟨w, hw⟩ := Option.isSome_iff_exists.mp dest
    rw [restartBooking_underWay under hy (dest_of_destVessel hw)] at h
    cases h
    exact ⟨under, hy, dest_of_destVessel hw, rfl⟩
  · exact absurd h (by simp [restartBooking_none booked])

/-- What a restart books for a SLUG does not depend on its having been stopped, nor on more of the part than the level
readings. -/
theorem restartBooking_wound (h : Wound m m') (level : ∀ v, (vesselRec q v).lastLevel = (vesselRec p v).lastLevel) :
    restartBooking q m' = restartBooking p m := by
  have slug : m'.slug = m.slug := by rcases h with rfl | ⟨_, _, rfl⟩ <;> rfl
  have dest : m'.dest = m.dest := by rcases h with rfl | ⟨_, _, rfl⟩ <;> rfl
  have under : m'.underWay → m.underWay := fun k => by
    rcases h with rfl | ⟨kind, phase, _⟩
    · exact k
    · exact ⟨kind, .inl phase⟩
  rcases booking : restartBooking p m with _ | ⟨x, v, litres⟩
  · refine restartBooking_none fun ⟨k, hs, hd⟩ => ?_
    obtain ⟨x, hx⟩ := Option.isSome_iff_exists.mp hs
    obtain ⟨v, hv⟩ := Option.isSome_iff_exists.mp hd
    rw [restartBooking_underWay (under k) (slug.symm.trans hx) (dest.symm.trans (dest_of_destVessel hv))] at booking
    cases booking
  · obtain ⟨k, hx, hd, rfl⟩ := restartBooking_some booking
    rw [restartBooking_underWay (h.underWay k) (slug.trans hx) (dest.trans hd), litresByLevel, litresByLevel, level]

/-! ## One cut -/

/-- The entries less one number. -/
theorem Ebb.without {l l' : List Movement} (n : Nat) (hd : (l.map Movement.number).Nodup) (h : Ebb l l') :
    Ebb (l.filter (fun m => decide (m.number ≠ n))) (l'.filter (fun m => decide (m.number ≠ n))) where
  distinct _ := (h.distinct hd).sublist (List.filter_sublist.map _)
  comes x hx := by
    obtain ⟨here, other⟩ := List.mem_filter.mp hx
    obtain ⟨y, hy, wound⟩ := h.comes x here
    exact ⟨y, List.mem_filter.mpr ⟨hy, wound.number ▸ other⟩, wound⟩
  stays y hy under := by
    obtain ⟨here, other⟩ := List.mem_filter.mp hy
    obtain ⟨x, hx, wound⟩ := h.stays y here under
    exact ⟨x, List.mem_filter.mpr ⟨hx, wound.number.symm ▸ other⟩, wound⟩

theorem Ebbs.without (n : Nat) (hd : p.mov.distinct) (h : Ebbs p q) : Ebbs (removeMove n p) (removeMove n q) :=
  ⟨h.ctl, h.mode, h.distinct.sublist (List.filter_sublist.map _), h.ebb.without n hd⟩

/-- A change of the entries of a number is lost with them. -/
theorem filter_number_map (n : Nat) {f : Movement → Movement} (h : ∀ m, (f m).number = m.number) (l : List Movement) :
    (l.map (fun m => if m.number = n then f m else m)).filter (fun m => decide (m.number ≠ n)) =
      l.filter (fun m => decide (m.number ≠ n)) := by
  induction l with
  | nil => rfl
  | cons m ms ih =>
    by_cases same : m.number = n
    · simp [same, h] at ih ⊢
      exact ih
    · simp [same] at ih ⊢
      exact ih

theorem removeMove_stopTimeout (n : Nat) (p : Part) : removeMove n (stopTimeout n p) = removeMove n p :=
  congrArg (fun l => { p with mov := { p.mov with entries := l } })
    (filter_number_map n (f := fun x => { x with timeoutLeft := none }) (fun _ => rfl) p.mov.entries)

theorem distinct_stopTimeout (n : Nat) (hd : p.mov.distinct) : (stopTimeout n p).mov.distinct := by
  have numbers := map_number_updMove n (f := fun x => { x with timeoutLeft := none }) (fun _ => rfl) p
  rw [MovementUnit.distinct, stopTimeout, numbers]
  exact hd

end

section
variable {q : Plant} {m : Movement} {n : Nat}

theorem restartSlug_booked {x : SlugParticulars} {v : VesselId} (h : m.underWay) (hx : m.slug = some x)
    (hd : m.dest = .vesselInlet v) : restartSlug m q =
      ⟨q.books.book (.admission v (litresByLevel x v q.part) (litresByLevel x v q.part * x.conc)),
        endMovement (q.books.book (.admission v (litresByLevel x v q.part) (litresByLevel x v q.part * x.conc))) m
          (.cut .restart) (bookedByLevel m x v q)⟩ := by
  have dest : m.destVessel = some v := by rw [Movement.destVessel, hd]
  have booked : bookByLevel m x v q =
      ⟨q.books.book (.admission v (litresByLevel x v q.part) (litresByLevel x v q.part * x.conc)), bookedByLevel m x v q⟩ := by
    simp only [bookByLevel, admitSlug_eq, bookedByLevel, litresByLevel]
  obtain ⟨_, phase | phase⟩ := h
  · simp only [restartSlug, phase, hx, dest, booked]
  · simp only [restartSlug, phase, hx, dest, booked]

theorem restartSlug_unbooked (h : restartBooking q.part m = none) (kind : m.kind = .slug) : restartSlug m q =
    ⟨q.books, endMovement q.books m (.cut .restart) q.part⟩ := by
  unfold restartSlug
  split
  · next x v phase hx dest =>
    rw [restartBooking_underWay ⟨kind, .inl phase⟩ hx (dest_of_destVessel dest)] at h
    cases h
  · next x v phase hx dest =>
    rw [restartBooking_underWay ⟨kind, .inr phase⟩ hx (dest_of_destVessel dest)] at h
    cases h
  · rfl

theorem restartCut_gone (h : findMove n q.part = none) : restartCut n q = q := by rw [restartCut, h]

theorem restartCut_booked {x : SlugParticulars} {v : VesselId} {litres : Nat} (h : findMove n q.part = some m)
    (k : restartBooking q.part m = some (x, v, litres)) : restartCut n q =
      ⟨q.books.book (.admission v litres (litres * x.conc)),
        endMovement (q.books.book (.admission v litres (litres * x.conc))) m (.cut .restart) (bookedByLevel m x v q)⟩ := by
  obtain ⟨under, hx, hd, rfl⟩ := restartBooking_some k
  rw [restartCut, h]
  exact (if_pos under.1).trans (restartSlug_booked under hx hd)

theorem restartCut_unbooked (h : findMove n q.part = some m) (k : restartBooking q.part m = none) :
    restartCut n q = ⟨q.books, endMovement q.books m (.cut .restart) q.part⟩ := by
  rw [restartCut, h]
  by_cases slug : m.kind = .slug
  · exact (if_pos slug).trans (restartSlug_unbooked k slug)
  · exact if_neg slug

theorem ebbs_bookedByLevel {x : SlugParticulars} {v : VesselId} (hm : q.part.ctl.mode = .commissioning)
    (hd : q.part.mov.distinct) (hs : q.part.mov.slugsFromSumps) :
    Ebbs (stopTimeout m.number q.part) (bookedByLevel m x v q) := by
  have booked := ebbs_admitSlug (q := ⟨q.books, stopTimeout m.number q.part⟩) m x v (litresByLevel x v q.part)
    (litresByLevel x v q.part * x.conc) ((inForm_stopTimeout m.number q.part).slugs hs)
    (.refl hm (distinct_stopTimeout m.number hd))
  rw [admitSlug_eq] at booked
  exact booked

/-- The cut of a number takes its entry out, and ebbs from what is left. -/
theorem ebbs_restartCut (n : Nat) (hm : q.part.ctl.mode = .commissioning) (hd : q.part.mov.distinct)
    (hs : q.part.mov.slugsFromSumps) : Ebbs (removeMove n q.part) (restartCut n q).part := by
  have removed : Ebbs (removeMove n q.part) (removeMove n q.part) :=
    .refl hm (hd.sublist (List.filter_sublist.map _))
  rcases found : findMove n q.part with _ | m
  · rw [restartCut_gone found]
    refine removed.keep rfl (List.filter_eq_self.mpr fun x hx => ?_).symm
    simpa using List.find?_eq_none.mp found x hx
  · obtain rfl : m.number = n := number_of_findMove found
    rcases booking : restartBooking q.part m with _ | ⟨x, v, litres⟩
    · rw [restartCut_unbooked found booking]
      exact ebbs_ended m _ hm hd
    · rw [restartCut_booked found booking]
      have booked := ebbs_bookedByLevel (m := m) (x := x) (v := v) hm hd hs
      have without := booked.without m.number (distinct_stopTimeout m.number hd)
      rw [removeMove_stopTimeout] at without
      exact without.trans (ebbs_ended m _ booked.mode booked.distinct)

/-! ## All cuts -/

/-- The books after the cut of a movement at a restart of the part `p`. -/
def cutBooks (p : Part) (b : Books) (m : Movement) : Books :=
  match restartBooking p m with
  | some (x, v, litres) => b.book (.admission v litres (litres * x.conc))
  | none => b

/-- The source's totals after the cut of a movement at a restart of the part `p`. -/
def cutSources (p r : Part) (m : Movement) : Part :=
  match restartBooking p m with
  | some (x, _, litres) => sourceBooked x.tag x.conc litres (litres * x.conc) r
  | none => r

theorem lastLevel_cutSources (p r : Part) (m : Movement) (v : VesselId) :
    (vesselRec (cutSources p r m) v).lastLevel = (vesselRec r v).lastLevel := by
  unfold cutSources
  split <;> rfl

/-- The cut of an entry as it now is books what a restart of the part books for it, and no more stands changed. -/
theorem restartCut_figures {p r : Part} {now : Movement} (found : findMove n q.part = some now)
    (booking : restartBooking q.part now = restartBooking p m) (hr : q.part.standing = r.standing) :
    (restartCut n q).books = cutBooks p q.books m ∧ (restartCut n q).part.standing = (cutSources p r m).standing := by
  unfold cutBooks cutSources
  rcases booked : restartBooking p m with _ | ⟨x, v, litres⟩
  · rw [restartCut_unbooked found (booking.trans booked)]
    exact ⟨rfl, (settles_endMovement _ now _ (.refl q.part)).standing.trans hr⟩
  · rw [restartCut_booked found (booking.trans booked)]
    obtain ⟨_, _, _, rfl⟩ := restartBooking_some (booking.trans booked)
    exact ⟨rfl, ((settles_endMovement _ now _ (.refl _)).standing.trans (standing_bookedByLevel now x v q)).trans
      (standing_sourceBooked _ _ _ _ hr)⟩

/-- The cut of an entry that stood in the part `p`, in the table that has ebbed since. -/
theorem restartCut_step {p r : Part} {ms : List Movement} (nodup : ((m :: ms).map Movement.number).Nodup)
    (ebb : Ebb (m :: ms) q.part.mov.entries) (hr : q.part.standing = r.standing)
    (level : ∀ v, (vesselRec r v).lastLevel = (vesselRec p v).lastLevel) :
    (restartCut m.number q).books = cutBooks p q.books m ∧
      (restartCut m.number q).part.standing = (cutSources p r m).standing := by
  rcases found : findMove m.number q.part with _ | x
  · have gone : restartBooking p m = none := restartBooking_none fun ⟨under, _⟩ => by
      obtain ⟨x, hx, wound⟩ := ebb.stays m List.mem_cons_self under
      exact absurd wound.number (by simpa using List.find?_eq_none.mp found x hx)
    rw [restartCut_gone found, cutBooks, cutSources, gone]
    exact ⟨rfl, hr⟩
  · obtain ⟨y, hy, wound⟩ := ebb.comes x (List.mem_of_find?_eq_some found)
    obtain rfl : y = m := eq_of_nodup_map nodup hy List.mem_cons_self
      (wound.number.symm.trans (number_of_findMove found))
    have booking := restartBooking_wound wound (fun v => (lastLevel_of_standing hr v).trans (level v))
    exact restartCut_figures found booking hr

/-- The cuts of the entries of a part, in a table that has ebbed from them. -/
theorem restartCut_all {p : Part} : ∀ (l : List Movement) (q : Plant) (r : Part), (l.map Movement.number).Nodup →
    q.part.ctl.mode = .commissioning → q.part.mov.distinct → q.part.mov.slugsFromSumps → Ebb l q.part.mov.entries →
    (∀ v, (vesselRec r v).lastLevel = (vesselRec p v).lastLevel) → q.part.standing = r.standing →
    let t := (l.map Movement.number).foldl (fun x n => restartCut n x) q
    t.part.ctl = q.part.ctl ∧ t.part.mov.entries = [] ∧ t.books = l.foldl (cutBooks p) q.books ∧
      t.part.standing = (l.foldl (cutSources p) r).standing
  | [], q, r, _, _, _, _, ebb, _, hr => by
    refine ⟨rfl, List.eq_nil_iff_forall_not_mem.mpr fun x hx => ?_, rfl, hr⟩
    obtain ⟨_, none, _⟩ := ebb.comes x hx
    exact List.not_mem_nil none
  | m :: ms, q, r, nodup, hm, hd, hs, ebb, level, hr => by
    have cut := ebbs_restartCut m.number hm hd hs
    obtain ⟨books, standing⟩ := restartCut_step nodup ebb hr level
    obtain ⟨fresh, later⟩ := List.nodup_cons.mp nodup
    have rest : (m :: ms).filter (fun x => decide (x.number ≠ m.number)) = ms := by
      rw [List.filter_cons_of_neg (by simp)]
      exact List.filter_eq_self.mpr fun x hx => by simpa using fun same => fresh (List.mem_map.mpr ⟨x, hx, same⟩)
    have left : Ebb ms (restartCut m.number q).part.mov.entries :=
      rest ▸ (ebb.without m.number nodup).trans cut.ebb
    obtain ⟨ctl, entries, figures, stands⟩ := restartCut_all ms (restartCut m.number q) (cutSources p r m) later cut.mode
      cut.distinct (cut.sumps fun x hx => hs x (List.mem_filter.mp hx).1) left
      (fun v => (lastLevel_cutSources p r m v).trans (level v)) standing
    exact ⟨ctl.trans cut.ctl, entries, figures.trans (congrArg (fun b => ms.foldl (cutBooks p) b) books), stands⟩

end

end Sys2Proof.Machine
end

