-- ==== Sys2Proof/Proofs/RestartBlocks.lean ====
section
/-! SUPPORT. Steps 4 and 5 of a warm restart (R59, R77, R79, R100, R115, R119, R140, R144, R154, R190): the stack emptied, the
SUSPENDED lots freed, and every table at its warm-restart values. -/

namespace Sys2Proof.Machine

section
variable {b : Books} {p q : Part} {l : Lot}

/-! ## SUSPENDED lots (R59) -/

/-- A SUSPENDED lot after a restart: CLEARED and held. -/
def Lot.freed (l : Lot) : Lot := { l with state := .cleared, held := true, timer := none, bindingFrame := none }

theorem clearLot_none {n : Nat} (h : findLot n p = none) (r : LotReason) : clearLot n r p = p := by
  rw [clearLot, h]

/-- A lot freed joins no queue, being held: the lots and the notices alone change. -/
theorem restartLot_fields (l : Lot) (p : Part) : ∃ lot link, restartLot l p = { p with lot := lot, link := link } := by
  unfold restartLot
  split
  · have found := findLot_updLot l.number (fun x => { x with held := true }) p (fun _ => rfl)
    rcases h : findLot l.number p with _ | x
    · rw [h] at found
      rw [clearLot_none found]
      exact ⟨_, p.link, rfl⟩
    · rw [h] at found
      obtain ⟨lot, link, e⟩ := clearLot_held found rfl .restart
      exact ⟨lot, link, e⟩
  · exact ⟨p.lot, p.link, rfl⟩

theorem restartLots_fields (ls : List Lot) (p : Part) :
    ∃ lot link, ls.foldl (fun q l => restartLot l q) p = { p with lot := lot, link := link } := by
  induction ls generalizing p with
  | nil => exact ⟨p.lot, p.link, rfl⟩
  | cons l ls ih =>
    obtain ⟨lot, link, e⟩ := restartLot_fields l p
    obtain ⟨lot', link', e'⟩ := ih (restartLot l p)
    exact ⟨lot', link', e'.trans (by rw [e])⟩

theorem clearLot_numbered {n : Nat} {x : Lot} (h : findLot n p = some x) (k : x.clearanceNo.isSome = true)
    (r : LotReason) : (clearLot n r p).lot =
      (updLot n (fun x => { x with state := .cleared, timer := none, bindingFrame := none }) p).lot := by
  obtain ⟨c, hc⟩ := Option.isSome_iff_exists.mp k
  simp only [clearLot, h, hc, joinQueue_lot, lotNotice_lot]

theorem restartLot_lots (hs : l.state = .suspended)
    (hc : ∀ x ∈ p.lot.lots, x.number = l.number → x.clearanceNo.isSome = true) :
    (restartLot l p).lot = { p.lot with
      lots := p.lot.lots.map (fun x => if x.number = l.number then x.freed else x) } := by
  rw [restartLot, if_pos hs]
  have found := findLot_updLot l.number (fun x => { x with held := true }) p (fun _ => rfl)
  rcases h : findLot l.number p with _ | x
  · rw [h] at found
    rw [clearLot_none found]
    refine congrArg (fun lots => { p.lot with lots := lots }) (List.map_congr_left fun x hx => ?_)
    have other : x.number ≠ l.number := by simpa using List.find?_eq_none.mp h x hx
    rw [if_neg other, if_neg other]
  · rw [h] at found
    have numbered := hc x (List.mem_of_find?_eq_some h) (by simpa using List.find?_some h)
    rw [clearLot_numbered found numbered]
    refine congrArg (fun lots => { p.lot with lots := lots }) ?_
    simp only [updLot, List.map_map]
    refine List.map_congr_left fun x _ => ?_
    by_cases same : x.number = l.number <;> simp [same, Lot.freed]

theorem restartLot_other (hs : l.state ≠ .suspended) : restartLot l p = p := if_neg hs

/-- The lots of a part once those of a list are freed. -/
def freedLots (ls : List Lot) (lots : List Lot) : List Lot :=
  lots.map (fun x => if ∃ l ∈ ls, l.number = x.number ∧ l.state = .suspended then x.freed else x)

theorem freedLots_suspended (hs : l.state = .suspended) (ls lots : List Lot) :
    freedLots ls (lots.map (fun x => if x.number = l.number then x.freed else x)) = freedLots (l :: ls) lots := by
  rw [freedLots, freedLots, List.map_map]
  refine List.map_congr_left fun x _ => ?_
  by_cases same : x.number = l.number
  · have here : ∃ k ∈ l :: ls, k.number = x.number ∧ k.state = .suspended := ⟨l, List.mem_cons_self, same.symm, hs⟩
    rw [if_pos here, Function.comp_apply, if_pos same]
    exact ite_self (c := ∃ k ∈ ls, k.number = x.number ∧ k.state = .suspended) x.freed
  · have other : ¬ (l.number = x.number ∧ l.state = .suspended) := fun h => same h.1.symm
    simp only [Function.comp_apply, same, if_false, List.mem_cons, exists_eq_or_imp, other, false_or]

theorem freedLots_other (hs : l.state ≠ .suspended) (ls lots : List Lot) :
    freedLots (l :: ls) lots = freedLots ls lots := by
  simp only [freedLots, List.mem_cons, exists_eq_or_imp, hs, and_false, false_or]

/-- The lots of a list freed, one by one. -/
theorem restartLots_lots (ls : List Lot) (p : Part) (hc : ∀ l ∈ ls, l.state = .suspended →
    ∀ x ∈ p.lot.lots, x.number = l.number → x.clearanceNo.isSome = true) :
    (ls.foldl (fun q l => restartLot l q) p).lot = { p.lot with lots := freedLots ls p.lot.lots } := by
  induction ls generalizing p with
  | nil => simp [freedLots]
  | cons l ls ih =>
    rw [List.foldl_cons]
    by_cases hs : l.state = .suspended
    · have first := restartLot_lots hs (hc l List.mem_cons_self hs)
      rw [ih (restartLot l p), first, freedLots_suspended hs]
      intro k hk sk x hx
      rw [first] at hx
      obtain ⟨y, hy, rfl⟩ := List.mem_map.mp hx
      have numbered := hc k (List.mem_cons_of_mem _ hk) sk y hy
      by_cases same : y.number = l.number
      · rw [if_pos same]
        exact numbered
      · rw [if_neg same]
        exact numbered
    · rw [restartLot_other hs, freedLots_other hs]
      exact ih p fun k hk => hc k (List.mem_cons_of_mem _ hk)

/-- All lots of a part freed, where no two have the same number. -/
theorem freedLots_self {lots : List Lot} (hd : (lots.map Lot.number).Nodup) : freedLots lots lots =
    lots.map (fun l => if l.state = .suspended then l.freed else l) := by
  refine List.map_congr_left fun x hx => ite_of_iff ⟨fun ⟨l, hl, same, hs⟩ => ?_, fun hs => ⟨x, hx, rfl, hs⟩⟩ rfl rfl
  rwa [← eq_of_nodup_map hd hl hx same]

/-! ## The cells and the gate (R115, R122, R140) -/

/-- A cell outside OPERATING: its rectifier OFF, paused in PLATING. -/
def CellRec.resting (r : CellRec) : CellRec := { r with rectifier := false, paused := decide (r.state = .plating) }

theorem updCell_congr {c : CellId} {f g : CellRec → CellRec} (h : f (cellRec p c) = g (cellRec p c)) :
    updCell c f p = updCell c g p := by
  have cells : updAt p.cel.cells c f = updAt p.cel.cells c g := by
    refine Vector.ext fun i hi => ?_
    have here : ∀ k : CellRec → CellRec, (updAt p.cel.cells c k)[i] =
        if (⟨i, hi⟩ : CellId) = c then k (cellRec p c) else cellRec p ⟨i, hi⟩ := fun k =>
      get_updAt p.cel.cells c ⟨i, hi⟩ k
    rw [here, here, h]
  exact congrArg (fun cells => { p with cel := { p.cel with cells := cells } }) cells

theorem settleCell_rests (c : CellId) (h : p.ctl.mode = .commissioning) :
    settleCell b c p = updCell c CellRec.resting p := by
  have idle := rectifierWanted_commissioning c h
  rw [settleCell_set (.inr (.inr idle))]
  refine updCell_congr ?_
  simp only [idle, CellRec.resting, Bool.not_false, Bool.and_true]

theorem updAt_all (xs : Vector CellRec 4) (f : CellRec → CellRec) :
    allCells.foldl (fun ys c => updAt ys c f) xs = xs.map f := by
  have here (ys : Vector CellRec 4) (c d : CellId) : (updAt ys c f).get d = if d = c then f (ys.get c) else ys.get d :=
    get_updAt ys c d f
  have each (d : CellId) : (allCells.foldl (fun ys c => updAt ys c f) xs).get d = f (xs.get d) := by
    have order : allCells = [0, 1, 2, 3] := rfl
    have cells : ∀ d : CellId, d = 0 ∨ d = 1 ∨ d = 2 ∨ d = 3 := by decide
    rw [order]
    simp only [List.foldl_cons, List.foldl_nil, here]
    rcases cells d with rfl | rfl | rfl | rfl <;> rfl
  exact Vector.ext fun i hi => (each ⟨i, hi⟩).trans (Vector.getElem_map f hi).symm

theorem settleCells_rests (h : p.ctl.mode = .commissioning) :
    settleCells b p = { p with cel := { p.cel with cells := p.cel.cells.map CellRec.resting } } := by
  have every (cs : List CellId) : ∀ q : Part, q.ctl.mode = .commissioning →
      cs.foldl (fun q c => settleCell b c q) q = { q with cel := { q.cel with
        cells := cs.foldl (fun ys c => updAt ys c CellRec.resting) q.cel.cells } } := by
    induction cs with
    | nil => exact fun q _ => rfl
    | cons c cs ih =>
      intro q hq
      rw [List.foldl_cons, settleCell_rests c hq]
      exact (ih (updCell c CellRec.resting q) hq).trans rfl
  rw [settleCells, every allCells p h, updAt_all]

theorem recomputeGate_shut (r : GateReason) (h : p.ctl.mode = .commissioning) :
    ∃ link, recomputeGate r p = { p with gate := { p.gate with state := .shut }, link := link } := by
  have shut := gateStateOf_commissioning h
  dsimp only [recomputeGate]
  rw [shut]
  split
  · next same => exact ⟨p.link, by rw [same]⟩
  · exact ⟨_, notify_link _ _⟩

/-! ## All blocks -/

theorem resting_restart (r : CellRec) : r.restart.resting = { r with
    rectifier := false, paused := decide (r.state = .plating)
    step := if r.state = .charging ∨ r.state = .draining then .waiting .mode else r.step } := by
  rcases state : r.state <;> simp [CellRec.restart, CellRec.resting, state]

/-- The part with the tables at their warm-restart values. -/
def restartedTables (lot : LotUnit) (link : Link) (p : Part) : Part :=
  { p with
    flt := { p.flt with stack := [] }
    src := { p.src with cursor := none }
    fld := { p.fld with units := p.fld.units.map UnitRec.restart, lastTurn := none, turn := none }
    reg := { p.reg with spill := .idle, fill := .idle, ret := .idle, returnSource := none }
    cel := { p.cel with cells := p.cel.cells.map (fun r => r.restart.resting), outcome := none, chosen := none }
    gate := { p.gate with state := .shut, outcome := none }
    pat := { p.pat with patterns := p.pat.patterns.map PatternRec.arm }
    lot := lot
    link := link }

theorem restartBlocks_eq (b : Books) (h : p.ctl.mode = .commissioning) : ∃ link, restartBlocks b p =
    restartedTables (p.lot.lots.foldl (fun q l => restartLot l q) { p with flt := { p.flt with stack := [] } }).lot
      link p := by
  obtain ⟨lot, link, freed⟩ := restartLots_fields p.lot.lots { p with flt := { p.flt with stack := [] } }
  dsimp only [restartBlocks]
  rw [freed, settleCells_rests (by exact h)]
  obtain ⟨later, shut⟩ := recomputeGate_shut (p := armAll { restartTables { p with
    flt := { p.flt with stack := [] }, lot := lot, link := link } with cel := { (restartTables { p with
      flt := { p.flt with stack := [] }, lot := lot, link := link }).cel with cells := (restartTables { p with
        flt := { p.flt with stack := [] }, lot := lot, link := link }).cel.cells.map CellRec.resting } }) .mode h
  refine ⟨later, shut.trans ?_⟩
  have cells : (p.cel.cells.map CellRec.restart).map CellRec.resting = p.cel.cells.map (fun r => r.restart.resting) := by
    rw [Vector.map_map]
    rfl
  rw [restartedTables, ← cells]
  rfl

end

end Sys2Proof.Machine
end

