-- ==== Sys2Proof/Proofs/RestartRaises.lean ====
section
/-! SUPPORT. Step 6 of a warm restart (R190): what the patterns and the cell fault inputs found raise. -/

namespace Sys2Proof.Machine

section
variable {b : Books} {a p q : Part}

/-! ## The frames found -/

/-- The faults that step 6 of a restart raises: of a pattern that is met, and of a cell fault input found ACTIVE. -/
def FoundFault (t : FaultType) (x : Subject) : Prop :=
  (∃ k, t = .interlock k ∧ x = .pattern k) ∨ ∃ c, t = .cellFault ∧ x = .cell c

/-- No other frame stands. -/
def FoundFrames (p : Part) : Prop := ∀ f ∈ p.flt.stack, FoundFault f.ftype f.subject

theorem foundFrames_iff_fixed :
    FoundFrames p ↔ ∀ f ∈ p.flt.stack.map Frame.fixed, FoundFault f.ftype f.subject := by
  rw [List.forall_mem_map]
  exact Iff.rfl

theorem foundFrames_of_fixed (h : q.flt.stack.map Frame.fixed = p.flt.stack.map Frame.fixed) (k : FoundFrames p) :
    FoundFrames q := by
  rw [foundFrames_iff_fixed, h]
  exact foundFrames_iff_fixed.mp k

theorem foundFrames_raise {r : Raise} (hr : FoundFault r.ftype r.subject) (hm : p.ctl.mode.inService = true)
    (h : FoundFrames p) : FoundFrames (raise b r p) := by
  by_cases room : p.flt.stack.length < 6
  · have pushed : (raise b r p).flt.stack.map Frame.fixed = p.flt.stack.map Frame.fixed ++ [(newFrame r p).fixed] :=
      congrArg Prod.fst (faultView_raise_pushes hm room)
    rw [foundFrames_iff_fixed, pushed]
    intro f hf
    rcases List.mem_append.mp hf with old | new
    · exact foundFrames_iff_fixed.mp h f old
    · rw [List.mem_singleton.mp new]
      exact hr
  · exact foundFrames_of_fixed (congrArg Prod.fst (faultView_raise_full hm (Nat.le_of_not_lt room))) h

/-- A part in COMMISSIONING in which only such faults were raised since the part `a`. -/
def Finds (a p : Part) : Prop := Ebbs a p ∧ FoundFrames p

theorem finds_raiseOrReport {r : Raise} (hr : FoundFault r.ftype r.subject) (h : Finds a p) :
    Finds a (raiseOrReport b r p) := by
  obtain ⟨ebbs, frames⟩ := h
  refine ⟨ebbs_raiseOrReport r ebbs, ?_⟩
  cases framed : hasFrame r.ftype r.subject p with
  | true =>
    rw [raiseOrReport_framed framed]
    exact foundFrames_of_fixed (fixed_reportOn _ _ _ p) frames
  | false =>
    rw [raiseOrReport_new framed]
    exact foundFrames_raise hr (by rw [ebbs.mode]; rfl) frames

/-- A change of anything but the mode, the entries and the stack. -/
theorem Finds.keep (h : Finds a p) (c : q.ctl = p.ctl) (e : q.mov.entries = p.mov.entries)
    (f : q.flt = p.flt) : Finds a q := ⟨h.1.keep c e, fun x hx => h.2 x (f ▸ hx)⟩

theorem Finds.notify (n : NoticeBody) (h : Finds a p) : Finds a (notify n p) :=
  h.keep (notify_ctl n p) (congrArg MovementUnit.entries (notify_mov n p)) (notify_flt n p)

theorem Finds.foldl {α : Type} {f : Part → α → Part} (k : ∀ {q} (x : α), Finds a q → Finds a (f q x)) (l : List α)
    (h : Finds a p) : Finds a (l.foldl f p) := by
  induction l generalizing p with
  | nil => exact h
  | cons x xs ih => exact ih (k x h)

/-! ## The patterns and the inputs -/

theorem finds_evaluatePattern (k : PatternId) (h : Finds a p) : Finds a (evaluatePattern b none k p) := by
  have recorded (f : PatternRec → PatternRec) : Finds a (updPattern k f p) := h.keep rfl rfl rfl
  dsimp only [evaluatePattern]
  split
  · unfold takeMatch
    split
    · exact finds_raiseOrReport (.inl ⟨k, rfl, rfl⟩) ((recorded _).notify _)
    · exact recorded _
    · exact recorded _
  · exact h

theorem finds_cellFound (c : CellId) (h : Finds a p) : Finds a (cellFound b p c) := by
  unfold cellFound
  split
  · exact finds_raiseOrReport (.inr ⟨c, rfl, rfl⟩) h
  · exact h

theorem finds_evaluateAll (h : Finds a p) : Finds a (evaluateAll b none p) :=
  h.foldl (fun k => finds_evaluatePattern k) allPatterns

theorem finds_cellFaultsFound (h : Finds a p) : Finds a (cellFaultsFound b p) := by
  rw [cellFaultsFound_eq]
  exact h.foldl (fun c => finds_cellFound c) allCells

theorem finds_restartRaises (h : Finds a p) : Finds a (restartRaises b p) := by
  rw [restartRaises]
  exact finds_cellFaultsFound (finds_evaluateAll h)

/-- With no enabled pattern met the evaluation does nothing. -/
theorem evaluateAll_unmet {change : Option (InputId × Bool)} (h : ∀ k, (patternRec p k).enabled = true →
    patternMet p.pat.inputs change (patternRec p k) = false) : evaluateAll b change p = p := by
  have still (k : PatternId) : evaluatePattern b change k p = p := by
    cases enabled : (patternRec p k).enabled with
    | false => exact evaluatePattern_unmet (.inl enabled)
    | true => exact evaluatePattern_unmet (.inr (h k enabled))
  have all (l : List PatternId) : l.foldl (fun q k => evaluatePattern b change k q) p = p := by
    induction l with
    | nil => rfl
    | cons k l ih => rw [List.foldl_cons, still k, ih]
  exact all allPatterns

/-- An input found ACTIVE has its frame at the end, unless the stack is full. -/
theorem restartRaises_cellFrames {c : CellId} (h : Finds p p) (on : (cellRec p c).faultInput = true)
    (room : (restartRaises b p).flt.stack.length < 6) : hasFrame .cellFault (.cell c) (restartRaises b p) = true := by
  have evaluated := (reaches_evaluateAll b none (.refl p)).standing
  rw [restartRaises] at room ⊢
  exact cellFaultsFound_frames (finds_evaluateAll h).1.mode ((faultInput_of_standing evaluated c).trans on) room

/-- Where nothing is found nothing is done. -/
theorem restartRaises_none (h : ∀ c, (cellRec p c).faultInput = false) (k : ∀ k, (patternRec p k).enabled = true →
    patternMet p.pat.inputs none (patternRec p k) = false) : restartRaises b p = p := by
  rw [restartRaises, evaluateAll_unmet k, cellFaultsFound_none h]

end

end Sys2Proof.Machine
end

