-- ==== Sys2Proof/Proofs/WarmRestarts.lean ====
section
/-! SUPPORT. A warm restart from a mode in service (R31, R190): its first notices, its cuts, the values of the tables and the
frames found, put together. -/

namespace Sys2Proof.Machine

/-! ## The Notice Queue (R197) -/

section
variable {p q r : Part}

/-- Notices have joined the queue, and none left it. -/
def Grows (p q : Part) : Prop := ∃ later, q.link.queue = p.link.queue ++ later

theorem Grows.same (h : q.link = p.link) : Grows p q := ⟨[], by rw [h, List.append_nil]⟩

theorem Grows.trans (h : Grows p q) (k : Grows q r) : Grows p r := by
  obtain ⟨xs, hx⟩ := h
  obtain ⟨ys, hy⟩ := k
  exact ⟨xs ++ ys, by rw [hy, hx, List.append_assoc]⟩

theorem grows_notify (n : NoticeBody) (p : Part) : Grows p (notify n p) := by
  by_cases room : p.link.queue.length < 32
  · exact ⟨_, congrArg (fun x : Part => x.link.queue) (notify_joins room)⟩
  · exact ⟨[], (congrArg (fun x : Part => x.link.queue) (notify_dropped (Nat.le_of_not_lt room))).trans
      (List.append_nil _).symm⟩

theorem Calm.grows (h : Calm p q) : Grows p q := by
  cases h with
  | notice n => exact grows_notify n p
  | vessel | waiting | start | move | unmove | lot | newLot | lotCounters | unlot | unit | needs | cell | arbiter | gate
  | frames => exact .same rfl

theorem Settles.grows (h : Settles p q) : Grows p q := by
  induction h with
  | refl => exact .same rfl
  | step _ k ih => exact ih.trans k.grows

theorem Change.grows (h : Change p q) : Grows p q := by
  cases h with
  | calm k => exact k.grows
  | push | record | pop | lockdown | pattern => exact .same rfl

theorem Reaches.grows (h : Reaches p q) : Grows p q := by
  induction h with
  | refl => exact .same rfl
  | step _ k ih => exact ih.trans k.grows

theorem grows_foldl {α : Type} {f : Part → α → Part} (k : ∀ q x, Grows q (f q x)) (l : List α) (p : Part) :
    Grows p (l.foldl f p) := by
  induction l generalizing p with
  | nil => exact .same rfl
  | cons x xs ih => exact (k p x).trans (ih (f p x))

theorem grows_sourceBooked (t : Tag) (conc litres mg : Nat) (p : Part) : Grows p (sourceBooked t conc litres mg p) :=
  .same rfl

theorem grows_restartTables (p : Part) : Grows p (restartTables p) := .same rfl

theorem grows_armAll (p : Part) : Grows p (armAll p) := .same rfl

theorem grows_bookedByLevel (m : Movement) (x : SlugParticulars) (v : VesselId) (q : Plant) :
    Grows q.part (bookedByLevel m x v q) :=
  (settles_stopTimeout m.number (.refl q.part)).grows.trans
    ((reaches_admittedPart m x v (litresByLevel x v q.part) (litresByLevel x v q.part * x.conc)
      ⟨q.books, stopTimeout m.number q.part⟩).grows.trans (grows_sourceBooked _ _ _ _ _))

theorem grows_restartCut (n : Nat) (q : Plant) : Grows q.part (restartCut n q).part := by
  have ended (b : Books) (m : Movement) (p : Part) : Grows p (endMovement b m (.cut .restart) p) :=
    (settles_endMovement b m _ (.refl p)).grows
  rcases found : findMove n q.part with _ | m
  · rw [restartCut_gone found]
    exact .same rfl
  · rcases booking : restartBooking q.part m with _ | ⟨x, v, litres⟩
    · rw [restartCut_unbooked found booking]
      exact ended _ m _
    · rw [restartCut_booked found booking]
      exact (grows_bookedByLevel m x v q).trans (ended _ m _)

theorem grows_restartCuts (q : Plant) : Grows q.part (restartCuts q).part := by
  have every (l : List Nat) : ∀ q : Plant, Grows q.part (l.foldl (fun x n => restartCut n x) q).part := by
    induction l with
    | nil => exact fun q => .same rfl
    | cons n l ih => exact fun q => (grows_restartCut n q).trans (ih (restartCut n q))
  exact (every _ q).trans (.same rfl)

theorem grows_restartBlocks (b : Books) (p : Part) : Grows p (restartBlocks b p) := by
  have emptied : Grows p { p with flt := { p.flt with stack := [] } } := .same rfl
  have freed := emptied.trans (grows_foldl (fun q l => (settles_restartLot l (.refl q)).grows) p.lot.lots _)
  have settled := (freed.trans (grows_restartTables _)).trans (settles_settleCells b (.refl _)).grows
  exact (settled.trans (grows_armAll _)).trans (settles_recomputeGate .mode (.refl _)).grows

end

/-! ## The first steps (R190) -/

section
variable {b : Books} {p : Part}

/-- The part once a warm restart has begun. -/
def begunAnew (p : Part) : Part :=
  { p with
    ctl := { p.ctl with mode := .commissioning, lastStart := .warm, manual := Vector.replicate 51 none }
    link := { p.link with
      buffer := [], lost := false, restarting := false, behind := 0
      tx := p.link.tx.map (fun t => { t with holdsPlace := false })
      queue := ⟨false, p.gate.clock, .start .warm p.ctl.selfTest .commissioning⟩ ::
        (if p.ctl.mode = .operating then [⟨false, p.gate.clock, .mode .operating .commissioning .restart⟩] else []) } }

theorem restartBegins_eq (p : Part) : restartBegins p = begunAnew p := by
  have first : (emptyLink { p with ctl := { p.ctl with lastStart := .warm } }).link.queue.length < 32 := by
    show 0 < 32
    decide
  dsimp only [restartBegins]
  rw [notify_joins first]
  split
  · next operating =>
    rw [notify_joins (by show 1 < 32; decide), begunAnew, if_pos operating]
    rfl
  · next other =>
    rw [begunAnew, if_neg other]
    rfl

theorem mode_begunAnew (p : Part) : (begunAnew p).ctl.mode = .commissioning := rfl

/-- The notices of a warm restart follow its first. -/
theorem grows_warmRestart (b : Books) (p : Part) : Grows (restartBegins p)
    (restartRaises b (restartBlocks b (restartCuts ⟨b, restartBegins p⟩).part)) :=
  ((grows_restartCuts ⟨b, restartBegins p⟩).trans (grows_restartBlocks b _)).trans
    (reaches_restartRaises b (.refl _)).grows

/-! ## What the steps leave (R31, R59, R77, R79, R100, R115, R119, R140, R144, R154) -/

theorem restartCuts_values (b : Books) (hm : p.ctl.mode = .commissioning) (hd : p.mov.distinct)
    (hs : p.mov.slugsFromSumps) : let q := restartCuts ⟨b, p⟩
    q.part.ctl = p.ctl ∧ q.part.mov.entries = [] ∧ q.part.mov.waiting = [] ∧
      q.books = p.mov.entries.foldl (cutBooks p) b ∧
      q.part.standing = (p.mov.entries.foldl (cutSources p) p).standing := by
  obtain ⟨ctl, entries, books, standing⟩ :=
    restartCut_all p.mov.entries ⟨b, p⟩ p hd hm hd hs (.refl _) (fun _ => rfl) rfl
  exact ⟨ctl, entries, rfl, books, standing⟩

theorem restartedTables_cel (lot : LotUnit) (link : Link) (p : Part) : (restartedTables lot link p).cel = { p.cel with
    outcome := none, chosen := none
    cells := p.cel.cells.map (fun r => { r with
      rectifier := false, paused := decide (r.state = .plating)
      step := if r.state = .charging ∨ r.state = .draining then .waiting .mode else r.step }) } := by
  have values := funext resting_restart
  exact congrArg (fun f => { p.cel with outcome := none, chosen := none, cells := p.cel.cells.map f }) values

/-- The lots of a part with distinct numbers, the SUSPENDED of which have their clearance numbers. -/
theorem restartedLots (hd : (p.lot.lots.map Lot.number).Nodup)
    (hc : ∀ l ∈ p.lot.lots, l.state = .suspended → l.clearanceNo.isSome = true) :
    (p.lot.lots.foldl (fun q l => restartLot l q) { p with flt := { p.flt with stack := [] } }).lot =
      { p.lot with lots := p.lot.lots.map (fun l => if l.state = .suspended then l.freed else l) } := by
  rw [restartLots_lots p.lot.lots { p with flt := { p.flt with stack := [] } } fun l hl hs x hx same =>
    eq_of_nodup_map hd hx hl same ▸ hc l hl hs]
  exact congrArg (fun lots => { p.lot with lots := lots }) (freedLots_self hd)

/-! ## The restart whole -/

/-- The state after the steps of a warm restart that found the part `p`. -/
def State.restartedFrom (s : State) (p : Part) : State :=
  let cut := restartCuts ⟨s.books, restartBegins p⟩
  s.after cut.books (restartRaises cut.books (restartBlocks cut.books cut.part))

theorem restartPlant_restarted {s : State} {p : Part} (h : p.ctl.mode.inService = true) : ∃ b q,
    restartPlant ⟨s.books, p⟩ = ⟨b, q⟩ ∧ s.after b q = s.restartedFrom p := by
  rw [restartPlant_inService h]
  dsimp only [warmRestart, State.restartedFrom]
  exact ⟨_, _, rfl, rfl⟩

theorem transmitComplete_restarts {s : State} {t : Transmission} {x : Place} (h : s.working)
    (hr : s.part.link.restarting = true) (ht : s.part.link.tx = some t) (hp : t.holdsPlace = true)
    (hb : s.part.link.buffer = [x]) : exec .transmitComplete s = .next (s.restartedFrom { s.begun with
      link := { s.begun.link with tx := none, buffer := [], restarting := false, behind := 0 } }) := by
  obtain ⟨live, service⟩ := h
  obtain ⟨b, q, steps, after⟩ := restartPlant_restarted (s := s) (p := { s.begun with
    link := { s.begun.link with tx := none, buffer := [], restarting := false, behind := 0 } }) service
  rw [← after]
  exact command_after live ((transmitEnds_restart (q := ⟨s.books, s.begun⟩) hr ht hp hb).trans steps)

theorem restartLine_restarts {s : State} (h : s.working) (hl : s.part.ctl.restartLine = false) :
    exec .restartLine s = .next (s.restartedFrom { s.begun with ctl := { s.part.ctl with restartLine := true } }) := by
  obtain ⟨live, service⟩ := h
  obtain ⟨b, q, steps, after⟩ := restartPlant_restarted (s := s)
    (p := { s.begun with ctl := { s.part.ctl with restartLine := true } }) service
  rw [← after]
  exact lineCommand_after ((restartLineActive_live (q := ⟨s.books, s.begun⟩) hl live).trans steps)

end

/-- Settles O13: the steps one after another. The cuts are followed along the table as it ebbs, the blocks by their values,
the raises by the frames they push. -/
theorem warmRestartByItsSteps : Obligations.WarmRestart := by
  refine ⟨⟨fun n s => exec_restart_ok n, fun s h => ⟨fun t x => transmitComplete_restarts h, restartLine_restarts h⟩⟩,
    fun b p _ => ⟨restartBegins_eq p, grows_warmRestart b p⟩, ?cuts, ?blocks, ?raises⟩
  case cuts =>
    intro b p hm hd hs
    exact restartCuts_values b hm hd hs
  case blocks =>
    intro b p hm
    obtain ⟨link, values⟩ := restartBlocks_eq b hm
    dsimp only
    rw [values]
    exact ⟨rfl, rfl, rfl, rfl, rfl, rfl, rfl, restartedTables_cel _ link p, rfl, rfl, restartedLots⟩
  case raises =>
    intro b p hm empty none_
    have starts : Finds p p := ⟨.refl hm (by simp [MovementUnit.distinct, empty]), by simp [FoundFrames, none_]⟩
    have reached := reaches_restartRaises b (.refl p)
    obtain ⟨ebbs, frames⟩ := finds_restartRaises (b := b) starts
    have noEntries : (restartRaises b p).mov.entries = [] := List.eq_nil_iff_forall_not_mem.mpr fun x hx => by
      obtain ⟨y, hy, _⟩ := ebbs.ebb.comes x hx
      rw [empty] at hy
      exact List.not_mem_nil hy
    exact ⟨reached.ctl_eq (by simp [hm]), noEntries, reached.standing, frames,
      fun c => restartRaises_cellFrames starts, restartRaises_none⟩

end Sys2Proof.Machine
end
